-- ==== Sys2Proof/Word.lean ====
section
/-! DEFINITION. The word types of HUFFCORE (00_scope.md R10, R13): registers and counts of 64 bits, bytes of DMEM,
packed symbols of up to three bytes. All values are unsigned. -/

namespace Sys2Proof

/-- A register, a count, a code value: 64 bits (00_scope.md R10). -/
abbrev Word := BitVec 64

/-- One byte of DMEM (20_memory.md R70). -/
abbrev Byte := BitVec 8

/-- A packed symbol of 1 to 3 bytes, the first byte in the low bits (00_scope.md R17). -/
abbrev Sym := BitVec 24

/-- A 32-bit command word (30_encoding.md R100). -/
abbrev CmdWord := BitVec 32

end Sys2Proof
end

