-- ==== Sys2Proof/Config.lean ====
section
/-! DEFINITION. What one HUFFCORE fixes (00_scope.md R11) and the values the spec leaves free. A free value is an
opaque constant: nothing can be proved about what it is. -/

namespace Sys2Proof

/-- NUM_BUILDERS, the value HUFFCORE takes (00_scope.md R11). -/
abbrev Config.numBuilders : Nat := 2

/-- NUM_MODELS, the value HUFFCORE takes (00_scope.md R11). -/
abbrev Config.numModels : Nat := 2

/-- The parameters 00_scope.md R11 leaves OPEN, "model argument": they stand in State as data and nothing changes
them. -/
structure Params where
  /-- DMEM_SIZE: bytes of data memory. -/
  dmemSize : Nat
  /-- TRIE_CAP: trie nodes per builder slot, root excluded. -/
  trieCap : Nat
  /-- DICT_CAP: entries per model slot. -/
  dictCap : Nat
  deriving DecidableEq, Repr

/-- The bounds 00_scope.md R11 puts on the OPEN parameters. -/
abbrev Params.Legal (p : Params) : Prop :=
  1 ≤ p.dmemSize ∧ p.dmemSize ≤ 2 ^ 64 ∧ 1 ≤ p.trieCap ∧ 1 ≤ p.dictCap

/-- DESIGN CHOICE (log 1): the parameters of `State.reset`. DMEM_SIZE = 0x1000 is that of 95_test_vectors.md;
TRIE_CAP is the most nodes a trie over the alphabet can have (42_context_builder.md R186) and DICT_CAP one more than
that, so that neither is ever exceeded. Unsafe only for a claim about `State.reset` alone. -/
def Config.defaultParams : Params := { dmemSize := 0x1000, trieCap := 950894, dictCap := 950895 }

/-- FREE VALUE (log 2): the byte an address holds after a reset, for each draw (70_reset_and_hazards.md R322). -/
opaque Config.powerUpByte : Nat → Nat → Byte

/-- Where a count of 2^64 or more can meet a 64-bit register. -/
inductive WideSource
  | writerTotal
  | readerPos
  | resultBits
  | resultLen
  | errInfo
  | weight
  deriving DecidableEq, Repr

/-- FREE VALUE (log 3): what a 64-bit register shows of a count that does not fit it. -/
opaque Config.wideValue : WideSource → Nat → Word

/-- FREE VALUE (log 4): whether the order in which BMERGE visits the source's nodes meets an overflowing count before
it meets the first node that no longer fits; a choice that may depend on both tries' nodes. -/
opaque Config.mergeOverflowFirst : List (List Byte) → List (List Byte) → Bool

end Sys2Proof
end

