-- ==== Sys2Proof/Syntax.lean ====
section
/-! DEFINITION. The 23 commands of 30_encoding.md R105, one constructor per row of spec/opcode_table.json, in its
order. Slot operands (SA, SB) and widths (W7) are numbers; their ranges are checked in WellFormed. -/

namespace Sys2Proof

/-- A command (30_encoding.md R105). `k`, `dst`, `src` are builder slots, `j` model slots, `w` and `n` widths. -/
inductive Instr
  | nop
  | winit
  | wbits (w : Nat)
  | wfinish
  | rinit
  | rpeek (n : Nat)
  | rmatch (n : Nat)
  | radv (n : Nat)
  | binit (k : Nat)
  | bscan (k : Nat)
  | bline (k : Nat)
  | bscanln (k : Nat)
  | bscanbuf (k : Nat)
  | bmerge (dst src : Nat)
  | binfo (k : Nat)
  | bbuild (k j : Nat)
  | hbuild (j : Nat)
  | encode (j : Nat)
  | decode (j : Nat)
  | minfo (j : Nat)
  | mentry (j : Nat)
  | mlookup (j : Nat)
  | mfree (j : Nat)
  deriving DecidableEq, Repr

end Sys2Proof
end

