-- ==== Sys2Proof/WellFormed.lean ====
section
/-! DEFINITION. Which commands a legal word can stand for: widths of 7 bits (30_encoding.md R102), builder slots below
NUM_BUILDERS and model slots below NUM_MODELS (30_encoding.md R103). -/

namespace Sys2Proof

/-- A width W7 can hold (30_encoding.md R102). -/
def widthOk (w : Nat) : Bool := decide (w < 128)

/-- A builder slot that exists (30_encoding.md R103). -/
def builderOk (k : Nat) : Bool := decide (k < Config.numBuilders)

/-- A model slot that exists (30_encoding.md R103). -/
def modelOk (j : Nat) : Bool := decide (j < Config.numModels)

/-- The checks of 30_encoding.md R102 and R103 on every command. -/
def Instr.wf : Instr → Bool
  | .nop => true
  | .winit => true
  | .wbits w => widthOk w
  | .wfinish => true
  | .rinit => true
  | .rpeek n => widthOk n
  | .rmatch n => widthOk n
  | .radv n => widthOk n
  | .binit k => builderOk k
  | .bscan k => builderOk k
  | .bline k => builderOk k
  | .bscanln k => builderOk k
  | .bscanbuf k => builderOk k
  | .bmerge dst src => builderOk dst && builderOk src
  | .binfo k => builderOk k
  | .bbuild k j => builderOk k && modelOk j
  | .hbuild j => modelOk j
  | .encode j => modelOk j
  | .decode j => modelOk j
  | .minfo j => modelOk j
  | .mentry j => modelOk j
  | .mlookup j => modelOk j
  | .mfree j => modelOk j

end Sys2Proof
end

