-- ==== Sys2Proof/Decode.lean ====
section
/-! DEFINITION. Format F1 (30_encoding.md R101), the opcode map as a table of rows (R105) with their match and mask
(R106), the decoder (R107, R108: total on every word) and after it the encoder (R110). -/

namespace Sys2Proof

/-- `c[lo+n-1:lo]` as a number (00_scope.md R13). -/
def fieldOf (c : CmdWord) (lo n : Nat) : Nat := c.toNat / 2 ^ lo % 2 ^ n

/-- OPC, bits 7:0 (30_encoding.md R101). -/
def opcOf (c : CmdWord) : Nat := fieldOf c 0 8

/-- SA, bits 10:8. -/
def saOf (c : CmdWord) : Nat := fieldOf c 8 3

/-- SB, bits 13:11. -/
def sbOf (c : CmdWord) : Nat := fieldOf c 11 3

/-- W7, bits 20:14, zero-extended and not scaled (30_encoding.md R102). -/
def w7Of (c : CmdWord) : Nat := fieldOf c 14 7

/-- RSV, bits 31:21. -/
def rsvOf (c : CmdWord) : Nat := fieldOf c 21 11

/-- How a row uses a field (30_encoding.md R105): `0`, `b`, `m` or `w`. -/
inductive FieldUse
  | zero
  | builder
  | model
  | width
  deriving DecidableEq, Repr

/-- One row of the opcode map (30_encoding.md R105). -/
structure OpRow where
  opc : Nat
  mnemonic : String
  sa : FieldUse
  sb : FieldUse
  w7 : FieldUse
  deriving DecidableEq, Repr

/-- The opcode map (30_encoding.md R105). -/
def opTable : List OpRow := [
  ⟨0x00, "NOP", .zero, .zero, .zero⟩,
  ⟨0x01, "WINIT", .zero, .zero, .zero⟩,
  ⟨0x02, "WBITS", .zero, .zero, .width⟩,
  ⟨0x03, "WFINISH", .zero, .zero, .zero⟩,
  ⟨0x04, "RINIT", .zero, .zero, .zero⟩,
  ⟨0x05, "RPEEK", .zero, .zero, .width⟩,
  ⟨0x06, "RMATCH", .zero, .zero, .width⟩,
  ⟨0x07, "RADV", .zero, .zero, .width⟩,
  ⟨0x08, "BINIT", .builder, .zero, .zero⟩,
  ⟨0x09, "BSCAN", .builder, .zero, .zero⟩,
  ⟨0x0A, "BLINE", .builder, .zero, .zero⟩,
  ⟨0x0B, "BSCANLN", .builder, .zero, .zero⟩,
  ⟨0x0C, "BSCANBUF", .builder, .zero, .zero⟩,
  ⟨0x0D, "BMERGE", .builder, .builder, .zero⟩,
  ⟨0x0E, "BINFO", .builder, .zero, .zero⟩,
  ⟨0x0F, "BBUILD", .builder, .model, .zero⟩,
  ⟨0x10, "HBUILD", .zero, .model, .zero⟩,
  ⟨0x11, "ENCODE", .model, .zero, .zero⟩,
  ⟨0x12, "DECODE", .model, .zero, .zero⟩,
  ⟨0x13, "MINFO", .model, .zero, .zero⟩,
  ⟨0x14, "MENTRY", .model, .zero, .zero⟩,
  ⟨0x15, "MLOOKUP", .model, .zero, .zero⟩,
  ⟨0x16, "MFREE", .model, .zero, .zero⟩]

/-- The mask bits of a field of `n` bits at `lo`: ones where the row marks it `0`. -/
def FieldUse.maskBits (u : FieldUse) (lo n : Nat) : Nat :=
  if u = .zero then (2 ^ n - 1) * 2 ^ lo else 0

/-- mask_r of 30_encoding.md R106: ones in OPC, RSV and every field the row marks `0`. -/
def OpRow.mask (r : OpRow) : CmdWord :=
  BitVec.ofNat 32 (0xFF + r.sa.maskBits 8 3 + r.sb.maskBits 11 3 + r.w7.maskBits 14 7 + FieldUse.zero.maskBits 21 11)

/-- match_r of 30_encoding.md R106: OPC in bits 7:0 and 0 elsewhere. -/
def OpRow.matchWord (r : OpRow) : CmdWord := BitVec.ofNat 32 r.opc

/-- A word selects a row (30_encoding.md R106). -/
def OpRow.selects (r : OpRow) (c : CmdWord) : Bool := decide (c &&& r.mask = r.matchWord)

/-- Whether a field's value is legal for its use (30_encoding.md R103, R104). -/
def FieldUse.legal : FieldUse → Nat → Bool
  | .zero, v => decide (v = 0)
  | .builder, v => builderOk v
  | .model, v => modelOk v
  | .width, v => widthOk v

/-- Why a word is illegal (30_encoding.md R107 a, b, c). -/
inductive DecodeError
  | reservedOpcode
  | nonzeroField
  | slotOutOfRange
  deriving DecidableEq, Repr

/-- The command of an opcode with its fields; `none` for the reserved opcodes 0x17..0xFF. -/
def instrOf (opc sa sb w7 : Nat) : Option Instr :=
  match opc with
  | 0x00 => some .nop
  | 0x01 => some .winit
  | 0x02 => some (.wbits w7)
  | 0x03 => some .wfinish
  | 0x04 => some .rinit
  | 0x05 => some (.rpeek w7)
  | 0x06 => some (.rmatch w7)
  | 0x07 => some (.radv w7)
  | 0x08 => some (.binit sa)
  | 0x09 => some (.bscan sa)
  | 0x0A => some (.bline sa)
  | 0x0B => some (.bscanln sa)
  | 0x0C => some (.bscanbuf sa)
  | 0x0D => some (.bmerge sa sb)
  | 0x0E => some (.binfo sa)
  | 0x0F => some (.bbuild sa sb)
  | 0x10 => some (.hbuild sb)
  | 0x11 => some (.encode sa)
  | 0x12 => some (.decode sa)
  | 0x13 => some (.minfo sa)
  | 0x14 => some (.mentry sa)
  | 0x15 => some (.mlookup sa)
  | 0x16 => some (.mfree sa)
  | _ => none

/-- Whether a field the row marks `0`, or RSV, is nonzero (30_encoding.md R104). -/
def OpRow.zeroFieldsOk (r : OpRow) (c : CmdWord) : Bool :=
  decide (rsvOf c = 0) && (r.sa != .zero || decide (saOf c = 0)) && (r.sb != .zero || decide (sbOf c = 0))
    && (r.w7 != .zero || decide (w7Of c = 0))

/-- The decoder (30_encoding.md R107, R108): total on every 32-bit word, an illegal word rejected by name. -/
def decode (c : CmdWord) : Except DecodeError Instr :=
  match opTable.find? (fun r => decide (r.opc = opcOf c)), instrOf (opcOf c) (saOf c) (sbOf c) (w7Of c) with
  | some r, some i =>
    if !r.zeroFieldsOk c then .error .nonzeroField
    else if i.wf then .ok i
    else .error .slotOutOfRange
  | _, _ => .error .reservedOpcode

/-- `OPC | SA<<8 | SB<<11 | W7<<14`, each value cut to its field (30_encoding.md R101, R110). -/
def packWord (opc sa sb w7 : Nat) : CmdWord :=
  BitVec.ofNat 32 (opc % 2 ^ 8 + sa % 2 ^ 3 * 2 ^ 8 + sb % 2 ^ 3 * 2 ^ 11 + w7 % 2 ^ 7 * 2 ^ 14)

/-- The encoder (30_encoding.md R105, R110), unused fields 0. -/
def encode : Instr → CmdWord
  | .nop => packWord 0x00 0 0 0
  | .winit => packWord 0x01 0 0 0
  | .wbits w => packWord 0x02 0 0 w
  | .wfinish => packWord 0x03 0 0 0
  | .rinit => packWord 0x04 0 0 0
  | .rpeek n => packWord 0x05 0 0 n
  | .rmatch n => packWord 0x06 0 0 n
  | .radv n => packWord 0x07 0 0 n
  | .binit k => packWord 0x08 k 0 0
  | .bscan k => packWord 0x09 k 0 0
  | .bline k => packWord 0x0A k 0 0
  | .bscanln k => packWord 0x0B k 0 0
  | .bscanbuf k => packWord 0x0C k 0 0
  | .bmerge dst src => packWord 0x0D dst src 0
  | .binfo k => packWord 0x0E k 0 0
  | .bbuild k j => packWord 0x0F k j 0
  | .hbuild j => packWord 0x10 0 j 0
  | .encode j => packWord 0x11 j 0 0
  | .decode j => packWord 0x12 j 0 0
  | .minfo j => packWord 0x13 j 0 0
  | .mentry j => packWord 0x14 j 0 0
  | .mlookup j => packWord 0x15 j 0 0
  | .mfree j => packWord 0x16 j 0 0

/-- The command word of a table word `w` of `nbits` bits: the bits above `nbits` are 0; `none` where it is no 32-bit
word. -/
def tableWord (nbits w : Nat) : Option CmdWord :=
  if w % 2 ^ nbits < 2 ^ 32 then some (BitVec.ofNat 32 (w % 2 ^ nbits)) else none

/-- The host's question: the command the decoder reads from a table word, or none where it refuses. -/
def decodeTableWord (nbits w : Nat) : Option Instr :=
  match tableWord nbits w with
  | some c => (decode c).toOption
  | none => none

end Sys2Proof
end

