-- ==== Sys2Proof/Machine/State.lean ====
section
/-! DEFINITION. The state of HUFFCORE as plain data (10_state.md), the reasons a step can stop, and the state after
reset (70_reset_and_hazards.md R321). Views such as STATUS, W_STATUS and W_TOTAL are computed in Machine/Flags.lean. -/

namespace Sys2Proof.Machine

/-- The 15 error kinds of 60_exceptions.md R290. -/
inductive ErrorKind
  | modelConstruction
  | encoding
  | decoding
  | bitWidth
  | writerClosed
  | inputEmpty
  | capacity
  | readOverrun
  | stateError
  | countOverflow
  | codeTooLong
  | resource
  | illegalCommand
  | address
  | overlap
  deriving DecidableEq, Repr

/-- The stored fields of STATUS (10_state.md R35). BUSY always reads 0 and is not stored. -/
structure Status where
  /-- LAST_ERR; none is code 0. -/
  lastErr : Option ErrorKind
  /-- FIRST_ERR; none is code 0. -/
  firstErr : Option ErrorKind
  errSeen : Bool
  skipSeen : Bool
  deriving DecidableEq, Repr

/-- W_STATE (10_state.md R38). -/
inductive WriterMode
  | idle
  | opened
  | closed
  deriving DecidableEq, Repr

/-- The bit writer W (10_state.md R38). -/
structure Writer where
  /-- W_STATE. -/
  mode : WriterMode
  /-- W_BASE. -/
  base : Word
  /-- W_CAP, in bytes. -/
  cap : Word
  /-- W_WORDS: completed words already stored to DMEM. -/
  words : Nat
  /-- W_ACC: its top 64 - W_FREE bits are the stream bits not yet stored. -/
  acc : Word
  /-- W_FREE, 1..64. -/
  free : Nat
  /-- W_FINAL_LEN, in bytes. -/
  finalLen : Nat
  deriving DecidableEq, Repr

/-- The bit reader R (10_state.md R43). -/
structure Reader where
  /-- R_OPEN. -/
  isOpen : Bool
  /-- R_BASE. -/
  base : Word
  /-- R_LEN, in bytes. -/
  len : Word
  /-- R_POS, a bit position. -/
  pos : Nat
  deriving DecidableEq, Repr

/-- A context order, 1 to 3 (00_scope.md R10). -/
inductive Order
  | one
  | two
  | three
  deriving DecidableEq, Repr

/-- B_STATE (10_state.md R49). -/
inductive BuilderMode
  | empty
  | active
  | consumed
  deriving DecidableEq, Repr

/-- The counts of a trie node (10_state.md R49). -/
structure NodeCounts where
  /-- PASS. -/
  pass : Word
  /-- EXACT. -/
  exact : Word
  deriving DecidableEq, Repr

/-- TRIE: the nodes by their byte sequence, in ascending lexicographic order, which is the depth-first order of
42_context_builder.md R200. -/
abbrev Trie := List (List Byte × NodeCounts)

/-- FLAT: the nonzero per-byte counts by ascending byte; a byte not listed counts 0 (log 14). -/
abbrev Flat := List (Byte × Word)

/-- A builder slot (10_state.md R49). -/
structure Builder where
  /-- B_STATE. -/
  mode : BuilderMode
  /-- ORDER. -/
  order : Order
  /-- WIN, oldest first. -/
  win : List Byte
  /-- FLAT. -/
  flat : Flat
  /-- TRIE. -/
  trie : Trie
  /-- LINES. -/
  lines : Word
  /-- SKIPS. -/
  skips : Word
  deriving DecidableEq, Repr

/-- A code entry (10_state.md R52, 43_huffman.md R215). -/
structure Entry where
  sym : Sym
  /-- The byte-width class, 1 to 3. -/
  width : Nat
  /-- The code as a right-aligned bit pattern. -/
  value : Word
  /-- The code length, 1 to 64. -/
  length : Nat
  /-- The source frequency. -/
  freq : Word
  deriving DecidableEq, Repr

/-- The contents of a valid model slot (10_state.md R52). -/
structure Model where
  /-- M_ORDER. -/
  order : Order
  /-- M_ENTRIES. -/
  entries : List Entry
  deriving DecidableEq, Repr

/-- DMEM: the bytes written since the last reset, by strictly rising address (log 2). An address not listed holds no
written byte and reads as the free byte of the current draw. -/
abbrev Memory := List Host.Cell

/-- What the host can do (10_state.md R30; 20_memory.md R70; 45_system.md R281, R282; 70_reset_and_hazards.md R320). -/
inductive HostAction
  /-- A register write of `bytes` bytes at an offset of the window. -/
  | writeReg (bytes offset : Nat) (value : Word)
  /-- A register read of `bytes` bytes at an offset of the window. -/
  | readReg (bytes offset : Nat)
  /-- A write of one DMEM byte. -/
  | writeMem (addr : Nat) (value : Byte)
  /-- A read of one DMEM byte. -/
  | readMem (addr : Nat)
  | assertReset
  | releaseReset
  deriving DecidableEq, Repr

/-- What the host's last read returned (the model's own: log 6). -/
inductive Seen
  | nothing
  | word (v : Word)
  | byte (b : Byte)
  deriving DecidableEq, Repr

/-- The whole machine (10_state.md), with the parameters of 00_scope.md R11 and the host's coming actions. -/
structure State where
  /-- DMEM_SIZE, TRIE_CAP, DICT_CAP. -/
  params : Params
  /-- Reset is asserted and not yet released (70_reset_and_hazards.md R320). -/
  inReset : Bool
  op0 : Word
  op1 : Word
  op2 : Word
  op3 : Word
  res0 : Word
  res1 : Word
  res2 : Word
  status : Status
  errInfo : Word
  writer : Writer
  reader : Reader
  builders : Vector Builder Config.numBuilders
  /-- M[j]: none is M_VALID = 0. -/
  models : Vector (Option Model) Config.numModels
  dmem : Memory
  /-- Which free draw the unwritten DMEM bytes hold (the model's own: log 2). -/
  draw : Nat
  /-- The host actions still to come, oldest first (the model's own: log 6). -/
  host : List HostAction
  /-- What the host's last read returned (the model's own: log 6). -/
  saw : Seen
  deriving DecidableEq, Repr

/-- Why the machine stops. No command raises one (60_exceptions.md R292): a command's error is a next state. -/
inductive Fault
  /-- Raised by a host DMEM access to an address at or past DMEM_SIZE, which does not exist (20_memory.md R70; log 8).
  Safe: the model stops where the spec gives no effect. -/
  | hostDmemOutOfRange (addr : Nat)
  deriving DecidableEq, Repr

/-- Why the model gives no meaning. -/
inductive Refusal
  /-- Raised by `exec` for an instruction whose meaning is not written yet. Safe. -/
  | notModelled (mnemonic : String)
  /-- Raised by a host register access of another width or alignment, or outside the window: "a model refuses it"
  (10_state.md R30). Safe. -/
  | hostRegisterAccess (bytes offset : Nat)
  deriving DecidableEq, Repr

/-- STATUS after reset (10_state.md R35). -/
def Status.reset : Status := { lastErr := none, firstErr := none, errSeen := false, skipSeen := false }

/-- The writer after reset (10_state.md R39). DESIGN CHOICE (log 16), unsafe: W_FREE is 64, so that W_STATUS reads 0x4000,
as 10_state.md R39 and R40 and 70_reset_and_hazards.md R321 have it; the table of 10_state.md R31 gives W_STATUS the reset
value 0. -/
def Writer.reset : Writer :=
  { mode := .idle, base := 0, cap := 0, words := 0, acc := 0, free := 64, finalLen := 0 }

/-- The reader after reset (10_state.md R45). -/
def Reader.reset : Reader := { isOpen := false, base := 0, len := 0, pos := 0 }

/-- A builder slot after reset (10_state.md R50). -/
def Builder.reset : Builder :=
  { mode := .empty, order := .one, win := [], flat := [], trie := [], lines := 0, skips := 0 }

/-- The values of 70_reset_and_hazards.md R321, for any parameters and any draw of DMEM (R322). -/
def State.resetWith (p : Params) (draw : Nat) : State :=
  { params := p
    inReset := false
    op0 := 0
    op1 := 0
    op2 := 0
    op3 := 0
    res0 := 0
    res1 := 0
    res2 := 0
    status := Status.reset
    errInfo := 0
    writer := Writer.reset
    reader := Reader.reset
    builders := Vector.replicate Config.numBuilders Builder.reset
    models := Vector.replicate Config.numModels none
    dmem := []
    draw := draw
    host := []
    saw := .nothing }

/-- The machine right after reset, with the parameters of log 1 and the draw of log 2. -/
def State.reset : State := State.resetWith Config.defaultParams 0

end Sys2Proof.Machine
end

