-- ==== Sys2Proof/Machine/Updates.lean ====
section
/-! DEFINITION. The named updates of State, one per field that changes. Sys2Proof/Laws/State.lean holds one lemma per
field for each. -/

namespace Sys2Proof.Machine

def State.withInReset (s : State) (b : Bool) : State := { s with inReset := b }
def State.withOp0 (s : State) (v : Word) : State := { s with op0 := v }
def State.withOp1 (s : State) (v : Word) : State := { s with op1 := v }
def State.withOp2 (s : State) (v : Word) : State := { s with op2 := v }
def State.withOp3 (s : State) (v : Word) : State := { s with op3 := v }
def State.withRes0 (s : State) (v : Word) : State := { s with res0 := v }
def State.withRes1 (s : State) (v : Word) : State := { s with res1 := v }
def State.withRes2 (s : State) (v : Word) : State := { s with res2 := v }
def State.withStatus (s : State) (v : Status) : State := { s with status := v }
def State.withErrInfo (s : State) (v : Word) : State := { s with errInfo := v }
def State.withWriter (s : State) (v : Writer) : State := { s with writer := v }
def State.withReader (s : State) (v : Reader) : State := { s with reader := v }
def State.withDmem (s : State) (v : Memory) : State := { s with dmem := v }
def State.withHost (s : State) (v : List HostAction) : State := { s with host := v }
def State.withSaw (s : State) (v : Seen) : State := { s with saw := v }

/-- Builder slot k becomes b; a slot that does not exist is not written. -/
def State.withBuilder (s : State) (k : Nat) (b : Builder) : State :=
  { s with builders := s.builders.setIfInBounds k b }

/-- Model slot j becomes m; a slot that does not exist is not written. -/
def State.withModel (s : State) (j : Nat) (m : Option Model) : State :=
  { s with models := s.models.setIfInBounds j m }

end Sys2Proof.Machine
end

