-- ==== Sys2Proof/Machine/Ops.lean ====
section
/-! DEFINITION. The operations the meanings share: bit strings, counts, sorted maps, symbols, DMEM, streams, and the
end of a command: success, or an error taken as 60_exceptions.md R293 says. -/

namespace Sys2Proof.Machine

/-! ### Bit strings (00_scope.md R13, R14): lists of bits in stream order, the first bit the most significant -/

/-- `low_n(v)` (00_scope.md R13). -/
def lowBits (n v : Nat) : Nat := v % 2 ^ n

/-- `bits_n(v)`: the n-bit string whose value is `low_n(v)` (00_scope.md R14). -/
def bitsOf (n v : Nat) : List Bool := (List.range n).map fun i => v.testBit (n - 1 - i)

/-- `val(s)`: the number a bit string reads as (00_scope.md R14). -/
def valOf (bs : List Bool) : Nat := bs.foldl (fun v b => 2 * v + b.toNat) 0

/-- The bytes of a bit string, MSB-first, followed by 0 bits to a byte boundary (20_memory.md R74). -/
def packBits (bs : List Bool) : List Byte :=
  (List.range ((bs.length + 7) / 8)).map fun j =>
    BitVec.ofNat 8 (valOf ((List.range 8).map fun t => bs.getD (8 * j + t) false))

/-- `be_bytes(w)`: bits 63:56 first (20_memory.md R75). -/
def beBytes (w : Word) : List Byte := (List.range 8).map fun j => BitVec.ofNat 8 (w.toNat / 2 ^ (56 - 8 * j))

/-- The number little-endian bytes stand for (20_memory.md R73). -/
def leNat : List Byte → Nat
  | [] => 0
  | b :: bs => b.toNat + 256 * leNat bs

/-! ### Errors (60_exceptions.md) -/

/-- An error with its information, before it is stored in ERR_INFO (60_exceptions.md R291). -/
structure CmdError where
  kind : ErrorKind
  info : Nat
  deriving DecidableEq, Repr

/-- The numbers of 60_exceptions.md R290. -/
def ErrorKind.code : ErrorKind → Nat
  | .modelConstruction => 1
  | .encoding => 2
  | .decoding => 3
  | .bitWidth => 4
  | .writerClosed => 5
  | .inputEmpty => 6
  | .capacity => 7
  | .readOverrun => 8
  | .stateError => 9
  | .countOverflow => 10
  | .codeTooLong => 11
  | .resource => 12
  | .illegalCommand => 13
  | .address => 14
  | .overlap => 15

/-- A count as a 64-bit register shows it; one that does not fit shows a free value (log 3). -/
def toReg (src : WideSource) (n : Nat) : Word :=
  if n < 2 ^ 64 then BitVec.ofNat 64 n else Config.wideValue src n

/-- One check of a rule's pseudocode: go on when `p` holds, else raise `e` (00_scope.md R15). -/
def check (p : Prop) [Decidable p] (e : CmdError) : Except CmdError Unit := if p then .ok () else .error e

/-- TAKING AN ERROR (60_exceptions.md R293, R294, R297): LAST_ERR, ERR_INFO, ERR_SEEN and, when it was 0, FIRST_ERR.
Nothing else changes: no pc is saved, no mode changes, no handler is entered, and there is no return from it
(60_exceptions.md R298). -/
def takeError (s : State) (e : CmdError) : State :=
  (s.withStatus
    { s.status with
      lastErr := some e.kind
      firstErr := if s.status.firstErr = none then some e.kind else s.status.firstErr
      errSeen := true }).withErrInfo (toReg .errInfo e.info)

/-- The end of a command that succeeded: LAST_ERR is 0 (60_exceptions.md R293). -/
def clearError (s : State) : State := s.withStatus { s.status with lastErr := none }

/-- The end of a command issued in `s`: its effects if it succeeded, else the error alone, so that a failing command
changes nothing else (60_exceptions.md R293, R294). -/
def complete (s : State) (r : Except CmdError State) : Host.Outcome State Fault Refusal :=
  match r with
  | .ok t => .next (clearError t)
  | .error e => .next (takeError s e)

/-- A scan skipped a byte outside the alphabet (42_context_builder.md R173). -/
def State.noteSkip (s : State) (skipped : Bool) : State :=
  s.withStatus { s.status with skipSeen := s.status.skipSeen || skipped }

/-- StateError of the command with opcode `opc` (60_exceptions.md R291, code 9). -/
def wrongState (opc : Nat) : CmdError := { kind := .stateError, info := opc }

/-- The illegal command word `c` (30_encoding.md R107). -/
def illegalWord (c : CmdWord) : CmdError := { kind := .illegalCommand, info := c.toNat }

/-! ### Counts (00_scope.md R16) -/

/-- `a +c b`: addition of 64-bit counts that never wraps (00_scope.md R16). -/
def addCount (a b : Word) : Except CmdError Word :=
  if a.toNat + b.toNat < 2 ^ 64 then .ok (BitVec.ofNat 64 (a.toNat + b.toNat))
  else .error { kind := .countOverflow, info := 0 }

/-- The sum of a list of counts with `+c`. -/
def sumCounts : List Word → Word → Except CmdError Word
  | [], acc => .ok acc
  | f :: fs, acc => do
    let acc' ← addCount acc f
    sumCounts fs acc'

/-! ### Sorted maps: lists of keys with values by rising key -/

/-- The value of a key. -/
def mapGet {κ ν : Type} [DecidableEq κ] (k : κ) : List (κ × ν) → Option ν
  | [] => none
  | (k', v) :: m => if k = k' then some v else mapGet k m

/-- The map with key `k` set to `v`, kept rising by `lt`. -/
def mapPut {κ ν : Type} [DecidableEq κ] (lt : κ → κ → Bool) (k : κ) (v : ν) : List (κ × ν) → List (κ × ν)
  | [] => [(k, v)]
  | (k', v') :: m =>
    if k = k' then (k, v) :: m
    else if lt k k' then (k, v) :: (k', v') :: m
    else (k', v') :: mapPut lt k v m

/-- Keys strictly rise: the one canonical form of a sorted map. -/
def mapSorted {κ ν : Type} (lt : κ → κ → Bool) : List (κ × ν) → Bool
  | [] => true
  | [_] => true
  | (a, _) :: (b, v) :: m => lt a b && mapSorted lt ((b, v) :: m)

/-- Addresses by value. -/
def addrLt (a b : Nat) : Bool := decide (a < b)

/-- Bytes by value. -/
def byteLt (a b : Byte) : Bool := decide (a.toNat < b.toNat)

/-- Byte sequences in lexicographic order: a node before its extensions, children by ascending byte. -/
def seqLt : List Byte → List Byte → Bool
  | [], [] => false
  | [], _ :: _ => true
  | _ :: _, [] => false
  | a :: as, b :: bs => if a = b then seqLt as bs else byteLt a b

/-! ### The alphabet and symbols (00_scope.md R12, R17) -/

/-- Membership in A = 09, 0A, 0D and 20..7E (00_scope.md R12). -/
def inAlphabet (v : Nat) : Bool := decide (v = 0x09 ∨ v = 0x0A ∨ v = 0x0D ∨ (0x20 ≤ v ∧ v ≤ 0x7E))

/-- `pack(s)`: the byte at position k in bits [8k, 8k+8) (00_scope.md R17). -/
def packSym (bs : List Byte) : Sym := BitVec.ofNat 24 (leNat bs)

/-- `width(sym)` (00_scope.md R17). -/
def symWidth (sym : Nat) : Nat := if sym < 2 ^ 8 then 1 else if sym < 2 ^ 16 then 2 else 3

/-- `unpack` on a symbol of at most `fuel` bytes: emit the low byte, shift, until 0 (00_scope.md R17). -/
def unpackNat : Nat → Nat → List Byte
  | 0, _ => []
  | fuel + 1, v => BitVec.ofNat 8 v :: if v / 256 = 0 then [] else unpackNat fuel (v / 256)

/-- `unpack(sym)`, at least one byte (00_scope.md R17; 44_codec.md R262). -/
def unpackSym (sym : Sym) : List Byte := unpackNat 3 sym.toNat

/-- The EOF sentinel, 255 (00_scope.md R18). -/
def eofSym : Sym := 255

/-! ### DMEM (20_memory.md) -/

/-- What an address reads as while nothing has been written there since reset: a free byte of the draw
(70_reset_and_hazards.md R322; log 2). -/
def unlistedByte (draw a : Nat) : Byte := Config.powerUpByte draw a

/-- `MemRead8(a)` (00_scope.md R15). -/
def Memory.read (m : Memory) (draw a : Nat) : Byte := (mapGet a m).getD (unlistedByte draw a)

/-- A write of one byte. -/
def Memory.write (m : Memory) (a : Nat) (b : Byte) : Memory := mapPut addrLt a b m

/-- `MemWrite(a, n, s)`: bytes at rising addresses from `a` (00_scope.md R15). -/
def Memory.writeAll (m : Memory) (a : Nat) : List Byte → Memory
  | [] => m
  | b :: bs => (m.write a b).writeAll (a + 1) bs

/-- The canonical form of DMEM: strictly rising addresses (log 2). -/
def Memory.wf (m : Memory) : Bool := mapSorted addrLt m

/-- One DMEM byte. -/
def State.readByte (s : State) (a : Nat) : Byte := s.dmem.read s.draw a

/-- `MemRead(a, n)` (00_scope.md R15). -/
def State.readBytes (s : State) (a n : Nat) : List Byte := (List.range n).map fun i => s.readByte (a + i)

/-- `MemWrite(a, |bs|, bs)` (00_scope.md R15). -/
def State.writeBytes (s : State) (a : Nat) (bs : List Byte) : State := s.withDmem (s.dmem.writeAll a bs)

/-- Stream bit i over the region (base, len): bit 7 - i mod 8 of its byte, and 0 past the data, where no byte is read
(10_state.md R43; 20_memory.md R74, R76). -/
def State.streamBit (s : State) (base len i : Nat) : Bool :=
  if i < 8 * len then (s.readByte (base + i / 8)).getLsbD (7 - i % 8) else false

/-- The n bits from bit position `pos` of the region (base, len). -/
def State.streamBits (s : State) (base len pos n : Nat) : List Bool :=
  (List.range n).map fun t => s.streamBit base len (pos + t)

end Sys2Proof.Machine
end

