-- ==== Sys2Proof/Machine/Operands.lean ====
section
/-! DEFINITION. The operand forms: regions given by a base and a length (20_memory.md R71), slots (30_encoding.md
R103), widths (30_encoding.md R102), context orders, input/output overlap (44_codec.md R250, R260). -/

namespace Sys2Proof.Machine

/-- `in_range(a, n)`, on naturals without wrap-around (20_memory.md R71). -/
abbrev State.inRange (s : State) (a n : Nat) : Prop := a + n ≤ s.params.dmemSize

/-- AddressError with the base of the region (60_exceptions.md R291, code 14). -/
def addressError (a : Nat) : CmdError := { kind := .address, info := a }

/-- The width check of WBITS, RPEEK, RMATCH and RADV (60_exceptions.md R290, code 4). -/
def checkWidth (w : Nat) : Except CmdError Unit := check (w ≤ 64) { kind := .bitWidth, info := w }

/-- A context order operand, compared as a full 64-bit value (42_context_builder.md R170). -/
def orderOf (v : Word) : Option Order :=
  if v = 1 then some .one else if v = 2 then some .two else if v = 3 then some .three else none

/-- ORDER as a number. -/
def Order.toNat : Order → Nat
  | .one => 1
  | .two => 2
  | .three => 3

/-- A context order operand, refused outside 1..3 (60_exceptions.md R290, code 1). -/
def checkOrder (v : Word) : Except CmdError Order :=
  match orderOf v with
  | some o => .ok o
  | none => .error { kind := .modelConstruction, info := v.toNat }

/-- Builder slot k of command `i`. Decoding lets no slot past NUM_BUILDERS through (30_encoding.md R107c); for such
an `i` the answer is that rule's error (log 10). -/
def State.builderSlot (s : State) (i : Instr) (k : Nat) : Except CmdError Builder :=
  match s.builders[k]? with
  | some b => .ok b
  | none => .error (illegalWord (encode i))

/-- Model slot j of command `i`, valid or not (30_encoding.md R107c; log 10). -/
def State.modelSlot (s : State) (i : Instr) (j : Nat) : Except CmdError (Option Model) :=
  match s.models[j]? with
  | some m => .ok m
  | none => .error (illegalWord (encode i))

/-- A builder slot that must be ACTIVE, else StateError with the opcode (42_context_builder.md R172). -/
def State.activeBuilder (s : State) (i : Instr) (k opc : Nat) : Except CmdError Builder := do
  let b ← s.builderSlot i k
  check (b.mode = .active) (wrongState opc)
  .ok b

/-- A model slot that must be valid, else StateError with the opcode (43_huffman.md R230). -/
def State.validModel (s : State) (i : Instr) (j opc : Nat) : Except CmdError Model := do
  match ← s.modelSlot i j with
  | some m => .ok m
  | none => .error (wrongState opc)

/-- A model slot that must be invalid, else StateError with the opcode (43_huffman.md R220, R226). -/
def State.freeModel (s : State) (i : Instr) (j opc : Nat) : Except CmdError Unit := do
  match ← s.modelSlot i j with
  | some _ => .error (wrongState opc)
  | none => .ok ()

/-- The input region (OP0, OP1) and the output region (OP2, OP3) share a byte (44_codec.md R250). -/
abbrev State.regionsOverlap (s : State) : Prop :=
  0 < s.op1.toNat ∧ 0 < s.op3.toNat ∧ s.op0.toNat < s.op2.toNat + s.op3.toNat ∧
    s.op2.toNat < s.op0.toNat + s.op1.toNat

/-- The region checks of ENCODE and DECODE, input region first, then overlap (44_codec.md R250, R260; 60_exceptions.md
R295). -/
def State.checkRegions (s : State) : Except CmdError Unit := do
  check (s.inRange s.op0.toNat s.op1.toNat) (addressError s.op0.toNat)
  check (s.inRange s.op2.toNat s.op3.toNat) (addressError s.op2.toNat)
  check (¬ s.regionsOverlap) { kind := .overlap, info := s.op2.toNat }

end Sys2Proof.Machine
end

