-- ==== Sys2Proof/Machine/Flags.lean ====
section
/-! DEFINITION. The status views: STATUS (10_state.md R35), W_STATUS and W_TOTAL (R40, R41), R_STATUS (R46), PARAM
(R37), and the whole readable register map (R31). HUFFCORE has no condition codes (R56). -/

namespace Sys2Proof.Machine

/-- An error field of STATUS: the code, or 0 (10_state.md R35). -/
def errField (e : Option ErrorKind) : Nat :=
  match e with
  | some k => k.code
  | none => 0

/-- STATUS as the host reads it: LAST_ERR 7:0, FIRST_ERR 15:8, ERR_SEEN 16, SKIP_SEEN 17, BUSY 18 always 0, 63:19 zero
(10_state.md R35). -/
def Status.word (st : Status) : Word :=
  BitVec.ofNat 64 (errField st.lastErr + errField st.firstErr * 2 ^ 8 + st.errSeen.toNat * 2 ^ 16
    + st.skipSeen.toNat * 2 ^ 17)

/-- W_STATE as a number (10_state.md R38). -/
def WriterMode.code : WriterMode → Nat
  | .idle => 0
  | .opened => 1
  | .closed => 2

/-- |S_W| = 64·W_WORDS + 64 − W_FREE (10_state.md R38). -/
def Writer.total (w : Writer) : Nat := 64 * w.words + (64 - w.free)

/-- W_STATUS: W_STATE in 1:0, W_FREE in 14:8 (10_state.md R40). -/
def Writer.statusWord (w : Writer) : Word := BitVec.ofNat 64 (w.mode.code + w.free * 2 ^ 8)

/-- R_STATUS: R_OPEN in bit 0 (10_state.md R46). -/
def Reader.statusWord (r : Reader) : Word := BitVec.ofNat 64 r.isOpen.toNat

/-- PARAM: NUM_BUILDERS in 3:0, NUM_MODELS in 7:4 (10_state.md R37). -/
def paramWord : Word := BitVec.ofNat 64 (Config.numBuilders + Config.numModels * 2 ^ 4)

/-- B_STATE as a number (10_state.md R49). -/
def BuilderMode.code : BuilderMode → Nat
  | .empty => 0
  | .active => 1
  | .consumed => 2

/-- The register at an offset of the window, as a read returns it: CMD and reserved offsets read 0 (10_state.md R30,
R31; 45_system.md R282). -/
def State.readReg (s : State) (offset : Nat) : Word :=
  match offset with
  | 0x08 => s.op0
  | 0x10 => s.op1
  | 0x18 => s.op2
  | 0x20 => s.op3
  | 0x28 => s.res0
  | 0x30 => s.res1
  | 0x38 => s.res2
  | 0x40 => s.status.word
  | 0x48 => s.errInfo
  | 0x50 => s.writer.statusWord
  | 0x58 => toReg .writerTotal s.writer.total
  | 0x60 => s.writer.base
  | 0x68 => s.writer.cap
  | 0x70 => s.reader.statusWord
  | 0x78 => toReg .readerPos s.reader.pos
  | 0x80 => s.reader.base
  | 0x88 => s.reader.len
  | 0x90 => paramWord
  | _ => 0

end Sys2Proof.Machine
end

