-- ==== Sys2Proof/Machine/Builder.lean ====
section
/-! DEFINITION. The context builder commands (42_context_builder.md): BINIT, BSCAN, BLINE, BSCANLN, BSCANBUF, BINFO,
BMERGE, and the frequency-map extraction (R200). -/

namespace Sys2Proof.Machine

/-! ### Creating a builder -/

/-- A builder slot as BINIT leaves it (42_context_builder.md R170). -/
def Builder.fresh (o : Order) : Builder :=
  { mode := .active, order := o, win := [], flat := [], trie := [], lines := 0, skips := 0 }

/-- BINIT before its end (42_context_builder.md R170). -/
def binitEffect (k : Nat) (s : State) : Except CmdError State := do
  let _ ← s.builderSlot (.binit k) k
  let o ← checkOrder s.op0
  .ok (s.withBuilder k (Builder.fresh o))

/-- BINIT: create or re-create the builder in slot k (42_context_builder.md R170). -/
def execBinit (k : Nat) (s : State) : Host.Outcome State Fault Refusal := complete s (binitEffect k s)

/-! ### Scanning -/

/-- FLAT[b] (10_state.md R49). -/
def flatCount (f : Flat) (b : Byte) : Word := (mapGet b f).getD 0

/-- FLAT[b] +c n (42_context_builder.md R171, R188). -/
def bumpFlat (f : Flat) (b : Byte) (n : Word) : Except CmdError Flat := do
  let c ← addCount (flatCount f b) n
  .ok (mapPut byteLt b c f)

/-- The window after byte b: appended, the oldest dropped past ORDER (42_context_builder.md R171). -/
def slideWindow (o : Order) (win : List Byte) (b : Byte) : List Byte :=
  if o.toNat < (win ++ [b]).length then (win ++ [b]).drop 1 else win ++ [b]

/-- The nodes a walk of the window visits: WIN[0..t-1] for t in 1..|WIN| (42_context_builder.md R171). -/
def windowPaths (win : List Byte) : List (List Byte) := (List.range win.length).map fun t => win.take (t + 1)

/-- The counts of a node, (0, 0) for one not in the trie yet. -/
def nodeCounts (t : Trie) (p : List Byte) : NodeCounts := (mapGet p t).getD { pass := 0, exact := 0 }

/-- The walk: nodes created on demand within TRIE_CAP, PASS of each counted (42_context_builder.md R171). -/
def walkTrie (cap : Nat) : List (List Byte) → Trie → Except CmdError Trie
  | [], t => .ok t
  | p :: ps, t => do
    check (mapGet p t ≠ none ∨ t.length ≠ cap) { kind := .resource, info := t.length }
    let c := nodeCounts t p
    let v ← addCount c.pass 1
    walkTrie cap ps (mapPut seqLt p { c with pass := v } t)

/-- EXACT[p] +c 1 (42_context_builder.md R171). -/
def bumpExact (t : Trie) (p : List Byte) : Except CmdError Trie := do
  let c := nodeCounts t p
  let v ← addCount c.exact 1
  .ok (mapPut seqLt p { c with exact := v } t)

/-- An accepted byte (42_context_builder.md R171). -/
def acceptByte (cap : Nat) (bd : Builder) (b : Byte) : Except CmdError Builder := do
  let flat ← bumpFlat bd.flat b 1
  let win := slideWindow bd.order bd.win b
  let walked ← walkTrie cap (windowPaths win) bd.trie
  let trie ← bumpExact walked win
  .ok { bd with flat := flat, win := win, trie := trie }

/-- A skipped byte: SKIPS is counted and nothing else changes (42_context_builder.md R171, R172). -/
def skipByte (bd : Builder) : Except CmdError Builder := do
  let n ← addCount bd.skips 1
  .ok { bd with skips := n }

/-- `scan_one`: the builder after a 64-bit value, and whether it was accepted (42_context_builder.md R171). -/
def scanOne (cap : Nat) (bd : Builder) (v : Word) : Except CmdError (Builder × Bool) :=
  if inAlphabet v.toNat then do
    let bd' ← acceptByte cap bd (BitVec.ofNat 8 v.toNat)
    .ok (bd', true)
  else do
    let bd' ← skipByte bd
    .ok (bd', false)

/-- What a scan of several bytes has come to: the builder, and how many bytes it accepted and skipped. -/
structure ScanResult where
  builder : Builder
  accepted : Nat
  skipped : Nat
  deriving DecidableEq, Repr

/-- The loop of BSCANLN and BSCANBUF (42_context_builder.md R182, R184). -/
def scanBytes (cap : Nat) : List Byte → ScanResult → Except CmdError ScanResult
  | [], r => .ok r
  | b :: bs, r => do
    let x ← scanOne cap r.builder (b.setWidth 64)
    scanBytes cap bs
      { builder := x.1
        accepted := if x.2 then r.accepted + 1 else r.accepted
        skipped := if x.2 then r.skipped else r.skipped + 1 }

/-- BSCAN before its end (42_context_builder.md R172). -/
def bscanEffect (k : Nat) (s : State) : Except CmdError State := do
  let bd ← s.activeBuilder (.bscan k) k 0x09
  let x ← scanOne s.params.trieCap bd s.op0
  .ok (((s.withBuilder k x.1).noteSkip (!x.2)).withRes0 (if x.2 then 1 else 0))

/-- BSCAN: scan one byte (42_context_builder.md R172). -/
def execBscan (k : Nat) (s : State) : Host.Outcome State Fault Refusal := complete s (bscanEffect k s)

/-- A line boundary: the window is cleared and LINES counted (42_context_builder.md R180). -/
def markLine (bd : Builder) : Except CmdError Builder := do
  let n ← addCount bd.lines 1
  .ok { bd with win := [], lines := n }

/-- BLINE before its end (42_context_builder.md R180). -/
def blineEffect (k : Nat) (s : State) : Except CmdError State := do
  let bd ← s.activeBuilder (.bline k) k 0x0A
  let bd' ← markLine bd
  .ok (s.withBuilder k bd')

/-- BLINE: mark a line boundary (42_context_builder.md R180). -/
def execBline (k : Nat) (s : State) : Host.Outcome State Fault Refusal := complete s (blineEffect k s)

/-- The scan of the region (OP0, OP1) into builder `bd` (42_context_builder.md R182, R184). -/
def State.scanRegion (s : State) (bd : Builder) : Except CmdError ScanResult := do
  check (s.inRange s.op0.toNat s.op1.toNat) (addressError s.op0.toNat)
  scanBytes s.params.trieCap (s.readBytes s.op0.toNat s.op1.toNat) { builder := bd, accepted := 0, skipped := 0 }

/-- The results of a region scan: the slot, SKIP_SEEN, RES0 the accepted and RES1 the skipped bytes
(42_context_builder.md R182, R184). -/
def State.storeScan (s : State) (k : Nat) (bd : Builder) (r : ScanResult) : State :=
  (((s.withBuilder k bd).noteSkip (decide (0 < r.skipped))).withRes0 (BitVec.ofNat 64 r.accepted)).withRes1
    (BitVec.ofNat 64 r.skipped)

/-- BSCANLN before its end (42_context_builder.md R182). -/
def bscanlnEffect (k : Nat) (s : State) : Except CmdError State := do
  let bd ← s.activeBuilder (.bscanln k) k 0x0B
  let r ← s.scanRegion bd
  let bd' ← markLine r.builder
  .ok (s.storeScan k bd' r)

/-- BSCANLN: scan one line from DMEM, then mark the boundary (42_context_builder.md R182). -/
def execBscanln (k : Nat) (s : State) : Host.Outcome State Fault Refusal := complete s (bscanlnEffect k s)

/-- BSCANBUF before its end (42_context_builder.md R184). -/
def bscanbufEffect (k : Nat) (s : State) : Except CmdError State := do
  let bd ← s.activeBuilder (.bscanbuf k) k 0x0C
  let r ← s.scanRegion bd
  .ok (s.storeScan k r.builder r)

/-- BSCANBUF: scan a raw byte stream from DMEM (42_context_builder.md R184). -/
def execBscanbuf (k : Nat) (s : State) : Host.Outcome State Fault Refusal := complete s (bscanbufEffect k s)

/-! ### Inspecting and merging -/

/-- WIN[i] as BINFO shows it, 0 where the window is shorter (42_context_builder.md R186). -/
def Builder.winAt (bd : Builder) (i : Nat) : Nat := (bd.win.getD i 0).toNat

/-- RES0 of BINFO (42_context_builder.md R186). -/
def Builder.infoWord (bd : Builder) : Word :=
  BitVec.ofNat 64 (bd.mode.code ||| bd.order.toNat <<< 2 ||| bd.win.length <<< 4 ||| bd.winAt 0 <<< 8
    ||| bd.winAt 1 <<< 16 ||| bd.winAt 2 <<< 24 ||| bd.trie.length <<< 32)

/-- BINFO before its end (42_context_builder.md R186). -/
def binfoEffect (k : Nat) (s : State) : Except CmdError State := do
  let bd ← s.builderSlot (.binfo k) k
  .ok (((s.withRes0 bd.infoWord).withRes1 bd.lines).withRes2 bd.skips)

/-- BINFO: read a builder slot's summary (42_context_builder.md R186). -/
def execBinfo (k : Nat) (s : State) : Host.Outcome State Fault Refusal := complete s (binfoEffect k s)

/-- FLAT_dst[b] +c FLAT_src[b] for every byte (42_context_builder.md R188). -/
def mergeFlat : Flat → Flat → Except CmdError Flat
  | [], dst => .ok dst
  | (b, n) :: src, dst => do
    let dst' ← bumpFlat dst b n
    mergeFlat src dst'

/-- The two counts of a node of both tries, added with `+c` (42_context_builder.md R188). -/
def addNode (a b : NodeCounts) : Except CmdError NodeCounts := do
  let p ← addCount a.pass b.pass
  let e ← addCount a.exact b.exact
  .ok { pass := p, exact := e }

/-- The nodes of src into dst: counts added where dst has the node, copied where not (42_context_builder.md R188);
the capacity is checked by `mergeTrie`. -/
def mergeNodes : Trie → Trie → Except CmdError Trie
  | [], dst => .ok dst
  | (p, c) :: src, dst =>
    match mapGet p dst with
    | some d => do
      let v ← addNode d c
      mergeNodes src (mapPut seqLt p v dst)
    | none => mergeNodes src (mapPut seqLt p c dst)

/-- The nodes of src that dst lacks: those a merge creates. -/
def newNodes (src dst : Trie) : Trie := src.filter fun kv => (mapGet kv.1 dst).isNone

/-- The trie merge of BMERGE (42_context_builder.md R188). The result does not depend on the order in which src's
nodes are visited; only when a count overflows and the nodes do not fit does the order decide which error is met
first, and that is a free choice (log 4). ERR_INFO of the ResourceError is NODES_dst when the node that does not fit
would be created: TRIE_CAP (log 5). -/
def mergeTrie (cap : Nat) (src dst : Trie) : Except CmdError Trie :=
  if (newNodes src dst) ≠ [] ∧ cap < dst.length + (newNodes src dst).length then
    match mergeNodes src dst with
    | .ok _ => .error { kind := .resource, info := cap }
    | .error e =>
      if Config.mergeOverflowFirst (src.map (·.1)) (dst.map (·.1)) then .error e
      else .error { kind := .resource, info := cap }
  else mergeNodes src dst

/-- BMERGE's effect on the destination; its window is kept (42_context_builder.md R188). -/
def mergeBuilders (cap : Nat) (dst src : Builder) : Except CmdError Builder := do
  let flat ← mergeFlat src.flat dst.flat
  let trie ← mergeTrie cap src.trie dst.trie
  let lines ← addCount dst.lines src.lines
  let skips ← addCount dst.skips src.skips
  .ok { dst with flat := flat, trie := trie, lines := lines, skips := skips }

/-- BMERGE before its end (42_context_builder.md R188). -/
def bmergeEffect (dst src : Nat) (s : State) : Except CmdError State := do
  let d ← s.builderSlot (.bmerge dst src) dst
  let r ← s.builderSlot (.bmerge dst src) src
  check (d.mode = .active ∧ r.mode = .active ∧ dst ≠ src) (wrongState 0x0D)
  check (d.order = r.order) { kind := .modelConstruction, info := r.order.toNat }
  let d' ← mergeBuilders s.params.trieCap d r
  .ok (s.withBuilder dst d')

/-- BMERGE: merge builder src into builder dst (42_context_builder.md R188). -/
def execBmerge (dst src : Nat) (s : State) : Host.Outcome State Fault Refusal := complete s (bmergeEffect dst src s)

/-! ### Frequency-map extraction (42_context_builder.md R200) -/

/-- An ordered frequency map: distinct symbols with their frequencies (42_context_builder.md R200). -/
abbrev FreqMap := List (Sym × Word)

/-- `F.put(s, f)`: overwrite in place or append (42_context_builder.md R200). -/
def putFreq (x : Sym) (f : Word) : FreqMap → FreqMap
  | [] => [(x, f)]
  | (y, g) :: m => if x = y then (x, f) :: m else (y, g) :: putFreq x f m

/-- E = max(LINES, 1) (42_context_builder.md R200 step 1, R202). -/
def Builder.eofCount (bd : Builder) : Word := if bd.lines = 0 then 1 else bd.lines

/-- T: TRIE with the EOF leaf [0xFF] (42_context_builder.md R200 step 1, R201). -/
def Builder.trieWithEof (bd : Builder) : Trie :=
  mapPut seqLt [0xFF] { pass := bd.eofCount, exact := bd.eofCount } bd.trie

/-- p has no one-byte extension in the trie (42_context_builder.md R174). -/
def isLeaf (t : Trie) (p : List Byte) : Bool :=
  t.all fun kv => !(kv.1.length == p.length + 1 && p.isPrefixOf kv.1)

/-- Step 2: the nonzero flat counts by ascending byte (42_context_builder.md R200). -/
def Builder.seeds (bd : Builder) : FreqMap :=
  (List.range 256).filterMap fun b =>
    if flatCount bd.flat (BitVec.ofNat 8 b) = 0 then none
    else some (BitVec.ofNat 24 b, flatCount bd.flat (BitVec.ofNat 8 b))

/-- Step 3: the leaves depth-first, children ascending, which is the trie's own order (42_context_builder.md R200). -/
def trieLeaves (t : Trie) : List (Sym × Word) :=
  (t.filter fun kv => isLeaf t kv.1).map fun kv => (packSym kv.1, kv.2.exact)

/-- The pairs of nonzero frequency (43_huffman.md R210 step 1). -/
def dropZeros (m : FreqMap) : FreqMap := m.filter fun p => p.2 != 0

/-- The map F of `freqmap` (42_context_builder.md R200). -/
def Builder.freqMap (bd : Builder) : FreqMap :=
  dropZeros ((trieLeaves bd.trieWithEof).foldl (fun m p => putFreq p.1 p.2 m) bd.seeds)

/-- At most DICT_CAP entries (42_context_builder.md R200; 43_huffman.md R226). -/
def checkDictCap (cap : Nat) (m : FreqMap) : Except CmdError Unit :=
  check (m.length ≤ cap) { kind := .resource, info := m.length }

/-- W, the total weight of a map, with `+c` (42_context_builder.md R200 step 4; 43_huffman.md R226). -/
def mapWeight (m : FreqMap) : Except CmdError Word := sumCounts (m.map (·.2)) 0

end Sys2Proof.Machine
end

