-- ==== Sys2Proof/Machine/Huffman.lean ====
section
/-! DEFINITION. The Huffman build (43_huffman.md R210 to R214) and the model commands: BBUILD, HBUILD, MINFO, MENTRY,
MLOOKUP, MFREE. -/

namespace Sys2Proof.Machine

/-! ### The build algorithm -/

/-- A node of the transient Huffman tree (00_scope.md R18; 10_state.md R55). -/
inductive Tree
  | leaf (sym : Sym) (freq : Word)
  | node (left right : Tree) (freq : Word)
  deriving DecidableEq, Repr

/-- The frequency of a node. -/
def treeFreq : Tree → Word
  | .leaf _ f => f
  | .node _ _ f => f

/-- A node put after every queued node of equal or lower frequency (43_huffman.md R210 step 3, R211 b). -/
def queueInsert (z : Tree) : List Tree → List Tree
  | [] => [z]
  | n :: q => if (treeFreq n).toNat ≤ (treeFreq z).toNat then n :: queueInsert z q else z :: n :: q

/-- The stable ascending sort of the leaves (43_huffman.md R210 step 2, R211 a). -/
def sortLeaves (m : FreqMap) : List Tree := m.foldl (fun q p => queueInsert (.leaf p.1 p.2) q) []

/-- Step 3 on a queue with first node `x` and rest `q`: the two lowest merged, the first removed on the left, until one
is left (43_huffman.md R210, R211 c). Each round shortens the queue by one, so |q| rounds are enough. -/
def mergeQueue : Nat → Tree → List Tree → Except CmdError Tree
  | 0, x, _ => .ok x
  | _ + 1, x, [] => .ok x
  | n + 1, x, y :: q => do
    let f ← addCount (treeFreq x) (treeFreq y)
    match queueInsert (.node x y f) q with
    | [] => .ok (.node x y f)
    | x' :: q' => mergeQueue n x' q'

/-- `label(n, s)`: the root-to-leaf bit string of every leaf, left 0 and right 1 (43_huffman.md R213). -/
def labelTree : Tree → List Bool → List (Sym × List Bool)
  | .leaf x _, bs => [(x, bs)]
  | .node l r _, bs => labelTree l (bs ++ [false]) ++ labelTree r (bs ++ [true])

/-- Steps 4 and 5: a one-leaf tree gives its leaf the code "0" (43_huffman.md R210, R212). -/
def treeCodes : Tree → List (Sym × List Bool)
  | .leaf x _ => [(x, [false])]
  | .node l r f => labelTree (.node l r f) []

/-- `code(sym)`; every symbol of the map is a leaf of its tree, so the empty string is never taken. -/
def codeOf (codes : List (Sym × List Bool)) (x : Sym) : List Bool := (mapGet x codes).getD []

/-- Step 6: the entries in the order of F, refused at the first code longer than 64 bits (43_huffman.md R210, R214,
R215). -/
def emitEntries (codes : List (Sym × List Bool)) : FreqMap → Except CmdError (List Entry)
  | [] => .ok []
  | (x, f) :: m => do
    check ((codeOf codes x).length ≤ 64) { kind := .codeTooLong, info := (codeOf codes x).length }
    let es ← emitEntries codes m
    .ok ({ sym := x, width := symWidth x.toNat, value := BitVec.ofNat 64 (valOf (codeOf codes x)),
           length := (codeOf codes x).length, freq := f } :: es)

/-- The tree of an ordered map without zero frequencies; an empty map is refused (43_huffman.md R210 steps 1 to 3). -/
def buildTree (m : FreqMap) : Except CmdError Tree :=
  match sortLeaves m with
  | [] => .error { kind := .modelConstruction, info := 0 }
  | x :: q => mergeQueue q.length x q

/-- `huff(F)` (43_huffman.md R210). -/
def huff (m : FreqMap) : Except CmdError (List Entry) := do
  let root ← buildTree (dropZeros m)
  emitEntries (treeCodes root) (dropZeros m)

/-! ### Derived values of a model (43_huffman.md R218) -/

/-- DICT(sym), the symbol given as a number. -/
def Model.dict (m : Model) (x : Nat) : Option Entry := m.entries.find? fun e => decide (e.sym.toNat = x)

/-- DTAB(length, value). -/
def Model.dtab (m : Model) (len val : Nat) : Option Entry :=
  m.entries.find? fun e => decide (e.length = len ∧ e.value.toNat = val)

/-- MAXBITS: the greatest code length. -/
def Model.maxBits (m : Model) : Nat := m.entries.foldl (fun l e => max l e.length) 0

/-- WEIGHT: the sum of the frequencies. A built model's fits 64 bits (43_huffman.md R218). -/
def Model.weight (m : Model) : Nat := (m.entries.map fun e => e.freq.toNat).sum

/-! ### Building -/

/-- Storing a built model and reporting it: RES0 the entries, RES1 MAXBITS, RES2 the weight (43_huffman.md R220, R226). -/
def State.installModel (s : State) (j : Nat) (m : Model) (w : Word) : State :=
  (((s.withModel j (some m)).withRes0 (BitVec.ofNat 64 m.entries.length)).withRes1 (BitVec.ofNat 64 m.maxBits)).withRes2
    w

/-- A builder slot once BBUILD has consumed it (43_huffman.md R220, R221). -/
def Builder.consume (bd : Builder) : Builder :=
  { mode := .consumed, order := bd.order, win := [], flat := [], trie := [], lines := 0, skips := 0 }

/-- BBUILD before its end (43_huffman.md R220; 42_context_builder.md R200). -/
def bbuildEffect (k j : Nat) (s : State) : Except CmdError State := do
  let bd ← s.builderSlot (.bbuild k j) k
  let old ← s.modelSlot (.bbuild k j) j
  check (bd.mode = .active) (wrongState 0x0F)
  check (old = none) (wrongState 0x0F)
  checkDictCap s.params.dictCap bd.freqMap
  let w ← mapWeight bd.freqMap
  let es ← huff bd.freqMap
  .ok ((s.withBuilder k bd.consume).installModel j { order := bd.order, entries := es } w)

/-- BBUILD: build a model from a builder and consume the builder (43_huffman.md R220). -/
def execBbuild (k j : Nat) (s : State) : Host.Outcome State Fault Refusal := complete s (bbuildEffect k j s)

/-- A valid HBUILD symbol: 255, or 1 ≤ sym < 2^24 with every one of its width(sym) bytes in A (43_huffman.md R225). -/
def symValid (x : Nat) : Bool :=
  decide (x = 255) ||
    (decide (1 ≤ x ∧ x < 2 ^ 24) && (List.range (symWidth x)).all fun t => inAlphabet (x / 2 ^ (8 * t) % 2 ^ 8))

/-- The symbol field of the HBUILD entry at address a: bytes 0..3, little-endian (43_huffman.md R225). -/
def State.entrySym (s : State) (a : Nat) : Nat := leNat (s.readBytes a 4)

/-- The frequency field of the HBUILD entry at address a: bytes 8..15, little-endian (43_huffman.md R225). -/
def State.entryFreq (s : State) (a : Nat) : Word := BitVec.ofNat 64 (leNat (s.readBytes (a + 8) 8))

/-- What HBUILD refuses of an entry's symbol (43_huffman.md R226). -/
def hbuildSymOk (o : Order) (acc : FreqMap) (x : Nat) : Bool :=
  symValid x && (decide (x = 255) || decide (symWidth x ≤ o.toNat)) && acc.all fun p => decide (p.1.toNat ≠ x)

/-- The entry loop of HBUILD: `n` entries from address a, appended to the map (43_huffman.md R226). -/
def State.readEntries (s : State) (o : Order) : Nat → Nat → FreqMap → Except CmdError FreqMap
  | 0, _, acc => .ok acc
  | n + 1, a, acc => do
    check (hbuildSymOk o acc (s.entrySym a) = true) { kind := .modelConstruction, info := s.entrySym a }
    s.readEntries o n (a + 16) (acc ++ [(BitVec.ofNat 24 (s.entrySym a), s.entryFreq a)])

/-- HBUILD before its end (43_huffman.md R226). -/
def hbuildEffect (j : Nat) (s : State) : Except CmdError State := do
  s.freeModel (.hbuild j) j 0x10
  let o ← checkOrder s.op2
  check (s.inRange s.op0.toNat (16 * s.op1.toNat)) (addressError s.op0.toNat)
  let given ← s.readEntries o s.op1.toNat s.op0.toNat []
  checkDictCap s.params.dictCap (dropZeros given)
  let es ← huff (dropZeros given)
  let w ← mapWeight (dropZeros given)
  .ok (s.installModel j { order := o, entries := es } w)

/-- HBUILD: build a model from a frequency map in DMEM (43_huffman.md R226). -/
def execHbuild (j : Nat) (s : State) : Host.Outcome State Fault Refusal := complete s (hbuildEffect j s)

/-! ### Read-out and release -/

/-- MINFO before its end (43_huffman.md R230). -/
def minfoEffect (j : Nat) (s : State) : Except CmdError State := do
  let m ← s.validModel (.minfo j) j 0x13
  .ok (((s.withRes0 (BitVec.ofNat 64 m.entries.length)).withRes1
    (BitVec.ofNat 64 (m.maxBits ||| m.order.toNat <<< 8))).withRes2 (toReg .weight m.weight))

/-- MINFO: read a model's summary (43_huffman.md R230). -/
def execMinfo (j : Nat) (s : State) : Host.Outcome State Fault Refusal := complete s (minfoEffect j s)

/-- `sym | width << 24 | length << 32` (43_huffman.md R231, R234). -/
def Entry.infoWord (e : Entry) : Word := BitVec.ofNat 64 (e.sym.toNat ||| e.width <<< 24 ||| e.length <<< 32)

/-- The results of MENTRY and MLOOKUP: the entry, or three zeros for none (43_huffman.md R231, R234). -/
def State.reportEntry (s : State) (e : Option Entry) : State :=
  match e with
  | some e => ((s.withRes0 e.infoWord).withRes1 e.value).withRes2 e.freq
  | none => ((s.withRes0 0).withRes1 0).withRes2 0

/-- MENTRY before its end (43_huffman.md R231). -/
def mentryEffect (j : Nat) (s : State) : Except CmdError State := do
  let m ← s.validModel (.mentry j) j 0x14
  .ok (s.reportEntry m.entries[s.op0.toNat]?)

/-- MENTRY: read entry number OP0 of a model (43_huffman.md R231). -/
def execMentry (j : Nat) (s : State) : Host.Outcome State Fault Refusal := complete s (mentryEffect j s)

/-- MLOOKUP before its end; OP0 is compared as a full 64-bit value (43_huffman.md R234). -/
def mlookupEffect (j : Nat) (s : State) : Except CmdError State := do
  let m ← s.validModel (.mlookup j) j 0x15
  .ok (s.reportEntry (m.dict s.op0.toNat))

/-- MLOOKUP: look a symbol up in the dictionary (43_huffman.md R234). -/
def execMlookup (j : Nat) (s : State) : Host.Outcome State Fault Refusal := complete s (mlookupEffect j s)

/-- MFREE before its end (43_huffman.md R236). -/
def mfreeEffect (j : Nat) (s : State) : Except CmdError State := do
  let _ ← s.modelSlot (.mfree j) j
  .ok (s.withModel j none)

/-- MFREE: invalidate a model slot (43_huffman.md R236). -/
def execMfree (j : Nat) (s : State) : Host.Outcome State Fault Refusal := complete s (mfreeEffect j s)

end Sys2Proof.Machine
end

