-- ==== Sys2Proof/Machine/Codec.lean ====
section
/-! DEFINITION. The codec commands (44_codec.md): ENCODE and DECODE. Their bit writer and reader are private: they
touch neither W nor R (R257). -/

namespace Sys2Proof.Machine

/-! ### ENCODE -/

/-- The k-byte candidate at the cursor: enough bytes remain, all in A, and its packed symbol is in DICT (44_codec.md
R250, R252). -/
def Model.candidate (m : Model) (rest : List Byte) (k : Nat) : Option Entry :=
  if k ≤ rest.length ∧ ((rest.take k).all fun b => inAlphabet b.toNat) = true then
    m.dict (packSym (rest.take k)).toNat
  else none

/-- The first of the 3-, 2- and 1-byte candidates, with its length (44_codec.md R250, R255). -/
def Model.token (m : Model) (rest : List Byte) : Option (Entry × Nat) :=
  match m.candidate rest 3 with
  | some e => some (e, 3)
  | none =>
    match m.candidate rest 2 with
    | some e => some (e, 2)
    | none =>
      match m.candidate rest 1 with
      | some e => some (e, 1)
      | none => none

/-- The bits of an entry's code (44_codec.md R250). -/
def Entry.bits (e : Entry) : List Bool := bitsOf e.length e.value.toNat

/-- The stream with a code appended, refused past the output capacity in bytes (44_codec.md R250, R254). -/
def appendCode (cap : Nat) (bs : List Bool) (e : Entry) : Except CmdError (List Bool) := do
  check ((bs ++ e.bits).length ≤ 8 * cap) { kind := .capacity, info := (bs ++ e.bits).length }
  .ok (bs ++ e.bits)

/-- EncodingError at a byte offset (44_codec.md R251). -/
def encodingError (i : Nat) : CmdError := { kind := .encoding, info := i }

/-- The token loop of ENCODE from cursor `i` with `rest` still to encode; each round takes at least one byte, so |rest|
rounds are enough (44_codec.md R250). -/
def encodeLoop (m : Model) (cap : Nat) : Nat → Nat → List Byte → List Bool → Except CmdError (List Bool)
  | 0, _, _, bs => .ok bs
  | _ + 1, _, [], bs => .ok bs
  | fuel + 1, i, c :: rest, bs => do
    check (inAlphabet c.toNat = true) (encodingError i)
    match m.token (c :: rest) with
    | none => .error (encodingError i)
    | some (e, adv) => do
      let bs' ← appendCode cap bs e
      encodeLoop m cap fuel (i + adv) ((c :: rest).drop adv) bs'

/-- The whole stream of an input: its tokens and the EOF code (44_codec.md R250, R253). -/
def encodeStream (m : Model) (cap : Nat) (input : List Byte) : Except CmdError (List Bool) := do
  let bs ← encodeLoop m cap input.length 0 input []
  match m.dict eofSym.toNat with
  | none => .error (encodingError input.length)
  | some e => appendCode cap bs e

/-- ENCODE before its end (44_codec.md R250; wider bit counts: log 3). -/
def encodeEffect (j : Nat) (s : State) : Except CmdError State := do
  let m ← s.validModel (.encode j) j 0x11
  s.checkRegions
  let bs ← encodeStream m s.op3.toNat (s.readBytes s.op0.toNat s.op1.toNat)
  .ok (((s.writeBytes s.op2.toNat (packBits bs)).withRes0 (toReg .resultLen ((bs.length + 7) / 8))).withRes1
    (toReg .resultBits bs.length))

/-- ENCODE: compress one encoded unit (44_codec.md R250). -/
def execEncode (j : Nat) (s : State) : Host.Outcome State Fault Refusal := complete s (encodeEffect j s)

/-! ### DECODE -/

/-- The first code length in `lens` whose bits at `pos` are in the decode table, over the input region (44_codec.md
R260). -/
def State.matchCode (s : State) (m : Model) (pos : Nat) : List Nat → Option Entry
  | [] => none
  | len :: lens =>
    match m.dtab len (valOf (s.streamBits s.op0.toNat s.op1.toNat pos len)) with
    | some e => some e
    | none => s.matchCode m pos lens

/-- The code at `pos`: lengths 1 to MAXBITS, ascending (44_codec.md R260). -/
def State.nextCode (s : State) (m : Model) (pos : Nat) : Option Entry :=
  s.matchCode m pos ((List.range m.maxBits).map (· + 1))

/-- The bytes of a symbol appended to the output, refused past the capacity in bytes (44_codec.md R260). -/
def emitBytes (cap : Nat) : List Byte → List Byte → Except CmdError (List Byte)
  | [], out => .ok out
  | b :: bs, out => do
    check (out.length ≠ cap) { kind := .capacity, info := out.length + 1 }
    emitBytes cap bs (out ++ [b])

/-- DecodingError at a bit position (44_codec.md R261, R263). -/
def decodingError (pos : Nat) : CmdError := { kind := .decoding, info := pos }

/-- The loop of DECODE: the output and the bit position after the EOF code. Every round takes at least one bit within
the data, so 8·OP1 + 1 rounds are enough (44_codec.md R260, R263). -/
def State.decodeLoop (s : State) (m : Model) : Nat → Nat → List Byte → Except CmdError (List Byte × Nat)
  | 0, pos, _ => .error (decodingError pos)
  | fuel + 1, pos, out =>
    match s.nextCode m pos with
    | none => .error (decodingError pos)
    | some e => do
      check (pos + e.length ≤ 8 * s.op1.toNat) (decodingError pos)
      if e.sym = eofSym then
        .ok (out, pos + e.length)
      else do
        let out' ← emitBytes s.op3.toNat (unpackSym e.sym) out
        s.decodeLoop m fuel (pos + e.length) out'

/-- DECODE before its end (44_codec.md R260; wider bit counts: log 3). -/
def decodeEffect (j : Nat) (s : State) : Except CmdError State := do
  let m ← s.validModel (.decode j) j 0x12
  check (s.op1 ≠ 0) { kind := .inputEmpty, info := 0 }
  s.checkRegions
  let r ← s.decodeLoop m (8 * s.op1.toNat + 1) 0 []
  .ok (((s.writeBytes s.op2.toNat r.1).withRes0 (BitVec.ofNat 64 r.1.length)).withRes1 (toReg .resultBits r.2))

/-- DECODE: decompress one encoded unit (44_codec.md R260). -/
def execDecode (j : Nat) (s : State) : Host.Outcome State Fault Refusal := complete s (decodeEffect j s)

end Sys2Proof.Machine
end

