-- ==== Sys2Proof/Machine/Reader.lean ====
section
/-! DEFINITION. The bit reader commands (41_bitreader.md): RINIT, RPEEK, RMATCH, RADV. -/

namespace Sys2Proof.Machine

/-- RINIT before its end (41_bitreader.md R150). -/
def rinitEffect (s : State) : Except CmdError State := do
  check (s.op1 ≠ 0) { kind := .inputEmpty, info := 0 }
  check (s.inRange s.op0.toNat s.op1.toNat) (addressError s.op0.toNat)
  .ok (s.withReader { isOpen := true, base := s.op0, len := s.op1, pos := 0 })

/-- RINIT: open a reader over a non-empty buffer (41_bitreader.md R150). -/
def execRinit (s : State) : Host.Outcome State Fault Refusal := complete s (rinitEffect s)

/-- `peekval(n)`: the n bits at R_POS, read MSB-first (41_bitreader.md, before R150; 20_memory.md R80: DMEM is read as
it is now). -/
def State.peekVal (s : State) (n : Nat) : Nat :=
  valOf (s.streamBits s.reader.base.toNat s.reader.len.toNat s.reader.pos n)

/-- The reader must be open, else StateError with the opcode (41_bitreader.md R152). -/
def State.checkReader (s : State) (opc : Nat) : Except CmdError Unit :=
  check (s.reader.isOpen = true) (wrongState opc)

/-- RPEEK before its end (41_bitreader.md R152). -/
def rpeekEffect (n : Nat) (s : State) : Except CmdError State := do
  s.checkReader 0x05
  checkWidth n
  .ok (s.withRes0 (BitVec.ofNat 64 (s.peekVal n)))

/-- RPEEK: the next n bits, not consumed (41_bitreader.md R152). -/
def execRpeek (n : Nat) (s : State) : Host.Outcome State Fault Refusal := complete s (rpeekEffect n s)

/-- RMATCH before its end (41_bitreader.md R154). -/
def rmatchEffect (n : Nat) (s : State) : Except CmdError State := do
  s.checkReader 0x06
  checkWidth n
  .ok (s.withRes0 (if s.peekVal n = lowBits n s.op0.toNat then 1 else 0))

/-- RMATCH: compare the next n bits with the low n bits of OP0 (41_bitreader.md R154). -/
def execRmatch (n : Nat) (s : State) : Host.Outcome State Fault Refusal := complete s (rmatchEffect n s)

/-- RADV before its end (41_bitreader.md R156). -/
def radvEffect (n : Nat) (s : State) : Except CmdError State := do
  s.checkReader 0x07
  checkWidth n
  check (s.reader.pos + n ≤ 8 * s.reader.len.toNat) { kind := .readOverrun, info := s.reader.pos + n }
  .ok (s.withReader { s.reader with pos := s.reader.pos + n })

/-- RADV: consume n bits (41_bitreader.md R156). -/
def execRadv (n : Nat) (s : State) : Host.Outcome State Fault Refusal := complete s (radvEffect n s)

end Sys2Proof.Machine
end

