-- ==== Sys2Proof/Machine/System.lean ====
section
/-! DEFINITION. NOP (45_system.md R280). -/

namespace Sys2Proof.Machine

/-- NOP: no effect but LAST_ERR := 0, as for every command that succeeds (45_system.md R280). -/
def execNop (s : State) : Host.Outcome State Fault Refusal := complete s (.ok s)

end Sys2Proof.Machine
end

