-- ==== Sys2Proof/Machine/Writer.lean ====
section
/-! DEFINITION. The bit writer commands (40_bitwriter.md): WINIT, WBITS, WFINISH. -/

namespace Sys2Proof.Machine

/-- WINIT before its end (40_bitwriter.md R130). -/
def winitEffect (s : State) : Except CmdError State := do
  check (s.inRange s.op0.toNat s.op1.toNat) (addressError s.op0.toNat)
  .ok (s.withWriter
    { mode := .opened, base := s.op0, cap := s.op1, words := 0, acc := 0, free := 64, finalLen := 0 })

/-- WINIT: open a new output stream (40_bitwriter.md R130). -/
def execWinit (s : State) : Host.Outcome State Fault Refusal := complete s (winitEffect s)

/-- The DMEM address of the writer's current word: W_BASE + 8·W_WORDS (20_memory.md R75). -/
def Writer.wordAddr (w : Writer) : Nat := w.base.toNat + 8 * w.words

/-- The accumulator once the high W_FREE bits of the `n`-bit field `v` complete it (40_bitwriter.md R131, R132). -/
def Writer.filledAcc (w : Writer) (n v : Nat) : Word := w.acc ||| BitVec.ofNat 64 (v >>> (n - w.free))

/-- Appending `bits_n(v)` to the stream, `v` already cut to `n` bits: into the accumulator, or split across the word
it completes, which is stored, and the next (40_bitwriter.md R131, R132). -/
def State.appendBits (s : State) (n v : Nat) : State :=
  let w := s.writer
  if n < w.free then
    s.withWriter { w with acc := w.acc ||| BitVec.ofNat 64 (v <<< (w.free - n)), free := w.free - n }
  else
    let r := n - w.free
    (s.writeBytes w.wordAddr (beBytes (w.filledAcc n v))).withWriter
      { w with
        words := w.words + 1
        acc := if r = 0 then 0 else BitVec.ofNat 64 (lowBits r v <<< (64 - r))
        free := 64 - r }

/-- WBITS before its end; the checks in the order of 40_bitwriter.md R131. -/
def wbitsEffect (w : Nat) (s : State) : Except CmdError State := do
  check (s.writer.mode ≠ .idle) (wrongState 0x02)
  checkWidth w
  check (s.writer.mode ≠ .closed) { kind := .writerClosed, info := 0 }
  if w = 0 then
    .ok s
  else do
    check (s.writer.total + w ≤ 8 * s.writer.cap.toNat) { kind := .capacity, info := s.writer.total + w }
    .ok (s.appendBits w (lowBits w s.op0.toNat))

/-- WBITS: append the low `w` bits of OP0, MSB-first (40_bitwriter.md R131). -/
def execWbits (w : Nat) (s : State) : Host.Outcome State Fault Refusal := complete s (wbitsEffect w s)

/-- The bytes of the partial word, ⌈(64 − W_FREE)/8⌉ of them (40_bitwriter.md R133). -/
def Writer.partialBytes (w : Writer) : List Byte := (beBytes w.acc).take ((64 - w.free + 7) / 8)

/-- Storing the partial word and closing the stream (40_bitwriter.md R133). -/
def State.closeWriter (s : State) : State :=
  (s.writeBytes s.writer.wordAddr s.writer.partialBytes).withWriter
    { s.writer with finalLen := (s.writer.total + 7) / 8, mode := .closed }

/-- WFINISH's results: RES0 the byte length, RES1 the bit length (40_bitwriter.md R133; wider counts: log 3). -/
def State.reportStream (s : State) : State :=
  (s.withRes0 (toReg .resultLen s.writer.finalLen)).withRes1 (toReg .resultBits s.writer.total)

/-- WFINISH before its end; a closed stream is only reported again (40_bitwriter.md R133). -/
def wfinishEffect (s : State) : Except CmdError State :=
  match s.writer.mode with
  | .idle => .error (wrongState 0x03)
  | .opened => .ok s.closeWriter.reportStream
  | .closed => .ok s.reportStream

/-- WFINISH: close the stream and report its length (40_bitwriter.md R133). -/
def execWfinish (s : State) : Host.Outcome State Fault Refusal := complete s (wfinishEffect s)

end Sys2Proof.Machine
end

