-- ==== Sys2Proof/Machine/Dispatch.lean ====
section
/-! DEFINITION. One command, executed: one arm per constructor of Instr, each a direct call of its meaning. -/

namespace Sys2Proof.Machine

def exec (i : Instr) (s : State) : Host.Outcome State Fault Refusal :=
  match i with
  | .nop => Sys2Proof.Machine.execNop s
  | .winit => Sys2Proof.Machine.execWinit s
  | .wbits w => Sys2Proof.Machine.execWbits w s
  | .wfinish => Sys2Proof.Machine.execWfinish s
  | .rinit => Sys2Proof.Machine.execRinit s
  | .rpeek n => Sys2Proof.Machine.execRpeek n s
  | .rmatch n => Sys2Proof.Machine.execRmatch n s
  | .radv n => Sys2Proof.Machine.execRadv n s
  | .binit k => Sys2Proof.Machine.execBinit k s
  | .bscan k => Sys2Proof.Machine.execBscan k s
  | .bline k => Sys2Proof.Machine.execBline k s
  | .bscanln k => Sys2Proof.Machine.execBscanln k s
  | .bscanbuf k => Sys2Proof.Machine.execBscanbuf k s
  | .bmerge dst src => Sys2Proof.Machine.execBmerge dst src s
  | .binfo k => Sys2Proof.Machine.execBinfo k s
  | .bbuild k j => Sys2Proof.Machine.execBbuild k j s
  | .hbuild j => Sys2Proof.Machine.execHbuild j s
  | .encode j => Sys2Proof.Machine.execEncode j s
  | .decode j => Sys2Proof.Machine.execDecode j s
  | .minfo j => Sys2Proof.Machine.execMinfo j s
  | .mentry j => Sys2Proof.Machine.execMentry j s
  | .mlookup j => Sys2Proof.Machine.execMlookup j s
  | .mfree j => Sys2Proof.Machine.execMfree j s

end Sys2Proof.Machine
end

