-- ==== Sys2Proof/Machine/HostPort.lean ====
section
/-! DEFINITION. The host's accesses (10_state.md R30, R31; 45_system.md R281, R282), command issue (30_encoding.md
R100, R107) and reset (70_reset_and_hazards.md R320). -/

namespace Sys2Proof.Machine

/-- A command word is executed, or raises IllegalCommand with the word and has no other effect (30_encoding.md R107). -/
def issueCommand (c : CmdWord) (s : State) : Host.Outcome State Fault Refusal :=
  match decode c with
  | .ok i => exec i s
  | .error _ => .next (takeError s (illegalWord c))

/-- A write of CMD: bits 31:0 are the command, bits 63:32 are ignored (10_state.md R31; 45_system.md R281). While reset
is asserted no command executes (70_reset_and_hazards.md R320; log 7). -/
def writeCmd (v : Word) (s : State) : Host.Outcome State Fault Refusal :=
  if s.inReset then .next s else issueCommand (v.setWidth 32) s

/-- A host access of the register window the interface has: 64 bits, aligned, at an offset below 256 (10_state.md R30). -/
def regAccessOk (bytes offset : Nat) : Bool := decide (bytes = 8 ∧ offset % 8 = 0 ∧ offset < 256)

/-- A write of the register at an offset: CMD issues, OP0..OP3 are set, a read-only register or a reserved offset is
unchanged (10_state.md R30, R31; 45_system.md R281, R282). -/
def writeReg (offset : Nat) (v : Word) (s : State) : Host.Outcome State Fault Refusal :=
  match offset with
  | 0x00 => writeCmd v s
  | 0x08 => .next (s.withOp0 v)
  | 0x10 => .next (s.withOp1 v)
  | 0x18 => .next (s.withOp2 v)
  | 0x20 => .next (s.withOp3 v)
  | _ => .next s

/-- Release of reset: every piece of state takes its reset value and DMEM a new draw; the parameters and the host's own
part stay (70_reset_and_hazards.md R320, R321, R322). -/
def State.release (s : State) : State :=
  ((State.resetWith s.params (s.draw + 1)).withHost s.host).withSaw s.saw

/-- One host action (log 6, log 7, log 8). -/
def hostAction (a : HostAction) (s : State) : Host.Outcome State Fault Refusal :=
  match a with
  | .writeReg bytes offset v =>
    if regAccessOk bytes offset then writeReg offset v s else .refused (.hostRegisterAccess bytes offset)
  | .readReg bytes offset =>
    if regAccessOk bytes offset then .next (s.withSaw (.word (s.readReg offset)))
    else .refused (.hostRegisterAccess bytes offset)
  | .writeMem addr b =>
    if addr < s.params.dmemSize then .next (s.withDmem (s.dmem.write addr b)) else .fault (.hostDmemOutOfRange addr)
  | .readMem addr =>
    if addr < s.params.dmemSize then .next (s.withSaw (.byte (s.readByte addr)))
    else .fault (.hostDmemOutOfRange addr)
  | .assertReset => .next (s.withInReset true)
  | .releaseReset => if s.inReset then .next s.release else .next s

/-- The host action that writes command word `c` to CMD (30_encoding.md R100). -/
def cmdWrite (c : CmdWord) : HostAction := .writeReg 8 0x00 (c.setWidth 64)

end Sys2Proof.Machine
end

