-- ==== Sys2Proof/Machine/Step.lean ====
section
/-! DEFINITION. One step: the host's next action; with none left HUFFCORE waits (70_reset_and_hazards.md R320, log 6). -/

namespace Sys2Proof.Machine

/-- The next host action, taken off the list, is performed (20_memory.md R83: host accesses and commands are totally
ordered; log 6). -/
def step (s : State) : Host.Outcome State Fault Refusal :=
  match s.host with
  | [] => .next s
  | a :: rest => hostAction a (s.withHost rest)

/-- `s` with the write of a table word to CMD as the host's next action, reset not asserted: HUFFCORE fetches nothing,
its commands come from the CMD register (20_memory.md R86; log 6). -/
def State.withFetchWord (s : State) (nbits w : Nat) : State :=
  (s.withInReset false).withHost (cmdWrite (BitVec.ofNat 32 (w % 2 ^ nbits)) :: s.host)

end Sys2Proof.Machine
end

