-- ==== Sys2Proof/Safety.lean ====
section
/-! DEFINITION. What the statements are about, written from the rules and not from the model's functions where a rule
fixes a value: the ends of a command (60_exceptions.md R293), the alphabet, symbols and numbers in DMEM, the stream a
writer holds, a scan, the Huffman tree, the greedy tokens, and the invariants of each unit that 10_state.md states. -/

namespace Sys2Proof.Machine

/-! ### The two ends of a command (60_exceptions.md R293, R294) -/

/-- `s` after an error of kind `k` with information `v`: the four fields of 60_exceptions.md R293 and nothing else. -/
def State.afterError (s : State) (k : ErrorKind) (v : Word) : State :=
  { s with
    status := { lastErr := some k, firstErr := s.status.firstErr.or (some k), errSeen := true,
                skipSeen := s.status.skipSeen }
    errInfo := v }

/-- `s` with LAST_ERR := 0 and nothing else changed. -/
def State.succeeded (s : State) : State := { s with status := { s.status with lastErr := none } }

/-- Command `i` in `s` ends with error `k` and ERR_INFO `v`, and changes nothing else. -/
abbrev Raises (i : Instr) (s : State) (k : ErrorKind) (v : Word) : Prop := exec i s = .next (s.afterError k v)

/-- The commands that may write RES0 (30_encoding.md R105, column RES written). -/
def writesRes0 : Instr → Bool
  | .wfinish | .rpeek _ | .rmatch _ | .bscan _ | .bscanln _ | .bscanbuf _ | .binfo _ | .bbuild _ _ | .hbuild _
  | .encode _ | .decode _ | .minfo _ | .mentry _ | .mlookup _ => true
  | _ => false

/-- The commands that may write RES1. -/
def writesRes1 : Instr → Bool
  | .wfinish | .bscanln _ | .bscanbuf _ | .binfo _ | .bbuild _ _ | .hbuild _ | .encode _ | .decode _ | .minfo _
  | .mentry _ | .mlookup _ => true
  | _ => false

/-- The commands that may write RES2. -/
def writesRes2 : Instr → Bool
  | .binfo _ | .bbuild _ _ | .hbuild _ | .minfo _ | .mentry _ | .mlookup _ => true
  | _ => false

/-- The commands that may write DMEM (20_memory.md R72). -/
def writesDmem : Instr → Bool
  | .wbits _ | .wfinish | .encode _ | .decode _ => true
  | _ => false

/-- The commands of the bit writer (30_encoding.md R105). -/
def isWriterCommand : Instr → Bool
  | .winit | .wbits _ | .wfinish => true
  | _ => false

/-- The commands that may change the bit reader (30_encoding.md R105; 41_bitreader.md R152, R154 change nothing). -/
def movesReader : Instr → Bool
  | .rinit | .radv _ => true
  | _ => false

/-- The commands that may change builder slot k: those that name it as the slot they work on (60_exceptions.md R303;
42_context_builder.md R186, R188). -/
def changesBuilder (k : Nat) : Instr → Bool
  | .binit k' | .bscan k' | .bline k' | .bscanln k' | .bscanbuf k' | .bbuild k' _ => k' == k
  | .bmerge dst _ => dst == k
  | _ => false

/-- The commands that may change model slot j (20_memory.md R86). -/
def changesModel (j : Nat) : Instr → Bool
  | .bbuild _ j' | .hbuild j' | .mfree j' => j' == j
  | _ => false

/-! ### The alphabet, symbols, numbers and regions in DMEM -/

/-- `v` is in A (00_scope.md R12). -/
abbrev alphabetic (v : Nat) : Prop := v = 0x09 ∨ v = 0x0A ∨ v = 0x0D ∨ (0x20 ≤ v ∧ v ≤ 0x7E)

/-- The number a sequence of up to three bytes packs to, the first byte lowest (00_scope.md R17). -/
def seqValue (p : List Byte) : Nat := (p.getD 0 0).toNat + 2 ^ 8 * (p.getD 1 0).toNat + 2 ^ 16 * (p.getD 2 0).toNat

/-- The bytes of a symbol, lowest first, as many as its width (00_scope.md R17; 44_codec.md R262). -/
def symBytes (x : Sym) : List Byte :=
  if x.toNat < 2 ^ 8 then [x.extractLsb' 0 8]
  else if x.toNat < 2 ^ 16 then [x.extractLsb' 0 8, x.extractLsb' 8 8]
  else [x.extractLsb' 0 8, x.extractLsb' 8 8, x.extractLsb' 16 8]

/-- The number of the `n` bytes at `a`, the byte at the lowest address lowest (20_memory.md R73). -/
def State.leWord (s : State) (a n : Nat) : Nat :=
  ((List.range n).map fun t => (s.readByte (a + t)).toNat * 2 ^ (8 * t)).sum

/-- A symbol a model of order `o` may have: EOF, or made of 1 to `o` bytes of A (43_huffman.md R225, R226). -/
abbrev symOk (o : Order) (x : Sym) : Prop :=
  x = 255 ∨ ((∀ b ∈ symBytes x, alphabetic b.toNat) ∧ (symBytes x).length ≤ o.toNat)

/-- `a` lies in the region (base, n) (20_memory.md R71). -/
abbrev inRegion (a base n : Nat) : Prop := base ≤ a ∧ a < base + n

/-- The input region (OP0, OP1) and the output region (OP2, OP3) share a byte (44_codec.md R250, R260). -/
abbrev State.sharesByte (s : State) : Prop :=
  ∃ a, inRegion a s.op0.toNat s.op1.toNat ∧ inRegion a s.op2.toNat s.op3.toNat

/-! ### Illegal words -/

/-- A field that breaks its row: nonzero where the row marks it 0, a slot that does not exist (30_encoding.md R103,
R104). -/
abbrev fieldBreaks (u : FieldUse) (v : Nat) : Prop :=
  (u = .zero ∧ v ≠ 0) ∨ (u = .builder ∧ Config.numBuilders ≤ v) ∨ (u = .model ∧ Config.numModels ≤ v)

/-- 30_encoding.md R107: a reserved opcode, a nonzero RSV, or a field that breaks the opcode's row. -/
abbrev illegalByRule (c : CmdWord) : Prop :=
  0x17 ≤ opcOf c ∨ rsvOf c ≠ 0 ∨
    ∃ r ∈ opTable, r.opc = opcOf c ∧ (fieldBreaks r.sa (saOf c) ∨ fieldBreaks r.sb (sbOf c) ∨ fieldBreaks r.w7 (w7Of c))

/-! ### Streams -/

/-- S_W: the words stored, then the top 64 − W_FREE bits of W_ACC (10_state.md R38). -/
def State.writtenBits (s : State) : List Bool :=
  s.streamBits s.writer.base.toNat (8 * s.writer.words) 0 (64 * s.writer.words)
    ++ (bitsOf 64 s.writer.acc.toNat).take (64 - s.writer.free)

/-- `e` is the entry of the first `k` bytes of the input, all in A (44_codec.md R250, R252). -/
abbrev Model.Token (m : Model) (input : List Byte) (k : Nat) (e : Entry) : Prop :=
  1 ≤ k ∧ k ≤ 3 ∧ k ≤ input.length ∧ (∀ b ∈ input.take k, alphabetic b.toNat) ∧ e ∈ m.entries ∧
    e.sym.toNat = seqValue (input.take k)

/-- `e` is the longest token at the input's start, of `k` bytes (44_codec.md R255). -/
abbrev Model.Longest (m : Model) (input : List Byte) (k : Nat) (e : Entry) : Prop :=
  m.Token input k e ∧ ∀ k' e', k < k' → ¬m.Token input k' e'

/-- `es` are the greedy tokens of the input as far as `rest` (44_codec.md R250, R255). -/
def Model.GreedyTokens (m : Model) : List Entry → List Byte → List Byte → Prop
  | [], input, rest => input = rest
  | e :: es, input, rest => ∃ k, m.Longest input k e ∧ m.GreedyTokens es (input.drop k) rest

/-- The codes of some entries, one after the other (44_codec.md R250). -/
def codesOf (es : List Entry) : List Bool := es.flatMap fun e => e.bits

/-! ### Scans (42_context_builder.md R171) -/

/-- The window after byte `b`: appended, the oldest dropped past ORDER. -/
def Builder.slid (bd : Builder) (b : Byte) : List Byte :=
  (bd.win ++ [b]).drop (bd.win.length + 1 - bd.order.toNat)

/-- `bd'` is `bd` after it accepted byte `b`: counted in FLAT, in PASS of every non-empty initial part of the new window
and in EXACT of the window itself, all of which are nodes now; no other count, node or field changes. -/
abbrev Builder.Accepts (bd : Builder) (b : Byte) (bd' : Builder) : Prop :=
  bd' = { bd with win := bd.slid b, flat := bd'.flat, trie := bd'.trie } ∧
    (∀ c, (flatCount bd'.flat c).toNat = (flatCount bd.flat c).toNat + if c = b then 1 else 0) ∧
    (∀ p, (nodeCounts bd'.trie p).pass.toNat =
      (nodeCounts bd.trie p).pass.toNat + if p ≠ [] ∧ p.isPrefixOf (bd.slid b) = true then 1 else 0) ∧
    (∀ p, (nodeCounts bd'.trie p).exact.toNat =
      (nodeCounts bd.trie p).exact.toNat + if p = bd.slid b then 1 else 0) ∧
    ∀ p, mapGet p bd'.trie ≠ none ↔ mapGet p bd.trie ≠ none ∨ (p ≠ [] ∧ p.isPrefixOf (bd.slid b) = true)

/-- `bd'` is `bd` after it skipped a byte. -/
abbrev Builder.Skips (bd bd' : Builder) : Prop :=
  bd' = { bd with skips := bd'.skips } ∧ bd'.skips.toNat = bd.skips.toNat + 1

/-- `bd'` is `bd` after a scan of these bytes, first to last (42_context_builder.md R182, R184). -/
def Builder.Scans : Builder → List Byte → Builder → Prop
  | bd, [], bd' => bd' = bd
  | bd, b :: bs, bd' =>
    ∃ m : Builder, (alphabetic b.toNat → bd.Accepts b m) ∧ (¬alphabetic b.toNat → bd.Skips m) ∧ m.Scans bs bd'

/-- How many non-empty initial parts of `w` are no nodes yet. -/
def Builder.missing (bd : Builder) (w : List Byte) : Nat :=
  (List.range w.length).countP fun t => decide (mapGet (w.take (t + 1)) bd.trie = none)

/-- A count that byte `b` would add to stands at 2^64 − 1: FLAT[b], PASS of a non-empty initial part of the new window,
or EXACT of the window itself (00_scope.md R16). -/
def Builder.CannotCount (bd : Builder) (b : Byte) : Prop :=
  (flatCount bd.flat b).toNat + 1 = 2 ^ 64 ∨
    (∃ p, p ≠ [] ∧ p.isPrefixOf (bd.slid b) = true ∧ (nodeCounts bd.trie p).pass.toNat + 1 = 2 ^ 64) ∨
    (nodeCounts bd.trie (bd.slid b)).exact.toNat + 1 = 2 ^ 64

/-- `scan_one` of byte `b` fails with this error: a count that cannot grow, SKIPS for a byte outside the alphabet, or
else a node that does not fit, NODES then being TRIE_CAP. -/
def Builder.Refuses (cap : Nat) (bd : Builder) (b : Byte) (e : ErrorKind) (info : Nat) : Prop :=
  (¬alphabetic b.toNat ∧ bd.skips.toNat + 1 = 2 ^ 64 ∧ e = .countOverflow ∧ info = 0) ∨
    (alphabetic b.toNat ∧ bd.CannotCount b ∧ e = .countOverflow ∧ info = 0) ∨
    (alphabetic b.toNat ∧ ¬bd.CannotCount b ∧ cap < bd.trie.length + bd.missing (bd.slid b) ∧ e = .resource ∧
      info = cap)

/-- `p` has no one-byte extension in TRIE (42_context_builder.md R174). -/
def Builder.childless (bd : Builder) (p : List Byte) : Bool :=
  (List.range 256).all fun c => (mapGet (p ++ [BitVec.ofNat 8 c]) bd.trie).isNone

/-- How many nodes of `src` `dst` lacks (42_context_builder.md R188). -/
def Builder.lacks (dst src : Builder) : Nat := src.trie.countP fun x => decide (mapGet x.1 dst.trie = none)

/-- The two FLAT counts of some byte come to 2^64 or more (42_context_builder.md R188). -/
def Builder.FlatOverflows (dst src : Builder) : Prop :=
  ∃ b, 2 ^ 64 ≤ (flatCount dst.flat b).toNat + (flatCount src.flat b).toNat

/-- The two PASS or the two EXACT counts of some node come to 2^64 or more (42_context_builder.md R188). -/
def Builder.TrieOverflows (dst src : Builder) : Prop :=
  ∃ p, 2 ^ 64 ≤ (nodeCounts dst.trie p).pass.toNat + (nodeCounts src.trie p).pass.toNat ∨
    2 ^ 64 ≤ (nodeCounts dst.trie p).exact.toNat + (nodeCounts src.trie p).exact.toNat

/-- The symbols of F in their order: the counted bytes ascending, then the leaves that are no counted byte, depth-first,
then EOF (42_context_builder.md R200, R201, R204). -/
def Builder.mapSymbols (bd : Builder) : List Nat :=
  ((List.range 256).filter fun b => flatCount bd.flat (BitVec.ofNat 8 b) != 0)
    ++ ((bd.trie.filter fun x => bd.childless x.1 && !(x.1.length == 1 && flatCount bd.flat (x.1.getD 0 0) != 0)).map
      fun x => seqValue x.1)
    ++ [255]

/-! ### The Huffman tree (43_huffman.md R210, R211, R213) -/

/-- The sum of the frequencies of a tree's leaves. -/
def Tree.weight : Tree → Nat
  | .leaf _ f => f.toNat
  | .node l r _ => l.weight + r.weight

/-- The longest path from the root to a leaf. -/
def Tree.depth : Tree → Nat
  | .leaf _ _ => 0
  | .node l r _ => max l.depth r.depth + 1

/-- The symbol at the end of a path from the root, left 0 and right 1 (43_huffman.md R213). -/
def Tree.symAt : Tree → List Bool → Option Sym
  | .leaf x _, [] => some x
  | .node l _ _, false :: bs => l.symAt bs
  | .node _ r _, true :: bs => r.symAt bs
  | _, _ => none

/-- Step 3 of 43_huffman.md R210 on a queue: the two first nodes merged, the first on the left, the new node put after
every node of equal or lower frequency and before the higher ones (R211 b, c), until one is left. -/
inductive Reduces : List Tree → Tree → Prop
  | one (t : Tree) : Reduces [t] t
  | merge (x y : Tree) (lo hi : List Tree) (f : Word) (root : Tree) (hf : f.toNat = x.weight + y.weight)
      (hlo : ∀ n ∈ lo, n.weight ≤ x.weight + y.weight) (hhi : ∀ n ∈ hi, x.weight + y.weight < n.weight)
      (next : Reduces (lo ++ .node x y f :: hi) root) : Reduces (x :: y :: (lo ++ hi)) root

/-- `root` is the tree of the map: its leaves by rising frequency, those of equal frequency in the map's order (43_huffman.md
R211 a), merged as `Reduces` says. -/
def HuffTree (f : FreqMap) (root : Tree) : Prop :=
  ∃ leaves : FreqMap, leaves.Perm f ∧ leaves.Pairwise (fun a b => a.2.toNat ≤ b.2.toNat) ∧
    (∀ w : Word, leaves.filter (fun p => p.2 == w) = f.filter (fun p => p.2 == w)) ∧
    Reduces (leaves.map fun p => Tree.leaf p.1 p.2) root

/-- `l` is the code length of the first symbol, in the order of the map, whose code is longer than 64 bits
(43_huffman.md R214). -/
def FirstTooLong (f : FreqMap) (l : Nat) : Prop :=
  ∃ root, HuffTree f root ∧ ∃ (xs ys : FreqMap) (p : Sym × Word) (path : List Bool), f = xs ++ p :: ys ∧
    root.symAt path = some p.1 ∧ path.length = l ∧ 64 < l ∧
    ∀ q ∈ xs, ∃ w : List Bool, root.symAt w = some q.1 ∧ w.length ≤ 64

/-! ### Invariants -/

/-- ERR_SEEN and FIRST_ERR tell the same, and a LAST_ERR has been seen (10_state.md R35). -/
abbrev Status.Ok (st : Status) : Prop :=
  (st.errSeen = true ↔ st.firstErr ≠ none) ∧ (st.lastErr ≠ none → st.errSeen = true)

/-- DMEM is in canonical form and holds no byte past DMEM_SIZE (20_memory.md R70). -/
abbrev State.DmemOk (s : State) : Prop := s.dmem.wf = true ∧ ∀ c ∈ s.dmem, c.1 < s.params.dmemSize

/-- The writer (10_state.md R38, R42): W_FREE in [1, 64], the low W_FREE bits of W_ACC are 0, the region exists, the
stream fits it, W_FINAL_LEN is the stream's byte length once CLOSED, and an IDLE writer is as after reset. -/
abbrev Writer.Ok (size : Nat) (w : Writer) : Prop :=
  1 ≤ w.free ∧ w.free ≤ 64 ∧ w.acc.toNat % 2 ^ w.free = 0 ∧ w.base.toNat + w.cap.toNat ≤ size ∧
    w.total ≤ 8 * w.cap.toNat ∧ (w.mode = .closed → w.finalLen = (w.total + 7) / 8) ∧
    (w.mode = .opened → w.finalLen = 0) ∧ (w.mode = .idle → w = Writer.reset)

/-- The reader (10_state.md R43): its region exists and is not empty when open, R_POS is at most 8·R_LEN, and a reader
never opened is as after reset. -/
abbrev Reader.Ok (size : Nat) (r : Reader) : Prop :=
  r.base.toNat + r.len.toNat ≤ size ∧ r.pos ≤ 8 * r.len.toNat ∧ (r.isOpen = true → 1 ≤ r.len.toNat) ∧
    (r.isOpen = false → r = Reader.reset)

/-- Every byte of the sequence is in A (00_scope.md R12). -/
abbrev allInAlphabet (p : List Byte) : Prop := ∀ b ∈ p, alphabetic b.toNat

/-- Σ FLAT (42_context_builder.md R174). -/
def flatSum (f : Flat) : Nat := (f.map fun x => x.2.toNat).sum

/-- Σ PASS over the nodes of depth 1 (42_context_builder.md R174). -/
def depthOnePass (t : Trie) : Nat := ((t.filter fun x => x.1.length == 1).map fun x => x.2.pass.toNat).sum

/-- A builder slot (10_state.md R49; 42_context_builder.md R174, R220): window and nodes within ORDER and A, the trie
closed under non-empty initial parts, every node passed, every leaf ended at, NODES within TRIE_CAP, FLAT and the trie
agreeing, and nothing held outside ACTIVE. -/
abbrev Builder.Ok (cap : Nat) (bd : Builder) : Prop :=
  bd.win.length ≤ bd.order.toNat ∧ allInAlphabet bd.win ∧
    mapSorted seqLt bd.trie = true ∧ bd.trie.length ≤ cap ∧
    (∀ x ∈ bd.trie, x.1 ≠ [] ∧ x.1.length ≤ bd.order.toNat ∧ allInAlphabet x.1 ∧ 1 ≤ x.2.pass.toNat) ∧
    (∀ x ∈ bd.trie, x.1.dropLast ≠ [] → mapGet x.1.dropLast bd.trie ≠ none) ∧
    (∀ x ∈ bd.trie, isLeaf bd.trie x.1 = true → 1 ≤ x.2.exact.toNat) ∧
    mapSorted byteLt bd.flat = true ∧ (∀ x ∈ bd.flat, alphabetic x.1.toNat ∧ x.2 ≠ 0) ∧
    flatSum bd.flat = depthOnePass bd.trie ∧
    (bd.mode ≠ .active → bd.win = [] ∧ bd.flat = [] ∧ bd.trie = [] ∧ bd.lines = 0 ∧ bd.skips = 0)

/-- Neither code begins the other (00_scope.md R18 "Prefix-free code set"; 43_huffman.md R216). -/
abbrev codesApart (a b : Entry) : Prop := a.bits.isPrefixOf b.bits = false ∧ b.bits.isPrefixOf a.bits = false

/-- A code entry (43_huffman.md R215, R225): a valid symbol no wider than the order unless EOF, its width class, a code
of 1 to 64 bits that fits its length, a nonzero frequency. -/
abbrev Entry.Ok (o : Order) (e : Entry) : Prop :=
  symOk o e.sym ∧ e.width = (symBytes e.sym).length ∧
    1 ≤ e.length ∧ e.length ≤ 64 ∧ e.value.toNat < 2 ^ e.length ∧ e.freq ≠ 0

/-- A valid model slot (10_state.md R52; 43_huffman.md R216, R218): 1 to DICT_CAP entries with distinct symbols,
prefix-free codes, a total weight of 64 bits. -/
abbrev Model.Ok (cap : Nat) (m : Model) : Prop :=
  1 ≤ m.entries.length ∧ m.entries.length ≤ cap ∧ (m.entries.map fun e => e.sym).Nodup ∧
    (∀ e ∈ m.entries, e.Ok m.order) ∧ m.entries.Pairwise codesApart ∧ m.weight < 2 ^ 64

/-- Every builder slot. -/
abbrev State.BuildersOk (s : State) : Prop := ∀ bd ∈ s.builders.toList, bd.Ok s.params.trieCap

/-- Every valid model slot. -/
abbrev State.ModelsOk (s : State) : Prop := ∀ o ∈ s.models.toList, ∀ m ∈ o.toList, m.Ok s.params.dictCap

/-- The machine's invariant. -/
abbrev State.Inv (s : State) : Prop :=
  s.params.Legal ∧ s.status.Ok ∧ s.DmemOk ∧ s.writer.Ok s.params.dmemSize ∧ s.reader.Ok s.params.dmemSize ∧
    s.BuildersOk ∧ s.ModelsOk

/-! ### Room -/

/-- `n` more scans fit builder `bd`: no count can pass 2^64 − 1 (00_scope.md R16) and no node TRIE_CAP
(42_context_builder.md R171). -/
abbrev Builder.Room (cap n : Nat) (bd : Builder) : Prop :=
  (∀ x ∈ bd.flat, x.2.toNat + n < 2 ^ 64) ∧ (∀ x ∈ bd.trie, x.2.pass.toNat + n < 2 ^ 64) ∧
    (∀ x ∈ bd.trie, x.2.exact.toNat + n < 2 ^ 64) ∧ bd.skips.toNat + n < 2 ^ 64 ∧ n < 2 ^ 64 ∧
    bd.trie.length + 3 * n ≤ cap

end Sys2Proof.Machine
end

