-- ==== Sys2Proof/Certificates/Slice0/Obligations.lean ====
section
/-! DEFINITION. The statements for the provers. A docstring says which rule of spec/ a statement formalises, or, for a
derived one, the sentence of the spec or the log entry it rests on. -/

open Sys2Proof Sys2Proof.Machine

/-! ### Encoding -/

/-- Derived (30_encoding.md R101, R105, R110): no bit of a command is lost between its word and its decoding. -/
def Obligations.DecodingAnEncodedCommandGivesItBack : Prop :=
  ∀ i : Instr, i.wf = true → Sys2Proof.decode (Sys2Proof.encode i) = .ok i

/-- Derived (30_encoding.md R108): a legal word stands for one well-formed command, whose encoding it is. -/
def Obligations.EncodingADecodedWordGivesItBack : Prop :=
  ∀ (c : CmdWord) (i : Instr), Sys2Proof.decode c = .ok i → i.wf = true ∧ Sys2Proof.encode i = c

/-- Derived (30_encoding.md R106, R108, which the spec marks as inferences): no two rows match the same word, and a
word decodes exactly when some row selects it with slots that exist. -/
def Obligations.LegalWordsSelectExactlyOneRow : Prop :=
  ∀ c : CmdWord,
    (∀ r ∈ opTable, ∀ r' ∈ opTable, r.selects c = true → r'.selects c = true → r = r') ∧
    ((∃ i, Sys2Proof.decode c = .ok i) ↔
      ∃ r ∈ opTable, r.selects c = true ∧ r.sa.legal (saOf c) = true ∧ r.sb.legal (sbOf c) = true)

/-- 30_encoding.md R107: the write of an illegal word raises IllegalCommand with the word and has no other effect; every
other word decodes. -/
def Obligations.IllegalWordsRaiseIllegalCommand : Prop :=
  (∀ (s : State) (v : Word) (rest : List HostAction), s.host = .writeReg 8 0x00 v :: rest → s.inReset = false →
    illegalByRule (v.setWidth 32) →
    step s = .next ({ s with host := rest }.afterError .illegalCommand ((v.setWidth 32).setWidth 64))) ∧
  ∀ c : CmdWord, ¬illegalByRule c → ∃ i, Sys2Proof.decode c = .ok i

/-- Derived (30_encoding.md R105, R110; the words of 95_test_vectors.md 2.1): one word of every family, written out from
the format, and illegal ones. -/
def Obligations.SampleWordsDecodeAsWritten : Prop :=
  Sys2Proof.decode 0x00000000 = .ok .nop ∧ Sys2Proof.decode 0x00000001 = .ok .winit ∧
  Sys2Proof.decode 0x00020002 = .ok (.wbits 8) ∧ Sys2Proof.decode 0x001FC002 = .ok (.wbits 127) ∧
  Sys2Proof.decode 0x00010005 = .ok (.rpeek 4) ∧ Sys2Proof.decode 0x00000108 = .ok (.binit 1) ∧
  Sys2Proof.decode 0x0000080D = .ok (.bmerge 0 1) ∧ Sys2Proof.decode 0x0000080F = .ok (.bbuild 0 1) ∧
  Sys2Proof.decode 0x00000810 = .ok (.hbuild 1) ∧ Sys2Proof.decode 0x00000113 = .ok (.minfo 1) ∧
  Sys2Proof.decode 0x00000112 = .ok (.decode 1) ∧
  Sys2Proof.decode 0x00000017 = .error .reservedOpcode ∧ Sys2Proof.decode 0x00200000 = .error .nonzeroField ∧
  Sys2Proof.decode 0x0000020F = .error .slotOutOfRange

/-! ### The host's accesses, the step, reset -/

/-- 45_system.md R281: a write of CMD runs the command of its low 32 bits, with all its effects, in that one step; a word
that is no command ends with its error in that step too. -/
def Obligations.CmdWriteExecutesTheDecodedCommand : Prop :=
  ∀ (s : State) (v : Word) (rest : List HostAction), s.host = .writeReg 8 0x00 v :: rest → s.inReset = false →
    (∀ i, Sys2Proof.decode (v.setWidth 32) = .ok i → step s = exec i { s with host := rest }) ∧
    (∀ e, Sys2Proof.decode (v.setWidth 32) = .error e →
      step s = .next ({ s with host := rest }.afterError .illegalCommand ((v.setWidth 32).setWidth 64)))

/-- Derived (45_system.md R282; what each offset shows is `RegisterMapShowsTheState`): a write of OP0..OP3 sets that register alone; a read returns the register's value (CMD and
reserved offsets read 0) and changes nothing of the machine (`saw` is what the host was answered, log 6). -/
def Obligations.OperandWritesAndRegisterReads : Prop :=
  ∀ (s : State) (v : Word) (rest : List HostAction) (off : Nat),
    (s.host = .writeReg 8 0x08 v :: rest → step s = .next { s with host := rest, op0 := v }) ∧
    (s.host = .writeReg 8 0x10 v :: rest → step s = .next { s with host := rest, op1 := v }) ∧
    (s.host = .writeReg 8 0x18 v :: rest → step s = .next { s with host := rest, op2 := v }) ∧
    (s.host = .writeReg 8 0x20 v :: rest → step s = .next { s with host := rest, op3 := v }) ∧
    (s.host = .readReg 8 off :: rest → off % 8 = 0 → off < 256 →
      step s = .next { s with host := rest, saw := .word (s.readReg off) }) ∧
    s.readReg 0x00 = 0 ∧ (0x98 ≤ off → s.readReg off = 0)

/-- Derived (10_state.md R31, R35 to R37, R40, R41, R46 to R48): what each offset of the register map shows. W_TOTAL and
R_POS are stated where the count fits 64 bits (log 3 otherwise). The error numbers are those of 60_exceptions.md R290,
the W_STATE numbers those of 10_state.md R38. -/
def Obligations.RegisterMapShowsTheState : Prop :=
  ∀ s : State,
    s.readReg 0x08 = s.op0 ∧ s.readReg 0x10 = s.op1 ∧ s.readReg 0x18 = s.op2 ∧ s.readReg 0x20 = s.op3 ∧
    s.readReg 0x28 = s.res0 ∧ s.readReg 0x30 = s.res1 ∧ s.readReg 0x38 = s.res2 ∧
    (∀ x ∈ [(none, 0), (some ErrorKind.modelConstruction, 1), (some .encoding, 2), (some .decoding, 3),
        (some .bitWidth, 4), (some .writerClosed, 5), (some .inputEmpty, 6), (some .capacity, 7),
        (some .readOverrun, 8), (some .stateError, 9), (some .countOverflow, 10), (some .codeTooLong, 11),
        (some .resource, 12), (some .illegalCommand, 13), (some .address, 14), (some .overlap, 15)],
      (s.status.lastErr = x.1 → (s.readReg 0x40).toNat % 2 ^ 8 = x.2) ∧
      (s.status.firstErr = x.1 → (s.readReg 0x40).toNat / 2 ^ 8 % 2 ^ 8 = x.2)) ∧
    (s.readReg 0x40).getLsbD 16 = s.status.errSeen ∧ (s.readReg 0x40).getLsbD 17 = s.status.skipSeen ∧
    (∀ b, 18 ≤ b → (s.readReg 0x40).getLsbD b = false) ∧
    s.readReg 0x48 = s.errInfo ∧
    (∀ x ∈ [(WriterMode.idle, 0), (.opened, 1), (.closed, 2)], s.writer.mode = x.1 → s.writer.free ≤ 64 →
      (s.readReg 0x50).toNat = x.2 + s.writer.free * 2 ^ 8) ∧
    (64 * s.writer.words + (64 - s.writer.free) < 2 ^ 64 →
      (s.readReg 0x58).toNat = 64 * s.writer.words + (64 - s.writer.free)) ∧
    s.readReg 0x60 = s.writer.base ∧ s.readReg 0x68 = s.writer.cap ∧
    (s.readReg 0x70).toNat = (if s.reader.isOpen then 1 else 0) ∧
    (s.reader.pos < 2 ^ 64 → (s.readReg 0x78).toNat = s.reader.pos) ∧
    s.readReg 0x80 = s.reader.base ∧ s.readReg 0x88 = s.reader.len ∧ s.readReg 0x90 = 0x22

/-- 10_state.md R30: an access that is not an aligned 64-bit one inside the 256-byte window is refused; reserved offsets
read 0 and a write to them has no effect. A write of a read-only register has none either (R31). -/
def Obligations.OtherRegisterAccessesDoNothingOrAreRefused : Prop :=
  ∀ (s : State) (bytes off : Nat) (v : Word) (rest : List HostAction),
    (¬(bytes = 8 ∧ off % 8 = 0 ∧ off < 256) →
      (s.host = .writeReg bytes off v :: rest → step s = .refused (.hostRegisterAccess bytes off)) ∧
      (s.host = .readReg bytes off :: rest → step s = .refused (.hostRegisterAccess bytes off))) ∧
    (off % 8 = 0 → 0x28 ≤ off → off < 256 → s.host = .writeReg 8 off v :: rest →
      step s = .next { s with host := rest }) ∧
    (off % 8 = 0 → 0x98 ≤ off → off < 256 → s.host = .readReg 8 off :: rest →
      step s = .next { s with host := rest, saw := .word 0 })

/-- Derived (20_memory.md R70, R78, R83): a host write changes one byte of DMEM and nothing else, a host read returns the
byte and changes nothing; an address that does not exist stops the model (log 8). -/
def Obligations.HostDmemAccessesReachOneByte : Prop :=
  ∀ (s : State) (a : Nat) (v : Byte) (rest : List HostAction),
    (s.host = .writeMem a v :: rest → a < s.params.dmemSize →
      ∃ t, step s = .next t ∧ t = { s with host := rest, dmem := t.dmem } ∧
        ∀ b, t.readByte b = if b = a then v else s.readByte b) ∧
    (s.host = .readMem a :: rest → a < s.params.dmemSize →
      step s = .next { s with host := rest, saw := .byte (s.readByte a) }) ∧
    (s.params.dmemSize ≤ a → (s.host = .writeMem a v :: rest → step s = .fault (.hostDmemOutOfRange a)) ∧
      (s.host = .readMem a :: rest → step s = .fault (.hostDmemOutOfRange a)))

/-- Derived (70_reset_and_hazards.md R321), with the model's choices of a reset driven by host actions (log 7), parameters
kept (log 1), W_STATUS 0x4000 (log 16) and DMEM bytes that take a new free draw, of which nothing is assumed (log 2):
when reset is released every piece of state takes its reset value, whatever it was. -/
def Obligations.ReleaseOfResetLeavesTheResetValues : Prop :=
  ∀ (s : State) (rest : List HostAction), s.inReset = true → s.host = .releaseReset :: rest →
    ∃ t, step s = .next t ∧ t.inReset = false ∧ t.params = s.params ∧
      t.op0 = 0 ∧ t.op1 = 0 ∧ t.op2 = 0 ∧ t.op3 = 0 ∧ t.res0 = 0 ∧ t.res1 = 0 ∧ t.res2 = 0 ∧
      t.readReg 0x40 = 0 ∧ t.errInfo = 0 ∧ t.readReg 0x90 = 0x22 ∧
      t.writer = { mode := .idle, base := 0, cap := 0, words := 0, acc := 0, free := 64, finalLen := 0 } ∧
      t.readReg 0x50 = 0x4000 ∧ t.readReg 0x58 = 0 ∧
      t.reader = { isOpen := false, base := 0, len := 0, pos := 0 } ∧
      (∀ k, k < 2 → t.builders[k]? =
        some { mode := .empty, order := .one, win := [], flat := [], trie := [], lines := 0, skips := 0 }) ∧
      (∀ j, j < 2 → t.models[j]? = some none) ∧
      ∀ a, t.readByte a = Config.powerUpByte (s.draw + 1) a

/-- Derived (70_reset_and_hazards.md R320), with the model's choices of log 6 and log 7: while reset is asserted a write
of CMD executes nothing and is lost; asserting changes nothing else; with no host action left the machine waits. -/
def Obligations.NothingExecutesInResetOrWithoutTheHost : Prop :=
  ∀ (s : State) (v : Word) (rest : List HostAction),
    (s.host = .assertReset :: rest → step s = .next { s with host := rest, inReset := true }) ∧
    (s.inReset = true → s.host = .writeReg 8 0x00 v :: rest → step s = .next { s with host := rest }) ∧
    (s.host = [] → step s = .next s)

/-- Derived (70_reset_and_hazards.md R321): the state after reset, with any legal parameters and any draw of DMEM, meets
the invariant. -/
def Obligations.ResetStateMeetsTheInvariant : Prop :=
  ∀ (p : Params) (draw : Nat), p.Legal → (State.resetWith p draw).Inv

/-! ### Errors and what a command leaves unchanged -/

/-- 60_exceptions.md R293, R294: every command ends in a next state; either it succeeded, with LAST_ERR 0 and FIRST_ERR,
ERR_SEEN and ERR_INFO unchanged, or it failed and the four fields of R293 are all that changed. -/
def Obligations.EveryCommandEndsWithItsEffectOrTheErrorAlone : Prop :=
  ∀ (i : Instr) (s : State), ∃ t, exec i s = .next t ∧
    ((t.status.lastErr = none ∧ t.status.firstErr = s.status.firstErr ∧ t.status.errSeen = s.status.errSeen ∧
        t.errInfo = s.errInfo) ∨
      ∃ k v, t = s.afterError k v)

/-- Derived (10_state.md R35; 60_exceptions.md R298): FIRST_ERR, ERR_SEEN and SKIP_SEEN, once set, last until reset is
released, whatever the host does. -/
def Obligations.StickyStatusLastsUntilReset : Prop :=
  ∀ s t : State, step s = .next t → (∀ rest, s.host ≠ .releaseReset :: rest) →
    (s.status.firstErr ≠ none → t.status.firstErr = s.status.firstErr) ∧
    (s.status.errSeen = true → t.status.errSeen = true) ∧ (s.status.skipSeen = true → t.status.skipSeen = true)

/-- Derived (10_state.md R32; 30_encoding.md R105): no command changes OP0..OP3; a RES register changes only by a command
whose row names it, never by one that fails, and never by a host access other than a write of CMD. -/
def Obligations.RegisterFileIsWrittenOnlyAsTold : Prop :=
  (∀ (i : Instr) (s t : State), exec i s = .next t →
    t.op0 = s.op0 ∧ t.op1 = s.op1 ∧ t.op2 = s.op2 ∧ t.op3 = s.op3 ∧
    (writesRes0 i = false → t.res0 = s.res0) ∧ (writesRes1 i = false → t.res1 = s.res1) ∧
    (writesRes2 i = false → t.res2 = s.res2) ∧
    (t.status.lastErr ≠ none → t.res0 = s.res0 ∧ t.res1 = s.res1 ∧ t.res2 = s.res2)) ∧
  ∀ (s t : State) (a : HostAction) (rest : List HostAction), s.host = a :: rest → a ≠ .releaseReset →
    (∀ v, a ≠ .writeReg 8 0x00 v) → step s = .next t → t.res0 = s.res0 ∧ t.res1 = s.res1 ∧ t.res2 = s.res2

/-- Derived (20_memory.md R72): only WBITS, WFINISH, ENCODE and DECODE may change DMEM; no command changes the
parameters, the draw of DMEM, reset or the host's part. -/
def Obligations.OnlyFourCommandsWriteDmem : Prop :=
  ∀ (i : Instr) (s t : State), exec i s = .next t →
    (writesDmem i = false → t.dmem = s.dmem) ∧ t.params = s.params ∧ t.draw = s.draw ∧ t.inReset = s.inReset ∧
    t.host = s.host ∧ t.saw = s.saw

/-- 10_state.md R53: a valid model slot is changed by no command but MFREE, which invalidates it. -/
def Obligations.ValidModelsAreNeverChanged : Prop :=
  ∀ (s t : State) (j : Nat) (m : Model), s.models[j]? = some (some m) →
    (∀ i : Instr, exec i s = .next t → i ≠ .mfree j → t.models[j]? = some (some m)) ∧
    (exec (.mfree j) s = .next t → t.models[j]? = some none)

/-- Derived (60_exceptions.md R303; 20_memory.md R86): a builder or model slot changes only by a command that names it as
the slot it works on. -/
def Obligations.SlotsChangeOnlyByCommandsThatNameThem : Prop :=
  ∀ (i : Instr) (s t : State) (k : Nat), exec i s = .next t →
    (changesBuilder k i = false → t.builders[k]? = s.builders[k]?) ∧
    (changesModel k i = false → t.models[k]? = s.models[k]?)

/-- 44_codec.md R257: ENCODE and DECODE neither read nor change the writer and the reader. Beyond that rule: the writer
changes only by its three commands, the reader only by RINIT and RADV. -/
def Obligations.WriterAndReaderAreLeftAlone : Prop :=
  (∀ (i : Instr) (s t : State), exec i s = .next t →
    (isWriterCommand i = false → t.writer = s.writer) ∧ (movesReader i = false → t.reader = s.reader)) ∧
  ∀ (s t : State) (j : Nat) (w : Writer) (r : Reader) (i : Instr), i = .encode j ∨ i = .decode j →
    exec i s = .next t →
    exec i { s with writer := w, reader := r } = .next { t with writer := w, reader := r }

/-- Derived (60_exceptions.md R290 code 9, R291): every command on a unit or slot in the wrong state raises StateError
with its opcode. -/
def Obligations.WrongStateRaisesStateError : Prop :=
  ∀ s : State,
    (s.writer.mode = .idle → Raises .wfinish s .stateError 0x03 ∧ ∀ w, Raises (.wbits w) s .stateError 0x02) ∧
    (s.reader.isOpen = false → ∀ n, Raises (.rpeek n) s .stateError 0x05 ∧ Raises (.rmatch n) s .stateError 0x06 ∧
      Raises (.radv n) s .stateError 0x07) ∧
    (∀ k bd, s.builders[k]? = some bd → bd.mode ≠ .active →
      Raises (.bscan k) s .stateError 0x09 ∧ Raises (.bline k) s .stateError 0x0A ∧
      Raises (.bscanln k) s .stateError 0x0B ∧ Raises (.bscanbuf k) s .stateError 0x0C ∧
      ∀ x, x < 2 → Raises (.bmerge k x) s .stateError 0x0D ∧ Raises (.bmerge x k) s .stateError 0x0D ∧
        Raises (.bbuild k x) s .stateError 0x0F) ∧
    (∀ k, k < 2 → Raises (.bmerge k k) s .stateError 0x0D) ∧
    (∀ j m, s.models[j]? = some (some m) → Raises (.hbuild j) s .stateError 0x10 ∧
      ∀ k, k < 2 → Raises (.bbuild k j) s .stateError 0x0F) ∧
    (∀ j, s.models[j]? = some none →
      Raises (.encode j) s .stateError 0x11 ∧ Raises (.decode j) s .stateError 0x12 ∧
      Raises (.minfo j) s .stateError 0x13 ∧ Raises (.mentry j) s .stateError 0x14 ∧
      Raises (.mlookup j) s .stateError 0x15)

/-- 45_system.md R280: the word 0 is NOP, which clears LAST_ERR and changes nothing else. -/
def Obligations.NopOnlyClearsLastErr : Prop :=
  Sys2Proof.decode 0x00000000 = .ok .nop ∧
  ∀ s : State, exec .nop s = .next { s with status := { s.status with lastErr := none } }

/-! ### Bit writer -/

/-- 40_bitwriter.md R130: WINIT opens an empty stream over an existing region, in any writer state, and touches nothing
else; a region that does not exist raises AddressError. -/
def Obligations.WinitOpensAStream : Prop :=
  Sys2Proof.decode 0x00000001 = .ok .winit ∧
  ∀ s : State,
    (s.op0.toNat + s.op1.toNat ≤ s.params.dmemSize →
      exec .winit s = .next { s with
        writer := { mode := .opened, base := s.op0, cap := s.op1, words := 0, acc := 0, free := 64, finalLen := 0 }
        status := { s.status with lastErr := none } }) ∧
    (s.params.dmemSize < s.op0.toNat + s.op1.toNat → Raises .winit s .address s.op0)

/-- Derived (40_bitwriter.md R131, R132; 20_memory.md R75): on an open stream with room, WBITS appends the low w bits of
OP0 to the stream (stored words and accumulator together), stores only to the current word's eight bytes, and only when
the field completes it; nothing else changes. -/
def Obligations.WbitsAppendsToTheStream : Prop :=
  ∀ (s : State) (w : Nat), s.writer.Ok s.params.dmemSize → s.writer.mode = .opened → w ≤ 64 →
    s.writer.total + w ≤ 8 * s.writer.cap.toNat →
    ∃ t, exec (.wbits w) s = .next t ∧
      t = { s with writer := t.writer, dmem := t.dmem, status := { s.status with lastErr := none } } ∧
      t.writtenBits = s.writtenBits ++ bitsOf w s.op0.toNat ∧
      t.writer = { s.writer with words := t.writer.words, acc := t.writer.acc, free := t.writer.free } ∧
      t.writer.total = s.writer.total + w ∧
      (w < s.writer.free → t.dmem = s.dmem) ∧
      ∀ a, ¬inRegion a s.writer.wordAddr 8 → t.readByte a = s.readByte a

/-- Derived (40_bitwriter.md R131): the width is checked before the closed stream, and a closed stream before a zero
width. -/
def Obligations.WbitsChecksWidthThenClosed : Prop :=
  ∀ (s : State) (w : Nat), s.writer.mode ≠ .idle → w < 128 →
    (64 < w → Raises (.wbits w) s .bitWidth (BitVec.ofNat 64 w)) ∧
    (w ≤ 64 → s.writer.mode = .closed → Raises (.wbits w) s .writerClosed 0)

/-- Derived (40_bitwriter.md R133, R134): WFINISH stores the last, partial bytes, after which the region holds the whole
stream followed by zero bits, and reports its byte and bit lengths; a second WFINISH writes nothing and reports the
same. The lengths are stated where they fit 64 bits (log 3 otherwise). -/
def Obligations.WfinishStoresAndReportsTheStream : Prop :=
  ∀ s : State, s.writer.Ok s.params.dmemSize → s.writer.total < 2 ^ 64 →
    (s.writer.mode = .opened →
      ∃ t, exec .wfinish s = .next t ∧
        t = { s with
          writer := { s.writer with mode := .closed, finalLen := (s.writer.total + 7) / 8 }
          dmem := t.dmem
          res0 := BitVec.ofNat 64 ((s.writer.total + 7) / 8)
          res1 := BitVec.ofNat 64 s.writer.total
          status := { s.status with lastErr := none } } ∧
        t.streamBits s.writer.base.toNat ((s.writer.total + 7) / 8) 0 s.writer.total = s.writtenBits ∧
        (∀ b, s.writer.total ≤ b → t.streamBit s.writer.base.toNat ((s.writer.total + 7) / 8) b = false) ∧
        ∀ a, ¬inRegion a s.writer.wordAddr ((s.writer.total + 7) / 8 - 8 * s.writer.words) →
          t.readByte a = s.readByte a) ∧
    (s.writer.mode = .closed →
      exec .wfinish s = .next { s with
        res0 := BitVec.ofNat 64 ((s.writer.total + 7) / 8)
        res1 := BitVec.ofNat 64 s.writer.total
        status := { s.status with lastErr := none } })

/-- 40_bitwriter.md R135: a field that does not fit the capacity raises CapacityError with the bit length the stream
would have had and leaves the stream unchanged, and no writer command ever writes a byte outside (W_BASE, W_CAP). -/
def Obligations.WriterStaysInItsRegion : Prop :=
  (∀ (s : State) (w : Nat), s.writer.mode = .opened → 1 ≤ w → w ≤ 64 →
    8 * s.writer.cap.toNat < s.writer.total + w → s.writer.total + w < 2 ^ 64 →
    Raises (.wbits w) s .capacity (BitVec.ofNat 64 (s.writer.total + w))) ∧
  ∀ (s t : State) (i : Instr) (a : Nat), isWriterCommand i = true → s.writer.Ok s.params.dmemSize →
    exec i s = .next t → ¬inRegion a s.writer.base.toNat s.writer.cap.toNat → t.readByte a = s.readByte a

/-! ### Bit reader -/

/-- 41_bitreader.md R150: RINIT opens a reader at bit 0 of a non-empty region; an empty one raises InputEmptyError, then
one that does not exist AddressError, and the reader is kept. -/
def Obligations.RinitOpensAReader : Prop :=
  Sys2Proof.decode 0x00000004 = .ok .rinit ∧
  ∀ s : State,
    (s.op1 = 0 → Raises .rinit s .inputEmpty 0) ∧
    (s.op1 ≠ 0 → s.params.dmemSize < s.op0.toNat + s.op1.toNat → Raises .rinit s .address s.op0) ∧
    (s.op1 ≠ 0 → s.op0.toNat + s.op1.toNat ≤ s.params.dmemSize →
      exec .rinit s = .next { s with
        reader := { isOpen := true, base := s.op0, len := s.op1, pos := 0 }
        status := { s.status with lastErr := none } })

/-- 41_bitreader.md R152: RPEEK returns the next n bits as a right-aligned value, the first bit the highest, and changes
RES0 alone; a closed reader raises StateError, then n > 64 BitWidthError. -/
def Obligations.RpeekReturnsTheNextBits : Prop :=
  ∀ (s : State) (n : Nat), n < 128 →
    Sys2Proof.encode (.rpeek n) = BitVec.ofNat 32 (0x05 + n * 2 ^ 14) ∧
    (s.reader.isOpen = true → n ≤ 64 →
      ∃ v : Word, exec (.rpeek n) s = .next { s with res0 := v, status := { s.status with lastErr := none } } ∧
        v.toNat < 2 ^ n ∧
        ∀ b, b < n → v.toNat.testBit (n - 1 - b) =
          s.streamBit s.reader.base.toNat s.reader.len.toNat (s.reader.pos + b)) ∧
    (s.reader.isOpen = false → Raises (.rpeek n) s .stateError 0x05) ∧
    (s.reader.isOpen = true → 64 < n → Raises (.rpeek n) s .bitWidth (BitVec.ofNat 64 n))

/-- 41_bitreader.md R154: RMATCH sets RES0 to 1 exactly when the next n bits are the low n bits of OP0, and changes
nothing else; the errors are RPEEK's. -/
def Obligations.RmatchComparesTheNextBits : Prop :=
  ∀ (s : State) (n : Nat), n < 128 →
    Sys2Proof.encode (.rmatch n) = BitVec.ofNat 32 (0x06 + n * 2 ^ 14) ∧
    (s.reader.isOpen = true → n ≤ 64 →
      exec (.rmatch n) s = .next { s with
        res0 :=
          if ∀ b < n, s.streamBit s.reader.base.toNat s.reader.len.toNat (s.reader.pos + b) =
            s.op0.getLsbD (n - 1 - b) then 1 else 0
        status := { s.status with lastErr := none } }) ∧
    (s.reader.isOpen = false → Raises (.rmatch n) s .stateError 0x06) ∧
    (s.reader.isOpen = true → 64 < n → Raises (.rmatch n) s .bitWidth (BitVec.ofNat 64 n))

/-- 41_bitreader.md R156: RADV moves R_POS by n within the data; past it ReadOverrunError is raised with the position that
would have been reached (stated where it fits 64 bits, log 3 otherwise). -/
def Obligations.RadvConsumesBits : Prop :=
  ∀ (s : State) (n : Nat), n < 128 →
    Sys2Proof.encode (.radv n) = BitVec.ofNat 32 (0x07 + n * 2 ^ 14) ∧
    (s.reader.isOpen = true → n ≤ 64 → s.reader.pos + n ≤ 8 * s.reader.len.toNat →
      exec (.radv n) s = .next { s with
        reader := { s.reader with pos := s.reader.pos + n }
        status := { s.status with lastErr := none } }) ∧
    (s.reader.isOpen = false → Raises (.radv n) s .stateError 0x07) ∧
    (s.reader.isOpen = true → 64 < n → Raises (.radv n) s .bitWidth (BitVec.ofNat 64 n)) ∧
    (s.reader.isOpen = true → n ≤ 64 → 8 * s.reader.len.toNat < s.reader.pos + n → s.reader.pos + n < 2 ^ 64 →
      Raises (.radv n) s .readOverrun (BitVec.ofNat 64 (s.reader.pos + n)))

/-! ### Context builder -/

/-- 42_context_builder.md R170: BINIT makes slot k an ACTIVE, empty builder of order OP0, whatever it held; an OP0 outside
1..3, compared in full, raises ModelConstructionError and leaves it. -/
def Obligations.BinitCreatesABuilder : Prop :=
  ∀ (s : State) (k : Nat), k < 2 →
    Sys2Proof.encode (.binit k) = BitVec.ofNat 32 (0x08 + k * 2 ^ 8) ∧
    (∀ x ∈ [(Order.one, 1), (.two, 2), (.three, 3)], s.op0.toNat = x.2 →
      exec (.binit k) s = .next { s with
        builders := s.builders.setIfInBounds k
          { mode := .active, order := x.1, win := [], flat := [], trie := [], lines := 0, skips := 0 }
        status := { s.status with lastErr := none } }) ∧
    (s.op0.toNat = 0 ∨ 3 < s.op0.toNat → Raises (.binit k) s .modelConstruction s.op0)

/-- Derived (42_context_builder.md R171, R172, R173; 00_scope.md R12): a value outside the alphabet (09, 0A, 0D, 20 to 7E)
is skipped: RES0 is 0, SKIPS is counted, SKIP_SEEN is set, LAST_ERR is 0 and nothing else changes; when SKIPS cannot grow
CountOverflowError is raised. -/
def Obligations.BscanSkipsOutsideTheAlphabet : Prop :=
  ∀ (s : State) (k : Nat) (bd : Builder), s.builders[k]? = some bd → bd.mode = .active →
    ¬(s.op0.toNat = 0x09 ∨ s.op0.toNat = 0x0A ∨ s.op0.toNat = 0x0D ∨ (0x20 ≤ s.op0.toNat ∧ s.op0.toNat ≤ 0x7E)) →
    (bd.skips.toNat + 1 < 2 ^ 64 →
      exec (.bscan k) s = .next { s with
        builders := s.builders.setIfInBounds k { bd with skips := bd.skips + 1 }
        res0 := 0
        status := { s.status with lastErr := none, skipSeen := true } }) ∧
    (bd.skips.toNat + 1 = 2 ^ 64 → Raises (.bscan k) s .countOverflow 0)

/-- Derived (42_context_builder.md R171, R172; 00_scope.md R12), for a slot as the invariant has it (`Builder.Ok`): a byte
of the alphabet (09, 0A, 0D, 20 to 7E) raises CountOverflowError when a count it would add to cannot grow: FLAT, PASS along
the new window, or EXACT of it. Else, when the nodes it needs do not fit TRIE_CAP, it raises ResourceError with TRIE_CAP,
which NODES then is. Else it is accepted: RES0 is 1, the slot changes as `Builder.Accepts` says and nothing else does. -/
def Obligations.BscanCountsAnAcceptedByte : Prop :=
  ∀ (s : State) (k : Nat) (bd : Builder), s.builders[k]? = some bd → bd.mode = .active → bd.Ok s.params.trieCap →
    (s.op0.toNat = 0x09 ∨ s.op0.toNat = 0x0A ∨ s.op0.toNat = 0x0D ∨ (0x20 ≤ s.op0.toNat ∧ s.op0.toNat ≤ 0x7E)) →
    ((flatCount bd.flat (s.op0.setWidth 8)).toNat + 1 = 2 ^ 64 ∨
        (∃ p, p ≠ [] ∧ p.isPrefixOf (bd.slid (s.op0.setWidth 8)) = true ∧
          (nodeCounts bd.trie p).pass.toNat + 1 = 2 ^ 64) ∨
        (nodeCounts bd.trie (bd.slid (s.op0.setWidth 8))).exact.toNat + 1 = 2 ^ 64 →
      Raises (.bscan k) s .countOverflow 0) ∧
    ((flatCount bd.flat (s.op0.setWidth 8)).toNat + 1 < 2 ^ 64 →
      (∀ p, p ≠ [] → p.isPrefixOf (bd.slid (s.op0.setWidth 8)) = true →
        (nodeCounts bd.trie p).pass.toNat + 1 < 2 ^ 64) →
      (nodeCounts bd.trie (bd.slid (s.op0.setWidth 8))).exact.toNat + 1 < 2 ^ 64 →
      (s.params.trieCap < bd.trie.length + bd.missing (bd.slid (s.op0.setWidth 8)) → s.params.trieCap < 2 ^ 64 →
        Raises (.bscan k) s .resource (BitVec.ofNat 64 s.params.trieCap)) ∧
      (bd.trie.length + bd.missing (bd.slid (s.op0.setWidth 8)) ≤ s.params.trieCap →
        ∃ bd' : Builder, bd.Accepts (s.op0.setWidth 8) bd' ∧
          exec (.bscan k) s = .next { s with
            builders := s.builders.setIfInBounds k bd'
            res0 := 1
            status := { s.status with lastErr := none } }))

/-- 42_context_builder.md R180: BLINE clears the window and counts a line; on a slot not ACTIVE it raises StateError, and
CountOverflowError when LINES cannot grow. -/
def Obligations.BlineEndsALine : Prop :=
  ∀ (s : State) (k : Nat) (bd : Builder), s.builders[k]? = some bd →
    Sys2Proof.encode (.bline k) = BitVec.ofNat 32 (0x0A + k * 2 ^ 8) ∧
    (bd.mode = .active → bd.lines.toNat + 1 < 2 ^ 64 →
      exec (.bline k) s = .next { s with
        builders := s.builders.setIfInBounds k { bd with win := [], lines := bd.lines + 1 }
        status := { s.status with lastErr := none } }) ∧
    (bd.mode ≠ .active → Raises (.bline k) s .stateError 0x0A) ∧
    (bd.mode = .active → bd.lines.toNat + 1 = 2 ^ 64 → Raises (.bline k) s .countOverflow 0)

/-- Derived (42_context_builder.md R182; 60_exceptions.md R294), for a slot as the invariant has it: a region that does not
exist raises AddressError. Else let `m` be the slot after a scan of all its bytes in order (`Builder.Scans`), within TRIE_CAP
(`Builder.Ok`), as there is one with room for OP1 scans: BSCANLN leaves `m` with the window cleared and one line more, reports
how many bytes are of the alphabet and how many not, and only the slot, SKIP_SEEN and RES0, RES1 change; when LINES cannot
grow, CountOverflowError. Else the first byte whose scan fails (`Builder.Refuses`) gives its error, and nothing is scanned. -/
def Obligations.BscanlnScansALine : Prop :=
  ∀ (s : State) (k : Nat) (bd : Builder) (bs : List Byte), s.builders[k]? = some bd → bd.mode = .active →
    bd.Ok s.params.trieCap → bs = s.readBytes s.op0.toNat s.op1.toNat →
    (s.params.dmemSize < s.op0.toNat + s.op1.toNat → Raises (.bscanln k) s .address s.op0) ∧
    (s.op0.toNat + s.op1.toNat ≤ s.params.dmemSize →
      (bd.Room s.params.trieCap s.op1.toNat → ∃ m : Builder, bd.Scans bs m ∧ m.Ok s.params.trieCap) ∧
      (∀ m : Builder, bd.Scans bs m → m.Ok s.params.trieCap →
        (bd.lines.toNat + 1 = 2 ^ 64 → Raises (.bscanln k) s .countOverflow 0) ∧
        (bd.lines.toNat + 1 < 2 ^ 64 →
          exec (.bscanln k) s = .next { s with
            builders := s.builders.setIfInBounds k { m with win := [], lines := bd.lines + 1 }
            res0 := BitVec.ofNat 64 (bs.countP fun b => decide (alphabetic b.toNat))
            res1 := BitVec.ofNat 64 (bs.countP fun b => decide ¬alphabetic b.toNat)
            status := { s.status with
              lastErr := none
              skipSeen := s.status.skipSeen || bs.any fun b => decide ¬alphabetic b.toNat } })) ∧
      ∀ (m : Builder) (n : Nat) (hn : n < bs.length) (e : ErrorKind) (info : Nat), bd.Scans (bs.take n) m →
        m.Ok s.params.trieCap → m.Refuses s.params.trieCap bs[n] e info → info < 2 ^ 64 →
        Raises (.bscanln k) s e (BitVec.ofNat 64 info))

/-- Derived (42_context_builder.md R184; 60_exceptions.md R294): BSCANBUF scans as BSCANLN does, with the same errors of the
region and of the first byte whose scan fails, but with no line boundary: LINES is unchanged and the window runs on. -/
def Obligations.BscanbufScansARegion : Prop :=
  ∀ (s : State) (k : Nat) (bd : Builder) (bs : List Byte), s.builders[k]? = some bd → bd.mode = .active →
    bd.Ok s.params.trieCap → bs = s.readBytes s.op0.toNat s.op1.toNat →
    (s.params.dmemSize < s.op0.toNat + s.op1.toNat → Raises (.bscanbuf k) s .address s.op0) ∧
    (s.op0.toNat + s.op1.toNat ≤ s.params.dmemSize →
      (bd.Room s.params.trieCap s.op1.toNat → ∃ m : Builder, bd.Scans bs m ∧ m.Ok s.params.trieCap) ∧
      (∀ m : Builder, bd.Scans bs m → m.Ok s.params.trieCap →
        m.lines = bd.lines ∧
        exec (.bscanbuf k) s = .next { s with
          builders := s.builders.setIfInBounds k m
          res0 := BitVec.ofNat 64 (bs.countP fun b => decide (alphabetic b.toNat))
          res1 := BitVec.ofNat 64 (bs.countP fun b => decide ¬alphabetic b.toNat)
          status := { s.status with
            lastErr := none
            skipSeen := s.status.skipSeen || bs.any fun b => decide ¬alphabetic b.toNat } }) ∧
      ∀ (m : Builder) (n : Nat) (hn : n < bs.length) (e : ErrorKind) (info : Nat), bd.Scans (bs.take n) m →
        m.Ok s.params.trieCap → m.Refuses s.params.trieCap bs[n] e info → info < 2 ^ 64 →
        Raises (.bscanbuf k) s e (BitVec.ofNat 64 info))

/-- 42_context_builder.md R186: BINFO shows a slot in every state: B_STATE, ORDER, the window and NODES in the fields of
RES0, LINES in RES1, SKIPS in RES2; nothing else changes. -/
def Obligations.BinfoShowsTheSlot : Prop :=
  ∀ (s : State) (k : Nat) (bd : Builder), s.builders[k]? = some bd → bd.win.length ≤ 3 → bd.trie.length < 2 ^ 32 →
    Sys2Proof.encode (.binfo k) = BitVec.ofNat 32 (0x0E + k * 2 ^ 8) ∧
    ∃ v : Word,
      exec (.binfo k) s = .next { s with
        res0 := v, res1 := bd.lines, res2 := bd.skips, status := { s.status with lastErr := none } } ∧
      (∀ x ∈ [(BuilderMode.empty, 0), (.active, 1), (.consumed, 2)], bd.mode = x.1 → v.toNat % 4 = x.2) ∧
      (∀ x ∈ [(Order.one, 1), (.two, 2), (.three, 3)], bd.order = x.1 → v.toNat / 2 ^ 2 % 4 = x.2) ∧
      v.toNat / 2 ^ 4 % 16 = bd.win.length ∧
      v.toNat / 2 ^ 8 % 256 = (bd.win.getD 0 0).toNat ∧ v.toNat / 2 ^ 16 % 256 = (bd.win.getD 1 0).toNat ∧
      v.toNat / 2 ^ 24 % 256 = (bd.win.getD 2 0).toNat ∧ v.toNat / 2 ^ 32 = bd.trie.length

/-- Derived (42_context_builder.md R188, and the model's choices of log 4 and log 5): unequal orders raise
ModelConstructionError with src's order. FLAT counts that add up to 2^64 or more raise CountOverflowError. Else, when the
nodes of src that dst lacks do not fit TRIE_CAP, ResourceError is raised with TRIE_CAP (log 5), or, where a count of a node
overflows too, one of the two errors (log 4). Else a count of a node, LINES or SKIPS that overflows raises
CountOverflowError. Else BMERGE adds every count of src to dst's, copies the nodes dst lacks, keeps dst's window and leaves
src. -/
def Obligations.BmergeAddsTheCounts : Prop :=
  ∀ (s : State) (dst src : Nat) (d r : Builder), s.builders[dst]? = some d → s.builders[src]? = some r → dst ≠ src →
    d.mode = .active → r.mode = .active →
    (d.order ≠ r.order → Raises (.bmerge dst src) s .modelConstruction (BitVec.ofNat 64 r.order.toNat)) ∧
    (d.order = r.order → mapSorted byteLt r.flat = true → mapSorted seqLt r.trie = true →
      (d.FlatOverflows r → Raises (.bmerge dst src) s .countOverflow 0) ∧
      (¬d.FlatOverflows r → d.trie.length ≤ s.params.trieCap → s.params.trieCap < d.trie.length + d.lacks r →
        s.params.trieCap < 2 ^ 64 →
        (¬d.TrieOverflows r → Raises (.bmerge dst src) s .resource (BitVec.ofNat 64 s.params.trieCap)) ∧
        (d.TrieOverflows r → Raises (.bmerge dst src) s .countOverflow 0 ∨
          Raises (.bmerge dst src) s .resource (BitVec.ofNat 64 s.params.trieCap))) ∧
      (¬d.FlatOverflows r → d.lacks r = 0 ∨ d.trie.length + d.lacks r ≤ s.params.trieCap →
        (d.TrieOverflows r ∨ 2 ^ 64 ≤ d.lines.toNat + r.lines.toNat ∨ 2 ^ 64 ≤ d.skips.toNat + r.skips.toNat →
          Raises (.bmerge dst src) s .countOverflow 0) ∧
        (¬d.TrieOverflows r → d.lines.toNat + r.lines.toNat < 2 ^ 64 → d.skips.toNat + r.skips.toNat < 2 ^ 64 →
          ∃ d' : Builder,
            exec (.bmerge dst src) s = .next { s with
              builders := s.builders.setIfInBounds dst d'
              status := { s.status with lastErr := none } } ∧
            d' = { d with
              flat := d'.flat, trie := d'.trie, lines := d.lines + r.lines, skips := d.skips + r.skips } ∧
            (∀ b, (flatCount d'.flat b).toNat = (flatCount d.flat b).toNat + (flatCount r.flat b).toNat) ∧
            (∀ p, (nodeCounts d'.trie p).pass.toNat =
              (nodeCounts d.trie p).pass.toNat + (nodeCounts r.trie p).pass.toNat) ∧
            (∀ p, (nodeCounts d'.trie p).exact.toNat =
              (nodeCounts d.trie p).exact.toNat + (nodeCounts r.trie p).exact.toNat) ∧
            ∀ p, mapGet p d'.trie ≠ none ↔ mapGet p d.trie ≠ none ∨ mapGet p r.trie ≠ none)))

/-- Derived (42_context_builder.md R190, the spec's own inference): merging two shards gives the FLAT and the TRIE of one
builder that scanned both with a line boundary at the join. -/
def Obligations.MergedShardsEqualOneScan : Prop :=
  ∀ (cap : Nat) (o : Order) (xs ys : List Byte) (a b c : ScanResult) (m l : Builder),
    scanBytes cap xs ⟨Builder.fresh o, 0, 0⟩ = .ok a → scanBytes cap ys ⟨Builder.fresh o, 0, 0⟩ = .ok b →
    mergeBuilders cap a.builder b.builder = .ok m →
    markLine a.builder = .ok l → scanBytes cap ys ⟨l, 0, 0⟩ = .ok c →
    m.flat = c.builder.flat ∧ m.trie = c.builder.trie ∧ m.skips = c.builder.skips

/-- Derived (42_context_builder.md R175, the spec's own inference): from an empty window on, the window holds the last
min(ORDER, c) of the c accepted bytes, oldest first. -/
def Obligations.WindowHoldsTheLastAcceptedBytes : Prop :=
  ∀ (cap : Nat) (bs : List Byte) (bd : Builder) (r : ScanResult), bd.win = [] → scanBytes cap bs ⟨bd, 0, 0⟩ = .ok r →
    r.builder.win = (bs.filter fun b => decide (alphabetic b.toNat)).drop
      ((bs.filter fun b => decide (alphabetic b.toNat)).length - bd.order.toNat)

/-! ### Huffman build and models -/

/-- Derived (43_huffman.md R216, which the spec marks as an inference, its equality as general knowledge, and R217, general
knowledge too): the codes of a build from a map of distinct symbols are prefix-free, with at least two entries the tree is
full, and a symbol of higher frequency has no longer code than one of lower. -/
def Obligations.BuiltCodesArePrefixFree : Prop :=
  ∀ (f : FreqMap) (es : List Entry), (f.map (·.1)).Nodup → huff f = .ok es →
    es.Pairwise codesApart ∧ (2 ≤ es.length → (es.map fun e => 2 ^ (64 - e.length)).sum = 2 ^ 64) ∧
    ∀ a ∈ es, ∀ b ∈ es, b.freq.toNat < a.freq.toNat → a.length ≤ b.length

/-- 43_huffman.md R211, R213, R215: the entries stand in the order of the map after the zero drop, each with its symbol, its
source frequency, its width class, and a code of 1 to 64 bits that fits its length; and, of two entries or more, each code
is the path to its symbol, first bit most significant, in the tree that the map gives by the tie rules (`HuffTree`). -/
def Obligations.BuiltEntriesKeepTheMapsOrder : Prop :=
  ∀ (f : FreqMap) (es : List Entry), huff f = .ok es →
    es.map (fun e => (e.sym, e.freq)) = f.filter (fun p => p.2 != 0) ∧
    (∀ e ∈ es, e.width = (if e.sym.toNat < 2 ^ 8 then 1 else if e.sym.toNat < 2 ^ 16 then 2 else 3) ∧
      1 ≤ e.length ∧ e.length ≤ 64 ∧ e.value.toNat < 2 ^ e.length) ∧
    ∃ root, HuffTree (f.filter fun p => p.2 != 0) root ∧
      (2 ≤ es.length → ∀ e ∈ es, ∃ path : List Bool, root.symAt path = some e.sym ∧ path.length = e.length ∧
        ∀ i (h : i < path.length), path[i] = e.value.getLsbD (path.length - 1 - i))

/-- 43_huffman.md R212: a map of one symbol gives it the code value 0, length 1. -/
def Obligations.SingleSymbolGetsTheCodeZero : Prop :=
  ∀ (x : Sym) (f : Word), f ≠ 0 →
    huff [(x, f)] = .ok [{ sym := x, width := (symBytes x).length, value := 0, length := 1, freq := f }]

/-- Derived (43_huffman.md R214, R220; 42_context_builder.md R200), for an ACTIVE builder and an invalid model slot: a map past
DICT_CAP raises ResourceError with its size, a weight past 64 bits CountOverflowError. Else, when no leaf of the map's
tree lies deeper than 64, BBUILD stores the model of `huff`, consumes the builder and reports the entries, the longest code
and the weight, and nothing else changes; else CodeTooLongError is raised with the first length past 64. -/
def Obligations.BbuildBuildsAndConsumes : Prop :=
  ∀ (s : State) (k j : Nat) (bd : Builder), s.builders[k]? = some bd → bd.mode = .active → s.models[j]? = some none →
    bd.Ok s.params.trieCap →
    (s.params.dictCap < bd.freqMap.length → bd.freqMap.length < 2 ^ 64 →
      Raises (.bbuild k j) s .resource (BitVec.ofNat 64 bd.freqMap.length)) ∧
    (bd.freqMap.length ≤ s.params.dictCap →
      (2 ^ 64 ≤ (bd.freqMap.map fun p => p.2.toNat).sum → Raises (.bbuild k j) s .countOverflow 0) ∧
      ((bd.freqMap.map fun p => p.2.toNat).sum < 2 ^ 64 →
        ((∀ root, HuffTree bd.freqMap root → root.depth ≤ 64) →
          ∃ es n, huff bd.freqMap = .ok es ∧ (∀ e ∈ es, e.length ≤ n) ∧ (∃ e ∈ es, e.length = n) ∧
            exec (.bbuild k j) s = .next { s with
              builders := s.builders.setIfInBounds k
                { mode := .consumed, order := bd.order, win := [], flat := [], trie := [], lines := 0, skips := 0 }
              models := s.models.setIfInBounds j (some { order := bd.order, entries := es })
              res0 := BitVec.ofNat 64 es.length
              res1 := BitVec.ofNat 64 n
              res2 := BitVec.ofNat 64 (bd.freqMap.map fun p => p.2.toNat).sum
              status := { s.status with lastErr := none } }) ∧
        ∀ l, FirstTooLong bd.freqMap l → l < 2 ^ 64 → Raises (.bbuild k j) s .codeTooLong (BitVec.ofNat 64 l)))

/-- Derived (42_context_builder.md R200 to R204; 43_huffman.md R220 "EOF presence"): the map of a slot holds, in the order of
`Builder.mapSymbols`, EOF with max(LINES, 1), every leaf with its EXACT, which takes the place of a one-byte leaf's flat
count, and every other counted byte with its flat count; and every model BBUILD builds has an entry for EOF, of frequency
max(LINES, 1). -/
def Obligations.EveryBbuildModelHasAnEofCode : Prop :=
  ∀ (s : State) (k : Nat) (bd : Builder), s.builders[k]? = some bd → bd.Ok s.params.trieCap →
    bd.freqMap.map (fun p => p.1.toNat) = bd.mapSymbols ∧
    (∀ p ∈ bd.freqMap, p.1 = 255 → p.2.toNat = max bd.lines.toNat 1) ∧
    (∀ x ∈ bd.trie, bd.childless x.1 = true → (BitVec.ofNat 24 (seqValue x.1), x.2.exact) ∈ bd.freqMap) ∧
    (∀ b : Byte, flatCount bd.flat b ≠ 0 → (mapGet [b] bd.trie = none ∨ bd.childless [b] = false) →
      (BitVec.ofNat 24 b.toNat, flatCount bd.flat b) ∈ bd.freqMap) ∧
    ∀ (t : State) (j : Nat), j < 2 → exec (.bbuild k j) s = .next t → t.status.lastErr = none →
      ∃ m e, t.models[j]? = some (some m) ∧ e ∈ m.entries ∧ e.sym = 255 ∧ e.freq.toNat = max bd.lines.toNat 1

/-- Derived (43_huffman.md R225, R226; 20_memory.md R73): OP1 entries of 16 bytes stand from OP0 on, the symbol in bytes 0 to
3 and the frequency in bytes 8 to 15, lowest byte first. When their symbols are distinct and valid for the order, some
frequency is not 0, the rest fits DICT_CAP and 64 bits of weight, and no leaf of their tree lies deeper than 64, HBUILD
stores the model of the nonzero ones and reports it; nothing else changes. -/
def Obligations.HbuildBuildsFromDmem : Prop :=
  ∀ (s : State) (j : Nat) (o : Order) (xs : FreqMap), s.models[j]? = some none → s.op2.toNat = o.toNat →
    s.op0.toNat + 16 * s.op1.toNat ≤ s.params.dmemSize → xs.length = s.op1.toNat →
    (∀ n (h : n < xs.length), s.leWord (s.op0.toNat + 16 * n) 4 = (xs[n]).1.toNat ∧
      s.leWord (s.op0.toNat + 16 * n + 8) 8 = (xs[n]).2.toNat) →
    (∀ p ∈ xs, symOk o p.1) → (xs.map (·.1)).Nodup →
    1 ≤ (xs.filter fun p => p.2 != 0).length → (xs.filter fun p => p.2 != 0).length ≤ s.params.dictCap →
    (xs.map fun p => p.2.toNat).sum < 2 ^ 64 →
    (∀ root, HuffTree (xs.filter fun p => p.2 != 0) root → root.depth ≤ 64) →
    ∃ es n, huff xs = .ok es ∧ (∀ e ∈ es, e.length ≤ n) ∧ (∃ e ∈ es, e.length = n) ∧
      exec (.hbuild j) s = .next { s with
        models := s.models.setIfInBounds j (some { order := o, entries := es })
        res0 := BitVec.ofNat 64 es.length
        res1 := BitVec.ofNat 64 n
        res2 := BitVec.ofNat 64 (xs.map fun p => p.2.toNat).sum
        status := { s.status with lastErr := none } }

/-- Derived (43_huffman.md R214, R225, R226, R227): HBUILD refuses an order outside 1..3 first, then a region that does not exist,
then the first entry whose symbol is not valid for the order or stands in an earlier entry, then a map of more nonzero
entries than DICT_CAP, one of none, one of more weight than 64 bits, and one with a code longer than 64 bits. -/
def Obligations.HbuildRefusesBadOperands : Prop :=
  ∀ (s : State) (j : Nat), s.models[j]? = some none →
    (s.op2.toNat = 0 ∨ 3 < s.op2.toNat → Raises (.hbuild j) s .modelConstruction s.op2) ∧
    ∀ o : Order, s.op2.toNat = o.toNat →
      (s.params.dmemSize < s.op0.toNat + 16 * s.op1.toNat → Raises (.hbuild j) s .address s.op0) ∧
      (s.op0.toNat + 16 * s.op1.toNat ≤ s.params.dmemSize →
        (∀ (xs : List Sym) (x : Nat), xs.length < s.op1.toNat →
          (∀ n (h : n < xs.length), s.leWord (s.op0.toNat + 16 * n) 4 = (xs[n]).toNat) →
          (∀ y ∈ xs, symOk o y) → xs.Nodup → s.leWord (s.op0.toNat + 16 * xs.length) 4 = x →
          (2 ^ 24 ≤ x ∨ ¬symOk o (BitVec.ofNat 24 x) ∨ ∃ y ∈ xs, y.toNat = x) →
          Raises (.hbuild j) s .modelConstruction (BitVec.ofNat 64 x)) ∧
        ∀ xs : FreqMap, xs.length = s.op1.toNat →
          (∀ n (h : n < xs.length), s.leWord (s.op0.toNat + 16 * n) 4 = (xs[n]).1.toNat ∧
            s.leWord (s.op0.toNat + 16 * n + 8) 8 = (xs[n]).2.toNat) →
          (∀ p ∈ xs, symOk o p.1) → (xs.map (·.1)).Nodup →
          (s.params.dictCap < (xs.filter fun p => p.2 != 0).length →
            Raises (.hbuild j) s .resource (BitVec.ofNat 64 (xs.filter fun p => p.2 != 0).length)) ∧
          ((∀ p ∈ xs, p.2 = 0) → Raises (.hbuild j) s .modelConstruction 0) ∧
          ((xs.filter fun p => p.2 != 0).length ≤ s.params.dictCap →
            (2 ^ 64 ≤ (xs.map fun p => p.2.toNat).sum → Raises (.hbuild j) s .countOverflow 0) ∧
            ((xs.map fun p => p.2.toNat).sum < 2 ^ 64 → ∀ l, FirstTooLong (xs.filter fun p => p.2 != 0) l → l < 2 ^ 64 →
              Raises (.hbuild j) s .codeTooLong (BitVec.ofNat 64 l))))

/-- 43_huffman.md R230: MINFO reports the number of entries, the longest code and the order, and the weight of a valid
model, and changes nothing else; on an invalid slot it raises StateError. -/
def Obligations.MinfoReportsTheModel : Prop :=
  ∀ (s : State) (j : Nat), (j < 2 → Sys2Proof.encode (.minfo j) = BitVec.ofNat 32 (0x13 + j * 2 ^ 8)) ∧
    (∀ m n, s.models[j]? = some (some m) → m.weight < 2 ^ 64 → (∀ e ∈ m.entries, e.length ≤ n) →
      (∃ e ∈ m.entries, e.length = n) → n ≤ 64 →
      exec (.minfo j) s = .next { s with
        res0 := BitVec.ofNat 64 m.entries.length
        res1 := BitVec.ofNat 64 (n + m.order.toNat * 2 ^ 8)
        res2 := BitVec.ofNat 64 (m.entries.map fun e => e.freq.toNat).sum
        status := { s.status with lastErr := none } }) ∧
    (s.models[j]? = some none → Raises (.minfo j) s .stateError 0x13)

/-- 43_huffman.md R231: MENTRY reports entry number OP0, or three zeros past the last one, and changes nothing else; on an
invalid slot it raises StateError. -/
def Obligations.MentryReportsAnEntry : Prop :=
  ∀ (s : State) (j : Nat), (j < 2 → Sys2Proof.encode (.mentry j) = BitVec.ofNat 32 (0x14 + j * 2 ^ 8)) ∧
    (∀ m e, s.models[j]? = some (some m) → m.entries[s.op0.toNat]? = some e → e.width < 2 ^ 8 → e.length ≤ 64 →
      exec (.mentry j) s = .next { s with
        res0 := BitVec.ofNat 64 (e.sym.toNat + e.width * 2 ^ 24 + e.length * 2 ^ 32)
        res1 := e.value
        res2 := e.freq
        status := { s.status with lastErr := none } }) ∧
    (∀ m, s.models[j]? = some (some m) → m.entries.length ≤ s.op0.toNat →
      exec (.mentry j) s = .next { s with
        res0 := 0, res1 := 0, res2 := 0, status := { s.status with lastErr := none } }) ∧
    (s.models[j]? = some none → Raises (.mentry j) s .stateError 0x14)

/-- 43_huffman.md R234: MLOOKUP reports the entry of symbol OP0, compared as a full 64-bit value, or three zeros for a
symbol the model lacks, and changes nothing else; on an invalid slot it raises StateError. -/
def Obligations.MlookupReportsASymbol : Prop :=
  ∀ (s : State) (j : Nat), (j < 2 → Sys2Proof.encode (.mlookup j) = BitVec.ofNat 32 (0x15 + j * 2 ^ 8)) ∧
    (∀ m e, s.models[j]? = some (some m) → (m.entries.map (·.sym)).Nodup → e ∈ m.entries →
      e.sym.toNat = s.op0.toNat → e.width < 2 ^ 8 → e.length ≤ 64 →
      exec (.mlookup j) s = .next { s with
        res0 := BitVec.ofNat 64 (e.sym.toNat + e.width * 2 ^ 24 + e.length * 2 ^ 32)
        res1 := e.value
        res2 := e.freq
        status := { s.status with lastErr := none } }) ∧
    (∀ m, s.models[j]? = some (some m) → (∀ e ∈ m.entries, e.sym.toNat ≠ s.op0.toNat) →
      exec (.mlookup j) s = .next { s with
        res0 := 0, res1 := 0, res2 := 0, status := { s.status with lastErr := none } }) ∧
    (s.models[j]? = some none → Raises (.mlookup j) s .stateError 0x15)

/-- 43_huffman.md R236: MFREE invalidates the slot, valid or not, raises nothing and changes nothing else. -/
def Obligations.MfreeInvalidatesASlot : Prop :=
  ∀ (s : State) (j : Nat), j < 2 →
    Sys2Proof.encode (.mfree j) = BitVec.ofNat 32 (0x16 + j * 2 ^ 8) ∧
    exec (.mfree j) s = .next { s with
      models := s.models.setIfInBounds j none
      status := { s.status with lastErr := none } }

/-! ### Codec -/

/-- Derived (44_codec.md R250, R254, R255): when the greedy tokens of the input and the EOF code fit the capacity, ENCODE
writes their codes, zero bits to a byte boundary, and no byte past them, and reports the byte and bit lengths; nothing else
changes. With a one-byte entry for every input byte, an EOF entry and the capacity of R254 there are such tokens. -/
def Obligations.EncodeWritesTheGreedyTokensAndEof : Prop :=
  ∀ (s : State) (j : Nat) (m : Model), s.models[j]? = some (some m) → m.Ok s.params.dictCap →
    s.op0.toNat + s.op1.toNat ≤ s.params.dmemSize → s.op2.toNat + s.op3.toNat ≤ s.params.dmemSize →
    ¬s.sharesByte → 8 * s.op3.toNat < 2 ^ 64 →
    (∀ (es : List Entry) (eof : Entry) (len : Nat), m.GreedyTokens es (s.readBytes s.op0.toNat s.op1.toNat) [] →
      eof ∈ m.entries → eof.sym = 255 → len = (codesOf (es ++ [eof])).length → len ≤ 8 * s.op3.toNat →
      ∃ t, exec (.encode j) s = .next t ∧
        t = { s with
          dmem := t.dmem
          res0 := BitVec.ofNat 64 ((len + 7) / 8)
          res1 := BitVec.ofNat 64 len
          status := { s.status with lastErr := none } } ∧
        t.streamBits s.op2.toNat ((len + 7) / 8) 0 len = codesOf (es ++ [eof]) ∧
        (∀ b, len ≤ b → t.streamBit s.op2.toNat ((len + 7) / 8) b = false) ∧
        ∀ a, ¬inRegion a s.op2.toNat ((len + 7) / 8) → t.readByte a = s.readByte a) ∧
    ∀ (eof : Entry) (n : Nat), eof ∈ m.entries → eof.sym = 255 → (∀ e ∈ m.entries, e.length ≤ n) →
      (∀ b ∈ s.readBytes s.op0.toNat s.op1.toNat, alphabetic b.toNat ∧ ∃ e ∈ m.entries, e.sym.toNat = b.toNat) →
      (s.op1.toNat + 1) * n ≤ 8 * s.op3.toNat →
      ∃ es, m.GreedyTokens es (s.readBytes s.op0.toNat s.op1.toNat) [] ∧
        (codesOf (es ++ [eof])).length ≤ 8 * s.op3.toNat

/-- Derived (44_codec.md R260 to R264): an empty input raises InputEmptyError, then a region that does not exist
AddressError, then a shared byte OverlapError. When the input begins, within its data, with the codes of some symbols whose
bytes fit the output: followed by the EOF code, DECODE writes the symbols' bytes and no other byte, reports how many and the
bit position reached, and nothing else changes; followed by no whole code within the data, it raises DecodingError at that
position; followed by a symbol that does not fit, CapacityError. -/
def Obligations.DecodeWritesTheSymbolsBytes : Prop :=
  ∀ (s : State) (j : Nat) (m : Model), s.models[j]? = some (some m) → m.Ok s.params.dictCap →
    (s.op1 = 0 → Raises (.decode j) s .inputEmpty 0) ∧
    (s.op1 ≠ 0 → s.params.dmemSize < s.op0.toNat + s.op1.toNat → Raises (.decode j) s .address s.op0) ∧
    (s.op1 ≠ 0 → s.op0.toNat + s.op1.toNat ≤ s.params.dmemSize →
      (s.params.dmemSize < s.op2.toNat + s.op3.toNat → Raises (.decode j) s .address s.op2) ∧
      (s.op2.toNat + s.op3.toNat ≤ s.params.dmemSize →
        (s.sharesByte → Raises (.decode j) s .overlap s.op2) ∧
        (¬s.sharesByte → 8 * s.op1.toNat < 2 ^ 64 →
          ∀ (es : List Entry) (out : List Byte) (pos : Nat), (∀ e ∈ es, e ∈ m.entries ∧ e.sym ≠ 255) →
            out = es.flatMap (fun e => symBytes e.sym) → pos = (codesOf es).length → pos ≤ 8 * s.op1.toNat →
            s.streamBits s.op0.toNat s.op1.toNat 0 pos = codesOf es → out.length ≤ s.op3.toNat →
            (∀ eof ∈ m.entries, eof.sym = 255 → pos + eof.length ≤ 8 * s.op1.toNat →
              s.streamBits s.op0.toNat s.op1.toNat pos eof.length = eof.bits →
              ∃ t, exec (.decode j) s = .next t ∧
                t = { s with
                  dmem := t.dmem
                  res0 := BitVec.ofNat 64 out.length
                  res1 := BitVec.ofNat 64 (pos + eof.length)
                  status := { s.status with lastErr := none } } ∧
                t.readBytes s.op2.toNat out.length = out ∧
                ∀ a, ¬inRegion a s.op2.toNat out.length → t.readByte a = s.readByte a) ∧
            ((∀ e ∈ m.entries, 8 * s.op1.toNat < pos + e.length ∨
                s.streamBits s.op0.toNat s.op1.toNat pos e.length ≠ e.bits) →
              Raises (.decode j) s .decoding (BitVec.ofNat 64 pos)) ∧
            ∀ e ∈ m.entries, e.sym ≠ 255 → pos + e.length ≤ 8 * s.op1.toNat →
              s.streamBits s.op0.toNat s.op1.toNat pos e.length = e.bits →
              s.op3.toNat < out.length + (symBytes e.sym).length → s.op3.toNat + 1 < 2 ^ 64 →
              Raises (.decode j) s .capacity (BitVec.ofNat 64 (s.op3.toNat + 1)))))

/-- Derived (44_codec.md R265, the spec's own inference): ENCODE of x, then DECODE of (OP2, RES0) from it into a region
with room that does not overlap, gives x back, RES0 = |x|, and RES1 the bit length ENCODE reported. -/
def Obligations.DecodeOfEncodeGivesTheInputBack : Prop :=
  ∀ (s : State) (j n : Nat) (m : Model), s.models[j]? = some (some m) → m.Ok s.params.dictCap →
    s.op0.toNat + s.op1.toNat ≤ s.params.dmemSize → s.op2.toNat + s.op3.toNat ≤ s.params.dmemSize →
    ¬s.sharesByte →
    (∀ b ∈ s.readBytes s.op0.toNat s.op1.toNat, alphabetic b.toNat ∧ ∃ e ∈ m.entries, e.sym.toNat = b.toNat) →
    (∃ e ∈ m.entries, e.sym = 255) → (∀ e ∈ m.entries, e.length ≤ n) →
    (s.op1.toNat + 1) * n ≤ 8 * s.op3.toNat → 8 * s.op3.toNat < 2 ^ 64 →
    ∃ t, exec (.encode j) s = .next t ∧ t.status.lastErr = none ∧
      ∀ outBase outCap : Word, outBase.toNat + outCap.toNat ≤ s.params.dmemSize → s.op1.toNat ≤ outCap.toNat →
        ¬{ t with op0 := s.op2, op1 := t.res0, op2 := outBase, op3 := outCap }.sharesByte →
        ∃ u, exec (.decode j) { t with op0 := s.op2, op1 := t.res0, op2 := outBase, op3 := outCap } = .next u ∧
          u.status.lastErr = none ∧ u.readBytes outBase.toNat s.op1.toNat = s.readBytes s.op0.toNat s.op1.toNat ∧
          u.res0 = s.op1 ∧ u.res1 = t.res1

/-- Derived (44_codec.md R250 to R254): the errors of ENCODE. A region that does not exist raises AddressError, the input
first, then a shared byte OverlapError. After greedy tokens that fit: a place with no token raises EncodingError at its
offset (a byte outside the alphabet, whatever the dictionary holds, among them), an input encoded to its end with no EOF
entry EncodingError at its length, and a code that does not fit CapacityError with the bit length reached. -/
def Obligations.ByteOutsideTheAlphabetStopsEncode : Prop :=
  ∀ (s : State) (j : Nat) (m : Model), s.models[j]? = some (some m) → m.Ok s.params.dictCap →
    (s.params.dmemSize < s.op0.toNat + s.op1.toNat → Raises (.encode j) s .address s.op0) ∧
    (s.op0.toNat + s.op1.toNat ≤ s.params.dmemSize →
      (s.params.dmemSize < s.op2.toNat + s.op3.toNat → Raises (.encode j) s .address s.op2) ∧
      (s.op2.toNat + s.op3.toNat ≤ s.params.dmemSize →
        (s.sharesByte → Raises (.encode j) s .overlap s.op2) ∧
        (¬s.sharesByte →
          (∀ (es : List Entry) (rest : List Byte), m.GreedyTokens es (s.readBytes s.op0.toNat s.op1.toNat) rest →
            (codesOf es).length ≤ 8 * s.op3.toNat →
            (rest ≠ [] → (∀ k e, ¬m.Token rest k e) →
              Raises (.encode j) s .encoding (BitVec.ofNat 64 (s.op1.toNat - rest.length))) ∧
            (rest = [] → (∀ e ∈ m.entries, e.sym ≠ 255) → Raises (.encode j) s .encoding s.op1) ∧
            ∀ e, (∃ k, m.Longest rest k e) ∨ (rest = [] ∧ e ∈ m.entries ∧ e.sym = 255) →
              8 * s.op3.toNat < (codesOf (es ++ [e])).length → (codesOf (es ++ [e])).length < 2 ^ 64 →
              Raises (.encode j) s .capacity (BitVec.ofNat 64 (codesOf (es ++ [e])).length)) ∧
          ∀ n l, n < s.op1.toNat → ¬alphabetic (s.readByte (s.op0.toNat + n)).toNat →
            (∀ b ∈ s.readBytes s.op0.toNat n, alphabetic b.toNat ∧ ∃ e ∈ m.entries, e.sym.toNat = b.toNat) →
            (∀ e ∈ m.entries, e.length ≤ l) → (s.op1.toNat + 1) * l ≤ 8 * s.op3.toNat →
            Raises (.encode j) s .encoding (BitVec.ofNat 64 n))))

/-! ### Invariants that every step keeps -/

/-- Derived (10_state.md R35; 20_memory.md R70, R71): every step, of a command or of the host, keeps STATUS consistent and
DMEM in canonical form within DMEM_SIZE. -/
def Obligations.StepKeepsStatusAndDmem : Prop :=
  ∀ s t : State, s.status.Ok → s.DmemOk → s.writer.Ok s.params.dmemSize → step s = .next t →
    t.status.Ok ∧ t.DmemOk ∧ t.params = s.params

/-- Derived (10_state.md R38, R42, R43): every step keeps the writer's and the reader's invariants. -/
def Obligations.StepKeepsWriterAndReader : Prop :=
  ∀ s t : State, s.writer.Ok s.params.dmemSize → s.reader.Ok s.params.dmemSize → step s = .next t →
    t.writer.Ok t.params.dmemSize ∧ t.reader.Ok t.params.dmemSize

/-- Derived (10_state.md R49; 42_context_builder.md R174, the spec's own inference): every step keeps every builder slot's
window and trie within ORDER, A and TRIE_CAP, every leaf ended at, and the sum of FLAT equal to the passes of depth 1. -/
def Obligations.StepKeepsTheBuilders : Prop :=
  ∀ s t : State, s.BuildersOk → step s = .next t → t.BuildersOk

/-- Derived (10_state.md R52; 43_huffman.md R216, R222, R227): every step keeps every valid model's symbols valid and
distinct, its codes prefix-free, its entries within DICT_CAP and its weight within 64 bits. -/
def Obligations.StepKeepsTheModels : Prop :=
  ∀ s t : State, s.BuildersOk → s.ModelsOk → step s = .next t → t.ModelsOk
end

