-- ==== Sys2Proof/Laws/Maps.lean ====
section
/-! SUPPORT. Sorted maps (DMEM, FLAT, TRIE): a read after a write, and the canonical form kept by every write. -/

namespace Sys2Proof.Machine

variable {κ ν : Type} [DecidableEq κ]

@[simp] theorem mapGet_nil (k : κ) : mapGet k ([] : List (κ × ν)) = none := rfl

theorem mapGet_cons (k : κ) (x : κ × ν) (m : List (κ × ν)) :
    mapGet k (x :: m) = if k = x.1 then some x.2 else mapGet k m := rfl

/-- The value just put is read. -/
@[simp] theorem mapGet_mapPut_same (lt : κ → κ → Bool) (k : κ) (v : ν) (m : List (κ × ν)) :
    mapGet k (mapPut lt k v m) = some v := by
  induction m with
  | nil => simp [mapPut, mapGet_cons]
  | cons x m ih =>
    simp only [mapPut]
    split
    · simp [mapGet_cons]
    · split
      · simp [mapGet_cons]
      · rename_i hne _
        simp [mapGet_cons, hne, ih]

/-- Every other key reads as before. -/
theorem mapGet_mapPut_other (lt : κ → κ → Bool) {k j : κ} (h : j ≠ k) (v : ν) (m : List (κ × ν)) :
    mapGet j (mapPut lt k v m) = mapGet j m := by
  induction m with
  | nil => simp [mapPut, mapGet_cons, h]
  | cons x m ih =>
    simp only [mapPut]
    split
    · rename_i hk
      subst hk
      simp [mapGet_cons, h]
    · split
      · simp [mapGet_cons, h]
      · simp [mapGet_cons, ih]

theorem mapGet_mapPut (lt : κ → κ → Bool) (k j : κ) (v : ν) (m : List (κ × ν)) :
    mapGet j (mapPut lt k v m) = if j = k then some v else mapGet j m := by
  split
  · rename_i h
    rw [h, mapGet_mapPut_same]
  · rename_i h
    exact mapGet_mapPut_other lt h v m

/-- What is put is a member, and every other member was one. -/
theorem mem_mapPut (lt : κ → κ → Bool) (k : κ) (v : ν) (m : List (κ × ν)) {x : κ × ν}
    (h : x ∈ mapPut lt k v m) : x = (k, v) ∨ x ∈ m := by
  induction m with
  | nil => simpa [mapPut] using h
  | cons y m ih =>
    simp only [mapPut] at h
    split at h
    · rcases List.mem_cons.1 h with h | h
      · exact .inl h
      · exact .inr (List.mem_cons_of_mem _ h)
    · split at h
      · exact List.mem_cons.1 h
      · rcases List.mem_cons.1 h with h | h
        · exact .inr (h ▸ List.mem_cons_self)
        · exact (ih h).imp_right (List.mem_cons_of_mem _)

/-- A key with a value is listed with it. -/
theorem mem_of_mapGet {k : κ} {v : ν} {m : List (κ × ν)} (h : mapGet k m = some v) : (k, v) ∈ m := by
  induction m with
  | nil => simp at h
  | cons y m ih =>
    rw [mapGet_cons] at h
    split at h
    · rename_i hk
      cases h
      subst hk
      exact List.mem_cons_self
    · exact List.mem_cons_of_mem _ (ih h)

/-- Putting a key adds one entry, unless it was listed. -/
theorem length_mapPut (lt : κ → κ → Bool) (k : κ) (v : ν) (m : List (κ × ν)) :
    (mapPut lt k v m).length = m.length ∨ (mapPut lt k v m).length = m.length + 1 := by
  induction m with
  | nil => simp [mapPut]
  | cons y m ih =>
    simp only [mapPut]
    split
    · simp
    · split
      · simp
      · simpa using ih

/-- A strict order that decides every two keys: what a canonical form needs of `lt`. -/
structure KeyOrder (lt : κ → κ → Bool) : Prop where
  irrefl : ∀ a, lt a a = false
  trans : ∀ a b c, lt a b = true → lt b c = true → lt a c = true
  total : ∀ a b, a ≠ b → lt a b = true ∨ lt b a = true

omit [DecidableEq κ] in
theorem mapSorted_tail {lt : κ → κ → Bool} {x : κ × ν} {m : List (κ × ν)} (h : mapSorted lt (x :: m) = true) :
    mapSorted lt m = true := by
  match m, h with
  | [], _ => rfl
  | y :: m, h =>
    simp only [mapSorted, Bool.and_eq_true] at h
    exact h.2

omit [DecidableEq κ] in
/-- In a canonical map the first key is below every other. -/
theorem mapSorted_head {lt : κ → κ → Bool} (hlt : KeyOrder lt) {k : κ} {v : ν} {m : List (κ × ν)}
    (h : mapSorted lt ((k, v) :: m) = true) : ∀ x ∈ m, lt k x.1 = true := by
  induction m generalizing k v with
  | nil => intro x hx; simp at hx
  | cons y m ih =>
    simp only [mapSorted, Bool.and_eq_true] at h
    intro x hx
    rcases List.mem_cons.1 hx with rfl | hx
    · exact h.1
    · exact hlt.trans _ _ _ h.1 (ih h.2 x hx)

omit [DecidableEq κ] in
theorem mapSorted_cons {lt : κ → κ → Bool} {k : κ} {v : ν} {m : List (κ × ν)} (hm : mapSorted lt m = true)
    (h : ∀ x ∈ m, lt k x.1 = true) : mapSorted lt ((k, v) :: m) = true := by
  match m, hm, h with
  | [], _, _ => rfl
  | y :: m, hm, h =>
    simp only [mapSorted, Bool.and_eq_true]
    exact ⟨h y List.mem_cons_self, hm⟩

/-- A write keeps the canonical form. -/
theorem mapSorted_mapPut {lt : κ → κ → Bool} (hlt : KeyOrder lt) (k : κ) (v : ν) {m : List (κ × ν)}
    (h : mapSorted lt m = true) : mapSorted lt (mapPut lt k v m) = true := by
  induction m with
  | nil => rfl
  | cons y m ih =>
    simp only [mapPut]
    split
    · rename_i hk
      exact mapSorted_cons (mapSorted_tail h) (by rw [hk]; exact mapSorted_head hlt h)
    · rename_i hk
      split
      · rename_i hlt'
        refine mapSorted_cons h ?_
        intro x hx
        rcases List.mem_cons.1 hx with rfl | hx
        · exact hlt'
        · exact hlt.trans _ _ _ hlt' (mapSorted_head hlt h x hx)
      · rename_i hnlt
        refine mapSorted_cons (ih (mapSorted_tail h)) ?_
        intro x hx
        rcases mem_mapPut lt k v m hx with rfl | hx
        · exact (hlt.total _ _ hk).resolve_left (by simpa using hnlt)
        · exact mapSorted_head hlt h x hx

/-- A key listed in a canonical map reads as listed. -/
theorem mapGet_of_mem {lt : κ → κ → Bool} (hlt : KeyOrder lt) {k : κ} {v : ν} {m : List (κ × ν)}
    (hm : mapSorted lt m = true) (h : (k, v) ∈ m) : mapGet k m = some v := by
  induction m with
  | nil => simp at h
  | cons y m ih =>
    rw [mapGet_cons]
    rcases List.mem_cons.1 h with h | h
    · simp [← h]
    · have hlt' := mapSorted_head hlt hm _ h
      have hne : k ≠ y.1 := by
        intro he
        simp only at hlt'
        rw [he, hlt.irrefl] at hlt'
        exact Bool.noConfusion hlt'
      simp [hne, ih (mapSorted_tail hm) h]

/-- Two canonical maps that read alike are the same list: equal maps are equal data. -/
theorem mapSorted_ext {lt : κ → κ → Bool} (hlt : KeyOrder lt) {m n : List (κ × ν)} (hm : mapSorted lt m = true)
    (hn : mapSorted lt n = true) (h : ∀ k, mapGet k m = mapGet k n) : m = n := by
  induction m generalizing n with
  | nil =>
    cases n with
    | nil => rfl
    | cons y n => have := h y.1; simp [mapGet] at this
  | cons x m ih =>
    cases n with
    | nil => have := h x.1; simp [mapGet] at this
    | cons y n =>
      have hx : mapGet x.1 (y :: n) = some x.2 := by rw [← h]; simp [mapGet]
      have hy : mapGet y.1 (x :: m) = some y.2 := by rw [h]; simp [mapGet]
      have hxy : x.1 = y.1 := by
        by_contra hne
        have h1 := mapSorted_head hlt hn _ ((List.mem_cons.1 (mem_of_mapGet hx)).resolve_left (fun e => hne (congrArg Prod.fst e)))
        have h2 := mapSorted_head hlt hm _ ((List.mem_cons.1 (mem_of_mapGet hy)).resolve_left (fun e => hne (congrArg Prod.fst e).symm))
        have := hlt.trans _ _ _ h1 h2
        rw [hlt.irrefl] at this
        exact Bool.noConfusion this
      have hv : x.2 = y.2 := by simpa [mapGet, hxy] using hx.symm
      have hxeq : x = y := Prod.ext hxy hv
      subst hxeq
      congr 1
      refine ih (mapSorted_tail hm) (mapSorted_tail hn) fun k => ?_
      by_cases hk : k = x.1
      · have none_of : ∀ l : List (κ × ν), mapSorted lt (x :: l) = true → mapGet k l = none := by
          intro l hl
          cases hg : mapGet k l with
          | none => rfl
          | some v =>
            have := mapSorted_head hlt hl _ (mem_of_mapGet hg)
            simp only [hk] at this
            rw [hlt.irrefl] at this
            exact Bool.noConfusion this
        rw [none_of m hm, none_of n hn]
      · have := h k
        simpa [mapGet, hk] using this

/-! ### The three key orders -/

theorem addrLt_order : KeyOrder addrLt where
  irrefl a := by simp [addrLt]
  trans a b c := by simp only [addrLt, decide_eq_true_eq]; omega
  total a b := by simp only [addrLt, decide_eq_true_eq]; omega

theorem byteLt_order : KeyOrder byteLt where
  irrefl a := by simp [byteLt]
  trans a b c := by simp only [byteLt, decide_eq_true_eq]; omega
  total a b h := by
    have : a.toNat ≠ b.toNat := fun e => h (BitVec.eq_of_toNat_eq e)
    simp only [byteLt, decide_eq_true_eq]
    omega

theorem seqLt_irrefl (a : List Byte) : seqLt a a = false := by
  induction a with
  | nil => rfl
  | cons x a ih => simp [seqLt, ih]

theorem seqLt_trans : ∀ a b c : List Byte, seqLt a b = true → seqLt b c = true → seqLt a c = true
  | [], [], _, h, _ => by simp [seqLt] at h
  | [], _ :: _, [], _, h => by simp [seqLt] at h
  | [], _ :: _, _ :: _, _, _ => rfl
  | _ :: _, [], _, h, _ => by simp [seqLt] at h
  | _ :: _, _ :: _, [], _, h => by simp [seqLt] at h
  | x :: a, y :: b, z :: c, h1, h2 => by
    simp only [seqLt] at h1 h2 ⊢
    by_cases hxy : x = y
    · by_cases hyz : y = z
      · rw [if_pos hxy] at h1
        rw [if_pos hyz] at h2
        rw [if_pos (hxy.trans hyz)]
        exact seqLt_trans a b c h1 h2
      · rw [if_neg hyz] at h2
        rw [if_neg (hxy ▸ hyz), hxy]
        exact h2
    · rw [if_neg hxy] at h1
      by_cases hyz : y = z
      · rw [← hyz, if_neg hxy]
        exact h1
      · rw [if_neg hyz] at h2
        have h3 := byteLt_order.trans _ _ _ h1 h2
        have hxz : x ≠ z := by
          intro e
          rw [e, byteLt_order.irrefl] at h3
          exact Bool.noConfusion h3
        rw [if_neg hxz]
        exact h3

theorem seqLt_total : ∀ a b : List Byte, a ≠ b → seqLt a b = true ∨ seqLt b a = true
  | [], [], h => absurd rfl h
  | [], _ :: _, _ => .inl rfl
  | _ :: _, [], _ => .inr rfl
  | x :: a, y :: b, h => by
    simp only [seqLt]
    by_cases hxy : x = y
    · subst hxy
      rw [if_pos rfl, if_pos rfl]
      exact seqLt_total a b fun e => h (by rw [e])
    · rw [if_neg hxy, if_neg (Ne.symm hxy)]
      exact byteLt_order.total x y hxy

theorem seqLt_order : KeyOrder seqLt := ⟨seqLt_irrefl, seqLt_trans, seqLt_total⟩

end Sys2Proof.Machine
end

