-- ==== Sys2Proof/Laws/State.lean ====
section
/-! SUPPORT. One lemma per field for each named update of State (Machine/Updates.lean), each true by rfl: a later proof
never unfolds a record update. -/

namespace Sys2Proof.Machine

variable (s : State)

@[simp] theorem State.withInReset_params (v : Bool) : (s.withInReset v).params = s.params := rfl
@[simp] theorem State.withInReset_inReset (v : Bool) : (s.withInReset v).inReset = v := rfl
@[simp] theorem State.withInReset_op0 (v : Bool) : (s.withInReset v).op0 = s.op0 := rfl
@[simp] theorem State.withInReset_op1 (v : Bool) : (s.withInReset v).op1 = s.op1 := rfl
@[simp] theorem State.withInReset_op2 (v : Bool) : (s.withInReset v).op2 = s.op2 := rfl
@[simp] theorem State.withInReset_op3 (v : Bool) : (s.withInReset v).op3 = s.op3 := rfl
@[simp] theorem State.withInReset_res0 (v : Bool) : (s.withInReset v).res0 = s.res0 := rfl
@[simp] theorem State.withInReset_res1 (v : Bool) : (s.withInReset v).res1 = s.res1 := rfl
@[simp] theorem State.withInReset_res2 (v : Bool) : (s.withInReset v).res2 = s.res2 := rfl
@[simp] theorem State.withInReset_status (v : Bool) : (s.withInReset v).status = s.status := rfl
@[simp] theorem State.withInReset_errInfo (v : Bool) : (s.withInReset v).errInfo = s.errInfo := rfl
@[simp] theorem State.withInReset_writer (v : Bool) : (s.withInReset v).writer = s.writer := rfl
@[simp] theorem State.withInReset_reader (v : Bool) : (s.withInReset v).reader = s.reader := rfl
@[simp] theorem State.withInReset_builders (v : Bool) : (s.withInReset v).builders = s.builders := rfl
@[simp] theorem State.withInReset_models (v : Bool) : (s.withInReset v).models = s.models := rfl
@[simp] theorem State.withInReset_dmem (v : Bool) : (s.withInReset v).dmem = s.dmem := rfl
@[simp] theorem State.withInReset_draw (v : Bool) : (s.withInReset v).draw = s.draw := rfl
@[simp] theorem State.withInReset_host (v : Bool) : (s.withInReset v).host = s.host := rfl
@[simp] theorem State.withInReset_saw (v : Bool) : (s.withInReset v).saw = s.saw := rfl

@[simp] theorem State.withOp0_params (v : Word) : (s.withOp0 v).params = s.params := rfl
@[simp] theorem State.withOp0_inReset (v : Word) : (s.withOp0 v).inReset = s.inReset := rfl
@[simp] theorem State.withOp0_op0 (v : Word) : (s.withOp0 v).op0 = v := rfl
@[simp] theorem State.withOp0_op1 (v : Word) : (s.withOp0 v).op1 = s.op1 := rfl
@[simp] theorem State.withOp0_op2 (v : Word) : (s.withOp0 v).op2 = s.op2 := rfl
@[simp] theorem State.withOp0_op3 (v : Word) : (s.withOp0 v).op3 = s.op3 := rfl
@[simp] theorem State.withOp0_res0 (v : Word) : (s.withOp0 v).res0 = s.res0 := rfl
@[simp] theorem State.withOp0_res1 (v : Word) : (s.withOp0 v).res1 = s.res1 := rfl
@[simp] theorem State.withOp0_res2 (v : Word) : (s.withOp0 v).res2 = s.res2 := rfl
@[simp] theorem State.withOp0_status (v : Word) : (s.withOp0 v).status = s.status := rfl
@[simp] theorem State.withOp0_errInfo (v : Word) : (s.withOp0 v).errInfo = s.errInfo := rfl
@[simp] theorem State.withOp0_writer (v : Word) : (s.withOp0 v).writer = s.writer := rfl
@[simp] theorem State.withOp0_reader (v : Word) : (s.withOp0 v).reader = s.reader := rfl
@[simp] theorem State.withOp0_builders (v : Word) : (s.withOp0 v).builders = s.builders := rfl
@[simp] theorem State.withOp0_models (v : Word) : (s.withOp0 v).models = s.models := rfl
@[simp] theorem State.withOp0_dmem (v : Word) : (s.withOp0 v).dmem = s.dmem := rfl
@[simp] theorem State.withOp0_draw (v : Word) : (s.withOp0 v).draw = s.draw := rfl
@[simp] theorem State.withOp0_host (v : Word) : (s.withOp0 v).host = s.host := rfl
@[simp] theorem State.withOp0_saw (v : Word) : (s.withOp0 v).saw = s.saw := rfl

@[simp] theorem State.withOp1_params (v : Word) : (s.withOp1 v).params = s.params := rfl
@[simp] theorem State.withOp1_inReset (v : Word) : (s.withOp1 v).inReset = s.inReset := rfl
@[simp] theorem State.withOp1_op0 (v : Word) : (s.withOp1 v).op0 = s.op0 := rfl
@[simp] theorem State.withOp1_op1 (v : Word) : (s.withOp1 v).op1 = v := rfl
@[simp] theorem State.withOp1_op2 (v : Word) : (s.withOp1 v).op2 = s.op2 := rfl
@[simp] theorem State.withOp1_op3 (v : Word) : (s.withOp1 v).op3 = s.op3 := rfl
@[simp] theorem State.withOp1_res0 (v : Word) : (s.withOp1 v).res0 = s.res0 := rfl
@[simp] theorem State.withOp1_res1 (v : Word) : (s.withOp1 v).res1 = s.res1 := rfl
@[simp] theorem State.withOp1_res2 (v : Word) : (s.withOp1 v).res2 = s.res2 := rfl
@[simp] theorem State.withOp1_status (v : Word) : (s.withOp1 v).status = s.status := rfl
@[simp] theorem State.withOp1_errInfo (v : Word) : (s.withOp1 v).errInfo = s.errInfo := rfl
@[simp] theorem State.withOp1_writer (v : Word) : (s.withOp1 v).writer = s.writer := rfl
@[simp] theorem State.withOp1_reader (v : Word) : (s.withOp1 v).reader = s.reader := rfl
@[simp] theorem State.withOp1_builders (v : Word) : (s.withOp1 v).builders = s.builders := rfl
@[simp] theorem State.withOp1_models (v : Word) : (s.withOp1 v).models = s.models := rfl
@[simp] theorem State.withOp1_dmem (v : Word) : (s.withOp1 v).dmem = s.dmem := rfl
@[simp] theorem State.withOp1_draw (v : Word) : (s.withOp1 v).draw = s.draw := rfl
@[simp] theorem State.withOp1_host (v : Word) : (s.withOp1 v).host = s.host := rfl
@[simp] theorem State.withOp1_saw (v : Word) : (s.withOp1 v).saw = s.saw := rfl

@[simp] theorem State.withOp2_params (v : Word) : (s.withOp2 v).params = s.params := rfl
@[simp] theorem State.withOp2_inReset (v : Word) : (s.withOp2 v).inReset = s.inReset := rfl
@[simp] theorem State.withOp2_op0 (v : Word) : (s.withOp2 v).op0 = s.op0 := rfl
@[simp] theorem State.withOp2_op1 (v : Word) : (s.withOp2 v).op1 = s.op1 := rfl
@[simp] theorem State.withOp2_op2 (v : Word) : (s.withOp2 v).op2 = v := rfl
@[simp] theorem State.withOp2_op3 (v : Word) : (s.withOp2 v).op3 = s.op3 := rfl
@[simp] theorem State.withOp2_res0 (v : Word) : (s.withOp2 v).res0 = s.res0 := rfl
@[simp] theorem State.withOp2_res1 (v : Word) : (s.withOp2 v).res1 = s.res1 := rfl
@[simp] theorem State.withOp2_res2 (v : Word) : (s.withOp2 v).res2 = s.res2 := rfl
@[simp] theorem State.withOp2_status (v : Word) : (s.withOp2 v).status = s.status := rfl
@[simp] theorem State.withOp2_errInfo (v : Word) : (s.withOp2 v).errInfo = s.errInfo := rfl
@[simp] theorem State.withOp2_writer (v : Word) : (s.withOp2 v).writer = s.writer := rfl
@[simp] theorem State.withOp2_reader (v : Word) : (s.withOp2 v).reader = s.reader := rfl
@[simp] theorem State.withOp2_builders (v : Word) : (s.withOp2 v).builders = s.builders := rfl
@[simp] theorem State.withOp2_models (v : Word) : (s.withOp2 v).models = s.models := rfl
@[simp] theorem State.withOp2_dmem (v : Word) : (s.withOp2 v).dmem = s.dmem := rfl
@[simp] theorem State.withOp2_draw (v : Word) : (s.withOp2 v).draw = s.draw := rfl
@[simp] theorem State.withOp2_host (v : Word) : (s.withOp2 v).host = s.host := rfl
@[simp] theorem State.withOp2_saw (v : Word) : (s.withOp2 v).saw = s.saw := rfl

@[simp] theorem State.withOp3_params (v : Word) : (s.withOp3 v).params = s.params := rfl
@[simp] theorem State.withOp3_inReset (v : Word) : (s.withOp3 v).inReset = s.inReset := rfl
@[simp] theorem State.withOp3_op0 (v : Word) : (s.withOp3 v).op0 = s.op0 := rfl
@[simp] theorem State.withOp3_op1 (v : Word) : (s.withOp3 v).op1 = s.op1 := rfl
@[simp] theorem State.withOp3_op2 (v : Word) : (s.withOp3 v).op2 = s.op2 := rfl
@[simp] theorem State.withOp3_op3 (v : Word) : (s.withOp3 v).op3 = v := rfl
@[simp] theorem State.withOp3_res0 (v : Word) : (s.withOp3 v).res0 = s.res0 := rfl
@[simp] theorem State.withOp3_res1 (v : Word) : (s.withOp3 v).res1 = s.res1 := rfl
@[simp] theorem State.withOp3_res2 (v : Word) : (s.withOp3 v).res2 = s.res2 := rfl
@[simp] theorem State.withOp3_status (v : Word) : (s.withOp3 v).status = s.status := rfl
@[simp] theorem State.withOp3_errInfo (v : Word) : (s.withOp3 v).errInfo = s.errInfo := rfl
@[simp] theorem State.withOp3_writer (v : Word) : (s.withOp3 v).writer = s.writer := rfl
@[simp] theorem State.withOp3_reader (v : Word) : (s.withOp3 v).reader = s.reader := rfl
@[simp] theorem State.withOp3_builders (v : Word) : (s.withOp3 v).builders = s.builders := rfl
@[simp] theorem State.withOp3_models (v : Word) : (s.withOp3 v).models = s.models := rfl
@[simp] theorem State.withOp3_dmem (v : Word) : (s.withOp3 v).dmem = s.dmem := rfl
@[simp] theorem State.withOp3_draw (v : Word) : (s.withOp3 v).draw = s.draw := rfl
@[simp] theorem State.withOp3_host (v : Word) : (s.withOp3 v).host = s.host := rfl
@[simp] theorem State.withOp3_saw (v : Word) : (s.withOp3 v).saw = s.saw := rfl

@[simp] theorem State.withRes0_params (v : Word) : (s.withRes0 v).params = s.params := rfl
@[simp] theorem State.withRes0_inReset (v : Word) : (s.withRes0 v).inReset = s.inReset := rfl
@[simp] theorem State.withRes0_op0 (v : Word) : (s.withRes0 v).op0 = s.op0 := rfl
@[simp] theorem State.withRes0_op1 (v : Word) : (s.withRes0 v).op1 = s.op1 := rfl
@[simp] theorem State.withRes0_op2 (v : Word) : (s.withRes0 v).op2 = s.op2 := rfl
@[simp] theorem State.withRes0_op3 (v : Word) : (s.withRes0 v).op3 = s.op3 := rfl
@[simp] theorem State.withRes0_res0 (v : Word) : (s.withRes0 v).res0 = v := rfl
@[simp] theorem State.withRes0_res1 (v : Word) : (s.withRes0 v).res1 = s.res1 := rfl
@[simp] theorem State.withRes0_res2 (v : Word) : (s.withRes0 v).res2 = s.res2 := rfl
@[simp] theorem State.withRes0_status (v : Word) : (s.withRes0 v).status = s.status := rfl
@[simp] theorem State.withRes0_errInfo (v : Word) : (s.withRes0 v).errInfo = s.errInfo := rfl
@[simp] theorem State.withRes0_writer (v : Word) : (s.withRes0 v).writer = s.writer := rfl
@[simp] theorem State.withRes0_reader (v : Word) : (s.withRes0 v).reader = s.reader := rfl
@[simp] theorem State.withRes0_builders (v : Word) : (s.withRes0 v).builders = s.builders := rfl
@[simp] theorem State.withRes0_models (v : Word) : (s.withRes0 v).models = s.models := rfl
@[simp] theorem State.withRes0_dmem (v : Word) : (s.withRes0 v).dmem = s.dmem := rfl
@[simp] theorem State.withRes0_draw (v : Word) : (s.withRes0 v).draw = s.draw := rfl
@[simp] theorem State.withRes0_host (v : Word) : (s.withRes0 v).host = s.host := rfl
@[simp] theorem State.withRes0_saw (v : Word) : (s.withRes0 v).saw = s.saw := rfl

@[simp] theorem State.withRes1_params (v : Word) : (s.withRes1 v).params = s.params := rfl
@[simp] theorem State.withRes1_inReset (v : Word) : (s.withRes1 v).inReset = s.inReset := rfl
@[simp] theorem State.withRes1_op0 (v : Word) : (s.withRes1 v).op0 = s.op0 := rfl
@[simp] theorem State.withRes1_op1 (v : Word) : (s.withRes1 v).op1 = s.op1 := rfl
@[simp] theorem State.withRes1_op2 (v : Word) : (s.withRes1 v).op2 = s.op2 := rfl
@[simp] theorem State.withRes1_op3 (v : Word) : (s.withRes1 v).op3 = s.op3 := rfl
@[simp] theorem State.withRes1_res0 (v : Word) : (s.withRes1 v).res0 = s.res0 := rfl
@[simp] theorem State.withRes1_res1 (v : Word) : (s.withRes1 v).res1 = v := rfl
@[simp] theorem State.withRes1_res2 (v : Word) : (s.withRes1 v).res2 = s.res2 := rfl
@[simp] theorem State.withRes1_status (v : Word) : (s.withRes1 v).status = s.status := rfl
@[simp] theorem State.withRes1_errInfo (v : Word) : (s.withRes1 v).errInfo = s.errInfo := rfl
@[simp] theorem State.withRes1_writer (v : Word) : (s.withRes1 v).writer = s.writer := rfl
@[simp] theorem State.withRes1_reader (v : Word) : (s.withRes1 v).reader = s.reader := rfl
@[simp] theorem State.withRes1_builders (v : Word) : (s.withRes1 v).builders = s.builders := rfl
@[simp] theorem State.withRes1_models (v : Word) : (s.withRes1 v).models = s.models := rfl
@[simp] theorem State.withRes1_dmem (v : Word) : (s.withRes1 v).dmem = s.dmem := rfl
@[simp] theorem State.withRes1_draw (v : Word) : (s.withRes1 v).draw = s.draw := rfl
@[simp] theorem State.withRes1_host (v : Word) : (s.withRes1 v).host = s.host := rfl
@[simp] theorem State.withRes1_saw (v : Word) : (s.withRes1 v).saw = s.saw := rfl

@[simp] theorem State.withRes2_params (v : Word) : (s.withRes2 v).params = s.params := rfl
@[simp] theorem State.withRes2_inReset (v : Word) : (s.withRes2 v).inReset = s.inReset := rfl
@[simp] theorem State.withRes2_op0 (v : Word) : (s.withRes2 v).op0 = s.op0 := rfl
@[simp] theorem State.withRes2_op1 (v : Word) : (s.withRes2 v).op1 = s.op1 := rfl
@[simp] theorem State.withRes2_op2 (v : Word) : (s.withRes2 v).op2 = s.op2 := rfl
@[simp] theorem State.withRes2_op3 (v : Word) : (s.withRes2 v).op3 = s.op3 := rfl
@[simp] theorem State.withRes2_res0 (v : Word) : (s.withRes2 v).res0 = s.res0 := rfl
@[simp] theorem State.withRes2_res1 (v : Word) : (s.withRes2 v).res1 = s.res1 := rfl
@[simp] theorem State.withRes2_res2 (v : Word) : (s.withRes2 v).res2 = v := rfl
@[simp] theorem State.withRes2_status (v : Word) : (s.withRes2 v).status = s.status := rfl
@[simp] theorem State.withRes2_errInfo (v : Word) : (s.withRes2 v).errInfo = s.errInfo := rfl
@[simp] theorem State.withRes2_writer (v : Word) : (s.withRes2 v).writer = s.writer := rfl
@[simp] theorem State.withRes2_reader (v : Word) : (s.withRes2 v).reader = s.reader := rfl
@[simp] theorem State.withRes2_builders (v : Word) : (s.withRes2 v).builders = s.builders := rfl
@[simp] theorem State.withRes2_models (v : Word) : (s.withRes2 v).models = s.models := rfl
@[simp] theorem State.withRes2_dmem (v : Word) : (s.withRes2 v).dmem = s.dmem := rfl
@[simp] theorem State.withRes2_draw (v : Word) : (s.withRes2 v).draw = s.draw := rfl
@[simp] theorem State.withRes2_host (v : Word) : (s.withRes2 v).host = s.host := rfl
@[simp] theorem State.withRes2_saw (v : Word) : (s.withRes2 v).saw = s.saw := rfl

@[simp] theorem State.withStatus_params (v : Status) : (s.withStatus v).params = s.params := rfl
@[simp] theorem State.withStatus_inReset (v : Status) : (s.withStatus v).inReset = s.inReset := rfl
@[simp] theorem State.withStatus_op0 (v : Status) : (s.withStatus v).op0 = s.op0 := rfl
@[simp] theorem State.withStatus_op1 (v : Status) : (s.withStatus v).op1 = s.op1 := rfl
@[simp] theorem State.withStatus_op2 (v : Status) : (s.withStatus v).op2 = s.op2 := rfl
@[simp] theorem State.withStatus_op3 (v : Status) : (s.withStatus v).op3 = s.op3 := rfl
@[simp] theorem State.withStatus_res0 (v : Status) : (s.withStatus v).res0 = s.res0 := rfl
@[simp] theorem State.withStatus_res1 (v : Status) : (s.withStatus v).res1 = s.res1 := rfl
@[simp] theorem State.withStatus_res2 (v : Status) : (s.withStatus v).res2 = s.res2 := rfl
@[simp] theorem State.withStatus_status (v : Status) : (s.withStatus v).status = v := rfl
@[simp] theorem State.withStatus_errInfo (v : Status) : (s.withStatus v).errInfo = s.errInfo := rfl
@[simp] theorem State.withStatus_writer (v : Status) : (s.withStatus v).writer = s.writer := rfl
@[simp] theorem State.withStatus_reader (v : Status) : (s.withStatus v).reader = s.reader := rfl
@[simp] theorem State.withStatus_builders (v : Status) : (s.withStatus v).builders = s.builders := rfl
@[simp] theorem State.withStatus_models (v : Status) : (s.withStatus v).models = s.models := rfl
@[simp] theorem State.withStatus_dmem (v : Status) : (s.withStatus v).dmem = s.dmem := rfl
@[simp] theorem State.withStatus_draw (v : Status) : (s.withStatus v).draw = s.draw := rfl
@[simp] theorem State.withStatus_host (v : Status) : (s.withStatus v).host = s.host := rfl
@[simp] theorem State.withStatus_saw (v : Status) : (s.withStatus v).saw = s.saw := rfl

@[simp] theorem State.withErrInfo_params (v : Word) : (s.withErrInfo v).params = s.params := rfl
@[simp] theorem State.withErrInfo_inReset (v : Word) : (s.withErrInfo v).inReset = s.inReset := rfl
@[simp] theorem State.withErrInfo_op0 (v : Word) : (s.withErrInfo v).op0 = s.op0 := rfl
@[simp] theorem State.withErrInfo_op1 (v : Word) : (s.withErrInfo v).op1 = s.op1 := rfl
@[simp] theorem State.withErrInfo_op2 (v : Word) : (s.withErrInfo v).op2 = s.op2 := rfl
@[simp] theorem State.withErrInfo_op3 (v : Word) : (s.withErrInfo v).op3 = s.op3 := rfl
@[simp] theorem State.withErrInfo_res0 (v : Word) : (s.withErrInfo v).res0 = s.res0 := rfl
@[simp] theorem State.withErrInfo_res1 (v : Word) : (s.withErrInfo v).res1 = s.res1 := rfl
@[simp] theorem State.withErrInfo_res2 (v : Word) : (s.withErrInfo v).res2 = s.res2 := rfl
@[simp] theorem State.withErrInfo_status (v : Word) : (s.withErrInfo v).status = s.status := rfl
@[simp] theorem State.withErrInfo_errInfo (v : Word) : (s.withErrInfo v).errInfo = v := rfl
@[simp] theorem State.withErrInfo_writer (v : Word) : (s.withErrInfo v).writer = s.writer := rfl
@[simp] theorem State.withErrInfo_reader (v : Word) : (s.withErrInfo v).reader = s.reader := rfl
@[simp] theorem State.withErrInfo_builders (v : Word) : (s.withErrInfo v).builders = s.builders := rfl
@[simp] theorem State.withErrInfo_models (v : Word) : (s.withErrInfo v).models = s.models := rfl
@[simp] theorem State.withErrInfo_dmem (v : Word) : (s.withErrInfo v).dmem = s.dmem := rfl
@[simp] theorem State.withErrInfo_draw (v : Word) : (s.withErrInfo v).draw = s.draw := rfl
@[simp] theorem State.withErrInfo_host (v : Word) : (s.withErrInfo v).host = s.host := rfl
@[simp] theorem State.withErrInfo_saw (v : Word) : (s.withErrInfo v).saw = s.saw := rfl

@[simp] theorem State.withWriter_params (v : Writer) : (s.withWriter v).params = s.params := rfl
@[simp] theorem State.withWriter_inReset (v : Writer) : (s.withWriter v).inReset = s.inReset := rfl
@[simp] theorem State.withWriter_op0 (v : Writer) : (s.withWriter v).op0 = s.op0 := rfl
@[simp] theorem State.withWriter_op1 (v : Writer) : (s.withWriter v).op1 = s.op1 := rfl
@[simp] theorem State.withWriter_op2 (v : Writer) : (s.withWriter v).op2 = s.op2 := rfl
@[simp] theorem State.withWriter_op3 (v : Writer) : (s.withWriter v).op3 = s.op3 := rfl
@[simp] theorem State.withWriter_res0 (v : Writer) : (s.withWriter v).res0 = s.res0 := rfl
@[simp] theorem State.withWriter_res1 (v : Writer) : (s.withWriter v).res1 = s.res1 := rfl
@[simp] theorem State.withWriter_res2 (v : Writer) : (s.withWriter v).res2 = s.res2 := rfl
@[simp] theorem State.withWriter_status (v : Writer) : (s.withWriter v).status = s.status := rfl
@[simp] theorem State.withWriter_errInfo (v : Writer) : (s.withWriter v).errInfo = s.errInfo := rfl
@[simp] theorem State.withWriter_writer (v : Writer) : (s.withWriter v).writer = v := rfl
@[simp] theorem State.withWriter_reader (v : Writer) : (s.withWriter v).reader = s.reader := rfl
@[simp] theorem State.withWriter_builders (v : Writer) : (s.withWriter v).builders = s.builders := rfl
@[simp] theorem State.withWriter_models (v : Writer) : (s.withWriter v).models = s.models := rfl
@[simp] theorem State.withWriter_dmem (v : Writer) : (s.withWriter v).dmem = s.dmem := rfl
@[simp] theorem State.withWriter_draw (v : Writer) : (s.withWriter v).draw = s.draw := rfl
@[simp] theorem State.withWriter_host (v : Writer) : (s.withWriter v).host = s.host := rfl
@[simp] theorem State.withWriter_saw (v : Writer) : (s.withWriter v).saw = s.saw := rfl

@[simp] theorem State.withReader_params (v : Reader) : (s.withReader v).params = s.params := rfl
@[simp] theorem State.withReader_inReset (v : Reader) : (s.withReader v).inReset = s.inReset := rfl
@[simp] theorem State.withReader_op0 (v : Reader) : (s.withReader v).op0 = s.op0 := rfl
@[simp] theorem State.withReader_op1 (v : Reader) : (s.withReader v).op1 = s.op1 := rfl
@[simp] theorem State.withReader_op2 (v : Reader) : (s.withReader v).op2 = s.op2 := rfl
@[simp] theorem State.withReader_op3 (v : Reader) : (s.withReader v).op3 = s.op3 := rfl
@[simp] theorem State.withReader_res0 (v : Reader) : (s.withReader v).res0 = s.res0 := rfl
@[simp] theorem State.withReader_res1 (v : Reader) : (s.withReader v).res1 = s.res1 := rfl
@[simp] theorem State.withReader_res2 (v : Reader) : (s.withReader v).res2 = s.res2 := rfl
@[simp] theorem State.withReader_status (v : Reader) : (s.withReader v).status = s.status := rfl
@[simp] theorem State.withReader_errInfo (v : Reader) : (s.withReader v).errInfo = s.errInfo := rfl
@[simp] theorem State.withReader_writer (v : Reader) : (s.withReader v).writer = s.writer := rfl
@[simp] theorem State.withReader_reader (v : Reader) : (s.withReader v).reader = v := rfl
@[simp] theorem State.withReader_builders (v : Reader) : (s.withReader v).builders = s.builders := rfl
@[simp] theorem State.withReader_models (v : Reader) : (s.withReader v).models = s.models := rfl
@[simp] theorem State.withReader_dmem (v : Reader) : (s.withReader v).dmem = s.dmem := rfl
@[simp] theorem State.withReader_draw (v : Reader) : (s.withReader v).draw = s.draw := rfl
@[simp] theorem State.withReader_host (v : Reader) : (s.withReader v).host = s.host := rfl
@[simp] theorem State.withReader_saw (v : Reader) : (s.withReader v).saw = s.saw := rfl

@[simp] theorem State.withDmem_params (v : Memory) : (s.withDmem v).params = s.params := rfl
@[simp] theorem State.withDmem_inReset (v : Memory) : (s.withDmem v).inReset = s.inReset := rfl
@[simp] theorem State.withDmem_op0 (v : Memory) : (s.withDmem v).op0 = s.op0 := rfl
@[simp] theorem State.withDmem_op1 (v : Memory) : (s.withDmem v).op1 = s.op1 := rfl
@[simp] theorem State.withDmem_op2 (v : Memory) : (s.withDmem v).op2 = s.op2 := rfl
@[simp] theorem State.withDmem_op3 (v : Memory) : (s.withDmem v).op3 = s.op3 := rfl
@[simp] theorem State.withDmem_res0 (v : Memory) : (s.withDmem v).res0 = s.res0 := rfl
@[simp] theorem State.withDmem_res1 (v : Memory) : (s.withDmem v).res1 = s.res1 := rfl
@[simp] theorem State.withDmem_res2 (v : Memory) : (s.withDmem v).res2 = s.res2 := rfl
@[simp] theorem State.withDmem_status (v : Memory) : (s.withDmem v).status = s.status := rfl
@[simp] theorem State.withDmem_errInfo (v : Memory) : (s.withDmem v).errInfo = s.errInfo := rfl
@[simp] theorem State.withDmem_writer (v : Memory) : (s.withDmem v).writer = s.writer := rfl
@[simp] theorem State.withDmem_reader (v : Memory) : (s.withDmem v).reader = s.reader := rfl
@[simp] theorem State.withDmem_builders (v : Memory) : (s.withDmem v).builders = s.builders := rfl
@[simp] theorem State.withDmem_models (v : Memory) : (s.withDmem v).models = s.models := rfl
@[simp] theorem State.withDmem_dmem (v : Memory) : (s.withDmem v).dmem = v := rfl
@[simp] theorem State.withDmem_draw (v : Memory) : (s.withDmem v).draw = s.draw := rfl
@[simp] theorem State.withDmem_host (v : Memory) : (s.withDmem v).host = s.host := rfl
@[simp] theorem State.withDmem_saw (v : Memory) : (s.withDmem v).saw = s.saw := rfl

@[simp] theorem State.withHost_params (v : List HostAction) : (s.withHost v).params = s.params := rfl
@[simp] theorem State.withHost_inReset (v : List HostAction) : (s.withHost v).inReset = s.inReset := rfl
@[simp] theorem State.withHost_op0 (v : List HostAction) : (s.withHost v).op0 = s.op0 := rfl
@[simp] theorem State.withHost_op1 (v : List HostAction) : (s.withHost v).op1 = s.op1 := rfl
@[simp] theorem State.withHost_op2 (v : List HostAction) : (s.withHost v).op2 = s.op2 := rfl
@[simp] theorem State.withHost_op3 (v : List HostAction) : (s.withHost v).op3 = s.op3 := rfl
@[simp] theorem State.withHost_res0 (v : List HostAction) : (s.withHost v).res0 = s.res0 := rfl
@[simp] theorem State.withHost_res1 (v : List HostAction) : (s.withHost v).res1 = s.res1 := rfl
@[simp] theorem State.withHost_res2 (v : List HostAction) : (s.withHost v).res2 = s.res2 := rfl
@[simp] theorem State.withHost_status (v : List HostAction) : (s.withHost v).status = s.status := rfl
@[simp] theorem State.withHost_errInfo (v : List HostAction) : (s.withHost v).errInfo = s.errInfo := rfl
@[simp] theorem State.withHost_writer (v : List HostAction) : (s.withHost v).writer = s.writer := rfl
@[simp] theorem State.withHost_reader (v : List HostAction) : (s.withHost v).reader = s.reader := rfl
@[simp] theorem State.withHost_builders (v : List HostAction) : (s.withHost v).builders = s.builders := rfl
@[simp] theorem State.withHost_models (v : List HostAction) : (s.withHost v).models = s.models := rfl
@[simp] theorem State.withHost_dmem (v : List HostAction) : (s.withHost v).dmem = s.dmem := rfl
@[simp] theorem State.withHost_draw (v : List HostAction) : (s.withHost v).draw = s.draw := rfl
@[simp] theorem State.withHost_host (v : List HostAction) : (s.withHost v).host = v := rfl
@[simp] theorem State.withHost_saw (v : List HostAction) : (s.withHost v).saw = s.saw := rfl

@[simp] theorem State.withSaw_params (v : Seen) : (s.withSaw v).params = s.params := rfl
@[simp] theorem State.withSaw_inReset (v : Seen) : (s.withSaw v).inReset = s.inReset := rfl
@[simp] theorem State.withSaw_op0 (v : Seen) : (s.withSaw v).op0 = s.op0 := rfl
@[simp] theorem State.withSaw_op1 (v : Seen) : (s.withSaw v).op1 = s.op1 := rfl
@[simp] theorem State.withSaw_op2 (v : Seen) : (s.withSaw v).op2 = s.op2 := rfl
@[simp] theorem State.withSaw_op3 (v : Seen) : (s.withSaw v).op3 = s.op3 := rfl
@[simp] theorem State.withSaw_res0 (v : Seen) : (s.withSaw v).res0 = s.res0 := rfl
@[simp] theorem State.withSaw_res1 (v : Seen) : (s.withSaw v).res1 = s.res1 := rfl
@[simp] theorem State.withSaw_res2 (v : Seen) : (s.withSaw v).res2 = s.res2 := rfl
@[simp] theorem State.withSaw_status (v : Seen) : (s.withSaw v).status = s.status := rfl
@[simp] theorem State.withSaw_errInfo (v : Seen) : (s.withSaw v).errInfo = s.errInfo := rfl
@[simp] theorem State.withSaw_writer (v : Seen) : (s.withSaw v).writer = s.writer := rfl
@[simp] theorem State.withSaw_reader (v : Seen) : (s.withSaw v).reader = s.reader := rfl
@[simp] theorem State.withSaw_builders (v : Seen) : (s.withSaw v).builders = s.builders := rfl
@[simp] theorem State.withSaw_models (v : Seen) : (s.withSaw v).models = s.models := rfl
@[simp] theorem State.withSaw_dmem (v : Seen) : (s.withSaw v).dmem = s.dmem := rfl
@[simp] theorem State.withSaw_draw (v : Seen) : (s.withSaw v).draw = s.draw := rfl
@[simp] theorem State.withSaw_host (v : Seen) : (s.withSaw v).host = s.host := rfl
@[simp] theorem State.withSaw_saw (v : Seen) : (s.withSaw v).saw = v := rfl

@[simp] theorem State.withBuilder_params (k : Nat) (b : Builder) : (s.withBuilder k b).params = s.params := rfl
@[simp] theorem State.withBuilder_inReset (k : Nat) (b : Builder) : (s.withBuilder k b).inReset = s.inReset := rfl
@[simp] theorem State.withBuilder_op0 (k : Nat) (b : Builder) : (s.withBuilder k b).op0 = s.op0 := rfl
@[simp] theorem State.withBuilder_op1 (k : Nat) (b : Builder) : (s.withBuilder k b).op1 = s.op1 := rfl
@[simp] theorem State.withBuilder_op2 (k : Nat) (b : Builder) : (s.withBuilder k b).op2 = s.op2 := rfl
@[simp] theorem State.withBuilder_op3 (k : Nat) (b : Builder) : (s.withBuilder k b).op3 = s.op3 := rfl
@[simp] theorem State.withBuilder_res0 (k : Nat) (b : Builder) : (s.withBuilder k b).res0 = s.res0 := rfl
@[simp] theorem State.withBuilder_res1 (k : Nat) (b : Builder) : (s.withBuilder k b).res1 = s.res1 := rfl
@[simp] theorem State.withBuilder_res2 (k : Nat) (b : Builder) : (s.withBuilder k b).res2 = s.res2 := rfl
@[simp] theorem State.withBuilder_status (k : Nat) (b : Builder) : (s.withBuilder k b).status = s.status := rfl
@[simp] theorem State.withBuilder_errInfo (k : Nat) (b : Builder) : (s.withBuilder k b).errInfo = s.errInfo := rfl
@[simp] theorem State.withBuilder_writer (k : Nat) (b : Builder) : (s.withBuilder k b).writer = s.writer := rfl
@[simp] theorem State.withBuilder_reader (k : Nat) (b : Builder) : (s.withBuilder k b).reader = s.reader := rfl
@[simp] theorem State.withBuilder_builders (k : Nat) (b : Builder) : (s.withBuilder k b).builders = s.builders.setIfInBounds k b := rfl
@[simp] theorem State.withBuilder_models (k : Nat) (b : Builder) : (s.withBuilder k b).models = s.models := rfl
@[simp] theorem State.withBuilder_dmem (k : Nat) (b : Builder) : (s.withBuilder k b).dmem = s.dmem := rfl
@[simp] theorem State.withBuilder_draw (k : Nat) (b : Builder) : (s.withBuilder k b).draw = s.draw := rfl
@[simp] theorem State.withBuilder_host (k : Nat) (b : Builder) : (s.withBuilder k b).host = s.host := rfl
@[simp] theorem State.withBuilder_saw (k : Nat) (b : Builder) : (s.withBuilder k b).saw = s.saw := rfl

@[simp] theorem State.withModel_params (j : Nat) (m : Option Model) : (s.withModel j m).params = s.params := rfl
@[simp] theorem State.withModel_inReset (j : Nat) (m : Option Model) : (s.withModel j m).inReset = s.inReset := rfl
@[simp] theorem State.withModel_op0 (j : Nat) (m : Option Model) : (s.withModel j m).op0 = s.op0 := rfl
@[simp] theorem State.withModel_op1 (j : Nat) (m : Option Model) : (s.withModel j m).op1 = s.op1 := rfl
@[simp] theorem State.withModel_op2 (j : Nat) (m : Option Model) : (s.withModel j m).op2 = s.op2 := rfl
@[simp] theorem State.withModel_op3 (j : Nat) (m : Option Model) : (s.withModel j m).op3 = s.op3 := rfl
@[simp] theorem State.withModel_res0 (j : Nat) (m : Option Model) : (s.withModel j m).res0 = s.res0 := rfl
@[simp] theorem State.withModel_res1 (j : Nat) (m : Option Model) : (s.withModel j m).res1 = s.res1 := rfl
@[simp] theorem State.withModel_res2 (j : Nat) (m : Option Model) : (s.withModel j m).res2 = s.res2 := rfl
@[simp] theorem State.withModel_status (j : Nat) (m : Option Model) : (s.withModel j m).status = s.status := rfl
@[simp] theorem State.withModel_errInfo (j : Nat) (m : Option Model) : (s.withModel j m).errInfo = s.errInfo := rfl
@[simp] theorem State.withModel_writer (j : Nat) (m : Option Model) : (s.withModel j m).writer = s.writer := rfl
@[simp] theorem State.withModel_reader (j : Nat) (m : Option Model) : (s.withModel j m).reader = s.reader := rfl
@[simp] theorem State.withModel_builders (j : Nat) (m : Option Model) : (s.withModel j m).builders = s.builders := rfl
@[simp] theorem State.withModel_models (j : Nat) (m : Option Model) : (s.withModel j m).models = s.models.setIfInBounds j m := rfl
@[simp] theorem State.withModel_dmem (j : Nat) (m : Option Model) : (s.withModel j m).dmem = s.dmem := rfl
@[simp] theorem State.withModel_draw (j : Nat) (m : Option Model) : (s.withModel j m).draw = s.draw := rfl
@[simp] theorem State.withModel_host (j : Nat) (m : Option Model) : (s.withModel j m).host = s.host := rfl
@[simp] theorem State.withModel_saw (j : Nat) (m : Option Model) : (s.withModel j m).saw = s.saw := rfl

end Sys2Proof.Machine
end

