-- ==== Sys2Proof/Laws/Ops.lean ====
section
/-! SUPPORT. What each shared operation can do, said once: checks and binds of a rule's pseudocode, the two ends of a
command, counts, operands, DMEM. -/

namespace Sys2Proof.Machine

/-! ### Pseudocode: checks in order -/

section Pseudocode
variable {ε α β : Type}

@[simp] theorem bind_ok (a : α) (f : α → Except ε β) : (Except.ok a >>= f) = f a := rfl

@[simp] theorem bind_error (e : ε) (f : α → Except ε β) : ((Except.error e : Except ε α) >>= f) = .error e := rfl

/-- A sequence succeeds when each part does. -/
theorem bind_eq_ok {x : Except ε α} {f : α → Except ε β} {b : β} :
    (x >>= f) = .ok b ↔ ∃ a, x = .ok a ∧ f a = .ok b := by
  cases x <;> simp

/-- A sequence fails with the first error met. -/
theorem bind_eq_error {x : Except ε α} {f : α → Except ε β} {e : ε} :
    (x >>= f) = .error e ↔ x = .error e ∨ ∃ a, x = .ok a ∧ f a = .error e := by
  cases x <;> simp

end Pseudocode

theorem check_pos {p : Prop} [Decidable p] (h : p) (e : CmdError) : check p e = .ok () := if_pos h

theorem check_neg {p : Prop} [Decidable p] (h : ¬p) (e : CmdError) : check p e = .error e := if_neg h

@[simp] theorem check_eq_ok {p : Prop} [Decidable p] {e : CmdError} {u : Unit} : check p e = .ok u ↔ p := by
  unfold check
  split <;> simp_all

@[simp] theorem check_eq_error {p : Prop} [Decidable p] {e e' : CmdError} :
    check p e = .error e' ↔ ¬p ∧ e = e' := by
  unfold check
  split <;> simp_all

/-! ### The two ends of a command -/

@[simp] theorem complete_ok (s t : State) : complete s (.ok t) = .next (clearError t) := rfl

@[simp] theorem complete_error (s : State) (e : CmdError) : complete s (.error e) = .next (takeError s e) := rfl

/-- A command always ends in a next state: its effect with LAST_ERR cleared, or the error alone. -/
theorem complete_cases (s : State) (r : Except CmdError State) :
    (∃ t, r = .ok t ∧ complete s r = .next (clearError t)) ∨
      ∃ e, r = .error e ∧ complete s r = .next (takeError s e) := by
  cases r with
  | ok t => exact .inl ⟨t, rfl, rfl⟩
  | error e => exact .inr ⟨e, rfl, rfl⟩

/-- Taking an error changes STATUS and ERR_INFO alone. -/
theorem takeError_frame (s : State) (e : CmdError) :
    takeError s e = { s with status := (takeError s e).status, errInfo := (takeError s e).errInfo } := rfl

@[simp] theorem takeError_lastErr (s : State) (e : CmdError) : (takeError s e).status.lastErr = some e.kind := rfl

@[simp] theorem takeError_errSeen (s : State) (e : CmdError) : (takeError s e).status.errSeen = true := rfl

@[simp] theorem takeError_skipSeen (s : State) (e : CmdError) :
    (takeError s e).status.skipSeen = s.status.skipSeen := rfl

@[simp] theorem takeError_errInfo (s : State) (e : CmdError) : (takeError s e).errInfo = toReg .errInfo e.info := rfl

/-- FIRST_ERR keeps the first error. -/
theorem takeError_firstErr (s : State) (e : CmdError) :
    (takeError s e).status.firstErr = s.status.firstErr.or (some e.kind) := by
  show (if s.status.firstErr = none then _ else _) = _
  cases s.status.firstErr <;> rfl

/-- Ending without an error changes LAST_ERR alone. -/
theorem clearError_frame (s : State) : clearError s = { s with status := { s.status with lastErr := none } } := rfl

/-- A count that fits its register is shown as it is. -/
theorem toReg_of_lt (src : WideSource) {n : Nat} (h : n < 2 ^ 64) : toReg src n = BitVec.ofNat 64 n := if_pos h

@[simp] theorem toReg_toNat (src : WideSource) (v : Word) : toReg src v.toNat = v := by
  rw [toReg_of_lt src v.isLt]
  simp

/-! ### Counts -/

/-- `+c` gives the true sum, which fits. -/
theorem addCount_eq_ok {a b c : Word} : addCount a b = .ok c ↔ c.toNat = a.toNat + b.toNat := by
  unfold addCount
  split
  · rename_i h
    constructor
    · intro he
      cases he
      simpa using h
    · intro he
      congr 1
      apply BitVec.eq_of_toNat_eq
      rw [he]
      simpa using h
  · rename_i h
    constructor
    · intro he
      exact nomatch he
    · intro he
      exact absurd (he ▸ c.isLt) h

/-- `+c` raises CountOverflowError when the true sum does not fit. -/
theorem addCount_eq_error {a b : Word} {e : CmdError} :
    addCount a b = .error e ↔ 2 ^ 64 ≤ a.toNat + b.toNat ∧ e = { kind := .countOverflow, info := 0 } := by
  unfold addCount
  split
  · rename_i h
    constructor
    · intro he
      exact nomatch he
    · intro he
      omega
  · rename_i h
    constructor
    · intro he
      cases he
      exact ⟨by omega, rfl⟩
    · intro he
      rw [he.2]

/-- Summing with `+c` gives the true sum. -/
theorem sumCounts_eq_ok {fs : List Word} {a c : Word} :
    sumCounts fs a = .ok c ↔ c.toNat = a.toNat + (fs.map fun f => f.toNat).sum := by
  induction fs generalizing a with
  | nil =>
    simp only [sumCounts, List.map_nil, List.sum_nil, Nat.add_zero, Except.ok.injEq]
    exact ⟨fun h => by rw [h], fun h => (BitVec.eq_of_toNat_eq h).symm⟩
  | cons f fs ih =>
    simp only [sumCounts, bind_eq_ok, addCount_eq_ok, ih, List.map_cons, List.sum_cons]
    constructor
    · rintro ⟨x, hx, hc⟩
      omega
    · intro h
      have hlt := c.isLt
      refine ⟨BitVec.ofNat 64 (a.toNat + f.toNat), ?_, ?_⟩ <;>
        (simp only [BitVec.toNat_ofNat]; rw [Nat.mod_eq_of_lt (by omega)])
      omega

/-! ### Operands -/

theorem builderSlot_eq_ok {s : State} {i : Instr} {k : Nat} {b : Builder} :
    s.builderSlot i k = .ok b ↔ s.builders[k]? = some b := by
  unfold State.builderSlot
  split <;> simp_all

theorem modelSlot_eq_ok {s : State} {i : Instr} {j : Nat} {m : Option Model} :
    s.modelSlot i j = .ok m ↔ s.models[j]? = some m := by
  unfold State.modelSlot
  split <;> simp_all

/-- An ACTIVE slot is found exactly when it exists and is ACTIVE. -/
theorem activeBuilder_eq_ok {s : State} {i : Instr} {k opc : Nat} {b : Builder} :
    s.activeBuilder i k opc = .ok b ↔ s.builders[k]? = some b ∧ b.mode = .active := by
  simp only [State.activeBuilder, bind_eq_ok, builderSlot_eq_ok, check_eq_ok]
  constructor
  · rintro ⟨b', hb, _, hm, he⟩
    cases he
    exact ⟨hb, hm⟩
  · rintro ⟨hb, hm⟩
    exact ⟨b, hb, (), hm, rfl⟩

/-- A valid model is found exactly when its slot exists and holds it. -/
theorem validModel_eq_ok {s : State} {i : Instr} {j opc : Nat} {m : Model} :
    s.validModel i j opc = .ok m ↔ s.models[j]? = some (some m) := by
  simp only [State.validModel, bind_eq_ok, modelSlot_eq_ok]
  constructor
  · rintro ⟨o, ho, h⟩
    cases o with
    | none => exact nomatch h
    | some m' =>
      cases h
      exact ho
  · intro h
    exact ⟨some m, h, rfl⟩

/-- A free slot is found exactly when it exists and is invalid. -/
theorem freeModel_eq_ok {s : State} {i : Instr} {j opc : Nat} {u : Unit} :
    s.freeModel i j opc = .ok u ↔ s.models[j]? = some none := by
  simp only [State.freeModel, bind_eq_ok, modelSlot_eq_ok]
  constructor
  · rintro ⟨o, ho, h⟩
    cases o with
    | none => exact ho
    | some m' => exact nomatch h
  · intro h
    exact ⟨none, h, rfl⟩

/-- An order operand is taken exactly when it is the number of an order. -/
theorem checkOrder_eq_ok {v : Word} {o : Order} : checkOrder v = .ok o ↔ v.toNat = o.toNat := by
  have key : orderOf v = some o ↔ v.toNat = o.toNat := by
    unfold orderOf
    have h1 : v = 1 ↔ v.toNat = 1 := ⟨fun h => by rw [h]; rfl, fun h => BitVec.eq_of_toNat_eq h⟩
    have h2 : v = 2 ↔ v.toNat = 2 := ⟨fun h => by rw [h]; rfl, fun h => BitVec.eq_of_toNat_eq h⟩
    have h3 : v = 3 ↔ v.toNat = 3 := ⟨fun h => by rw [h]; rfl, fun h => BitVec.eq_of_toNat_eq h⟩
    simp only [h1, h2, h3]
    cases o <;> simp only [Order.toNat] <;> split <;> try split
    all_goals try split
    all_goals simp_all
  unfold checkOrder
  split
  · rename_i o' h
    rw [← key, h]
    simp
  · rename_i h
    rw [← key, h]
    simp

/-- The regions of ENCODE and DECODE pass when both exist and share no byte. -/
theorem checkRegions_eq_ok {s : State} {u : Unit} :
    s.checkRegions = .ok u ↔
      s.inRange s.op0.toNat s.op1.toNat ∧ s.inRange s.op2.toNat s.op3.toNat ∧ ¬s.regionsOverlap := by
  simp [State.checkRegions, bind_eq_ok]

@[simp] theorem checkWidth_eq_ok {w : Nat} {u : Unit} : checkWidth w = .ok u ↔ w ≤ 64 := check_eq_ok

/-! ### DMEM -/

/-- A read after a write. -/
theorem memory_read_write (m : Memory) (draw a b : Nat) (v : Byte) :
    (m.write a v).read draw b = if b = a then v else m.read draw b := by
  unfold Memory.read Memory.write
  rw [mapGet_mapPut]
  split <;> rfl

/-- A write keeps the canonical form. -/
theorem memory_wf_write {m : Memory} (h : m.wf = true) (a : Nat) (v : Byte) : (m.write a v).wf = true :=
  mapSorted_mapPut addrLt_order a v h

/-- Writing a run of bytes keeps the canonical form. -/
theorem memory_wf_writeAll {m : Memory} (h : m.wf = true) (a : Nat) (bs : List Byte) : (m.writeAll a bs).wf = true := by
  induction bs generalizing m a with
  | nil => exact h
  | cons b bs ih => exact ih (memory_wf_write h a b) (a + 1)

/-- Writing bytes below a bound lists no address past it. -/
theorem memory_writeAll_lt {m : Memory} {n : Nat} (h : ∀ c ∈ m, c.1 < n) {a : Nat} {bs : List Byte}
    (hb : bs ≠ [] → a + bs.length ≤ n) : ∀ c ∈ m.writeAll a bs, c.1 < n := by
  induction bs generalizing m a with
  | nil => exact h
  | cons b bs ih =>
    have hb' := hb (List.cons_ne_nil b bs)
    simp only [List.length_cons] at hb'
    refine ih ?_ fun _ => by omega
    intro c hc
    rcases mem_mapPut addrLt a b m hc with rfl | hc
    · show a < n
      omega
    · exact h c hc

/-- The bytes of a run are read back; every byte outside it reads as before. -/
theorem memory_read_writeAll (m : Memory) (draw a b : Nat) (bs : List Byte) :
    (m.writeAll a bs).read draw b =
      if a ≤ b ∧ b < a + bs.length then bs.getD (b - a) 0 else m.read draw b := by
  induction bs generalizing m a with
  | nil =>
    rw [if_neg (by simp only [List.length_nil]; omega)]
    rfl
  | cons x bs ih =>
    rw [Memory.writeAll, ih, memory_read_write, List.length_cons]
    by_cases h1 : b = a
    · rw [if_neg (by omega), if_pos h1, if_pos (by omega), h1, Nat.sub_self]
      rfl
    · by_cases h2 : a + 1 ≤ b ∧ b < a + 1 + bs.length
      · rw [if_pos h2, if_pos (by omega)]
        obtain ⟨d, rfl⟩ : ∃ d, b = a + 1 + d := ⟨b - (a + 1), by omega⟩
        rw [show a + 1 + d - (a + 1) = d by omega, show a + 1 + d - a = d + 1 by omega]
        rfl
      · rw [if_neg h2, if_neg h1, if_neg (by omega)]

/-- Storing a run of bytes in the machine. -/
theorem readByte_writeBytes (s : State) (a b : Nat) (bs : List Byte) :
    (s.writeBytes a bs).readByte b = if a ≤ b ∧ b < a + bs.length then bs.getD (b - a) 0 else s.readByte b :=
  memory_read_writeAll s.dmem s.draw a b bs

/-- Storing changes DMEM alone. -/
theorem writeBytes_frame (s : State) (a : Nat) (bs : List Byte) :
    s.writeBytes a bs = { s with dmem := s.dmem.writeAll a bs } := rfl

/-! ### Bit strings -/

@[simp] theorem length_bitsOf (n v : Nat) : (bitsOf n v).length = n := by simp [bitsOf]

@[simp] theorem length_beBytes (w : Word) : (beBytes w).length = 8 := rfl

@[simp] theorem length_packBits (bs : List Bool) : (packBits bs).length = (bs.length + 7) / 8 := by simp [packBits]

@[simp] theorem length_streamBits (s : State) (base len pos n : Nat) : (s.streamBits base len pos n).length = n := by
  simp [State.streamBits]

/-- The value of a bit string, one bit longer at its end. -/
theorem valOf_append_singleton (bs : List Bool) (b : Bool) : valOf (bs ++ [b]) = 2 * valOf bs + b.toNat := by
  simp [valOf]

/-- A bit string of length n is below 2^n. -/
theorem valOf_lt (bs : List Bool) : valOf bs < 2 ^ bs.length := by
  induction bs using List.reverseRecOn with
  | nil => decide
  | append_singleton bs b ih =>
    rw [valOf_append_singleton, List.length_append, List.length_singleton, Nat.pow_succ]
    have : b.toNat ≤ 1 := Bool.toNat_le b
    omega

end Sys2Proof.Machine
end

