-- ==== Sys2Proof/Laws/Safety.lean ====
section
/-! SUPPORT. The operations of the machine against what the rules say in Sys2Proof/Safety.lean: the alphabet, symbols,
numbers in DMEM, regions; the tree of a build, which is the one the tie rules give, and how deep it can be. -/

namespace Sys2Proof.Machine

/-- The machine's alphabet is A. -/
@[simp] theorem inAlphabet_iff (v : Nat) : inAlphabet v = true ↔ alphabetic v := by
  simp [inAlphabet]

/-- `pack` of up to three bytes is the number they stand for. -/
theorem packSym_toNat {p : List Byte} (h : p.length ≤ 3) : (packSym p).toNat = seqValue p := by
  match p, h with
  | [], _ => rfl
  | [a], _ =>
    have := a.isLt
    simp [packSym, leNat, seqValue]
    omega
  | [a, b], _ =>
    have := a.isLt
    have := b.isLt
    simp [packSym, leNat, seqValue]
    omega
  | [a, b, c], _ =>
    have := a.isLt
    have := b.isLt
    have := c.isLt
    simp [packSym, leNat, seqValue]
    omega
  | _ :: _ :: _ :: _ :: _, h =>
    simp only [List.length_cons] at h
    omega

/-- `unpack` of a symbol is its bytes. -/
theorem unpackSym_eq (x : Sym) : unpackSym x = symBytes x := by
  have hx := x.isLt
  have h0 : BitVec.ofNat 8 x.toNat = x.extractLsb' 0 8 := by
    apply BitVec.eq_of_toNat_eq
    simp [BitVec.extractLsb'_toNat]
  have h1 : BitVec.ofNat 8 (x.toNat / 256) = x.extractLsb' 8 8 := by
    apply BitVec.eq_of_toNat_eq
    simp [BitVec.extractLsb'_toNat, Nat.shiftRight_eq_div_pow]
  have h2 : BitVec.ofNat 8 (x.toNat / 256 / 256) = x.extractLsb' 16 8 := by
    apply BitVec.eq_of_toNat_eq
    simp [BitVec.extractLsb'_toNat, Nat.shiftRight_eq_div_pow, Nat.div_div_eq_div_mul]
  unfold unpackSym symBytes
  simp only [unpackNat, h0, h1, h2]
  by_cases ha : x.toNat < 2 ^ 8
  · rw [if_pos (by omega : x.toNat / 256 = 0), if_pos ha]
  · by_cases hb : x.toNat < 2 ^ 16
    · rw [if_neg (by omega), if_pos (by omega : x.toNat / 256 / 256 = 0), if_neg ha, if_pos hb]
    · rw [if_neg (by omega), if_neg (by omega), if_pos (by omega : x.toNat / 256 / 256 / 256 = 0), if_neg ha,
        if_neg hb]

/-- A symbol has as many bytes as its width. -/
@[simp] theorem symBytes_length (x : Sym) : (symBytes x).length = symWidth x.toNat := by
  unfold symBytes symWidth
  split
  · rfl
  · split <;> rfl

/-- The bytes HBUILD checks of a symbol are its bytes. -/
theorem symBytes_alphabetic (x : Sym) :
    (∀ b ∈ symBytes x, alphabetic b.toNat) ↔
      ∀ t < symWidth x.toNat, alphabetic (x.toNat / 2 ^ (8 * t) % 2 ^ 8) := by
  unfold symBytes symWidth
  split
  · simp [BitVec.extractLsb'_toNat]
  · split
    · rw [Nat.forall_lt_succ_right, Nat.forall_lt_succ_right]
      simp [BitVec.extractLsb'_toNat, Nat.shiftRight_eq_div_pow]
    · rw [Nat.forall_lt_succ_right, Nat.forall_lt_succ_right, Nat.forall_lt_succ_right]
      simp [BitVec.extractLsb'_toNat, Nat.shiftRight_eq_div_pow, and_assoc]

/-- HBUILD's check of a symbol, whatever was read before it, is `symOk`. -/
theorem symOk_iff (o : Order) (x : Sym) :
    symOk o x ↔ symValid x.toNat = true ∧ (x.toNat = 255 ∨ symWidth x.toNat ≤ o.toNat) := by
  have h255 : x = 255 ↔ x.toNat = 255 := by
    constructor
    · rintro rfl
      rfl
    · intro h
      exact BitVec.eq_of_toNat_eq h
  have h0 : (∀ b ∈ symBytes x, alphabetic b.toNat) → 1 ≤ x.toNat := by
    intro h
    by_contra hx
    have : x = 0 := BitVec.eq_of_toNat_eq (by simpa using hx)
    subst this
    exact absurd (h 0 (by decide)) (by decide)
  have hx := x.isLt
  have ha := symBytes_alphabetic x
  simp only [symOk, symBytes_length, h255, symValid, Bool.or_eq_true, Bool.and_eq_true, decide_eq_true_eq,
    List.all_eq_true, List.mem_range, inAlphabet_iff]
  rw [← ha]
  constructor
  · rintro (h | ⟨h1, h2⟩)
    · exact ⟨.inl h, .inl h⟩
    · exact ⟨.inr ⟨⟨h0 h1, hx⟩, h1⟩, .inr h2⟩
  · rintro ⟨h1 | ⟨-, h1⟩, h2 | h2⟩
    · exact .inl h1
    · exact .inl h1
    · exact .inl h2
    · exact .inr ⟨h1, h2⟩

/-- Little-endian bytes read one by one. -/
theorem leNat_readBytes (s : State) (a n : Nat) : leNat (s.readBytes a n) = s.leWord a n := by
  have key : ∀ (n : Nat) (f : Nat → Byte),
      leNat ((List.range n).map f) = ((List.range n).map fun t => (f t).toNat * 2 ^ (8 * t)).sum := by
    intro n
    induction n with
    | zero => intro f; rfl
    | succ n ih =>
      intro f
      rw [List.range_succ_eq_map, List.map_cons, List.map_cons, List.map_map, List.map_map, leNat, List.sum_cons,
        ih (f ∘ Nat.succ), ← List.sum_map_mul_left]
      congr 1
      · simp
      · congr 1
        apply List.map_congr_left
        intro t _
        simp only [Function.comp, Nat.succ_eq_add_one, Nat.mul_add, Nat.pow_add]
        ring
  exact key n fun i => s.readByte (a + i)

/-- The overlap check finds exactly the regions that share a byte. -/
theorem regionsOverlap_iff (s : State) : s.regionsOverlap ↔ s.sharesByte := by
  constructor
  · rintro ⟨h1, h2, h3, h4⟩
    exact ⟨max s.op0.toNat s.op2.toNat, ⟨by omega, by omega⟩, by omega, by omega⟩
  · rintro ⟨a, ⟨h1, h2⟩, h3, h4⟩
    exact ⟨by omega, by omega, by omega, by omega⟩

/-! ### The depth of a Huffman tree -/

/-- How many leaves a tree has. -/
def Tree.leaves : Tree → Nat
  | .leaf _ _ => 1
  | .node l r _ => l.leaves + r.leaves

theorem Tree.depth_lt_leaves (t : Tree) : t.depth < t.leaves := by
  induction t with
  | leaf => simp [Tree.depth, Tree.leaves]
  | node l r f hl hr => simp only [Tree.depth, Tree.leaves]; omega

/-- Merging keeps the leaves. -/
theorem Reduces.leaves {q : List Tree} {root : Tree} (h : Reduces q root) : root.leaves = (q.map Tree.leaves).sum := by
  induction h with
  | one t => simp
  | merge x y lo hi f root _ _ _ _ ih => rw [ih]; simp [Tree.leaves]; omega

/-- The tree of a map of n symbols is less than n deep. -/
theorem HuffTree.depth_lt {f : FreqMap} {root : Tree} (h : HuffTree f root) : root.depth < f.length := by
  obtain ⟨leaves, hp, -, -, hr⟩ := h
  have h1 := hr.leaves
  have h2 : ((leaves.map fun p => Tree.leaf p.1 p.2).map Tree.leaves).sum = leaves.length := by
    simp [Function.comp_def, Tree.leaves]
  have h3 := root.depth_lt_leaves
  have h4 := hp.length_eq
  omega

/-! ### The build gives the tree of the tie rules -/

/-- A node is put between the nodes of at most its frequency and the higher ones of a rising queue. -/
theorem queueInsert_split (z : Tree) {q : List Tree}
    (hq : q.Pairwise fun a b => (treeFreq a).toNat ≤ (treeFreq b).toNat) :
    ∃ lo hi, q = lo ++ hi ∧ queueInsert z q = lo ++ z :: hi ∧ (∀ n ∈ lo, (treeFreq n).toNat ≤ (treeFreq z).toNat) ∧
      ∀ n ∈ hi, (treeFreq z).toNat < (treeFreq n).toNat := by
  induction q with
  | nil => exact ⟨[], [], rfl, rfl, by simp, by simp⟩
  | cons n q ih =>
    obtain ⟨hn, hq⟩ := List.pairwise_cons.mp hq
    by_cases h : (treeFreq n).toNat ≤ (treeFreq z).toNat
    · obtain ⟨lo, hi, rfl, he, hlo, hhi⟩ := ih hq
      exact ⟨n :: lo, hi, rfl, by simp [queueInsert, h, he], by simpa [h] using hlo, hhi⟩
    · refine ⟨[], n :: q, rfl, by simp [queueInsert, h], by simp, fun m hm => ?_⟩
      obtain rfl | hm := List.mem_cons.mp hm
      · omega
      · have := hn m hm
        omega

/-- Inserting keeps a queue rising. -/
theorem queueInsert_rising (z : Tree) {q : List Tree}
    (hq : q.Pairwise fun a b => (treeFreq a).toNat ≤ (treeFreq b).toNat) :
    (queueInsert z q).Pairwise fun a b => (treeFreq a).toNat ≤ (treeFreq b).toNat := by
  obtain ⟨lo, hi, rfl, he, hlo, hhi⟩ := queueInsert_split z hq
  obtain ⟨h1, h2, h3⟩ := List.pairwise_append.mp hq
  rw [he]
  refine List.pairwise_append.mpr ⟨h1, List.pairwise_cons.mpr ⟨fun n hn => (hhi n hn).le, h2⟩, fun a ha b hb => ?_⟩
  obtain rfl | hb := List.mem_cons.mp hb
  · exact hlo a ha
  · exact h3 a ha b hb

/-- `mergeQueue` reduces a rising queue whose nodes carry the sums of their leaves. -/
theorem mergeQueue_reduces {n : Nat} {x root : Tree} {q : List Tree} (hn : q.length = n)
    (hq : (x :: q).Pairwise fun a b => (treeFreq a).toNat ≤ (treeFreq b).toNat)
    (hw : ∀ t ∈ x :: q, (treeFreq t).toNat = t.weight) (h : mergeQueue n x q = .ok root) : Reduces (x :: q) root := by
  induction n generalizing x q with
  | zero =>
    obtain rfl := List.eq_nil_of_length_eq_zero hn
    obtain rfl := Except.ok.inj h
    exact .one _
  | succ n ih =>
    match q, hn with
    | y :: q, hn =>
      obtain ⟨f, hf, h⟩ := bind_eq_ok.mp h
      rw [addCount_eq_ok, hw x (by simp), hw y (by simp)] at hf
      have hq' := (List.pairwise_cons.mp (List.pairwise_cons.mp hq).2).2
      have hr := queueInsert_rising (.node x y f) hq'
      obtain ⟨lo, hi, rfl, he, hlo, hhi⟩ := queueInsert_split (.node x y f) hq'
      have hw' : ∀ t ∈ lo ++ .node x y f :: hi, (treeFreq t).toNat = t.weight := by
        intro t ht
        obtain ht | rfl | ht : t ∈ lo ∨ t = .node x y f ∨ t ∈ hi := by simpa using ht
        · exact hw t (by simp [ht])
        · exact hf
        · exact hw t (by simp [ht])
      rw [he] at hr
      refine .merge x y lo hi f root hf (fun m hm => ?_) (fun m hm => ?_) ?_
      · rw [← hf, ← hw m (by simp [hm])]
        exact hlo m hm
      · rw [← hf, ← hw m (by simp [hm])]
        exact hhi m hm
      · rw [he] at h
        cases hc : lo ++ .node x y f :: hi with
        | nil => simp at hc
        | cons a l =>
          rw [hc] at h hr hw'
          have hl := congrArg List.length hc
          simp only [List.length_append, List.length_cons] at hl hn
          exact ih (by omega) hr hw' h

/-- `sortLeaves` puts the leaves in rising order, those of equal frequency in the order of the map. -/
theorem sortLeaves_eq (f : FreqMap) : ∃ leaves : FreqMap, sortLeaves f = leaves.map (fun p => Tree.leaf p.1 p.2) ∧
    leaves.Perm f ∧ leaves.Pairwise (fun a b => a.2.toNat ≤ b.2.toNat) ∧
    ∀ w : Word, leaves.filter (fun p => p.2 == w) = f.filter (fun p => p.2 == w) := by
  have key : ∀ (f g l : FreqMap), l.Perm g → l.Pairwise (fun a b => a.2.toNat ≤ b.2.toNat) →
      (∀ w : Word, l.filter (fun p => p.2 == w) = g.filter (fun p => p.2 == w)) →
      ∃ leaves : FreqMap, f.foldl (fun q p => queueInsert (.leaf p.1 p.2) q) (l.map fun p => Tree.leaf p.1 p.2) =
          leaves.map (fun p => Tree.leaf p.1 p.2) ∧
        leaves.Perm (g ++ f) ∧ leaves.Pairwise (fun a b => a.2.toNat ≤ b.2.toNat) ∧
        ∀ w : Word, leaves.filter (fun p => p.2 == w) = (g ++ f).filter (fun p => p.2 == w) := by
    intro f
    induction f with
    | nil => exact fun g l hp hs hf => ⟨l, rfl, by simpa using hp, hs, by simpa using hf⟩
    | cons p f ih =>
      intro g l hp hs hf
      obtain ⟨lo, hi, hl, he, hlo, hhi⟩ := queueInsert_split (.leaf p.1 p.2) (q := l.map fun p => Tree.leaf p.1 p.2)
        (List.pairwise_map.mpr (by simpa only [treeFreq] using hs))
      obtain ⟨lo, hi, rfl, rfl, rfl⟩ := List.map_eq_append_iff.mp hl
      obtain ⟨h1, h2, h3⟩ := List.pairwise_append.mp hs
      obtain ⟨leaves, hA, hB, hC, hD⟩ := ih (g ++ [p]) (lo ++ p :: hi) (by
          refine List.perm_middle.trans ?_
          exact ((hp.cons p).trans (List.perm_append_singleton p g).symm)) (by
          refine List.pairwise_append.mpr ⟨h1, List.pairwise_cons.mpr ⟨fun b hb => ?_, h2⟩, fun a ha b hb => ?_⟩
          · exact (hhi _ (List.mem_map_of_mem hb)).le
          · obtain rfl | hb := List.mem_cons.mp hb
            · exact hlo _ (List.mem_map_of_mem ha)
            · exact h3 a ha b hb) (fun w => by
          rw [List.filter_append, List.filter_append, ← hf w, List.filter_append, List.filter_cons]
          by_cases hw : p.2 = w
          · have : hi.filter (fun p => p.2 == w) = [] := List.filter_eq_nil_iff.mpr fun b hb => by
              have := hhi _ (List.mem_map_of_mem hb)
              simp only [treeFreq] at this
              subst hw
              simp only [beq_iff_eq]
              intro hc
              rw [hc] at this
              omega
            simp [hw, this]
          · simp [hw])
      refine ⟨leaves, ?_, by simpa using hB, hC, by simpa using hD⟩
      rw [List.foldl_cons, he, ← hA]
      simp
  simpa [sortLeaves] using key f [] [] (by simp) (by simp) (by simp)

/-- The tree of a build is the one the tie rules give. -/
theorem buildTree_huffTree {f : FreqMap} {root : Tree} (h : buildTree f = .ok root) : HuffTree f root := by
  obtain ⟨leaves, he, hp, hs, hf⟩ := sortLeaves_eq f
  refine ⟨leaves, hp, hs, hf, ?_⟩
  have hq := List.Pairwise.map (S := fun a b => (treeFreq a).toNat ≤ (treeFreq b).toNat)
    (fun p : Sym × Word => Tree.leaf p.1 p.2) (fun _ _ h => h) hs
  have hw : ∀ t ∈ leaves.map (fun p => Tree.leaf p.1 p.2), (treeFreq t).toNat = t.weight := by
    intro t ht
    obtain ⟨p, -, rfl⟩ := List.mem_map.mp ht
    rfl
  unfold buildTree at h
  rw [he] at h
  cases leaves with
  | nil => exact nomatch h
  | cons p leaves => exact mergeQueue_reduces rfl hq hw h

/-! ### A map has one tree -/

/-- The place of a new node in a queue is one. -/
theorem split_unique {k : Nat} {lo hi lo' hi' : List Tree} (h : lo ++ hi = lo' ++ hi')
    (hlo : ∀ n ∈ lo, n.weight ≤ k) (hhi : ∀ n ∈ hi, k < n.weight) (hlo' : ∀ n ∈ lo', n.weight ≤ k)
    (hhi' : ∀ n ∈ hi', k < n.weight) : lo = lo' ∧ hi = hi' := by
  have hl : lo = lo' := by
    have h1 := congrArg (List.filter fun n => decide (n.weight ≤ k)) h
    have h2 : hi.filter (fun n => decide (n.weight ≤ k)) = [] :=
      List.filter_eq_nil_iff.mpr fun n hn => by simpa using hhi n hn
    have h3 : hi'.filter (fun n => decide (n.weight ≤ k)) = [] :=
      List.filter_eq_nil_iff.mpr fun n hn => by simpa using hhi' n hn
    rwa [List.filter_append, List.filter_append, h2, h3, List.append_nil, List.append_nil,
      List.filter_eq_self.mpr fun n hn => by simpa using hlo n hn,
      List.filter_eq_self.mpr fun n hn => by simpa using hlo' n hn] at h1
  subst hl
  exact ⟨rfl, List.append_cancel_left h⟩

theorem Reduces.unique {q q' : List Tree} {root root' : Tree} (h : Reduces q root) (h' : Reduces q' root')
    (hq : q = q') : root = root' := by
  induction h generalizing q' root' with
  | one t =>
    cases h' with
    | one t' => exact List.head_eq_of_cons_eq hq
    | merge => simp at hq
  | merge x y lo hi f root hf hlo hhi _ ih =>
    cases h' with
    | one t' => simp at hq
    | merge x' y' lo' hi' f' _ hf' hlo' hhi' next =>
      obtain ⟨rfl, rfl, hlh⟩ : x = x' ∧ y = y' ∧ lo ++ hi = lo' ++ hi' := by simpa using hq
      obtain ⟨rfl, rfl⟩ := split_unique hlh hlo hhi hlo' hhi'
      exact ih next (by rw [BitVec.eq_of_toNat_eq (hf.trans hf'.symm)])

/-- Two rising maps whose pairs of every frequency stand in the same order are the same. -/
theorem rising_unique {l l' : FreqMap} (hs : l.Pairwise fun a b => a.2.toNat ≤ b.2.toNat)
    (hs' : l'.Pairwise fun a b => a.2.toNat ≤ b.2.toNat)
    (h : ∀ w : Word, l.filter (fun p => p.2 == w) = l'.filter (fun p => p.2 == w)) : l = l' := by
  induction l generalizing l' with
  | nil =>
    cases l' with
    | nil => rfl
    | cons b l' =>
      have := h b.2
      simp at this
  | cons a l ih =>
    cases l' with
    | nil =>
      have := h a.2
      simp at this
    | cons b l' =>
      obtain ⟨ha, hs⟩ := List.pairwise_cons.mp hs
      obtain ⟨hb, ht⟩ := List.pairwise_cons.mp hs'
      have h1 : a ∈ b :: l' := by
        have : a ∈ (b :: l').filter fun p => p.2 == a.2 := h a.2 ▸ by simp
        exact List.mem_of_mem_filter this
      have h2 : b ∈ a :: l := by
        have : b ∈ (a :: l).filter fun p => p.2 == b.2 := h b.2 ▸ by simp
        exact List.mem_of_mem_filter this
      have h3 : a.2.toNat ≤ b.2.toNat := by
        obtain rfl | h2 := List.mem_cons.mp h2
        · exact le_rfl
        · exact ha b h2
      have h4 : b.2.toNat ≤ a.2.toNat := by
        obtain rfl | h1 := List.mem_cons.mp h1
        · exact le_rfl
        · exact hb a h1
      have hf : a.2 = b.2 := BitVec.eq_of_toNat_eq (by omega)
      have h5 := h a.2
      rw [List.filter_cons_of_pos (by simp), List.filter_cons_of_pos (by simp [hf])] at h5
      obtain rfl := (List.cons.inj h5).1
      congr 1
      refine ih hs ht fun w => ?_
      have h6 := h w
      by_cases hw : a.2 = w
      · rw [List.filter_cons_of_pos (by simp [hw]), List.filter_cons_of_pos (by simp [hw])] at h6
        exact (List.cons.inj h6).2
      · rwa [List.filter_cons_of_neg (by simp [hw]), List.filter_cons_of_neg (by simp [hw])] at h6

/-- The tie rules leave no choice: a map has one tree. -/
theorem HuffTree.unique {f : FreqMap} {root root' : Tree} (h : HuffTree f root) (h' : HuffTree f root') :
    root = root' := by
  obtain ⟨l, -, hs, hf, hr⟩ := h
  obtain ⟨l', -, hs', hf', hr'⟩ := h'
  exact hr.unique hr' (by rw [rising_unique hs hs' fun w => (hf w).trans (hf' w).symm])

end Sys2Proof.Machine
end

