-- ==== Sys2Proof/Laws/Builder.lean ====
section
/-! SUPPORT. What a scan that succeeds has done to a builder: the operations of Sys2Proof/Machine/Builder.lean against
`Builder.Accepts`, `Builder.Skips` and `Builder.Scans` of Sys2Proof/Safety.lean. -/

namespace Sys2Proof.Machine

/-- A node just put has the counts put; every other node keeps its own. -/
theorem nodeCounts_mapPut (t : Trie) (p q : List Byte) (c : NodeCounts) :
    nodeCounts (mapPut seqLt q c t) p = if p = q then c else nodeCounts t p := by
  unfold nodeCounts
  rw [mapGet_mapPut]
  split <;> rfl

/-- What `+c` on FLAT leaves. -/
theorem bumpFlat_ok {f f' : Flat} {b : Byte} {n : Word} (h : bumpFlat f b n = .ok f') (c : Byte) :
    (flatCount f' c).toNat = (flatCount f c).toNat + if c = b then n.toNat else 0 := by
  obtain ⟨v, hv, h⟩ := bind_eq_ok.mp h
  obtain rfl := Except.ok.inj h
  rw [addCount_eq_ok] at hv
  by_cases hc : c = b
  · subst hc
    simpa [flatCount] using hv
  · simp [flatCount, mapGet_mapPut_other byteLt hc, hc]

/-- What a walk over distinct nodes leaves: one pass more at each, EXACT as it was, and each of them there. -/
theorem walkTrie_ok {cap : Nat} {ps : List (List Byte)} {t t' : Trie} (hd : ps.Nodup)
    (h : walkTrie cap ps t = .ok t') (p : List Byte) :
    (nodeCounts t' p).pass.toNat = (nodeCounts t p).pass.toNat + (if p ∈ ps then 1 else 0) ∧
      (nodeCounts t' p).exact = (nodeCounts t p).exact ∧ (mapGet p t' ≠ none ↔ mapGet p t ≠ none ∨ p ∈ ps) := by
  induction ps generalizing t with
  | nil =>
    obtain rfl := Except.ok.inj h
    simp
  | cons q ps ih =>
    obtain ⟨-, -, h⟩ := bind_eq_ok.mp h
    obtain ⟨v, hv, h⟩ := bind_eq_ok.mp h
    obtain ⟨hq, hd⟩ := List.nodup_cons.mp hd
    obtain ⟨h1, h2, h3⟩ := ih hd h
    rw [addCount_eq_ok] at hv
    rw [nodeCounts_mapPut] at h1 h2
    rw [mapGet_mapPut] at h3
    by_cases hp : p = q
    · subst hp
      simp only [hq] at h1 h2 h3
      refine ⟨by simpa using h1.trans (by simpa using hv), h2, by simp [h3]⟩
    · simp only [if_neg hp] at h1 h2 h3
      exact ⟨by simp [h1, hp], h2, by simp [h3, hp]⟩

/-- The nodes of a walk are the non-empty initial parts of the window. -/
theorem mem_windowPaths {w p : List Byte} : p ∈ windowPaths w ↔ p ≠ [] ∧ p.isPrefixOf w = true := by
  rw [List.isPrefixOf_iff_prefix]
  unfold windowPaths
  simp only [List.mem_map, List.mem_range]
  constructor
  · rintro ⟨t, ht, rfl⟩
    exact ⟨by intro h; have := congrArg List.length h; simp at this; subst this; simp at ht, List.take_prefix _ _⟩
  · rintro ⟨hn, hp⟩
    have h1 := List.length_pos_iff.mpr hn
    have h2 := hp.length_le
    refine ⟨p.length - 1, by omega, ?_⟩
    rw [show p.length - 1 + 1 = p.length by omega]
    exact (List.prefix_iff_eq_take.mp hp).symm

theorem windowPaths_nodup (w : List Byte) : (windowPaths w).Nodup := by
  unfold windowPaths
  refine (List.nodup_map_iff_inj_on List.nodup_range).mpr fun a ha b hb h => ?_
  have := congrArg List.length h
  simp only [List.mem_range] at ha hb
  simp only [List.length_take] at this
  omega

/-- The new window, of a window within ORDER. -/
theorem slideWindow_eq {bd : Builder} (h : bd.win.length ≤ bd.order.toNat) (b : Byte) :
    slideWindow bd.order bd.win b = bd.slid b := by
  unfold slideWindow Builder.slid
  simp only [List.length_append, List.length_singleton]
  split
  · rw [show bd.win.length + 1 - bd.order.toNat = 1 by omega]
  · rw [show bd.win.length + 1 - bd.order.toNat = 0 by omega, List.drop_zero]

theorem slid_length_le (bd : Builder) (b : Byte) : (bd.slid b).length ≤ bd.order.toNat := by
  simp [Builder.slid]
  omega

theorem slid_ne_nil (bd : Builder) (b : Byte) : bd.slid b ≠ [] := by
  have : 1 ≤ bd.order.toNat := by cases bd.order <;> decide
  intro h
  have := congrArg List.length h
  simp [Builder.slid] at this
  omega

/-- An accepted byte does what the rule says. -/
theorem acceptByte_accepts {cap : Nat} {bd bd' : Builder} {b : Byte} (hw : bd.win.length ≤ bd.order.toNat)
    (h : acceptByte cap bd b = .ok bd') : bd.Accepts b bd' := by
  obtain ⟨flat, hf, h⟩ := bind_eq_ok.mp h
  obtain ⟨walked, ht, h⟩ := bind_eq_ok.mp h
  obtain ⟨trie, he, h⟩ := bind_eq_ok.mp h
  obtain ⟨v, hv, he⟩ := bind_eq_ok.mp he
  obtain rfl := Except.ok.inj h
  obtain rfl := Except.ok.inj he
  rw [slideWindow_eq hw] at ht hv ⊢
  rw [addCount_eq_ok] at hv
  have hwalk := fun p => walkTrie_ok (windowPaths_nodup _) ht p
  simp only [mem_windowPaths] at hwalk
  refine ⟨rfl, fun c => by simpa using bumpFlat_ok hf c, fun p => ?_, fun p => ?_, fun p => ?_⟩
  · rw [nodeCounts_mapPut, ← (hwalk p).1]
    split
    · rename_i hp
      rw [hp]
    · rfl
  · rw [nodeCounts_mapPut]
    split
    · rename_i hp
      rw [hp, ← (hwalk _).2.1]
      exact hv
    · rw [(hwalk p).2.1, Nat.add_zero]
  · rw [mapGet_mapPut]
    split
    · rename_i hp
      subst hp
      simp [slid_ne_nil]
    · exact (hwalk p).2.2

/-- A scan of one value accepts or skips, as the alphabet says. -/
theorem scanOne_ok {cap : Nat} {bd : Builder} {b : Byte} {x : Builder × Bool} (hw : bd.win.length ≤ bd.order.toNat)
    (h : scanOne cap bd (b.setWidth 64) = .ok x) :
    (alphabetic b.toNat ∧ x.2 = true ∧ bd.Accepts b x.1) ∨ (¬alphabetic b.toNat ∧ x.2 = false ∧ bd.Skips x.1) := by
  have hb : (b.setWidth 64).toNat = b.toNat := by simp; omega
  unfold scanOne at h
  simp only [hb, inAlphabet_iff] at h
  split at h
  · rename_i ha
    obtain ⟨bd', hx, h⟩ := bind_eq_ok.mp h
    obtain rfl := Except.ok.inj h
    exact .inl ⟨ha, rfl, acceptByte_accepts hw (by simpa using hx)⟩
  · rename_i ha
    obtain ⟨bd', hx, h⟩ := bind_eq_ok.mp h
    obtain rfl := Except.ok.inj h
    obtain ⟨n, hn, hx⟩ := bind_eq_ok.mp hx
    obtain rfl := Except.ok.inj hx
    exact .inr ⟨ha, rfl, rfl, addCount_eq_ok.mp hn⟩

/-- A scan that comes to an end is the scan of its bytes in order. -/
theorem scanBytes_scans {cap : Nat} {bs : List Byte} {r r' : ScanResult}
    (hw : r.builder.win.length ≤ r.builder.order.toNat) (h : scanBytes cap bs r = .ok r') :
    r.builder.Scans bs r'.builder := by
  induction bs generalizing r with
  | nil =>
    obtain rfl := Except.ok.inj h
    rfl
  | cons b bs ih =>
    obtain ⟨x, hx, h⟩ := bind_eq_ok.mp h
    obtain ⟨ha, -, hA⟩ | ⟨ha, -, hS⟩ := scanOne_ok hw hx
    · refine ⟨x.1, fun _ => hA, fun hn => absurd ha hn, ih (r := ⟨x.1, _, _⟩) ?_ h⟩
      have h1 : x.1.win = r.builder.slid b := by rw [hA.1]
      have h2 : x.1.order = r.builder.order := by rw [hA.1]
      simpa only [h1, h2] using slid_length_le r.builder b
    · refine ⟨x.1, fun hn => absurd hn ha, fun _ => hS, ih (r := ⟨x.1, _, _⟩) ?_ h⟩
      have h1 : x.1.win = r.builder.win := by rw [hS.1]
      have h2 : x.1.order = r.builder.order := by rw [hS.1]
      simpa only [h1, h2] using hw

end Sys2Proof.Machine
end

