-- ==== Sys2Proof/Laws/PerInstr.lean ====
section
/-! SUPPORT. Statements made per instruction: the encoded word carries the opcode of 30_encoding.md R105 in bits 7:0
and zeros in RSV. -/

namespace Sys2Proof.Laws

/-- The opcode map of 30_encoding.md R105, read off per constructor. -/
def opcodeNumber : Instr → Nat
  | .nop => 0
  | .winit => 1
  | .wbits _ => 2
  | .wfinish => 3
  | .rinit => 4
  | .rpeek _ => 5
  | .rmatch _ => 6
  | .radv _ => 7
  | .binit _ => 8
  | .bscan _ => 9
  | .bline _ => 10
  | .bscanln _ => 11
  | .bscanbuf _ => 12
  | .bmerge _ _ => 13
  | .binfo _ => 14
  | .bbuild _ _ => 15
  | .hbuild _ => 16
  | .encode _ => 17
  | .decode _ => 18
  | .minfo _ => 19
  | .mentry _ => 20
  | .mlookup _ => 21
  | .mfree _ => 22

/-- A packed word keeps its opcode apart from the other fields and leaves RSV zero. -/
theorem packWord_opcode {opc : Nat} (h : opc < 256) (sa sb w7 : Nat) :
    opcOf (packWord opc sa sb w7) = opc ∧ rsvOf (packWord opc sa sb w7) = 0 := by
  simp only [opcOf, rsvOf, fieldOf, packWord, BitVec.toNat_ofNat]
  omega

/-- OPC and RSV of the encoded command (30_encoding.md R101, R105). -/
def OpcodeField.Statement (i : Instr) : Prop := opcOf (encode i) = opcodeNumber i ∧ rsvOf (encode i) = 0

theorem OpcodeField.nop : OpcodeField.Statement .nop := packWord_opcode (by decide) 0 0 0
theorem OpcodeField.winit : OpcodeField.Statement .winit := packWord_opcode (by decide) 0 0 0
theorem OpcodeField.wbits (w : Nat) : OpcodeField.Statement (.wbits w) := packWord_opcode (by decide) 0 0 w
theorem OpcodeField.wfinish : OpcodeField.Statement .wfinish := packWord_opcode (by decide) 0 0 0
theorem OpcodeField.rinit : OpcodeField.Statement .rinit := packWord_opcode (by decide) 0 0 0
theorem OpcodeField.rpeek (n : Nat) : OpcodeField.Statement (.rpeek n) := packWord_opcode (by decide) 0 0 n
theorem OpcodeField.rmatch (n : Nat) : OpcodeField.Statement (.rmatch n) := packWord_opcode (by decide) 0 0 n
theorem OpcodeField.radv (n : Nat) : OpcodeField.Statement (.radv n) := packWord_opcode (by decide) 0 0 n
theorem OpcodeField.binit (k : Nat) : OpcodeField.Statement (.binit k) := packWord_opcode (by decide) k 0 0
theorem OpcodeField.bscan (k : Nat) : OpcodeField.Statement (.bscan k) := packWord_opcode (by decide) k 0 0
theorem OpcodeField.bline (k : Nat) : OpcodeField.Statement (.bline k) := packWord_opcode (by decide) k 0 0
theorem OpcodeField.bscanln (k : Nat) : OpcodeField.Statement (.bscanln k) := packWord_opcode (by decide) k 0 0
theorem OpcodeField.bscanbuf (k : Nat) : OpcodeField.Statement (.bscanbuf k) := packWord_opcode (by decide) k 0 0
theorem OpcodeField.bmerge (dst src : Nat) : OpcodeField.Statement (.bmerge dst src) :=
  packWord_opcode (by decide) dst src 0
theorem OpcodeField.binfo (k : Nat) : OpcodeField.Statement (.binfo k) := packWord_opcode (by decide) k 0 0
theorem OpcodeField.bbuild (k j : Nat) : OpcodeField.Statement (.bbuild k j) := packWord_opcode (by decide) k j 0
theorem OpcodeField.hbuild (j : Nat) : OpcodeField.Statement (.hbuild j) := packWord_opcode (by decide) 0 j 0
theorem OpcodeField.encode (j : Nat) : OpcodeField.Statement (.encode j) := packWord_opcode (by decide) j 0 0
theorem OpcodeField.decode (j : Nat) : OpcodeField.Statement (.decode j) := packWord_opcode (by decide) j 0 0
theorem OpcodeField.minfo (j : Nat) : OpcodeField.Statement (.minfo j) := packWord_opcode (by decide) j 0 0
theorem OpcodeField.mentry (j : Nat) : OpcodeField.Statement (.mentry j) := packWord_opcode (by decide) j 0 0
theorem OpcodeField.mlookup (j : Nat) : OpcodeField.Statement (.mlookup j) := packWord_opcode (by decide) j 0 0
theorem OpcodeField.mfree (j : Nat) : OpcodeField.Statement (.mfree j) := packWord_opcode (by decide) j 0 0

end Sys2Proof.Laws
end

