-- ==== Sys2Proof/Machine/Assembler.lean ====
section
/-! DEFINITION. The assembler's text of a command (30_encoding.md R109), the host actions of its syntax, and the
pseudo-commands with their expansions (R111). -/

namespace Sys2Proof.Machine

/-- A used field as text: `b<k>`, `m<j>`, `#<n>`; a field marked 0 has none (30_encoding.md R109). -/
def fieldText (u : FieldUse) (v : Nat) : Option String :=
  match u with
  | .zero => none
  | .builder => some ("b" ++ toString v)
  | .model => some ("m" ++ toString v)
  | .width => some ("#" ++ toString v)

/-- The operands of a row, in the order SA, SB, W7 (30_encoding.md R109). -/
def operandTexts (r : OpRow) (c : CmdWord) : List String :=
  [fieldText r.sa (saOf c), fieldText r.sb (sbOf c), fieldText r.w7 (w7Of c)].filterMap id

/-- A mnemonic with its operands, separated by commas. -/
def asmLine (mnemonic : String) : List String → String
  | [] => mnemonic
  | x :: xs => xs.foldl (fun t y => t ++ ", " ++ y) (mnemonic ++ " " ++ x)

/-- The assembler text of a legal word (30_encoding.md R109). -/
def disassemble (c : CmdWord) : Option String :=
  match decode c, opTable.find? (fun r => decide (r.opc = opcOf c)) with
  | .ok _, some r => some (asmLine r.mnemonic (operandTexts r c))
  | _, _ => none

/-- A command issued (30_encoding.md R110). -/
def issue (i : Instr) : HostAction := cmdWrite (encode i)

/-- `SET OPn, v` (30_encoding.md R109). -/
def setOp (n : Nat) (v : Word) : HostAction := .writeReg 8 (0x08 + 8 * n) v

/-- `GET reg`, the register given by its offset (30_encoding.md R109). -/
def getReg (offset : Nat) : HostAction := .readReg 8 offset

/-- `MEMW a, bytes` (30_encoding.md R109). -/
def memWrite (a : Nat) : List Byte → List HostAction
  | [] => []
  | b :: bs => .writeMem a b :: memWrite (a + 1) bs

/-- `MEMR a, n` (30_encoding.md R109). -/
def memRead (a n : Nat) : List HostAction := (List.range n).map fun i => .readMem (a + i)

/-- The pseudo-commands of 30_encoding.md R111. -/
inductive Pseudo
  | write (v : Word) (n : Nat)
  | matchBits (v : Word) (n : Nat)
  | wopen (base cap : Word)
  | ropen (base len : Word)
  | bnew (k : Nat) (order : Word)
  | scanb (k : Nat) (byte : Word)
  | scanline (k : Nat) (base len : Word)
  | enc (j : Nat) (inBase len outBase cap : Word)
  | dec (j : Nat) (inBase len outBase cap : Word)
  deriving DecidableEq, Repr

/-- The expansions of 30_encoding.md R111. -/
def expandPseudo : Pseudo → List HostAction
  | .write v n => [setOp 0 v, issue (.wbits n)]
  | .matchBits v n => [setOp 0 v, issue (.rmatch n)]
  | .wopen base cap => [setOp 0 base, setOp 1 cap, issue .winit]
  | .ropen base len => [setOp 0 base, setOp 1 len, issue .rinit]
  | .bnew k order => [setOp 0 order, issue (.binit k)]
  | .scanb k byte => [setOp 0 byte, issue (.bscan k)]
  | .scanline k base len => [setOp 0 base, setOp 1 len, issue (.bscanln k)]
  | .enc j inBase len outBase cap =>
    [setOp 0 inBase, setOp 1 len, setOp 2 outBase, setOp 3 cap, issue (.encode j)]
  | .dec j inBase len outBase cap =>
    [setOp 0 inBase, setOp 1 len, setOp 2 outBase, setOp 3 cap, issue (.decode j)]

end Sys2Proof.Machine
end

