-- ==== Sys2Proof/Tests/Slice0.lean ====
section
/-! SUPPORT. The model's own tests: the smoke test of WellFormed, decoding of words written out from 30_encoding.md,
one-step tests whose expected values are those of 95_test_vectors.md, and a witness for the hypotheses of every
statement. -/

open Sys2Proof Sys2Proof.Machine

namespace Sys2Proof.Tests

set_option Elab.async false

/-! ### WellFormed refuses an ill-formed term, check by check -/

theorem test_wf_refuses_wide_widths :
    (Instr.wbits 128).wf = false ∧ (Instr.rpeek 128).wf = false ∧ (Instr.rmatch 128).wf = false ∧
      (Instr.radv 128).wf = false := by decide

theorem test_wf_refuses_builder_slots :
    (Instr.binit 2).wf = false ∧ (Instr.bscan 2).wf = false ∧ (Instr.bline 2).wf = false ∧
      (Instr.bscanln 2).wf = false ∧ (Instr.bscanbuf 2).wf = false ∧ (Instr.bmerge 2 0).wf = false ∧
      (Instr.bmerge 0 2).wf = false ∧ (Instr.binfo 2).wf = false ∧ (Instr.bbuild 2 0).wf = false := by decide

theorem test_wf_refuses_model_slots :
    (Instr.bbuild 0 2).wf = false ∧ (Instr.hbuild 2).wf = false ∧ (Instr.encode 2).wf = false ∧
      (Instr.decode 2).wf = false ∧ (Instr.minfo 2).wf = false ∧ (Instr.mentry 2).wf = false ∧
      (Instr.mlookup 2).wf = false ∧ (Instr.mfree 2).wf = false := by decide

/-! ### Decoding. A word is written RSV_W7_SB_SA_OPC (30_encoding.md R101, R105) -/

theorem test_decode_system : Sys2Proof.decode 0b00000000000_0000000_000_000_00000000 = .ok .nop := by rfl

theorem test_decode_writer :
    Sys2Proof.decode 0b00000000000_0000000_000_000_00000001 = .ok .winit ∧
    Sys2Proof.decode 0b00000000000_0001000_000_000_00000010 = .ok (.wbits 8) ∧
    Sys2Proof.decode 0b00000000000_0000000_000_000_00000011 = .ok .wfinish := ⟨rfl, rfl, rfl⟩

theorem test_decode_reader :
    Sys2Proof.decode 0b00000000000_0000000_000_000_00000100 = .ok .rinit ∧
    Sys2Proof.decode 0b00000000000_0000100_000_000_00000101 = .ok (.rpeek 4) ∧
    Sys2Proof.decode 0b00000000000_1111111_000_000_00000110 = .ok (.rmatch 127) ∧
    Sys2Proof.decode 0b00000000000_1000001_000_000_00000111 = .ok (.radv 65) := ⟨rfl, rfl, rfl, rfl⟩

theorem test_decode_builder :
    Sys2Proof.decode 0b00000000000_0000000_000_001_00001000 = .ok (.binit 1) ∧
    Sys2Proof.decode 0b00000000000_0000000_000_001_00001001 = .ok (.bscan 1) ∧
    Sys2Proof.decode 0b00000000000_0000000_000_001_00001010 = .ok (.bline 1) ∧
    Sys2Proof.decode 0b00000000000_0000000_000_000_00001011 = .ok (.bscanln 0) ∧
    Sys2Proof.decode 0b00000000000_0000000_000_001_00001100 = .ok (.bscanbuf 1) ∧
    Sys2Proof.decode 0b00000000000_0000000_001_000_00001101 = .ok (.bmerge 0 1) ∧
    Sys2Proof.decode 0b00000000000_0000000_000_001_00001110 = .ok (.binfo 1) := ⟨rfl, rfl, rfl, rfl, rfl, rfl, rfl⟩

theorem test_decode_model :
    Sys2Proof.decode 0b00000000000_0000000_001_000_00001111 = .ok (.bbuild 0 1) ∧
    Sys2Proof.decode 0b00000000000_0000000_001_000_00010000 = .ok (.hbuild 1) ∧
    Sys2Proof.decode 0b00000000000_0000000_000_001_00010011 = .ok (.minfo 1) ∧
    Sys2Proof.decode 0b00000000000_0000000_000_001_00010100 = .ok (.mentry 1) ∧
    Sys2Proof.decode 0b00000000000_0000000_000_001_00010101 = .ok (.mlookup 1) ∧
    Sys2Proof.decode 0b00000000000_0000000_000_001_00010110 = .ok (.mfree 1) := ⟨rfl, rfl, rfl, rfl, rfl, rfl⟩

theorem test_decode_codec :
    Sys2Proof.decode 0b00000000000_0000000_000_001_00010001 = .ok (.encode 1) ∧
    Sys2Proof.decode 0b00000000000_0000000_000_001_00010010 = .ok (.decode 1) := ⟨rfl, rfl⟩

/-- ILL-1 to ILL-9 of 95_test_vectors.md 2.1. -/
theorem test_decode_refuses_illegal_words :
    Sys2Proof.decode 0x00000017 = .error .reservedOpcode ∧ Sys2Proof.decode 0x000000FF = .error .reservedOpcode ∧
    Sys2Proof.decode 0x00000100 = .error .nonzeroField ∧ Sys2Proof.decode 0x00200000 = .error .nonzeroField ∧
    Sys2Proof.decode 0x00004001 = .error .nonzeroField ∧ Sys2Proof.decode 0x00000308 = .error .slotOutOfRange ∧
    Sys2Proof.decode 0x0000020F = .error .slotOutOfRange ∧ Sys2Proof.decode 0x0000110F = .error .slotOutOfRange ∧
    Sys2Proof.decode 0x0000100F = .error .slotOutOfRange := ⟨rfl, rfl, rfl, rfl, rfl, rfl, rfl, rfl, rfl⟩

/-- The rows' match and mask as spec/opcode_table.json has them (30_encoding.md R106). -/
theorem test_rows_match_and_mask :
    opTable.map (fun r => (r.matchWord.toNat, r.mask.toNat)) =
      [(0x00, 0xFFFFFFFF), (0x01, 0xFFFFFFFF), (0x02, 0xFFE03FFF), (0x03, 0xFFFFFFFF), (0x04, 0xFFFFFFFF),
        (0x05, 0xFFE03FFF), (0x06, 0xFFE03FFF), (0x07, 0xFFE03FFF)]
      ++ [(0x08, 0xFFFFF8FF), (0x09, 0xFFFFF8FF), (0x0A, 0xFFFFF8FF), (0x0B, 0xFFFFF8FF), (0x0C, 0xFFFFF8FF),
        (0x0D, 0xFFFFC0FF), (0x0E, 0xFFFFF8FF), (0x0F, 0xFFFFC0FF)]
      ++ [(0x10, 0xFFFFC7FF), (0x11, 0xFFFFF8FF), (0x12, 0xFFFFF8FF), (0x13, 0xFFFFF8FF), (0x14, 0xFFFFF8FF),
        (0x15, 0xFFFFF8FF), (0x16, 0xFFFFF8FF)] := by decide

theorem test_decode_table_word :
    decodeTableWord 32 0x0000080F = some (.bbuild 0 1) ∧ decodeTableWord 32 0x17 = none := ⟨rfl, rfl⟩

/-- The examples of 30_encoding.md R109. -/
theorem test_disassemble :
    disassemble 0x00020002 = some "WBITS #8" ∧ disassemble 0x0000080D = some "BMERGE b0, b1" ∧
      disassemble 0x0000080F = some "BBUILD b0, m1" ∧ disassemble 0x00000017 = none := by decide +kernel

/-- `WRITE <v>, #<n>` of 30_encoding.md R111. -/
theorem test_pseudo_write :
    expandPseudo (.write 5 3) = [.writeReg 8 0x08 5, .writeReg 8 0x00 0x0000C002] := by decide

/-! ### Small states -/

/-- The state of a next outcome; the state before for another. -/
def after (i : Instr) (s : State) : State :=
  match exec i s with
  | .next t => t
  | .fault _ => s
  | .refused _ => s

/-- One step. -/
def stepped (s : State) : State :=
  match step s with
  | .next t => t
  | .fault _ => s
  | .refused _ => s

/-- The reset state of the vectors (95_test_vectors.md: DMEM_SIZE = 0x1000, caps larger than they need). -/
def start : State := State.resetWith ⟨0x1000, 100, 100⟩ 0

/-- `s` with OP0..OP3 set. -/
def ops (s : State) (a b c d : Word) : State := (((s.withOp0 a).withOp1 b).withOp2 c).withOp3 d

/-- `s` with bytes in DMEM. -/
def mem (s : State) (a : Nat) (bs : List Byte) : State := s.withDmem (s.dmem.writeAll a bs)

/-- LAST_ERR and ERR_INFO. -/
def errorOf (s : State) : Option ErrorKind × Word := (s.status.lastErr, s.errInfo)

/-- An open writer over (0x100, 16), just opened. -/
def wOpen : State := start.withWriter ⟨.opened, 0x100, 16, 0, 0, 64, 0⟩

/-- The same with 60 bits written, all 0 but the last two (WR-3, first write). -/
def wSixty : State := start.withWriter ⟨.opened, 0x100, 16, 0, 0x30, 4, 0⟩

/-- WR-5 before its WFINISH: word 0 stored, 21 bits more. -/
def wPartial : State :=
  (mem start 0x100 [0, 0, 0, 0, 0, 0, 0, 0x3A]).withWriter ⟨.opened, 0x100, 16, 1, 0xBCDEF00000000000, 43, 0⟩

/-- The writer of SRC-1 after its WFINISH. -/
def wClosed : State :=
  (mem start 0x100 [0, 1, 2, 3, 4, 5, 6, 7]).withWriter ⟨.closed, 0x100, 16, 1, 0, 64, 8⟩

/-- RD-1's setup. -/
def rOpen : State := (mem start 0x40 [0xF0]).withReader ⟨true, 0x40, 1, 0⟩

/-- A reader at the end of its one byte (RD-7). -/
def rEnd : State := (mem start 0x40 [0xF0]).withReader ⟨true, 0x40, 1, 8⟩

/-- The builder of BLD-3: "aab" scanned as one line at order 3. -/
def bAab : Builder :=
  ⟨.active, .three, [], [(0x61, 2), (0x62, 1)],
    [([0x61], ⟨3, 1⟩), ([0x61, 0x61], ⟨2, 1⟩), ([0x61, 0x61, 0x62], ⟨1, 1⟩)], 1, 0⟩

/-- The same of "aac". -/
def bAac : Builder :=
  ⟨.active, .three, [], [(0x61, 2), (0x63, 1)],
    [([0x61], ⟨3, 1⟩), ([0x61, 0x61], ⟨2, 1⟩), ([0x61, 0x61, 0x63], ⟨1, 1⟩)], 1, 0⟩

/-- Both lines in one builder (BLD-16). -/
def bBoth : Builder :=
  ⟨.active, .three, [], [(0x61, 4), (0x62, 1), (0x63, 1)],
    [([0x61], ⟨6, 2⟩), ([0x61, 0x61], ⟨4, 2⟩), ([0x61, 0x61, 0x62], ⟨1, 1⟩), ([0x61, 0x61, 0x63], ⟨1, 1⟩)], 2, 0⟩

/-- The table of SRC-3. -/
def huf3 : Model :=
  ⟨.three, [⟨0x61, 1, 0b11, 2, 4⟩, ⟨0x62, 1, 0b010, 3, 1⟩, ⟨0x63, 1, 0b011, 3, 1⟩, ⟨0x626161, 3, 0b100, 3, 1⟩,
    ⟨0x636161, 3, 0b101, 3, 1⟩, ⟨0xFF, 1, 0b00, 2, 2⟩]⟩

/-- BLD-16 before its BMERGE. -/
def bTwo : State := (start.withBuilder 0 bAab).withBuilder 1 bAac

/-- The HUF-3 model in slot 0. -/
def mZero : State := start.withModel 0 (some huf3)

/-- "abc" at 0x100, output at 0x200 (COD-5). -/
def encAbc : State := ops (mem mZero 0x100 [0x61, 0x62, 0x63]) 0x100 3 0x200 16

/-- DEC-2's input. -/
def decIn : State := ops (mem mZero 0x300 [0x8B, 0x40]) 0x300 2 0x400 16

/-- P5's three HBUILD entries at 0x200. -/
def hIn : State :=
  ops (mem start 0x200
    ([0x61, 0, 0, 0, 0, 0, 0, 0, 3, 0, 0, 0, 0, 0, 0, 0] ++ [0x62, 0, 0, 0, 0, 0, 0, 0, 1, 0, 0, 0, 0, 0, 0, 0]
      ++ [0xFF, 0, 0, 0, 0, 0, 0, 0, 1, 0, 0, 0, 0, 0, 0, 0])) 0x200 3 1 0

/-! ### Reset and the step -/

/-- RST-1. -/
theorem test_reset_registers :
    State.reset.readReg 0x40 = 0 ∧ State.reset.readReg 0x50 = 0x4000 ∧ State.reset.readReg 0x58 = 0 ∧
      State.reset.readReg 0x70 = 0 ∧ State.reset.readReg 0x90 = 0x22 ∧ State.reset.readReg 0x98 = 0 := by
  decide +kernel

theorem test_reset_memory_is_canonical : State.reset.dmem.wf = true := by decide

/-- 30_encoding.md R100 and log 6: the placed word is the next thing the machine runs. -/
theorem test_fetch_word_runs :
    (stepped (State.reset.withFetchWord 32 0x00000001)).writer.mode = .opened ∧
      (stepped (State.reset.withFetchWord 32 0x00000001)).host = [] := by decide +kernel

/-- ILL-1: LAST_ERR = 13, ERR_INFO = the word. -/
theorem test_illegal_word_step :
    errorOf (stepped (State.reset.withFetchWord 32 0x00000017)) = (some .illegalCommand, 0x17) := by decide +kernel

/-! ### One-step tests, values from 95_test_vectors.md -/

/-- EXC-2. -/
theorem test_nop :
    (after .nop ((start.afterError .stateError 5).afterError .inputEmpty 0)).readReg 0x40 = 0x10900 := by
  decide +kernel

/-- WR-1. -/
theorem test_winit :
    (after .winit (ops start 0x100 16 0 0)).readReg 0x50 = 0x4001 ∧
      (after .winit (ops start 0x100 16 0 0)).readReg 0x68 = 16 := by decide +kernel

/-- WR-15. -/
theorem test_winit_address :
    errorOf (after .winit (ops start 0xFF8 16 0 0)) = (some .address, 0xFF8) := by decide +kernel

/-- WR-2. -/
theorem test_wbits :
    (after (.wbits 4) (wOpen.withOp0 0xFFFFFFFFFFFFFFF5)).writer.acc = 0x5000000000000000 ∧
      (after (.wbits 4) (wOpen.withOp0 0xFFFFFFFFFFFFFFF5)).readReg 0x50 = 0x3C01 := by decide +kernel

/-- WR-3: a field split across two words. -/
theorem test_wbits_split :
    (after (.wbits 24) (wSixty.withOp0 0xABCDEF)).readBytes 0x100 8 = [0, 0, 0, 0, 0, 0, 0, 0x3A] ∧
      (after (.wbits 24) (wSixty.withOp0 0xABCDEF)).readReg 0x58 = 84 := by decide +kernel

/-- WR-5. -/
theorem test_wfinish :
    (after .wfinish wPartial).readBytes 0x107 4 = [0x3A, 0xBC, 0xDE, 0xF0] ∧ (after .wfinish wPartial).res0 = 11 ∧
      (after .wfinish wPartial).res1 = 85 := by decide +kernel

/-- WR-9. -/
theorem test_wfinish_again :
    (after .wfinish wClosed).res0 = 8 ∧ (after .wfinish wClosed).res1 = 64 ∧
      (after .wfinish wClosed).dmem = wClosed.dmem := by decide +kernel

/-- RD-9 and RD-10. -/
theorem test_rinit_errors :
    errorOf (after .rinit (ops start 0x40 0 0 0)) = (some .inputEmpty, 0) ∧
      errorOf (after .rinit (ops start 0x1000 1 0 0)) = (some .address, 0x1000) := by decide +kernel

/-- SRC-2. -/
theorem test_rinit : (after .rinit (ops rEnd 0x40 1 0 0)).reader = ⟨true, 0x40, 1, 0⟩ := by decide +kernel

/-- RD-1. -/
theorem test_rpeek :
    (after (.rpeek 12) rOpen).res0 = 0xF00 ∧ (after (.rpeek 64) rOpen).res0 = 0xF000000000000000 := by decide +kernel

/-- RD-12: a peek across nine bytes. -/
theorem test_rpeek_unaligned :
    (after (.rpeek 64) ((mem start 0x40 [0x11, 0x12, 0x13, 0x14, 0x15, 0x16, 0x17, 0x18, 0x19, 0x1A]).withReader
      ⟨true, 0x40, 10, 12⟩)).res0 = 0x2131415161718191 := by decide +kernel

/-- RD-4. -/
theorem test_rmatch :
    (after (.rmatch 4) (rOpen.withOp0 0xFF0F)).res0 = 1 ∧ (after (.rmatch 4) (rOpen.withOp0 0x0E)).res0 = 0 ∧
      (after (.rmatch 0) (rOpen.withOp0 0x1234)).res0 = 1 := by decide +kernel

/-- RD-5. -/
theorem test_radv : (after (.radv 4) rOpen).reader.pos = 4 := by decide +kernel

/-- RD-6. -/
theorem test_radv_overrun :
    errorOf (after (.radv 5) (rOpen.withReader ⟨true, 0x40, 1, 4⟩)) = (some .readOverrun, 9) := by decide +kernel

/-- BLD-1. -/
theorem test_binit_order :
    errorOf (after (.binit 0) (start.withOp0 0x100000002)) = (some .modelConstruction, 0x100000002) := by decide +kernel

/-- BLD-4. -/
theorem test_bscan :
    (after (.bscan 0) ((start.withBuilder 0 (Builder.fresh .three)).withOp0 0x61)).builders[0]? =
      some ⟨.active, .three, [0x61], [(0x61, 1)], [([0x61], ⟨1, 1⟩)], 0, 0⟩ := by decide +kernel

/-- BLD-5. -/
theorem test_bscan_skip :
    (after (.bscan 0) ((start.withBuilder 0 bAab).withOp0 0x161)).builders[0]? =
      some ⟨.active, .three, [], bAab.flat, bAab.trie, 1, 1⟩ ∧
      (after (.bscan 0) ((start.withBuilder 0 bAab).withOp0 0x161)).readReg 0x40 = 0x20000 := by decide +kernel

/-- BLD-7. -/
theorem test_bline :
    (after (.bline 0) (start.withBuilder 0 ⟨.active, .three, [0x61, 0x62], [], [], 0, 5⟩)).builders[0]? =
      some ⟨.active, .three, [], [], [], 1, 5⟩ := by decide +kernel

/-- BLD-3. -/
theorem test_bscanln :
    (after (.bscanln 0) (ops (mem (start.withBuilder 0 (Builder.fresh .three)) 0 [0x61, 0x61, 0x62]) 0 3 0 0)).builders[0]?
      = some bAab := by decide +kernel

/-- BLD-12: the whole command is undone. -/
theorem test_bscanbuf_undone :
    errorOf (after (.bscanbuf 0) (ops (mem ((State.resetWith ⟨0x1000, 3, 9⟩ 0).withBuilder 0 (Builder.fresh .one)) 0
      [0x61, 0x62, 0x63, 0x64]) 0 4 0 0)) = (some .resource, 3) ∧
    (after (.bscanbuf 0) (ops (mem ((State.resetWith ⟨0x1000, 3, 9⟩ 0).withBuilder 0 (Builder.fresh .one)) 0
      [0x61, 0x62, 0x63, 0x64]) 0 4 0 0)).builders[0]? = some (Builder.fresh .one) := by decide +kernel

/-- BLD-8. -/
theorem test_bscanbuf :
    (after (.bscanbuf 0) (ops (mem (start.withBuilder 0 bAab) 0x10 [0x61, 0, 0x63, 0xFF, 0x61]) 0x10 5 0 0)).res0 = 3 ∧
    (after (.binfo 0) (after (.bscanbuf 0)
      (ops (mem (start.withBuilder 0 bAab) 0x10 [0x61, 0, 0x63, 0xFF, 0x61]) 0x10 5 0 0))).res0 = 0x000000056163613D := by
  decide +kernel

/-- BLD-3 and RST-2. -/
theorem test_binfo :
    (after (.binfo 0) bTwo).res0 = 0x000000030000000D ∧ (after (.binfo 1) start).res0 = 0x4 := by decide +kernel

/-- BLD-16. -/
theorem test_bmerge : (after (.bmerge 0 1) bTwo).builders[0]? = some bBoth := by decide +kernel

/-- BLD-17 and BLD-18. -/
theorem test_bmerge_errors :
    errorOf (after (.bmerge 0 0) bTwo) = (some .stateError, 0x0D) ∧
      errorOf (after (.bmerge 0 1) (bTwo.withBuilder 0 (Builder.fresh .two))) = (some .modelConstruction, 3) := by
  decide +kernel

/-- HUF-3. -/
theorem test_bbuild : (after (.bbuild 0 0) (start.withBuilder 0 bBoth)).models[0]? = some (some huf3) := by
  decide +kernel

/-- HUF-3 and HUF-21. -/
theorem test_bbuild_consumes :
    (after (.bbuild 0 0) (start.withBuilder 0 bBoth)).res2 = 10 ∧
      (after (.binfo 0) (after (.bbuild 0 0) (start.withBuilder 0 bBoth))).res0 = 0xE := by decide +kernel

/-- P5 step 1. -/
theorem test_hbuild :
    (after (.hbuild 0) hIn).models[0]? =
      some (some ⟨.one, [⟨0x61, 1, 0b1, 1, 3⟩, ⟨0x62, 1, 0b00, 2, 1⟩, ⟨0xFF, 1, 0b01, 2, 1⟩]⟩) := by decide +kernel

/-- HUF-17: the order is checked before the address. -/
theorem test_hbuild_errors :
    errorOf (after (.hbuild 0) (ops start 0xFF0 2 1 0)) = (some .address, 0xFF0) ∧
      errorOf (after (.hbuild 0) (ops start 0xFF0 2 0 0)) = (some .modelConstruction, 0) := by decide +kernel

/-- HUF-4: the tie rule. -/
theorem test_huff_ties :
    (huff [(0x61, 1), (0x62, 1), (0x63, 2), (0x64, 2)]).toOption.map (fun es => es.map fun e => (e.length, e.value)) =
      some [(2, 0b00), (2, 0b01), (2, 0b10), (2, 0b11)] := by decide +kernel

/-- MOD-1. -/
theorem test_minfo :
    (after (.minfo 0) mZero).res0 = 6 ∧ (after (.minfo 0) mZero).res1 = 0x303 ∧ (after (.minfo 0) mZero).res2 = 10 := by
  decide +kernel

/-- MOD-2. -/
theorem test_mentry :
    (after (.mentry 0) (mZero.withOp0 4)).res0 = 0x0000000303636161 ∧ (after (.mentry 0) (mZero.withOp0 4)).res1 = 5 ∧
      (after (.mentry 0) (mZero.withOp0 6)).res0 = 0 := by decide +kernel

/-- MOD-4 and MOD-5. -/
theorem test_mlookup :
    (after (.mlookup 0) (mZero.withOp0 255)).res0 = 0x00000002010000FF ∧
      (after (.mlookup 0) (mZero.withOp0 0x1000000FF)).res0 = 0 := by decide +kernel

/-- MOD-6. -/
theorem test_mfree :
    errorOf (after (.minfo 0) (after (.mfree 0) mZero)) = (some .stateError, 0x13) := by decide +kernel

/-- COD-5. -/
theorem test_encode :
    (after (.encode 0) encAbc).readBytes 0x200 2 = [0xD3, 0x00] ∧ (after (.encode 0) encAbc).res0 = 2 ∧
      (after (.encode 0) encAbc).res1 = 10 := by decide +kernel

/-- COD-11. -/
theorem test_encode_outside_alphabet :
    errorOf (after (.encode 0) (ops (mem mZero 0x100 [0x61, 0xFF]) 0x100 2 0x200 16)) = (some .encoding, 1) := by
  decide +kernel

/-- DEC-2. -/
theorem test_decode :
    (after (.decode 0) decIn).readBytes 0x400 6 = [0x61, 0x61, 0x62, 0x62, 0x61, 0x62] ∧
      (after (.decode 0) decIn).res0 = 6 ∧ (after (.decode 0) decIn).res1 = 13 := by decide +kernel

/-- DEC-7: the EOF code matches on padding past the data. -/
theorem test_decode_past_data :
    errorOf (after (.decode 0) (ops (mem mZero 0x300 [0xFF]) 0x300 1 0x400 16)) = (some .decoding, 8) := by
  decide +kernel

/-! ### Witnesses: for every statement with hypotheses, a state and operands that meet them, clause by clause -/

/-- `s` with these host actions to come. -/
def acts (s : State) (l : List HostAction) : State := s.withHost l

/-- Every unit in use: an open writer, an open reader, a builder in mid-line, a model, an error seen. -/
def full : State :=
  (((wPartial.withReader ⟨true, 0x100, 8, 12⟩).withBuilder 0 { bAab with win := [0x61] }).withModel 1 (some huf3)).withStatus
    ⟨none, some .stateError, true, true⟩

/-- What a Bool check says of every member of a list. -/
theorem forall_of_all {α : Type} {p : α → Prop} [DecidablePred p] {l : List α}
    (h : l.all (fun x => decide (p x)) = true) : ∀ x ∈ l, p x := by
  simpa using h

theorem bBoth_ok : bBoth.Ok 100 :=
  ⟨by decide, by decide, by decide, by decide, by decide, by decide, by decide, by decide, forall_of_all (by decide),
    by decide, by decide⟩

theorem bAab_ok : ({ bAab with win := [0x61] } : Builder).Ok 100 :=
  ⟨by decide, by decide, by decide, by decide, by decide, by decide, by decide, by decide, forall_of_all (by decide),
    by decide, by decide⟩

theorem empty_builder_ok (cap : Nat) : Builder.reset.Ok cap :=
  ⟨by decide, by decide, by decide, Nat.zero_le _, by decide, by decide, by decide, by decide, forall_of_all rfl,
    by decide, by decide⟩

theorem huf3_ok : huf3.Ok 100 := by decide +kernel

theorem witness_full_builders : full.BuildersOk := by
  intro bd h
  have h' : bd ∈ [({ bAab with win := [0x61] } : Builder), Builder.reset] := h
  simp only [List.mem_cons, List.not_mem_nil, or_false] at h'
  rcases h' with rfl | rfl
  · exact bAab_ok
  · exact empty_builder_ok _

theorem witness_full_models : full.ModelsOk := by
  intro o h m hm
  have h' : o ∈ [none, some huf3] := h
  simp only [List.mem_cons, List.not_mem_nil, or_false] at h'
  rcases h' with rfl | rfl
  · exact nomatch hm
  · have hm' : m ∈ [huf3] := hm
    simp only [List.mem_cons, List.not_mem_nil, or_false] at hm'
    rw [hm']
    exact huf3_ok

theorem witness_full_inv : full.Inv :=
  ⟨by decide +kernel, by decide, by decide +kernel, by decide +kernel, by decide +kernel, witness_full_builders,
    witness_full_models⟩

theorem witness_DecodingAnEncodedCommandGivesItBack :
    (Instr.wbits 127).wf = true ∧ (Instr.bmerge 1 0).wf = true ∧ (Instr.bbuild 1 1).wf = true := by decide

theorem witness_EncodingADecodedWordGivesItBack : Sys2Proof.decode 0x0000080F = .ok (.bbuild 0 1) := by rfl

theorem witness_LegalWordsSelectExactlyOneRow :
    (∃ r ∈ opTable, r.selects 0x001FC002 = true ∧ r.sa.legal (saOf 0x001FC002) = true ∧
      r.sb.legal (sbOf 0x001FC002) = true) ∧ ∃ r ∈ opTable, r.selects 0x0000020F = true := by decide +kernel

theorem witness_IllegalWordsRaiseIllegalCommand :
    (acts start [.writeReg 8 0x00 0x17]).host = .writeReg 8 0x00 0x17 :: [] ∧
    (acts start [.writeReg 8 0x00 0x17]).inReset = false ∧ illegalByRule ((0x17 : Word).setWidth 32) :=
  ⟨rfl, rfl, by decide⟩

/-- 30_encoding.md R107 b and c: the first values that break. -/
theorem witness_IllegalWordsRaiseIllegalCommand_fields :
    illegalByRule 0x00000100 ∧ illegalByRule 0x00200000 ∧ illegalByRule 0x00000208 ∧ illegalByRule 0x0000100F :=
  ⟨by decide +kernel, by decide +kernel, by decide +kernel, by decide +kernel⟩

/-- The last words that do not. -/
theorem witness_IllegalWordsRaiseIllegalCommand_legal :
    ¬illegalByRule 0x00000016 ∧ ¬illegalByRule 0x001FC002 ∧ ¬illegalByRule 0x0000090F :=
  ⟨by decide +kernel, by decide +kernel, by decide +kernel⟩

theorem witness_CmdWriteExecutesTheDecodedCommand :
    (acts start [.writeReg 8 0x00 0xFFFFFFFF0000080F]).host = .writeReg 8 0x00 0xFFFFFFFF0000080F :: [] ∧
    (acts start [.writeReg 8 0x00 0xFFFFFFFF0000080F]).inReset = false ∧
    Sys2Proof.decode ((0xFFFFFFFF0000080F : Word).setWidth 32) = .ok (.bbuild 0 1) ∧
    Sys2Proof.decode ((0xFFFFFFFF00000017 : Word).setWidth 32) = .error .reservedOpcode := ⟨rfl, rfl, rfl, rfl⟩

theorem witness_OperandWritesAndRegisterReads :
    (acts start [.writeReg 8 0x08 7]).host = .writeReg 8 0x08 7 :: [] ∧
    (acts start [.writeReg 8 0x10 7]).host = .writeReg 8 0x10 7 :: [] ∧
    (acts start [.writeReg 8 0x18 7]).host = .writeReg 8 0x18 7 :: [] ∧
    (acts start [.writeReg 8 0x20 7]).host = .writeReg 8 0x20 7 :: [] ∧
    (acts start [.readReg 8 0xF8]).host = .readReg 8 0xF8 :: [] ∧ 0xF8 % 8 = 0 ∧ 0xF8 < 256 := by decide +kernel

theorem witness_RegisterMapShowsTheState :
    full.writer.mode = .opened ∧ wClosed.writer.mode = .closed ∧ start.writer.mode = .idle ∧ full.writer.free ≤ 64 ∧
    wClosed.writer.free ≤ 64 ∧ start.writer.free ≤ 64 ∧
    64 * full.writer.words + (64 - full.writer.free) < 2 ^ 64 ∧ full.reader.pos < 2 ^ 64 ∧
    full.status.lastErr = none ∧ full.status.firstErr = some .stateError ∧
    (start.afterError .overlap 0).status.lastErr = some .overlap := by decide +kernel

theorem witness_OtherRegisterAccesses_refused :
    ¬(4 = 8 ∧ 0x08 % 8 = 0 ∧ 0x08 < 256) ∧ ¬(8 = 8 ∧ 0x04 % 8 = 0 ∧ 0x04 < 256) ∧ ¬(8 = 8 ∧ 256 % 8 = 0 ∧ 256 < 256) ∧
    (acts start [.writeReg 4 0x08 7]).host = .writeReg 4 0x08 7 :: [] ∧
    (acts start [.readReg 8 256]).host = .readReg 8 256 :: [] := by decide +kernel

theorem witness_OtherRegisterAccesses_no_effect :
    0x28 % 8 = 0 ∧ 0x28 ≤ 0x28 ∧ 0x28 < 256 ∧ (acts start [.writeReg 8 0x28 7]).host = .writeReg 8 0x28 7 :: [] ∧
    0x98 % 8 = 0 ∧ 0x98 ≤ 0x98 ∧ 0x98 < 256 ∧ (acts start [.readReg 8 0x98]).host = .readReg 8 0x98 :: [] := by
  decide +kernel

theorem witness_HostDmemAccessesReachOneByte :
    (acts start [.writeMem 0xFFF 7]).host = .writeMem 0xFFF 7 :: [] ∧ 0xFFF < start.params.dmemSize ∧
    (acts start [.readMem 0xFFF]).host = .readMem 0xFFF :: [] ∧ start.params.dmemSize ≤ 0x1000 ∧
    (acts start [.writeMem 0x1000 7]).host = .writeMem 0x1000 7 :: [] ∧
    (acts start [.readMem 0x1000]).host = .readMem 0x1000 :: [] := by decide +kernel

theorem witness_ReleaseOfResetLeavesTheResetValues :
    ((acts full [.releaseReset]).withInReset true).inReset = true ∧
    ((acts full [.releaseReset]).withInReset true).host = .releaseReset :: [] := ⟨rfl, rfl⟩

theorem witness_NothingExecutesInResetOrWithoutTheHost :
    (acts full [.assertReset]).host = .assertReset :: [] ∧ (full.withInReset true).inReset = true ∧
    ((acts full [.writeReg 8 0x00 1]).withInReset true).host = .writeReg 8 0x00 1 :: [] ∧ full.host = [] :=
  ⟨rfl, rfl, rfl, rfl⟩

theorem witness_ResetStateMeetsTheInvariant : Params.Legal ⟨1, 1, 1⟩ ∧ Params.Legal ⟨2 ^ 64, 40, 8⟩ := by decide +kernel

theorem witness_StickyStatusLastsUntilReset :
    ∃ t, step (acts full [.writeReg 8 0x00 0]) = .next t ∧
      (∀ rest, (acts full [.writeReg 8 0x00 0]).host ≠ .releaseReset :: rest) ∧ full.status.firstErr ≠ none ∧
      full.status.errSeen = true ∧ full.status.skipSeen = true :=
  ⟨_, rfl, fun rest h => (by
    have h' : ([.writeReg 8 0x00 0] : List HostAction) = .releaseReset :: rest := h
    simp at h'), by decide, rfl, rfl⟩

theorem witness_RegisterFileIsWrittenOnlyAsTold_commands :
    exec .wfinish wPartial = .next (after .wfinish wPartial) ∧ writesRes2 .wfinish = false ∧
    writesRes1 (.rpeek 4) = false ∧ writesRes0 (.radv 4) = false ∧
    exec (.rpeek 1) start = .next (after (.rpeek 1) start) ∧ (after (.rpeek 1) start).status.lastErr ≠ none :=
  ⟨rfl, rfl, rfl, rfl, rfl, by decide +kernel⟩

theorem witness_RegisterFileIsWrittenOnlyAsTold_host :
    (acts start [.writeReg 8 0x28 7]).host = .writeReg 8 0x28 7 :: [] ∧
    HostAction.writeReg 8 0x28 7 ≠ .releaseReset ∧ (∀ v, HostAction.writeReg 8 0x28 7 ≠ .writeReg 8 0x00 v) ∧
    step (acts start [.writeReg 8 0x28 7]) = .next (stepped (acts start [.writeReg 8 0x28 7])) :=
  ⟨rfl, by decide, fun _ h => (by cases h), rfl⟩

theorem witness_OnlyFourCommandsWriteDmem :
    exec (.bbuild 0 0) (start.withBuilder 0 bBoth) = .next (after (.bbuild 0 0) (start.withBuilder 0 bBoth)) ∧
    writesDmem (.bbuild 0 0) = false := ⟨rfl, rfl⟩

theorem witness_ValidModelsAreNeverChanged :
    mZero.models[0]? = some (some huf3) ∧ exec (.hbuild 0) mZero = .next (after (.hbuild 0) mZero) ∧
    Instr.hbuild 0 ≠ .mfree 0 ∧ exec (.mfree 0) mZero = .next (after (.mfree 0) mZero) :=
  ⟨rfl, rfl, by decide, rfl⟩

theorem witness_SlotsChangeOnlyByCommandsThatNameThem :
    exec (.bmerge 0 1) bTwo = .next (after (.bmerge 0 1) bTwo) ∧ changesBuilder 1 (.bmerge 0 1) = false ∧
    changesModel 0 (.bmerge 0 1) = false := ⟨rfl, rfl, rfl⟩

theorem witness_WriterAndReaderAreLeftAlone :
    exec (.bline 0) bTwo = .next (after (.bline 0) bTwo) ∧ isWriterCommand (.bline 0) = false ∧
    movesReader (.bline 0) = false ∧ exec (.encode 0) encAbc = .next (after (.encode 0) encAbc) ∧
    exec (.decode 0) decIn = .next (after (.decode 0) decIn) := ⟨rfl, rfl, rfl, rfl, rfl⟩

theorem witness_WrongStateRaisesStateError :
    start.writer.mode = .idle ∧ start.reader.isOpen = false ∧ start.builders[1]? = some Builder.reset ∧
    Builder.reset.mode ≠ .active ∧ start.models[1]? = some none ∧ mZero.models[0]? = some (some huf3) := by
  decide +kernel

theorem witness_WinitOpensAStream :
    (ops start 0xFF0 0x10 0 0).op0.toNat + (ops start 0xFF0 0x10 0 0).op1.toNat ≤ start.params.dmemSize ∧
    start.params.dmemSize < (ops start 0xFF0 0x11 0 0).op0.toNat + (ops start 0xFF0 0x11 0 0).op1.toNat := by
  decide +kernel

theorem witness_WbitsAppendsToTheStream :
    wPartial.writer.Ok wPartial.params.dmemSize ∧ wPartial.writer.mode = .opened ∧ 43 ≤ 64 ∧
    wPartial.writer.total + 43 ≤ 8 * wPartial.writer.cap.toNat ∧ 42 < wPartial.writer.free := by decide +kernel

theorem witness_WbitsChecksWidthThenClosed :
    wClosed.writer.mode ≠ .idle ∧ wOpen.writer.mode ≠ .idle ∧ 65 < 128 ∧ 64 < 65 ∧ 64 ≤ 64 ∧
    wClosed.writer.mode = .closed := by decide +kernel

theorem witness_WfinishStoresAndReportsTheStream :
    (wPartial.writer.Ok wPartial.params.dmemSize ∧ wPartial.writer.total < 2 ^ 64 ∧ wPartial.writer.mode = .opened) ∧
    wClosed.writer.Ok wClosed.params.dmemSize ∧ wClosed.writer.total < 2 ^ 64 ∧ wClosed.writer.mode = .closed := by
  decide +kernel

theorem witness_WriterStaysInItsRegion :
    wPartial.writer.mode = .opened ∧ 1 ≤ 44 ∧ 44 ≤ 64 ∧ 8 * wPartial.writer.cap.toNat < wPartial.writer.total + 44 ∧
    wPartial.writer.total + 44 < 2 ^ 64 ∧ isWriterCommand .wfinish = true ∧
    wPartial.writer.Ok wPartial.params.dmemSize ∧ exec .wfinish wPartial = .next (after .wfinish wPartial) ∧
    ¬inRegion 0x110 wPartial.writer.base.toNat wPartial.writer.cap.toNat ∧
    ¬inRegion 0xFF wPartial.writer.base.toNat wPartial.writer.cap.toNat :=
  ⟨rfl, by decide, by decide, by decide, by decide, rfl, by decide +kernel, rfl, by decide, by decide⟩

theorem witness_RinitOpensAReader :
    (ops start 0x40 0 0 0).op1 = 0 ∧ (ops start 0x1000 1 0 0).op1 ≠ 0 ∧
    start.params.dmemSize < (ops start 0x1000 1 0 0).op0.toNat + (ops start 0x1000 1 0 0).op1.toNat ∧
    (ops start 0xFFF 1 0 0).op1 ≠ 0 ∧
    (ops start 0xFFF 1 0 0).op0.toNat + (ops start 0xFFF 1 0 0).op1.toNat ≤ start.params.dmemSize := by decide +kernel

theorem witness_RpeekReturnsTheNextBits :
    64 < 128 ∧ 65 < 128 ∧ rOpen.reader.isOpen = true ∧ 64 ≤ 64 ∧ 64 < 65 ∧ start.reader.isOpen = false := by
  decide +kernel

theorem witness_RmatchComparesTheNextBits :
    0 < 128 ∧ 0 ≤ 64 ∧ rOpen.reader.isOpen = true ∧ 64 < 127 ∧ 127 < 128 ∧ start.reader.isOpen = false := by
  decide +kernel

theorem witness_RadvConsumesBits :
    rOpen.reader.isOpen = true ∧ 8 ≤ 64 ∧ rOpen.reader.pos + 8 ≤ 8 * rOpen.reader.len.toNat ∧
    rEnd.reader.isOpen = true ∧ 8 * rEnd.reader.len.toNat < rEnd.reader.pos + 1 ∧ rEnd.reader.pos + 1 < 2 ^ 64 ∧
    64 < 65 ∧ 65 < 128 ∧ start.reader.isOpen = false := by decide +kernel

theorem witness_BinitCreatesABuilder :
    1 < 2 ∧ (start.withOp0 1).op0.toNat = 1 ∧ (start.withOp0 3).op0.toNat = 3 ∧
    (start.withOp0 0).op0.toNat = 0 ∧ 3 < (start.withOp0 4).op0.toNat := by decide +kernel

/-- Values next to those of the alphabet. -/
theorem witness_BscanSkipsOutsideTheAlphabet :
    bTwo.builders[0]? = some bAab ∧ bAab.mode = .active ∧ ¬alphabetic (bTwo.withOp0 0x08).op0.toNat ∧
    ¬alphabetic (bTwo.withOp0 0x0B).op0.toNat ∧ ¬alphabetic (bTwo.withOp0 0x0C).op0.toNat ∧
    ¬alphabetic (bTwo.withOp0 0x0E).op0.toNat ∧ ¬alphabetic (bTwo.withOp0 0x1F).op0.toNat ∧
    ¬alphabetic (bTwo.withOp0 0x7F).op0.toNat ∧ ¬alphabetic (bTwo.withOp0 0x161).op0.toNat ∧
    bAab.skips.toNat + 1 < 2 ^ 64 := by decide +kernel

/-- A slot whose SKIPS cannot grow. -/
theorem witness_BscanSkipsOutsideTheAlphabet_overflow :
    (start.withBuilder 0 { bAab with skips := 0xFFFFFFFFFFFFFFFF }).builders[0]? =
      some { bAab with skips := 0xFFFFFFFFFFFFFFFF } ∧ (0xFFFFFFFFFFFFFFFF : Word).toNat + 1 = 2 ^ 64 := by
  decide +kernel

theorem bAab_room : bAab.Room 100 1 :=
  ⟨forall_of_all (by decide), by decide, by decide, by decide, by decide, by decide⟩

/-- Counts that fit for every key: those of the listed keys do, and the others are 0. -/
theorem flatCount_le {f : Flat} {n : Nat} (h : ∀ x ∈ f, x.2.toNat ≤ n) (b : Byte) : (flatCount f b).toNat ≤ n := by
  induction f with
  | nil => simp [flatCount, mapGet]
  | cons x f ih =>
    have hx := h x (by simp)
    have hf := ih fun y hy => h y (by simp [hy])
    simp only [flatCount, mapGet] at hf ⊢
    split <;> simp_all

/-- The same of a trie's counts. -/
theorem nodeCounts_le {t : Trie} {n : Nat} (h : ∀ x ∈ t, x.2.pass.toNat ≤ n ∧ x.2.exact.toNat ≤ n) (p : List Byte) :
    (nodeCounts t p).pass.toNat ≤ n ∧ (nodeCounts t p).exact.toNat ≤ n := by
  induction t with
  | nil => simp [nodeCounts, mapGet]
  | cons x t ih =>
    have hx := h x (by simp)
    have ht := ih fun y hy => h y (by simp [hy])
    simp only [nodeCounts, mapGet] at ht ⊢
    split <;> simp_all

/-- 2^64 − 1. -/
def maxCount : Word := 0xFFFFFFFFFFFFFFFF

theorem bAab_fits {cap : Nat} (h : 3 ≤ cap) : bAab.Ok cap :=
  ⟨by decide, by decide, by decide, h, by decide, by decide, by decide, by decide, forall_of_all (by decide),
    by decide, by decide⟩

theorem bAab_pass (p : List Byte) : (nodeCounts bAab.trie p).pass.toNat + 1 < 2 ^ 64 := by
  have h := (nodeCounts_le (t := bAab.trie) (n := 9) (by decide) p).1
  omega

/-- The lowest and the highest byte of the alphabet. -/
theorem witness_BscanCountsAnAcceptedByte :
    bTwo.builders[0]? = some bAab ∧ bAab.mode = .active ∧ bAab.Ok bTwo.params.trieCap ∧
    alphabetic (bTwo.withOp0 0x7E).op0.toNat ∧ alphabetic (bTwo.withOp0 0x09).op0.toNat ∧
    (flatCount bAab.flat ((bTwo.withOp0 0x7E).op0.setWidth 8)).toNat + 1 < 2 ^ 64 ∧
    (∀ p, p ≠ [] → p.isPrefixOf (bAab.slid ((bTwo.withOp0 0x7E).op0.setWidth 8)) = true →
      (nodeCounts bAab.trie p).pass.toNat + 1 < 2 ^ 64) ∧
    (nodeCounts bAab.trie (bAab.slid ((bTwo.withOp0 0x7E).op0.setWidth 8))).exact.toNat + 1 < 2 ^ 64 ∧
    bAab.trie.length + bAab.missing (bAab.slid ((bTwo.withOp0 0x7E).op0.setWidth 8)) ≤ bTwo.params.trieCap :=
  ⟨rfl, rfl, bAab_fits (by decide), by decide, by decide, by decide, fun p _ _ => bAab_pass p, by decide, by decide⟩

/-- A full trie (TRIE_CAP = NODES = 3): 0x61 needs no new node, 0x62 one more than fit. -/
theorem witness_BscanCountsAnAcceptedByte_full :
    ((State.resetWith ⟨0x1000, 3, 9⟩ 0).withBuilder 0 bAab).builders[0]? = some bAab ∧ bAab.Ok 3 ∧
    alphabetic (0x61 : Word).toNat ∧ bAab.trie.length + bAab.missing (bAab.slid 0x61) ≤ 3 ∧
    alphabetic (0x62 : Word).toNat ∧ (flatCount bAab.flat 0x62).toNat + 1 < 2 ^ 64 ∧
    (∀ p, p ≠ [] → p.isPrefixOf (bAab.slid 0x62) = true → (nodeCounts bAab.trie p).pass.toNat + 1 < 2 ^ 64) ∧
    (nodeCounts bAab.trie (bAab.slid 0x62)).exact.toNat + 1 < 2 ^ 64 ∧
    3 < bAab.trie.length + bAab.missing (bAab.slid 0x62) ∧ 3 < 2 ^ 64 :=
  ⟨rfl, bAab_fits (by decide), by decide, by decide, by decide, by decide, fun p _ _ => bAab_pass p, by decide,
    by decide, by decide⟩

/-- FLAT of 0x61 cannot grow. -/
def bFlatFull : Builder := ⟨.active, .one, [], [(0x61, maxCount)], [([0x61], ⟨maxCount, maxCount⟩)], 0, 0⟩

/-- PASS of [61] cannot grow, where FLAT of 0x61 can. -/
def bPassFull : Builder :=
  ⟨.active, .two, [], [(0x61, 1), (0x62, maxCount)], [([0x61], ⟨maxCount, 1⟩), ([0x62], ⟨1, 1⟩)], 0, 0⟩

/-- EXACT of [61] cannot grow. -/
def bExactFull : Builder := ⟨.active, .one, [], [(0x61, 1)], [([0x61], ⟨1, maxCount⟩)], 0, 0⟩

theorem bPassFull_ok : bPassFull.Ok 100 :=
  ⟨by decide, by decide, by decide, by decide, by decide, by decide, by decide, by decide, forall_of_all (by decide),
    by decide, by decide⟩

theorem witness_BscanCountsAnAcceptedByte_overflow :
    (start.withBuilder 0 bFlatFull).builders[0]? = some bFlatFull ∧ bFlatFull.Ok 100 ∧
    (flatCount bFlatFull.flat 0x61).toNat + 1 = 2 ^ 64 ∧
    (start.withBuilder 0 bPassFull).builders[0]? = some bPassFull ∧ bPassFull.Ok 100 ∧
    (flatCount bPassFull.flat 0x61).toNat + 1 < 2 ^ 64 ∧ [0x61] ≠ ([] : List Byte) ∧
    [0x61].isPrefixOf (bPassFull.slid 0x61) = true ∧ (nodeCounts bPassFull.trie [0x61]).pass.toNat + 1 = 2 ^ 64 ∧
    (start.withBuilder 0 bExactFull).builders[0]? = some bExactFull ∧ bExactFull.Ok 100 ∧
    (nodeCounts bExactFull.trie (bExactFull.slid 0x61)).exact.toNat + 1 = 2 ^ 64 :=
  ⟨rfl, ⟨by decide, by decide, by decide, by decide, by decide, by decide, by decide, by decide,
    forall_of_all (by decide), by decide, by decide⟩, by decide, rfl, bPassFull_ok, by decide, by decide, by decide,
    by decide, rfl, ⟨by decide, by decide, by decide, by decide, by decide, by decide, by decide, by decide,
    forall_of_all (by decide), by decide, by decide⟩, by decide⟩

theorem witness_BlineEndsALine :
    bTwo.builders[0]? = some bAab ∧ bAab.mode = .active ∧ bAab.lines.toNat + 1 < 2 ^ 64 ∧
    start.builders[0]? = some Builder.reset ∧ Builder.reset.mode ≠ .active ∧
    (start.withBuilder 0 { bAab with lines := 0xFFFFFFFFFFFFFFFF }).builders[0]? =
      some { bAab with lines := 0xFFFFFFFFFFFFFFFF } ∧ (0xFFFFFFFFFFFFFFFF : Word).toNat + 1 = 2 ^ 64 := by decide +kernel

theorem witness_BscanlnScansALine :
    (ops bTwo 0xFFD 3 0 0).builders[0]? = some bAab ∧ bAab.mode = .active ∧ bAab.Ok bTwo.params.trieCap ∧
    (ops bTwo 0xFFD 3 0 0).op0.toNat + (ops bTwo 0xFFD 3 0 0).op1.toNat ≤ bTwo.params.dmemSize ∧
    bTwo.params.dmemSize < (ops bTwo 0xFFD 4 0 0).op0.toNat + (ops bTwo 0xFFD 4 0 0).op1.toNat ∧
    bAab.Room bTwo.params.trieCap (ops bTwo 0xFFD 3 0 0).op1.toNat ∧ bAab.lines.toNat + 1 < 2 ^ 64 :=
  ⟨rfl, rfl, bAab_fits (by decide), by decide, by decide,
    ⟨forall_of_all (by decide), by decide, by decide, by decide, by decide, by decide⟩, by decide⟩

/-- TRIE_CAP = 3: `bAab` is full. -/
def tight (bd : Builder) (bs : List Byte) : State :=
  ops (mem ((State.resetWith ⟨0x1000, 3, 9⟩ 0).withBuilder 0 bd) 0 bs) 0 3 0 0

/-- `bAab` after 0x61, 0x00, 0x61. -/
def bAabMore : Builder :=
  ⟨.active, .three, [0x61, 0x61], [(0x61, 4), (0x62, 1)],
    [([0x61], ⟨5, 2⟩), ([0x61, 0x61], ⟨3, 2⟩), ([0x61, 0x61, 0x62], ⟨1, 1⟩)], 1, 1⟩

/-- A scan that comes to an end although TRIE_CAP leaves no room, and one of a slot whose LINES cannot grow. -/
theorem witness_BscanlnScansALine_full :
    (tight bAab [0x61, 0x00, 0x61]).builders[0]? = some bAab ∧ bAab.Ok 3 ∧
    (tight bAab [0x61, 0x00, 0x61]).readBytes 0 3 = [0x61, 0x00, 0x61] ∧
    bAab.Scans [0x61, 0x00, 0x61] bAabMore ∧ bAabMore.Ok 3 ∧
    ({ bAab with lines := maxCount } : Builder).Scans [0x61, 0x00, 0x61] { bAabMore with lines := maxCount } ∧
    ({ bAabMore with lines := maxCount } : Builder).Ok 3 ∧ maxCount.toNat + 1 = 2 ^ 64 :=
  ⟨rfl, bAab_fits (by decide), by decide,
    scanBytes_scans (cap := 3) (r := ⟨bAab, 0, 0⟩) (r' := ⟨bAabMore, 2, 1⟩) (by decide) rfl,
    ⟨by decide, by decide, by decide, by decide, by decide, by decide, by decide, by decide, forall_of_all (by decide),
      by decide, by decide⟩,
    scanBytes_scans (cap := 3) (r := ⟨{ bAab with lines := maxCount }, 0, 0⟩)
      (r' := ⟨{ bAabMore with lines := maxCount }, 2, 1⟩) (by decide) rfl,
    ⟨by decide, by decide, by decide, by decide, by decide, by decide, by decide, by decide, forall_of_all (by decide),
      by decide, by decide⟩, by decide⟩

/-- `bAab` after 0x61, 0x61. -/
def bAabTwo : Builder :=
  ⟨.active, .three, [0x61, 0x61], [(0x61, 4), (0x62, 1)],
    [([0x61], ⟨5, 2⟩), ([0x61, 0x61], ⟨3, 2⟩), ([0x61, 0x61, 0x62], ⟨1, 1⟩)], 1, 0⟩

/-- BLD-12's case: the third byte, 0x61, needs the node [61 61 61], which does not fit. -/
theorem witness_BscanlnScansALine_resource :
    (tight bAab [0x61, 0x61, 0x61]).readBytes 0 3 = [0x61, 0x61, 0x61] ∧ bAab.Ok 3 ∧
    bAab.Scans ([0x61, 0x61, 0x61].take 2) bAabTwo ∧ bAabTwo.Ok 3 ∧ bAabTwo.Refuses 3 0x61 .resource 3 ∧ 3 < 2 ^ 64 :=
  ⟨by decide, bAab_fits (by decide),
    scanBytes_scans (cap := 3) (r := ⟨bAab, 0, 0⟩) (r' := ⟨bAabTwo, 2, 0⟩) (by decide) rfl,
    ⟨by decide, by decide, by decide, by decide, by decide, by decide, by decide, by decide, forall_of_all (by decide),
      by decide, by decide⟩,
    .inr (.inr ⟨by decide, by
      rintro (h | ⟨p, -, -, h⟩ | h)
      · exact absurd h (by decide)
      · have := (nodeCounts_le (t := bAabTwo.trie) (n := 9) (by decide) p).1
        omega
      · exact absurd h (by decide), by decide, rfl, rfl⟩), by decide⟩

/-- The two other failures of a scan: a count of the first byte, and SKIPS, cannot grow. -/
theorem witness_BscanlnScansALine_overflow :
    (tight bPassFull [0x61, 0x61, 0x61]).builders[0]? = some bPassFull ∧ bPassFull.Ok 3 ∧
    bPassFull.Scans ([0x61, 0x61, 0x61].take 0) bPassFull ∧ bPassFull.Refuses 3 0x61 .countOverflow 0 ∧
    (tight { bAab with skips := maxCount } [0x00, 0x61, 0x61]).builders[0]? = some { bAab with skips := maxCount } ∧
    ({ bAab with skips := maxCount } : Builder).Ok 3 ∧
    ({ bAab with skips := maxCount } : Builder).Refuses 3 0x00 .countOverflow 0 :=
  ⟨rfl, ⟨by decide, by decide, by decide, by decide, by decide, by decide, by decide, by decide,
    forall_of_all (by decide), by decide, by decide⟩, rfl,
    .inr (.inl ⟨by decide, .inr (.inl ⟨[0x61], by decide, by decide, by decide⟩), rfl, rfl⟩), rfl,
    ⟨by decide, by decide, by decide, by decide, by decide, by decide, by decide, by decide,
    forall_of_all (by decide), by decide, by decide⟩, .inl ⟨by decide, by decide, rfl, rfl⟩⟩

/-- Both ends of a scan are those of `witness_BscanlnScansALine_full`, `_resource` and `_overflow`. -/
theorem witness_BscanbufScansARegion :
    (ops bTwo 0 0x10 0 0).builders[0]? = some bAab ∧ bAab.mode = .active ∧ bAab.Ok bTwo.params.trieCap ∧
    (ops bTwo 0 0x10 0 0).op0.toNat + (ops bTwo 0 0x10 0 0).op1.toNat ≤ bTwo.params.dmemSize ∧
    bTwo.params.dmemSize < (ops bTwo 1 0x1000 0 0).op0.toNat + (ops bTwo 1 0x1000 0 0).op1.toNat ∧
    bAab.Room bTwo.params.trieCap (ops bTwo 0 0x10 0 0).op1.toNat :=
  ⟨rfl, rfl, bAab_fits (by decide), by decide, by decide,
    ⟨forall_of_all (by decide), by decide, by decide, by decide, by decide, by decide⟩⟩

theorem witness_BinfoShowsTheSlot :
    bTwo.builders[1]? = some bAac ∧ bAac.win.length ≤ 3 ∧ bAac.trie.length < 2 ^ 32 ∧ bAac.mode = .active ∧
    start.builders[0]? = some Builder.reset ∧ Builder.reset.mode = .empty ∧ bAac.consume.mode = .consumed := by
  decide +kernel

theorem witness_BmergeAddsTheCounts_orders :
    (bTwo.withBuilder 0 (Builder.fresh .two)).builders[0]? = some (Builder.fresh .two) ∧
    (bTwo.withBuilder 0 (Builder.fresh .two)).builders[1]? = some bAac ∧ 0 ≠ 1 ∧ (Builder.fresh .two).mode = .active ∧
    bAac.mode = .active ∧ (Builder.fresh .two).order ≠ bAac.order := by decide +kernel

/-- Counts that add up within 64 bits for every key. -/
theorem not_flatOverflows {d r : Builder} (hd : ∀ x ∈ d.flat, x.2.toNat ≤ 9) (hr : ∀ x ∈ r.flat, x.2.toNat ≤ 9) :
    ¬d.FlatOverflows r := by
  rintro ⟨b, hb⟩
  have := flatCount_le hd b
  have := flatCount_le hr b
  omega

theorem not_trieOverflows {d r : Builder} (hd : ∀ x ∈ d.trie, x.2.pass.toNat ≤ 9 ∧ x.2.exact.toNat ≤ 9)
    (hr : ∀ x ∈ r.trie, x.2.pass.toNat ≤ 9 ∧ x.2.exact.toNat ≤ 9) : ¬d.TrieOverflows r := by
  rintro ⟨p, hp⟩
  have := nodeCounts_le hd p
  have := nodeCounts_le hr p
  omega

/-- BLD-16, and the same with TRIE_CAP = 4: the two tries share two nodes. -/
theorem witness_BmergeAddsTheCounts :
    bTwo.builders[0]? = some bAab ∧ bTwo.builders[1]? = some bAac ∧ 0 ≠ 1 ∧ bAab.mode = .active ∧ bAac.mode = .active ∧
    bAab.order = bAac.order ∧ mapSorted byteLt bAac.flat = true ∧ mapSorted seqLt bAac.trie = true ∧
    ¬bAab.FlatOverflows bAac ∧ bAab.trie.length + bAab.lacks bAac ≤ 4 ∧ ¬bAab.TrieOverflows bAac ∧
    bAab.lines.toNat + bAac.lines.toNat < 2 ^ 64 ∧ bAab.skips.toNat + bAac.skips.toNat < 2 ^ 64 :=
  ⟨rfl, rfl, by decide, rfl, rfl, rfl, by decide, by decide,
    not_flatOverflows (forall_of_all (by decide)) (forall_of_all (by decide)), by decide,
    not_trieOverflows (by decide) (by decide), by decide, by decide⟩

/-- A builder that lacks [62] and whose [61] cannot grow. -/
def bBig : Builder := ⟨.active, .two, [], [(0x62, 1)], [([0x61], ⟨maxCount, 1⟩)], 0, 0⟩

/-- Two nodes, [61] and [62]. -/
def bSmall : Builder := ⟨.active, .two, [], [(0x61, 2)], [([0x61], ⟨1, 1⟩), ([0x62], ⟨1, 1⟩)], 0, 0⟩

/-- A merge of `bAab` and `bAac` with TRIE_CAP = 3; one of `bBig` and `bSmall` with TRIE_CAP = 1, where [61] overflows and
[62] does not fit, and with TRIE_CAP = 2, where [61] overflows alone. -/
theorem witness_BmergeAddsTheCounts_errors :
    bAab.trie.length ≤ 3 ∧ 3 < bAab.trie.length + bAab.lacks bAac ∧ ¬bAab.FlatOverflows bAac ∧ ¬bAab.TrieOverflows bAac ∧
    ((start.withBuilder 0 bBig).withBuilder 1 bSmall).builders[0]? = some bBig ∧
    ((start.withBuilder 0 bBig).withBuilder 1 bSmall).builders[1]? = some bSmall ∧ bBig.order = bSmall.order ∧
    mapSorted byteLt bSmall.flat = true ∧ mapSorted seqLt bSmall.trie = true ∧ ¬bBig.FlatOverflows bSmall ∧
    bBig.TrieOverflows bSmall ∧ bBig.trie.length ≤ 1 ∧ 1 < bBig.trie.length + bBig.lacks bSmall ∧
    bBig.trie.length + bBig.lacks bSmall ≤ 2 ∧ bFlatFull.FlatOverflows bFlatFull ∧
    mapSorted byteLt bFlatFull.flat = true ∧ mapSorted seqLt bFlatFull.trie = true ∧
    2 ^ 64 ≤ maxCount.toNat + bAac.lines.toNat ∧ 2 ^ 64 ≤ maxCount.toNat + (1 : Word).toNat :=
  ⟨by decide, by decide, not_flatOverflows (forall_of_all (by decide)) (forall_of_all (by decide)),
    not_trieOverflows (by decide) (by decide), rfl, rfl, rfl, by decide, by decide,
    not_flatOverflows (forall_of_all (by decide)) (forall_of_all (by decide)),
    ⟨[0x61], .inl (by decide)⟩, by decide, by decide, by decide, ⟨0x61, by decide⟩, by decide, by decide, by decide,
    by decide⟩

theorem witness_MergedShardsEqualOneScan :
    ∃ a b m l c, scanBytes 9 [0x61, 0x00, 0x62] ⟨Builder.fresh .two, 0, 0⟩ = .ok a ∧
      scanBytes 9 [0x62, 0x61] ⟨Builder.fresh .two, 0, 0⟩ = .ok b ∧ mergeBuilders 9 a.builder b.builder = .ok m ∧
      markLine a.builder = .ok l ∧ scanBytes 9 [0x62, 0x61] ⟨l, 0, 0⟩ = .ok c :=
  ⟨_, _, _, _, _, rfl, rfl, rfl, rfl, rfl⟩

theorem witness_WindowHoldsTheLastAcceptedBytes :
    ∃ r, (Builder.fresh .two).win = [] ∧
      scanBytes 9 [0x61, 0x00, 0x62, 0x63] ⟨Builder.fresh .two, 0, 0⟩ = .ok r ∧ r.builder.win = [0x62, 0x63] :=
  ⟨_, rfl, rfl, rfl⟩

theorem witness_BuiltCodesArePrefixFree :
    ∃ es, (([(0x61, 3), (0x62, 0), (0x63, 1), (0xFF, 1)] : FreqMap).map (·.1)).Nodup ∧
      huff [(0x61, 3), (0x62, 0), (0x63, 1), (0xFF, 1)] = .ok es ∧ 2 ≤ es.length ∧
      (∃ a ∈ es, ∃ b ∈ es, b.freq.toNat < a.freq.toNat) :=
  ⟨_, by decide, rfl, by decide +kernel, by decide +kernel⟩

theorem witness_BuiltEntriesKeepTheMapsOrder :
    ∃ es, huff [(0x626161, 3), (0x62, 0), (0x6261, 1), (0xFF, 1)] = .ok es ∧ es.length = 3 := ⟨_, rfl, rfl⟩

theorem witness_SingleSymbolGetsTheCodeZero : (5 : Word) ≠ 0 := by decide

theorem witness_BbuildBuildsAndConsumes :
    (start.withBuilder 0 bBoth).builders[0]? = some bBoth ∧ bBoth.mode = .active ∧
    (start.withBuilder 0 bBoth).models[1]? = some none ∧ bBoth.Ok (start.withBuilder 0 bBoth).params.trieCap ∧
    bBoth.freqMap.length ≤ (start.withBuilder 0 bBoth).params.dictCap ∧
    (bBoth.freqMap.map fun p => p.2.toNat).sum < 2 ^ 64 ∧ ∀ root, HuffTree bBoth.freqMap root → root.depth ≤ 64 :=
  ⟨rfl, rfl, rfl, bBoth_ok, by decide +kernel, by decide +kernel, fun root h => (by
    have h1 := h.depth_lt
    have h2 : bBoth.freqMap.length = 6 := by decide +kernel
    omega)⟩

/-- HUF-16's case for BBUILD: DICT_CAP = 5 is one short. -/
theorem witness_BbuildBuildsAndConsumes_cap :
    ((State.resetWith ⟨0x1000, 100, 5⟩ 0).withBuilder 0 bBoth).builders[0]? = some bBoth ∧ 5 < bBoth.freqMap.length ∧
    bBoth.freqMap.length < 2 ^ 64 := by decide +kernel

/-- A slot at order 1 whose two bytes were scanned 2^63 times each: HUF-14's weight, and EOF. -/
def bHeavy : Builder :=
  ⟨.active, .one, [], [(0x61, 0x8000000000000000), (0x62, 0x8000000000000000)],
    [([0x61], ⟨0x8000000000000000, 0x8000000000000000⟩), ([0x62], ⟨0x8000000000000000, 0x8000000000000000⟩)], 0, 0⟩

theorem witness_BbuildBuildsAndConsumes_weight :
    (start.withBuilder 0 bHeavy).builders[0]? = some bHeavy ∧ bHeavy.mode = .active ∧ bHeavy.Ok 100 ∧
    bHeavy.freqMap.length ≤ 100 ∧ 2 ^ 64 ≤ (bHeavy.freqMap.map fun p => p.2.toNat).sum :=
  ⟨rfl, rfl, ⟨by decide, by decide, by decide, by decide, by decide, by decide, by decide, by decide,
    forall_of_all (by decide), by decide, by decide⟩, by decide +kernel, by decide +kernel⟩

/-- The frequencies of HUF-12, Fib(1..66), for the bytes 0x20..0x60 and EOF. -/
def fibMap : FreqMap :=
  [(0x20, 1), (0x21, 1), (0x22, 2), (0x23, 3), (0x24, 5), (0x25, 8)]
    ++ [(0x26, 13), (0x27, 21), (0x28, 34), (0x29, 55), (0x2A, 89), (0x2B, 144)]
    ++ [(0x2C, 233), (0x2D, 377), (0x2E, 610), (0x2F, 987), (0x30, 1597), (0x31, 2584)]
    ++ [(0x32, 4181), (0x33, 6765), (0x34, 10946), (0x35, 17711), (0x36, 28657), (0x37, 46368)]
    ++ [(0x38, 75025), (0x39, 121393), (0x3A, 196418), (0x3B, 317811), (0x3C, 514229), (0x3D, 832040)]
    ++ [(0x3E, 1346269), (0x3F, 2178309), (0x40, 3524578), (0x41, 5702887), (0x42, 9227465), (0x43, 14930352)]
    ++ [(0x44, 24157817), (0x45, 39088169), (0x46, 63245986), (0x47, 102334155), (0x48, 165580141), (0x49, 267914296)]
    ++ [(0x4A, 433494437), (0x4B, 701408733), (0x4C, 1134903170), (0x4D, 1836311903), (0x4E, 2971215073), (0x4F, 4807526976)]
    ++ [(0x50, 7778742049), (0x51, 12586269025), (0x52, 20365011074), (0x53, 32951280099), (0x54, 53316291173), (0x55, 86267571272)]
    ++ [(0x56, 139583862445), (0x57, 225851433717), (0x58, 365435296162), (0x59, 591286729879), (0x5A, 956722026041), (0x5B, 1548008755920)]
    ++ [(0x5C, 2504730781961), (0x5D, 4052739537881), (0x5E, 6557470319842), (0x5F, 10610209857723), (0x60, 17167680177565), (0xFF, 27777890035288)]

/-- The slot of order 1 with that map. -/
def bFib : Builder :=
  ⟨.active, .one, [], (fibMap.take 65).map fun x => (x.1.setWidth 8, x.2),
    (fibMap.take 65).map fun x => ([x.1.setWidth 8], ⟨x.2, x.2⟩), 27777890035288, 0⟩

/-- The error of a result. -/
def errorPart {α : Type} : Except CmdError α → Option CmdError
  | .ok _ => none
  | .error e => some e

theorem bFib_freqMap : bFib.freqMap = fibMap := by decide +kernel

theorem bFib_nodes : ∀ x ∈ bFib.trie, x.1.length = 1 ∧ 1 ≤ x.2.pass.toNat ∧ 1 ≤ x.2.exact.toNat := by decide +kernel

theorem bFib_bytes : ∀ x ∈ bFib.trie, (x.1.all fun c => inAlphabet c.toNat) = true := by decide +kernel

theorem bFib_ok : bFib.Ok 100 := by
  refine ⟨by decide, by decide, by decide +kernel, by decide +kernel, fun x hx => ?_, fun x hx h => ?_,
    fun x hx _ => (bFib_nodes x hx).2.2, by decide +kernel, forall_of_all (by decide +kernel), by decide +kernel,
    fun h => absurd rfl h⟩
  · obtain ⟨h1, h2, -⟩ := bFib_nodes x hx
    exact ⟨by intro h; simp [h] at h1, h1.le, by simpa using bFib_bytes x hx, h2⟩
  · exact absurd (List.eq_nil_of_length_eq_zero (by simp [(bFib_nodes x hx).1])) h

/-- The tree of the Fibonacci map. -/
def fibRoot : Tree :=
  match buildTree fibMap with
  | .ok t => t
  | .error _ => .leaf 0 0

theorem fibRoot_huffTree : HuffTree fibMap fibRoot := by
  apply buildTree_huffTree
  have h : ∀ x : Except CmdError Tree, errorPart x = none →
      x = .ok (match x with | .ok t => t | .error _ => .leaf 0 0) := by
    intro x hx
    cases x with
    | ok t => rfl
    | error e => exact nomatch hx
  exact h _ (by decide +kernel)

/-- HUF-12: the first symbol has a code of 65 bits. -/
theorem fibMap_firstTooLong : FirstTooLong fibMap 65 :=
  ⟨fibRoot, fibRoot_huffTree, [], fibMap.tail, (0x20, 1), codeOf (treeCodes fibRoot) 0x20, rfl, by decide +kernel,
    by decide +kernel, by decide, by simp⟩

theorem fibMap_sum : (fibMap.map fun p => p.2.toNat).sum < 2 ^ 64 := by decide +kernel

/-- A code of 65 bits. -/
theorem witness_BbuildBuildsAndConsumes_too_long :
    (start.withBuilder 0 bFib).builders[0]? = some bFib ∧ bFib.mode = .active ∧ bFib.Ok 100 ∧
    bFib.freqMap.length ≤ 100 ∧ (bFib.freqMap.map fun p => p.2.toNat).sum < 2 ^ 64 ∧ FirstTooLong bFib.freqMap 65 ∧
    65 < 2 ^ 64 := by
  rw [bFib_freqMap]
  exact ⟨rfl, rfl, bFib_ok, by decide, fibMap_sum, fibMap_firstTooLong, by decide⟩

theorem witness_EveryBbuildModelHasAnEofCode :
    (start.withBuilder 0 bBoth).builders[0]? = some bBoth ∧ bBoth.Ok (start.withBuilder 0 bBoth).params.trieCap ∧
    (∃ x ∈ bBoth.trie, bBoth.childless x.1 = true) ∧ flatCount bBoth.flat 0x61 ≠ 0 ∧ bBoth.childless [0x61] = false ∧
    flatCount bBoth.flat 0x62 ≠ 0 ∧ mapGet [0x62] bBoth.trie = none ∧ 1 < 2 ∧
    exec (.bbuild 0 1) (start.withBuilder 0 bBoth) = .next (after (.bbuild 0 1) (start.withBuilder 0 bBoth)) ∧
    (after (.bbuild 0 1) (start.withBuilder 0 bBoth)).status.lastErr = none :=
  ⟨rfl, bBoth_ok, by decide +kernel, by decide +kernel, by decide +kernel, by decide +kernel, by decide +kernel,
    by decide, rfl, by decide +kernel⟩

/-- BLD-14: the map of a slot whose leaf [62] overwrites the flat count 2 of that byte. -/
theorem test_freq_map_overwrites :
    (⟨.active, .two, [], [(0x61, 1), (0x62, 2)],
      [([0x61], ⟨1, 1⟩), ([0x61, 0x62], ⟨1, 1⟩), ([0x62], ⟨1, 1⟩)], 2, 0⟩ : Builder).freqMap =
      [(0x61, 1), (0x62, 1), (0x6261, 1), (0xFF, 2)] := by decide +kernel

/-- P5's map. -/
def p5Map : FreqMap := [(0x61, 3), (0x62, 1), (0xFF, 1)]

theorem witness_HbuildBuildsFromDmem :
    hIn.models[0]? = some none ∧ hIn.op2.toNat = Order.one.toNat ∧
    hIn.op0.toNat + 16 * hIn.op1.toNat ≤ hIn.params.dmemSize ∧ p5Map.length = hIn.op1.toNat ∧
    (∀ n (h : n < p5Map.length), hIn.leWord (hIn.op0.toNat + 16 * n) 4 = (p5Map[n]).1.toNat ∧
      hIn.leWord (hIn.op0.toNat + 16 * n + 8) 8 = (p5Map[n]).2.toNat) ∧
    (∀ p ∈ p5Map, symOk .one p.1) ∧
    (p5Map.map (·.1)).Nodup ∧ 1 ≤ (p5Map.filter fun p => p.2 != 0).length ∧
    (p5Map.filter fun p => p.2 != 0).length ≤ hIn.params.dictCap ∧ (p5Map.map fun p => p.2.toNat).sum < 2 ^ 64 ∧
    ∀ root, HuffTree (p5Map.filter fun p => p.2 != 0) root → root.depth ≤ 64 :=
  ⟨rfl, rfl, by decide, rfl, by decide +kernel, forall_of_all (by decide), by decide, by decide, by decide, by decide,
    fun root h => (by
      have h1 := h.depth_lt
      have h2 : (p5Map.filter fun p => p.2 != 0).length = 3 := by decide
      omega)⟩

theorem witness_HbuildRefusesBadOperands :
    start.models[0]? = some none ∧ (ops start 0xFF0 2 0 0).op2.toNat = 0 ∧ 3 < (ops start 0xFF0 2 4 0).op2.toNat ∧
    (ops start 0xFF0 2 1 0).op2.toNat = Order.one.toNat ∧
    start.params.dmemSize < (ops start 0xFF0 2 1 0).op0.toNat + 16 * (ops start 0xFF0 2 1 0).op1.toNat := by
  decide +kernel

/-- `hIn` with the symbol of its last entry, number 2, set to these bytes. -/
def hBad (bs : List Byte) : State := mem hIn 0x220 bs

/-- A good entry 0 and 1, and then one too wide for the order, one with a byte outside the alphabet, one past 2^24, one
that stands already. -/
theorem witness_HbuildRefusesBadOperands_entries :
    hIn.op0.toNat + 16 * hIn.op1.toNat ≤ hIn.params.dmemSize ∧ ([0x61, 0x62] : List Sym).length < hIn.op1.toNat ∧
    (∀ n (h : n < ([0x61, 0x62] : List Sym).length),
      (hBad [0x7F]).leWord (0x200 + 16 * n) 4 = (([0x61, 0x62] : List Sym)[n]).toNat) ∧
    (∀ y ∈ ([0x61, 0x62] : List Sym), symOk .one y) ∧ ([0x61, 0x62] : List Sym).Nodup ∧
    ((hBad [0x7F]).leWord (0x200 + 16 * 2) 4 = 0x7F ∧ ¬symOk .one (BitVec.ofNat 24 0x7F)) ∧
    ((hBad [0x61, 0x62]).leWord (0x200 + 16 * 2) 4 = 0x6261 ∧ ¬symOk .one (BitVec.ofNat 24 0x6261)) ∧
    ((hBad [0x63, 0, 0, 1]).leWord (0x200 + 16 * 2) 4 = 0x1000063 ∧ 2 ^ 24 ≤ 0x1000063) ∧
    ((hBad [0x62]).leWord (0x200 + 16 * 2) 4 = 0x62 ∧ ∃ y ∈ ([0x61, 0x62] : List Sym), y.toNat = 0x62) :=
  ⟨by decide, by decide, by decide +kernel, forall_of_all (by decide), by decide, by decide +kernel, by decide +kernel,
    by decide +kernel, by decide +kernel, 0x62, by decide, rfl⟩

/-- HUF-16 (DICT_CAP = 2) and HUF-7 (no entry). -/
theorem witness_HbuildRefusesBadOperands_sizes :
    2 < (p5Map.filter fun p => p.2 != 0).length ∧ ([] : FreqMap).length = (ops start 0x200 0 1 0).op1.toNat ∧
    (ops start 0x200 0 1 0).op2.toNat = Order.one.toNat ∧
    (ops start 0x200 0 1 0).op0.toNat + 16 * (ops start 0x200 0 1 0).op1.toNat ≤ start.params.dmemSize := by
  decide +kernel

/-- HUF-14: a map of weight 2^64. -/
def heavyMap : FreqMap := [(0x61, 0x8000000000000000), (0x62, 0x8000000000000000)]

def hHeavy : State :=
  ops (mem start 0x200
    ([0x61, 0, 0, 0, 0, 0, 0, 0, 0, 0, 0, 0, 0, 0, 0, 0x80] ++ [0x62, 0, 0, 0, 0, 0, 0, 0, 0, 0, 0, 0, 0, 0, 0, 0x80]))
    0x200 2 1 0

theorem witness_HbuildRefusesBadOperands_weight :
    hHeavy.models[0]? = some none ∧ hHeavy.op2.toNat = Order.one.toNat ∧
    hHeavy.op0.toNat + 16 * hHeavy.op1.toNat ≤ hHeavy.params.dmemSize ∧ heavyMap.length = hHeavy.op1.toNat ∧
    (∀ n (h : n < heavyMap.length), hHeavy.leWord (hHeavy.op0.toNat + 16 * n) 4 = (heavyMap[n]).1.toNat ∧
      hHeavy.leWord (hHeavy.op0.toNat + 16 * n + 8) 8 = (heavyMap[n]).2.toNat) ∧
    (∀ p ∈ heavyMap, symOk .one p.1) ∧ (heavyMap.map (·.1)).Nodup ∧
    (heavyMap.filter fun p => p.2 != 0).length ≤ hHeavy.params.dictCap ∧
    2 ^ 64 ≤ (heavyMap.map fun p => p.2.toNat).sum :=
  ⟨rfl, rfl, by decide, rfl, by decide +kernel, forall_of_all (by decide), by decide, by decide, by decide⟩

/-- DMEM that holds at every address of (a, n) the byte a function gives. -/
def filled (f : Nat → Byte) : Nat → Nat → Memory
  | _, 0 => []
  | a, n + 1 => (a, f a) :: filled f (a + 1) n

theorem filled_get (f : Nat → Byte) {a n x : Nat} (h : inRegion x a n) : mapGet x (filled f a n) = some (f x) := by
  induction n generalizing a with
  | zero => exact absurd h.2 (by have := h.1; omega)
  | succ n ih =>
    by_cases hx : x = a
    · simp [filled, mapGet, hx]
    · simp only [filled, mapGet, hx, if_false]
      exact ih ⟨by have := h.1; omega, by have := h.2; omega⟩

/-- HUF-12's map as HBUILD reads it, from 0x200 on. -/
def fibByte (a : Nat) : Byte :=
  if a % 16 < 8 then BitVec.ofNat 8 ((fibMap.getD (a / 16 - 32) 0).1.toNat / 2 ^ (8 * (a % 16)))
  else BitVec.ofNat 8 ((fibMap.getD (a / 16 - 32) 0).2.toNat / 2 ^ (8 * (a % 16 - 8)))

/-- HUF-12. -/
def hFib : State := ops (start.withDmem (filled fibByte 0x200 1056)) 0x200 66 1 0

theorem hFib_readByte {x : Nat} (h : inRegion x 0x200 1056) : hFib.readByte x = fibByte x := by
  have : mapGet x hFib.dmem = some (fibByte x) := filled_get fibByte h
  simp [State.readByte, Memory.read, this]

theorem hFib_leWord {a n : Nat} (h : 0x200 ≤ a) (hn : a + n ≤ 0x620) :
    hFib.leWord a n = ((List.range n).map fun t => (fibByte (a + t)).toNat * 2 ^ (8 * t)).sum := by
  unfold State.leWord
  congr 1
  apply List.map_congr_left
  intro t ht
  rw [hFib_readByte ⟨by omega, by have := List.mem_range.mp ht; omega⟩]

theorem hFib_entries (n : Nat) (h : n < fibMap.length) : hFib.leWord (0x200 + 16 * n) 4 = (fibMap[n]).1.toNat ∧
    hFib.leWord (0x200 + 16 * n + 8) 8 = (fibMap[n]).2.toNat := by
  have hl : fibMap.length = 66 := by decide
  have key : ((List.range 66).all fun n =>
      ((List.range 4).map fun t => (fibByte (0x200 + 16 * n + t)).toNat * 2 ^ (8 * t)).sum ==
        (fibMap.getD n 0).1.toNat &&
      ((List.range 8).map fun t => (fibByte (0x200 + 16 * n + 8 + t)).toNat * 2 ^ (8 * t)).sum ==
        (fibMap.getD n 0).2.toNat) = true := by decide +kernel
  have := List.all_eq_true.mp key n (List.mem_range.mpr (by omega))
  rw [hFib_leWord (by omega) (by omega), hFib_leWord (by omega) (by omega)]
  simpa [List.getD_eq_getElem?_getD, h] using this

/-- HUF-12. -/
theorem witness_HbuildRefusesBadOperands_too_long :
    hFib.models[0]? = some none ∧ hFib.op2.toNat = Order.one.toNat ∧
    hFib.op0.toNat + 16 * hFib.op1.toNat ≤ hFib.params.dmemSize ∧ fibMap.length = hFib.op1.toNat ∧
    (∀ n (h : n < fibMap.length), hFib.leWord (hFib.op0.toNat + 16 * n) 4 = (fibMap[n]).1.toNat ∧
      hFib.leWord (hFib.op0.toNat + 16 * n + 8) 8 = (fibMap[n]).2.toNat) ∧
    (∀ p ∈ fibMap, symOk .one p.1) ∧ (fibMap.map (·.1)).Nodup ∧
    (fibMap.filter fun p => p.2 != 0).length ≤ hFib.params.dictCap ∧ (fibMap.map fun p => p.2.toNat).sum < 2 ^ 64 ∧
    FirstTooLong (fibMap.filter fun p => p.2 != 0) 65 := by
  have hz : (fibMap.filter fun p => p.2 != 0) = fibMap := by decide +kernel
  have hs : ∀ p ∈ fibMap, symValid p.1.toNat = true ∧ (p.1.toNat = 255 ∨ symWidth p.1.toNat ≤ Order.one.toNat) :=
    forall_of_all (by decide +kernel)
  rw [hz]
  exact ⟨rfl, rfl, by decide, by decide, hFib_entries, fun p hp => (symOk_iff _ _).mpr (hs p hp), by decide +kernel,
    by decide, fibMap_sum, fibMap_firstTooLong⟩

theorem witness_MinfoReportsTheModel :
    mZero.models[0]? = some (some huf3) ∧ huf3.weight < 2 ^ 64 ∧ (∀ e ∈ huf3.entries, e.length ≤ 3) ∧
    (∃ e ∈ huf3.entries, e.length = 3) ∧ mZero.models[1]? = some none := by decide +kernel

theorem witness_MentryReportsAnEntry :
    (mZero.withOp0 5).models[0]? = some (some huf3) ∧
    huf3.entries[(mZero.withOp0 5).op0.toNat]? = some ⟨0xFF, 1, 0b00, 2, 2⟩ ∧
    huf3.entries.length ≤ (mZero.withOp0 6).op0.toNat ∧ mZero.models[1]? = some none := by decide +kernel

theorem witness_MlookupReportsASymbol :
    (mZero.withOp0 0xFF).models[0]? = some (some huf3) ∧ (huf3.entries.map (·.sym)).Nodup ∧
    (⟨0xFF, 1, 0b00, 2, 2⟩ : Entry) ∈ huf3.entries ∧ (0xFF : Sym).toNat = (mZero.withOp0 0xFF).op0.toNat ∧
    (∀ e ∈ huf3.entries, e.sym.toNat ≠ (mZero.withOp0 0x1000000FF).op0.toNat) ∧ mZero.models[1]? = some none := by
  decide +kernel

theorem witness_MfreeInvalidatesASlot : 0 < 2 ∧ 1 < 2 := by decide

/-- Regions one of which ends where the other begins, or before, share no byte. -/
theorem shares_none {s : State}
    (h : s.op0.toNat + s.op1.toNat ≤ s.op2.toNat ∨ s.op2.toNat + s.op3.toNat ≤ s.op0.toNat) : ¬s.sharesByte := by
  rintro ⟨a, ⟨h1, h2⟩, h3, h4⟩
  omega

/-- The entries of SRC-3. -/
def eA : Entry := ⟨0x61, 1, 0b11, 2, 4⟩
def eB : Entry := ⟨0x62, 1, 0b010, 3, 1⟩
def eC : Entry := ⟨0x63, 1, 0b011, 3, 1⟩
def eAab : Entry := ⟨0x626161, 3, 0b100, 3, 1⟩
def eEof : Entry := ⟨0xFF, 1, 0b00, 2, 2⟩

/-- No sequence of `k'` bytes of the input is a token, for the lengths above `k`. -/
def noLonger (m : Model) (input : List Byte) (k : Nat) : Bool :=
  (List.range 4).all fun k' => k' ≤ k || input.length < k' ||
    m.entries.all fun e => e.sym.toNat != seqValue (input.take k')

theorem noLonger_spec {m : Model} {input : List Byte} {k : Nat} (h : noLonger m input k = true) :
    ∀ k' e', k < k' → ¬m.Token input k' e' := by
  intro k' e' hk ht
  obtain ⟨-, h3, h4, -, h5, h6⟩ := ht
  have h7 := List.all_eq_true.mp h k' (by simp only [List.mem_range]; omega)
  simp only [Bool.or_eq_true, decide_eq_true_eq, List.all_eq_true, bne_iff_ne] at h7
  rcases h7 with (h7 | h7) | h7
  · omega
  · omega
  · exact h7 e' h5 h6

/-- COD-5: "abc" gives the tokens a, b, c. -/
theorem witness_tokens_abc : huf3.GreedyTokens [eA, eB, eC] [0x61, 0x62, 0x63] [] :=
  ⟨1, ⟨by decide, noLonger_spec (by decide)⟩, 1, ⟨by decide, noLonger_spec (by decide)⟩, 1,
    ⟨by decide, noLonger_spec (by decide)⟩, rfl⟩

theorem witness_EncodeWritesTheGreedyTokensAndEof :
    encAbc.models[0]? = some (some huf3) ∧ huf3.Ok encAbc.params.dictCap ∧
    encAbc.op0.toNat + encAbc.op1.toNat ≤ encAbc.params.dmemSize ∧
    encAbc.op2.toNat + encAbc.op3.toNat ≤ encAbc.params.dmemSize ∧ ¬encAbc.sharesByte ∧ 8 * encAbc.op3.toNat < 2 ^ 64 ∧
    huf3.GreedyTokens [eA, eB, eC] (encAbc.readBytes encAbc.op0.toNat encAbc.op1.toNat) [] ∧ eEof ∈ huf3.entries ∧
    eEof.sym = 255 ∧ 10 = (codesOf ([eA, eB, eC] ++ [eEof])).length ∧ 10 ≤ 8 * encAbc.op3.toNat :=
  ⟨rfl, huf3_ok, by decide, by decide, shares_none (by decide), by decide, (by
    have h : encAbc.readBytes encAbc.op0.toNat encAbc.op1.toNat = [0x61, 0x62, 0x63] := by decide +kernel
    rw [h]
    exact witness_tokens_abc), by decide, rfl, by decide, by decide⟩

theorem witness_EncodeWritesTheGreedyTokensAndEof_capacity :
    (∀ e ∈ huf3.entries, e.length ≤ 3) ∧
    (∀ b ∈ encAbc.readBytes encAbc.op0.toNat encAbc.op1.toNat, alphabetic b.toNat ∧
      ∃ e ∈ huf3.entries, e.sym.toNat = b.toNat) ∧ (encAbc.op1.toNat + 1) * 3 ≤ 8 * encAbc.op3.toNat := by
  decide +kernel

theorem witness_DecodeWritesTheSymbolsBytes :
    decIn.models[0]? = some (some huf3) ∧ huf3.Ok decIn.params.dictCap ∧ decIn.op1 ≠ 0 ∧
    decIn.op0.toNat + decIn.op1.toNat ≤ decIn.params.dmemSize ∧
    decIn.op2.toNat + decIn.op3.toNat ≤ decIn.params.dmemSize ∧ ¬decIn.sharesByte ∧ 8 * decIn.op1.toNat < 2 ^ 64 ∧
    (∀ e ∈ [eAab, eB, eA, eB], e ∈ huf3.entries ∧ e.sym ≠ 255) ∧
    ([0x61, 0x61, 0x62, 0x62, 0x61, 0x62] : List Byte) = [eAab, eB, eA, eB].flatMap (fun e => symBytes e.sym) ∧
    11 = (codesOf [eAab, eB, eA, eB]).length ∧ 11 ≤ 8 * decIn.op1.toNat ∧
    decIn.streamBits decIn.op0.toNat decIn.op1.toNat 0 11 = codesOf [eAab, eB, eA, eB] ∧ 6 ≤ decIn.op3.toNat ∧
    eEof ∈ huf3.entries ∧ eEof.sym = 255 ∧ 11 + eEof.length ≤ 8 * decIn.op1.toNat ∧
    decIn.streamBits decIn.op0.toNat decIn.op1.toNat 11 eEof.length = eEof.bits :=
  ⟨rfl, huf3_ok, by decide, by decide, by decide, shares_none (by decide), by decide, by decide +kernel,
    by decide +kernel, by decide +kernel, by decide, by decide +kernel, by decide, by decide, rfl, by decide,
    by decide +kernel⟩

/-- DEC-9, COD-19 and COD-17 for DECODE: no input, regions that do not exist, regions that share the byte 0x102. -/
theorem witness_DecodeWritesTheSymbolsBytes_operands :
    (ops mZero 0x300 0 0x400 16).op1 = 0 ∧
    (ops mZero 0xFFF 2 0x400 16).op1 ≠ 0 ∧ mZero.params.dmemSize < (0xFFF : Word).toNat + (2 : Word).toNat ∧
    (0x100 : Word).toNat + (2 : Word).toNat ≤ mZero.params.dmemSize ∧
    mZero.params.dmemSize < (0xFFF : Word).toNat + (4 : Word).toNat ∧ (ops mZero 0x100 4 0x102 4).sharesByte :=
  ⟨rfl, by decide, by decide, by decide, by decide, ⟨0x102, by decide, by decide⟩⟩

/-- DEC-7: after four times 'a' no whole code is left. -/
def decPad : State := ops (mem mZero 0x300 [0xFF]) 0x300 1 0x400 16

theorem witness_DecodeWritesTheSymbolsBytes_past_data :
    ¬decPad.sharesByte ∧ 8 = (codesOf [eA, eA, eA, eA]).length ∧ 8 ≤ 8 * decPad.op1.toNat ∧
    decPad.streamBits decPad.op0.toNat decPad.op1.toNat 0 8 = codesOf [eA, eA, eA, eA] ∧
    ∀ e ∈ huf3.entries, 8 * decPad.op1.toNat < 8 + e.length ∨
      decPad.streamBits decPad.op0.toNat decPad.op1.toNat 8 e.length ≠ e.bits :=
  ⟨shares_none (by decide), by decide +kernel, by decide, by decide +kernel, by decide +kernel⟩

/-- DEC-8: OP3 = 3 takes "aab" and no more. -/
def decSmall : State := decIn.withOp3 3

theorem witness_DecodeWritesTheSymbolsBytes_capacity :
    ¬decSmall.sharesByte ∧ decSmall.streamBits decSmall.op0.toNat decSmall.op1.toNat 0 3 = codesOf [eAab] ∧
    eB ∈ huf3.entries ∧ eB.sym ≠ 255 ∧ 3 + eB.length ≤ 8 * decSmall.op1.toNat ∧
    decSmall.streamBits decSmall.op0.toNat decSmall.op1.toNat 3 eB.length = eB.bits ∧ 3 ≤ decSmall.op3.toNat ∧
    decSmall.op3.toNat < 3 + (symBytes eB.sym).length ∧ decSmall.op3.toNat + 1 < 2 ^ 64 :=
  ⟨shares_none (by decide), by decide +kernel, by decide, by decide, by decide, by decide +kernel, by decide,
    by decide, by decide⟩

/-- The state between the two commands of a round trip: ENCODE's output is the input, (0x300, 3) the output. -/
def roundTrip : State := ops (after (.encode 0) encAbc) 0x200 (after (.encode 0) encAbc).res0 0x300 3

theorem witness_DecodeOfEncodeGivesTheInputBack :
    (encAbc.models[0]? = some (some huf3) ∧ huf3.Ok encAbc.params.dictCap ∧
      encAbc.op0.toNat + encAbc.op1.toNat ≤ encAbc.params.dmemSize ∧
      encAbc.op2.toNat + encAbc.op3.toNat ≤ encAbc.params.dmemSize ∧ ¬encAbc.sharesByte ∧
      (∀ b ∈ encAbc.readBytes encAbc.op0.toNat encAbc.op1.toNat, alphabetic b.toNat ∧
        ∃ e ∈ huf3.entries, e.sym.toNat = b.toNat) ∧
      (∃ e ∈ huf3.entries, e.sym = 255) ∧ (∀ e ∈ huf3.entries, e.length ≤ 3) ∧
      (encAbc.op1.toNat + 1) * 3 ≤ 8 * encAbc.op3.toNat ∧ 8 * encAbc.op3.toNat < 2 ^ 64) ∧
    (0x300 : Word).toNat + (3 : Word).toNat ≤ encAbc.params.dmemSize ∧ encAbc.op1.toNat ≤ (3 : Word).toNat ∧
    ¬roundTrip.sharesByte :=
  ⟨⟨rfl, huf3_ok, by decide, by decide, shares_none (by decide), by decide +kernel, by decide, by decide, by decide,
    by decide⟩, by decide, by decide, shares_none (by decide +kernel)⟩

theorem witness_ByteOutsideTheAlphabetStopsEncode_operands :
    mZero.models[0]? = some (some huf3) ∧ huf3.Ok mZero.params.dictCap ∧
    mZero.params.dmemSize < (0xFFF : Word).toNat + (2 : Word).toNat ∧
    (0x100 : Word).toNat + (2 : Word).toNat ≤ mZero.params.dmemSize ∧
    mZero.params.dmemSize < (0xFFF : Word).toNat + (4 : Word).toNat ∧ (ops mZero 0x100 4 0x102 4).sharesByte :=
  ⟨rfl, huf3_ok, by decide, by decide, by decide, ⟨0x102, by decide, by decide⟩⟩

/-- COD-13: after "ab" stands 0x09, of the alphabet but in no entry. -/
theorem witness_ByteOutsideTheAlphabetStopsEncode_no_token :
    (ops (mem mZero 0x100 [0x61, 0x62, 0x09, 0x63]) 0x100 4 0x200 16).readBytes 0x100 4 = [0x61, 0x62, 0x09, 0x63] ∧
    huf3.GreedyTokens [eA, eB] [0x61, 0x62, 0x09, 0x63] [0x09, 0x63] ∧ (codesOf [eA, eB]).length ≤ 8 * 16 ∧
    ∀ k e, ¬huf3.Token [0x09, 0x63] k e :=
  ⟨by decide +kernel, ⟨1, ⟨by decide, noLonger_spec (by decide)⟩, 1, ⟨by decide, noLonger_spec (by decide)⟩, rfl⟩,
    by decide +kernel, fun k e h => noLonger_spec (k := 0) (by decide) k e h.1 h⟩

/-- DEC-10's model: no EOF. -/
def noEof : Model := ⟨.one, [⟨0x61, 1, 0, 1, 1⟩]⟩

theorem witness_ByteOutsideTheAlphabetStopsEncode_no_eof :
    (start.withModel 0 (some noEof)).models[0]? = some (some noEof) ∧ noEof.Ok start.params.dictCap ∧
    noEof.GreedyTokens [⟨0x61, 1, 0, 1, 1⟩, ⟨0x61, 1, 0, 1, 1⟩] [0x61, 0x61] [] ∧
    ∀ e ∈ noEof.entries, e.sym ≠ 255 :=
  ⟨rfl, by decide +kernel, ⟨1, ⟨by decide, noLonger_spec (by decide)⟩, 1, ⟨by decide, noLonger_spec (by decide)⟩, rfl⟩,
    by decide⟩

/-- COD-15: no room for the EOF code; and no room for the code of 'b' in one byte after "aba". -/
theorem witness_ByteOutsideTheAlphabetStopsEncode_capacity :
    huf3.GreedyTokens [] [] [] ∧ eEof ∈ huf3.entries ∧ eEof.sym = 255 ∧ 8 * 0 < (codesOf ([] ++ [eEof])).length ∧
    huf3.GreedyTokens [eA, eB, eA] [0x61, 0x62, 0x61, 0x62] [0x62] ∧ (codesOf [eA, eB, eA]).length ≤ 8 * 1 ∧
    huf3.Longest [0x62] 1 eB ∧ 8 * 1 < (codesOf ([eA, eB, eA] ++ [eB])).length :=
  ⟨rfl, by decide, rfl, by decide +kernel,
    ⟨1, ⟨by decide, noLonger_spec (by decide)⟩, 1, ⟨by decide, noLonger_spec (by decide)⟩, 1,
      ⟨by decide, noLonger_spec (by decide)⟩, rfl⟩, by decide +kernel, ⟨by decide, noLonger_spec (by decide)⟩,
    by decide +kernel⟩

theorem witness_ByteOutsideTheAlphabetStopsEncode :
    (let s := ops (mem mZero 0x100 [0x61, 0x61, 0x7F]) 0x100 3 0x200 16
     s.models[0]? = some (some huf3) ∧ s.op0.toNat + s.op1.toNat ≤ s.params.dmemSize ∧
      s.op2.toNat + s.op3.toNat ≤ s.params.dmemSize ∧ 2 < s.op1.toNat ∧
      ¬alphabetic (s.readByte (s.op0.toNat + 2)).toNat ∧
      (∀ b ∈ s.readBytes s.op0.toNat 2, alphabetic b.toNat ∧ ∃ e ∈ huf3.entries, e.sym.toNat = b.toNat) ∧
      (∀ e ∈ huf3.entries, e.length ≤ 3) ∧ (s.op1.toNat + 1) * 3 ≤ 8 * s.op3.toNat) := by decide +kernel

/-- The state whose next action is `WBITS #43`, which completes a word. -/
def fullWrites : State := acts full [issue (.wbits 43)]

theorem witness_StepKeepsStatusAndDmem :
    fullWrites.status.Ok ∧ fullWrites.DmemOk ∧ fullWrites.writer.Ok fullWrites.params.dmemSize ∧
    step fullWrites = .next (stepped fullWrites) :=
  ⟨by decide, by decide +kernel, by decide +kernel, rfl⟩

theorem witness_StepKeepsWriterAndReader :
    fullWrites.writer.Ok fullWrites.params.dmemSize ∧ fullWrites.reader.Ok fullWrites.params.dmemSize ∧
    step fullWrites = .next (stepped fullWrites) ∧ (stepped fullWrites).writer.words = 2 :=
  ⟨by decide +kernel, by decide +kernel, rfl, by decide +kernel⟩

/-- The state whose next action builds a model from the builder in slot 0. -/
def fullBuilds : State := acts full [issue (.bbuild 0 0)]

theorem witness_StepKeepsTheBuilders : fullBuilds.BuildersOk ∧ step fullBuilds = .next (stepped fullBuilds) :=
  ⟨witness_full_builders, rfl⟩

theorem witness_StepKeepsTheModels :
    fullBuilds.BuildersOk ∧ fullBuilds.ModelsOk ∧ step fullBuilds = .next (stepped fullBuilds) ∧
    (stepped fullBuilds).models[0]? ≠ some none :=
  ⟨witness_full_builders, witness_full_models, rfl, by decide +kernel⟩

end Sys2Proof.Tests
end

/-! PROOF. BSCAN (42_context_builder.md R171 to R173): which scans of one value succeed and which error ends the others,
for a builder slot as the invariant has it, and the two statements about the command. -/

namespace Sys2Proof.Machine

/-! ### Counting one more -/

theorem addCount_one_of_lt {a : Word} (h : a.toNat + 1 < 2 ^ 64) : addCount a 1 = .ok (a + 1) := by
  rw [addCount_eq_ok, BitVec.toNat_add]
  exact Nat.mod_eq_of_lt h

theorem addCount_one_of_max {a : Word} (h : a.toNat + 1 = 2 ^ 64) :
    addCount a 1 = .error { kind := .countOverflow, info := 0 } :=
  addCount_eq_error.mpr ⟨h.ge, rfl⟩

/-- `+c 1` succeeds only on a count that can grow. -/
theorem lt_of_addCount_one_ok {a c : Word} (h : addCount a 1 = .ok c) : a.toNat + 1 < 2 ^ 64 :=
  addCount_eq_ok.mp h ▸ c.isLt

/-- `+c 1` fails only on a count at 2^64 − 1. -/
theorem max_of_addCount_one_error {a : Word} {e : CmdError} (h : addCount a 1 = .error e) :
    a.toNat + 1 = 2 ^ 64 ∧ e = { kind := .countOverflow, info := 0 } := by
  obtain ⟨hle, he⟩ := addCount_eq_error.mp h
  have hone : (1 : Word).toNat = 1 := rfl
  have hlt := a.isLt
  exact ⟨by omega, he⟩

/-! ### The nodes a walk needs -/

/-- A key put into a sorted map takes one more place exactly when it was not there. -/
theorem length_mapPut_of_sorted {κ ν : Type} [DecidableEq κ] {lt : κ → κ → Bool} (hlt : KeyOrder lt) (k : κ) (v : ν)
    {m : List (κ × ν)} (hm : mapSorted lt m = true) :
    (mapPut lt k v m).length = m.length + if mapGet k m = none then 1 else 0 := by
  induction m with
  | nil => rfl
  | cons y m ih =>
    simp only [mapPut, mapGet_cons]
    split
    · simp
    · rename_i hne
      split
      · rename_i hk
        have habsent : mapGet k m = none := by
          refine Option.eq_none_iff_forall_ne_some.mpr fun u hu => ?_
          have hyk : lt y.1 k = true := mapSorted_head hlt hm _ (mem_of_mapGet hu)
          exact absurd (hlt.trans _ _ _ hk hyk) (by simp [hlt.irrefl])
        simp [habsent]
      · simp only [List.length_cons, ih (mapSorted_tail hm)]
        omega

/-- How many of these nodes are not in the trie. -/
def missingNodes (t : Trie) (ps : List (List Byte)) : Nat := ps.countP fun p => decide (mapGet p t = none)

theorem builder_missing_eq (bd : Builder) (w : List Byte) : bd.missing w = missingNodes bd.trie (windowPaths w) := by
  rw [missingNodes, windowPaths, List.countP_map]
  rfl

theorem missingNodes_cons (t : Trie) (p : List Byte) (ps : List (List Byte)) :
    missingNodes t (p :: ps) = missingNodes t ps + if mapGet p t = none then 1 else 0 := by
  simp [missingNodes, List.countP_cons]

/-- Nodes missing at all leave one of them missing. -/
theorem exists_missing_of_pos {t : Trie} {ps : List (List Byte)} (h : 0 < missingNodes t ps) :
    ∃ p ∈ ps, mapGet p t = none := by
  simpa [missingNodes, List.countP_pos_iff] using h

/-- A node not in the trie has no passes. -/
theorem nodeCounts_of_missing {t : Trie} {p : List Byte} (h : mapGet p t = none) : nodeCounts t p = ⟨0, 0⟩ := by
  simp [nodeCounts, h]

/-- A walk's first node, once put, leaves the other nodes missing as they were. -/
theorem missingNodes_mapPut {t : Trie} {p : List Byte} {ps : List (List Byte)} (hp : p ∉ ps) (c : NodeCounts) :
    missingNodes (mapPut seqLt p c t) ps = missingNodes t ps :=
  List.countP_congr fun q hq => by
    rw [mapGet_mapPut_other seqLt (ne_of_mem_of_not_mem hq hp)]

/-- The room a walk takes in all: nodes there and nodes still missing, as its first node is put. -/
theorem length_add_missingNodes_mapPut {t : Trie} {p : List Byte} {ps : List (List Byte)}
    (ht : mapSorted seqLt t = true) (hp : p ∉ ps) (c : NodeCounts) :
    (mapPut seqLt p c t).length + missingNodes (mapPut seqLt p c t) ps = t.length + missingNodes t (p :: ps) := by
  rw [length_mapPut_of_sorted seqLt_order p c ht, missingNodes_mapPut hp, missingNodes_cons]
  omega

/-- A node put where the walk's check passed stays within TRIE_CAP. -/
theorem length_mapPut_le {cap : Nat} {t : Trie} {p : List Byte} (ht : mapSorted seqLt t = true) (hcap : t.length ≤ cap)
    (hroom : mapGet p t ≠ none ∨ t.length ≠ cap) (c : NodeCounts) : (mapPut seqLt p c t).length ≤ cap := by
  rw [length_mapPut_of_sorted seqLt_order p c ht]
  split
  · rename_i habsent
    have := hroom.resolve_left (absurd habsent)
    omega
  · exact hcap

/-- A walk's first node, once put, leaves the counts of the others. -/
theorem nodeCounts_mapPut_of_mem {t : Trie} {p q : List Byte} {ps : List (List Byte)} (hp : p ∉ ps) (hq : q ∈ ps)
    (c : NodeCounts) : nodeCounts (mapPut seqLt p c t) q = nodeCounts t q := by
  rw [nodeCounts_mapPut, if_neg (ne_of_mem_of_not_mem hq hp)]

/-- The missing nodes of these all come after the nodes there. -/
abbrev MissingLast (t : Trie) (ps : List (List Byte)) : Prop :=
  ps.Pairwise fun p q => mapGet p t = none → mapGet q t = none

theorem missingLast_mapPut {t : Trie} {p : List Byte} {ps : List (List Byte)} (h : MissingLast t ps) (hp : p ∉ ps)
    (c : NodeCounts) : MissingLast (mapPut seqLt p c t) ps :=
  h.imp_of_mem fun hq hr hqr => by
    rwa [mapGet_mapPut_other seqLt (ne_of_mem_of_not_mem hq hp),
      mapGet_mapPut_other seqLt (ne_of_mem_of_not_mem hr hp)]

/-! ### The walk -/

/-- A walk that succeeds found every PASS able to grow and room for every node it needed. -/
theorem walkTrie_ok_fits {cap : Nat} {ps : List (List Byte)} {t t' : Trie} (ht : mapSorted seqLt t = true)
    (hcap : t.length ≤ cap) (hd : ps.Nodup) (h : walkTrie cap ps t = .ok t') :
    (∀ p ∈ ps, (nodeCounts t p).pass.toNat + 1 < 2 ^ 64) ∧ t.length + missingNodes t ps ≤ cap := by
  induction ps generalizing t with
  | nil => exact ⟨by simp, hcap⟩
  | cons p ps ih =>
    obtain ⟨_, hroom, h⟩ := bind_eq_ok.mp h
    obtain ⟨v, hv, h⟩ := bind_eq_ok.mp h
    obtain ⟨hp, hd⟩ := List.nodup_cons.mp hd
    rw [check_eq_ok] at hroom
    obtain ⟨hpass, hfit⟩ := ih (mapSorted_mapPut seqLt_order _ _ ht) (length_mapPut_le ht hcap hroom _) hd h
    rw [length_add_missingNodes_mapPut ht hp] at hfit
    refine ⟨List.forall_mem_cons.mpr ⟨lt_of_addCount_one_ok hv, fun q hq => ?_⟩, hfit⟩
    exact nodeCounts_mapPut_of_mem hp hq _ ▸ hpass q hq

/-- A walk that fails, its missing nodes all after the nodes there, met a PASS that cannot grow; or else every PASS can
and the nodes it needed do not fit TRIE_CAP. -/
theorem walkTrie_error {cap : Nat} {ps : List (List Byte)} {t : Trie} {e : CmdError} (ht : mapSorted seqLt t = true)
    (hcap : t.length ≤ cap) (hd : ps.Nodup) (ho : MissingLast t ps)
    (h : walkTrie cap ps t = .error e) :
    ((∃ p ∈ ps, (nodeCounts t p).pass.toNat + 1 = 2 ^ 64) ∧ e = { kind := .countOverflow, info := 0 }) ∨
      ((∀ p ∈ ps, (nodeCounts t p).pass.toNat + 1 < 2 ^ 64) ∧ cap < t.length + missingNodes t ps ∧
        e = { kind := .resource, info := cap }) := by
  induction ps generalizing t with
  | nil => exact nomatch h
  | cons p ps ih =>
    obtain ⟨hp, hd⟩ := List.nodup_cons.mp hd
    obtain ⟨hfirst, ho⟩ := List.pairwise_cons.mp ho
    obtain hfull | ⟨_, hroom, h⟩ := bind_eq_error.mp h
    · obtain ⟨hfull, rfl⟩ := check_eq_error.mp hfull
      obtain ⟨habsent, hlen⟩ : mapGet p t = none ∧ t.length = cap := by simpa using hfull
      have hnone : ∀ q ∈ p :: ps, mapGet q t = none :=
        List.forall_mem_cons.mpr ⟨habsent, fun q hq => hfirst q hq habsent⟩
      refine .inr ⟨fun q hq => ?_, ?_, by rw [hlen]⟩
      · rw [nodeCounts_of_missing (hnone q hq)]
        decide
      · rw [missingNodes_cons, if_pos habsent]
        omega
    · rw [check_eq_ok] at hroom
      obtain hcount | ⟨v, hv, h⟩ := bind_eq_error.mp h
      · obtain ⟨hmax, rfl⟩ := max_of_addCount_one_error hcount
        exact .inl ⟨⟨p, List.mem_cons_self, hmax⟩, rfl⟩
      · obtain ⟨⟨q, hq, hmax⟩, he⟩ | ⟨hpass, hfull, he⟩ :=
          ih (mapSorted_mapPut seqLt_order _ _ ht) (length_mapPut_le ht hcap hroom _) hd (missingLast_mapPut ho hp _) h
        · exact .inl ⟨⟨q, List.mem_cons_of_mem _ hq, nodeCounts_mapPut_of_mem hp hq _ ▸ hmax⟩, he⟩
        · rw [length_add_missingNodes_mapPut ht hp] at hfull
          refine .inr ⟨List.forall_mem_cons.mpr ⟨lt_of_addCount_one_ok hv, fun q hq => ?_⟩, hfull, he⟩
          exact nodeCounts_mapPut_of_mem hp hq _ ▸ hpass q hq

/-! ### The walk of a window in a builder's trie -/

/-- The trie holds every non-empty initial part of a node (42_context_builder.md R174). -/
theorem mapGet_trie_of_prefix {cap : Nat} {bd : Builder} (hok : bd.Ok cap) {p q : List Byte} (hp : p ≠ [])
    (hpq : p <+: q) (hq : mapGet q bd.trie ≠ none) : mapGet p bd.trie ≠ none := by
  obtain ⟨-, -, -, -, -, hclosed, -⟩ := hok
  induction q using List.reverseRecOn with
  | nil => exact absurd (List.prefix_nil.mp hpq) hp
  | append_singleton q b ih =>
    obtain rfl | hpq := List.prefix_concat_iff.mp hpq
    · exact hq
    · obtain ⟨c, hc⟩ := Option.ne_none_iff_exists'.mp hq
      have hparent := hclosed _ (mem_of_mapGet hc)
      rw [List.dropLast_concat] at hparent
      exact ih hpq (hparent fun hnil => hp (List.prefix_nil.mp (hnil ▸ hpq)))

/-- Along a window the missing nodes all come after the nodes there. -/
theorem windowPaths_missing_last {cap : Nat} {bd : Builder} (hok : bd.Ok cap) (w : List Byte) :
    MissingLast bd.trie (windowPaths w) := by
  have hprefix : (windowPaths w).Pairwise fun p q => p <+: q :=
    List.pairwise_map.mpr (List.pairwise_lt_range.imp fun hij => List.take_prefix_take_left (by omega))
  refine hprefix.imp_of_mem fun hp _ hpq hnone => ?_
  by_contra hq
  exact mapGet_trie_of_prefix hok (mem_windowPaths.mp hp).1 hpq hq hnone

/-- A window with a missing node is no node itself. -/
theorem mapGet_window_of_missing {cap : Nat} {bd : Builder} (hok : bd.Ok cap) {w : List Byte} (h : 0 < bd.missing w) :
    mapGet w bd.trie = none := by
  rw [builder_missing_eq] at h
  obtain ⟨p, hp, hnone⟩ := exists_missing_of_pos h
  obtain ⟨hne, hpw⟩ := mem_windowPaths.mp hp
  by_contra hw
  exact mapGet_trie_of_prefix hok hne (List.isPrefixOf_iff_prefix.mp hpw) hw hnone

/-! ### An accepted byte -/

/-- FLAT[b] +c 1 succeeds only where FLAT[b] can grow. -/
theorem lt_of_bumpFlat_ok {f f' : Flat} {b : Byte} (h : bumpFlat f b 1 = .ok f') :
    (flatCount f b).toNat + 1 < 2 ^ 64 := by
  obtain ⟨_, hc, -⟩ := bind_eq_ok.mp h
  exact lt_of_addCount_one_ok hc

/-- FLAT[b] +c 1 fails only where FLAT[b] cannot grow. -/
theorem max_of_bumpFlat_error {f : Flat} {b : Byte} {e : CmdError} (h : bumpFlat f b 1 = .error e) :
    (flatCount f b).toNat + 1 = 2 ^ 64 ∧ e = { kind := .countOverflow, info := 0 } := by
  obtain hc | ⟨_, -, hok⟩ := bind_eq_error.mp h
  · exact max_of_addCount_one_error hc
  · exact nomatch hok

/-- EXACT[p] +c 1 succeeds only where EXACT[p] can grow. -/
theorem lt_of_bumpExact_ok {t t' : Trie} {p : List Byte} (h : bumpExact t p = .ok t') :
    (nodeCounts t p).exact.toNat + 1 < 2 ^ 64 := by
  obtain ⟨_, hc, -⟩ := bind_eq_ok.mp h
  exact lt_of_addCount_one_ok hc

/-- EXACT[p] +c 1 fails only where EXACT[p] cannot grow. -/
theorem max_of_bumpExact_error {t : Trie} {p : List Byte} {e : CmdError} (h : bumpExact t p = .error e) :
    (nodeCounts t p).exact.toNat + 1 = 2 ^ 64 ∧ e = { kind := .countOverflow, info := 0 } := by
  obtain hc | ⟨_, -, hok⟩ := bind_eq_error.mp h
  · exact max_of_addCount_one_error hc
  · exact nomatch hok

/-- A byte is countable when FLAT, PASS along the new window and EXACT of it can each grow. -/
theorem not_cannotCount {bd : Builder} {b : Byte} (hflat : (flatCount bd.flat b).toNat + 1 < 2 ^ 64)
    (hpass : ∀ p ∈ windowPaths (bd.slid b), (nodeCounts bd.trie p).pass.toNat + 1 < 2 ^ 64)
    (hexact : (nodeCounts bd.trie (bd.slid b)).exact.toNat + 1 < 2 ^ 64) : ¬bd.CannotCount b := by
  rintro (h | ⟨p, hne, hp, h⟩ | h)
  · exact hflat.ne h
  · exact (hpass p (mem_windowPaths.mpr ⟨hne, hp⟩)).ne h
  · exact hexact.ne h

/-- What R171 does with an accepted byte: a count cannot grow, or else the nodes do not fit TRIE_CAP, or else the byte is
counted. -/
theorem acceptByte_cases {cap : Nat} {bd : Builder} (hok : bd.Ok cap) (b : Byte) :
    (bd.CannotCount b ∧ acceptByte cap bd b = .error { kind := .countOverflow, info := 0 }) ∨
      (¬bd.CannotCount b ∧ cap < bd.trie.length + bd.missing (bd.slid b) ∧
        acceptByte cap bd b = .error { kind := .resource, info := cap }) ∨
      (¬bd.CannotCount b ∧ bd.trie.length + bd.missing (bd.slid b) ≤ cap ∧
        ∃ bd', bd.Accepts b bd' ∧ acceptByte cap bd b = .ok bd') := by
  have ⟨hwin, _, hsorted, hcap, _⟩ := hok
  have hnodup := windowPaths_nodup (bd.slid b)
  cases hresult : acceptByte cap bd b with
  | error e =>
    obtain hflat | ⟨flat, hflat, hrest⟩ := bind_eq_error.mp hresult
    · obtain ⟨hmax, rfl⟩ := max_of_bumpFlat_error hflat
      exact .inl ⟨.inl hmax, rfl⟩
    rw [slideWindow_eq hwin] at hrest
    obtain hwalk | ⟨walked, hwalk, hrest⟩ := bind_eq_error.mp hrest
    · obtain ⟨⟨p, hp, hmax⟩, rfl⟩ | ⟨hpass, hfull, rfl⟩ :=
        walkTrie_error hsorted hcap hnodup (windowPaths_missing_last hok _) hwalk
      · obtain ⟨hne, hpre⟩ := mem_windowPaths.mp hp
        exact .inl ⟨.inr (.inl ⟨p, hne, hpre, hmax⟩), rfl⟩
      · rw [← builder_missing_eq] at hfull
        have hnone : mapGet (bd.slid b) bd.trie = none := mapGet_window_of_missing hok (by omega)
        have hexact : (nodeCounts bd.trie (bd.slid b)).exact.toNat + 1 < 2 ^ 64 := by
          rw [nodeCounts_of_missing hnone]
          decide
        exact .inr (.inl ⟨not_cannotCount (lt_of_bumpFlat_ok hflat) hpass hexact, hfull, rfl⟩)
    · obtain hexact | ⟨trie, -, hdone⟩ := bind_eq_error.mp hrest
      · obtain ⟨hmax, rfl⟩ := max_of_bumpExact_error hexact
        rw [(walkTrie_ok hnodup hwalk _).2.1] at hmax
        exact .inl ⟨.inr (.inr hmax), rfl⟩
      · exact nomatch hdone
  | ok bd' =>
    have haccepts := acceptByte_accepts hwin hresult
    obtain ⟨flat, hflat, hrest⟩ := bind_eq_ok.mp hresult
    rw [slideWindow_eq hwin] at hrest
    obtain ⟨walked, hwalk, hrest⟩ := bind_eq_ok.mp hrest
    obtain ⟨trie, hexact, -⟩ := bind_eq_ok.mp hrest
    obtain ⟨hpass, hfit⟩ := walkTrie_ok_fits hsorted hcap hnodup hwalk
    rw [← builder_missing_eq] at hfit
    have hexact := lt_of_bumpExact_ok hexact
    rw [(walkTrie_ok hnodup hwalk _).2.1] at hexact
    exact .inr (.inr ⟨not_cannotCount (lt_of_bumpFlat_ok hflat) hpass hexact, hfit, bd', haccepts, rfl⟩)

/-! ### A scan of one value -/

/-- A value of the alphabet is scanned as its byte. -/
theorem scanOne_of_alphabetic {cap : Nat} {bd : Builder} {v : Word} (hv : alphabetic v.toNat) :
    scanOne cap bd v = (acceptByte cap bd (v.setWidth 8)).map fun bd' => (bd', true) := by
  unfold scanOne
  rw [if_pos ((inAlphabet_iff _).mpr hv), BitVec.ofNat_toNat]
  cases acceptByte cap bd (v.setWidth 8) <;> rfl

/-- Any other value is skipped. -/
theorem scanOne_of_not_alphabetic {cap : Nat} {bd : Builder} {v : Word} (hv : ¬alphabetic v.toNat) :
    scanOne cap bd v = (skipByte bd).map fun bd' => (bd', false) := by
  unfold scanOne
  rw [if_neg (mt (inAlphabet_iff _).mp hv)]
  cases skipByte bd <;> rfl

theorem skipByte_of_lt {bd : Builder} (h : bd.skips.toNat + 1 < 2 ^ 64) :
    skipByte bd = .ok { bd with skips := bd.skips + 1 } := by
  rw [skipByte, addCount_one_of_lt h, bind_ok]

theorem skipByte_of_max {bd : Builder} (h : bd.skips.toNat + 1 = 2 ^ 64) :
    skipByte bd = .error { kind := .countOverflow, info := 0 } := by
  rw [skipByte, addCount_one_of_max h, bind_error]

/-! ### The command -/

/-- An error is taken as `State.afterError` says. -/
theorem takeError_eq_afterError (s : State) (e : CmdError) :
    takeError s e = s.afterError e.kind (toReg .errInfo e.info) := by
  rw [State.afterError, ← takeError_firstErr s e]
  rfl

/-- BSCAN of an ACTIVE slot ends as its scan does: the slot, RES0 and SKIP_SEEN, or the error alone (R172). -/
theorem exec_bscan_of_active {s : State} {k : Nat} {bd : Builder} (hk : s.builders[k]? = some bd)
    (hactive : bd.mode = .active) :
    exec (.bscan k) s = complete s ((scanOne s.params.trieCap bd s.op0).map fun x =>
      ((s.withBuilder k x.1).noteSkip (!x.2)).withRes0 (if x.2 then 1 else 0)) := by
  show complete s (bscanEffect k s) = _
  rw [bscanEffect, activeBuilder_eq_ok.mpr ⟨hk, hactive⟩, bind_ok]
  cases scanOne s.params.trieCap bd s.op0 <;> rfl

/-- BSCAN raises the error of its scan. -/
theorem bscan_raises {s : State} {k : Nat} {bd : Builder} {e : CmdError} (hk : s.builders[k]? = some bd)
    (hactive : bd.mode = .active) (hscan : scanOne s.params.trieCap bd s.op0 = .error e) :
    Raises (.bscan k) s e.kind (toReg .errInfo e.info) := by
  rw [Raises, exec_bscan_of_active hk hactive, hscan, ← takeError_eq_afterError]
  rfl

/-- Settles O33: a value outside the alphabet is skipped, or SKIPS cannot grow. -/
theorem bscanSkipsOutsideTheAlphabet : Obligations.BscanSkipsOutsideTheAlphabet := by
  intro s k bd hk hactive hv
  have hscan : scanOne s.params.trieCap bd s.op0 = _ := scanOne_of_not_alphabetic hv
  constructor
  · intro hskips
    rw [exec_bscan_of_active hk hactive, hscan, skipByte_of_lt hskips]
    simp [Except.map, clearError_frame, State.noteSkip, State.withBuilder]
  · intro hskips
    rw [skipByte_of_max hskips] at hscan
    exact bscan_raises hk hactive hscan

/-- Settles O34, by the three outcomes of `acceptByte_cases`. -/
theorem bscanCountsAnAcceptedByte : Obligations.BscanCountsAnAcceptedByte := by
  intro s k bd hk hactive hok hv
  have hscan : scanOne s.params.trieCap bd s.op0 = _ := scanOne_of_alphabetic hv
  have hcases := acceptByte_cases hok (s.op0.setWidth 8)
  constructor
  · intro hover
    obtain ⟨-, herr⟩ | ⟨hnot, -⟩ | ⟨hnot, -⟩ := hcases
    · rw [herr] at hscan
      exact bscan_raises hk hactive hscan
    · exact absurd hover hnot
    · exact absurd hover hnot
  · intro hflat hpass hexact
    have hcounts := not_cannotCount hflat
      (fun p hp => hpass p (mem_windowPaths.mp hp).1 (mem_windowPaths.mp hp).2) hexact
    obtain ⟨hover, -⟩ | ⟨-, hfull, herr⟩ | ⟨-, hfit, bd', haccepts, hacc⟩ := hcases
    · exact absurd hover hcounts
    · refine ⟨fun _ hcap => ?_, fun hfit => absurd hfit hfull.not_ge⟩
      rw [herr] at hscan
      have hraise := bscan_raises hk hactive hscan
      rwa [toReg_of_lt .errInfo hcap] at hraise
    · refine ⟨fun hfull => absurd hfit hfull.not_ge, fun _ => ⟨bd', haccepts, ?_⟩⟩
      rw [exec_bscan_of_active hk hactive, hscan, hacc]
      simp [Except.map, clearError_frame, State.noteSkip, State.withBuilder]

end Sys2Proof.Machine

/-! PROOF. What one command and one step can do, said once: the effect each command has when it succeeds
(60_exceptions.md R293), the fields that effect leaves alone (30_encoding.md R105), and the states a step can
lead to (10_state.md R30; 70_reset_and_hazards.md R320). -/

namespace Sys2Proof.Machine

/-! ### A command before its end -/

/-- The effect of a command before it ends: what `exec` completes (60_exceptions.md R293). -/
def effectOf (i : Instr) (s : State) : Except CmdError State :=
  match i with
  | .nop => .ok s
  | .winit => winitEffect s
  | .wbits w => wbitsEffect w s
  | .wfinish => wfinishEffect s
  | .rinit => rinitEffect s
  | .rpeek n => rpeekEffect n s
  | .rmatch n => rmatchEffect n s
  | .radv n => radvEffect n s
  | .binit k => binitEffect k s
  | .bscan k => bscanEffect k s
  | .bline k => blineEffect k s
  | .bscanln k => bscanlnEffect k s
  | .bscanbuf k => bscanbufEffect k s
  | .bmerge dst src => bmergeEffect dst src s
  | .binfo k => binfoEffect k s
  | .bbuild k j => bbuildEffect k j s
  | .hbuild j => hbuildEffect j s
  | .encode j => encodeEffect j s
  | .decode j => decodeEffect j s
  | .minfo j => minfoEffect j s
  | .mentry j => mentryEffect j s
  | .mlookup j => mlookupEffect j s
  | .mfree j => mfreeEffect j s

theorem exec_eq_complete (i : Instr) (s : State) : exec i s = complete s (effectOf i s) := by
  cases i <;> rfl

/-- A command ends with its effect and LAST_ERR cleared, or with its error alone. -/
theorem exec_eq_next {i : Instr} {s t : State} (h : exec i s = .next t) :
    (∃ u, effectOf i s = .ok u ∧ t = clearError u) ∨ ∃ e, effectOf i s = .error e ∧ t = takeError s e := by
  rw [exec_eq_complete] at h
  obtain ⟨u, hu, hc⟩ | ⟨e, he, hc⟩ := complete_cases s (effectOf i s)
  · exact .inl ⟨u, hu, (Host.Outcome.next.inj (hc.symm.trans h)).symm⟩
  · exact .inr ⟨e, he, (Host.Outcome.next.inj (hc.symm.trans h)).symm⟩

/-! ### The effect of each command that succeeds -/

section Effects
variable {s u : State}

theorem winitEffect_ok (h : winitEffect s = .ok u) : s.inRange s.op0.toNat s.op1.toNat ∧
    u = s.withWriter
      { mode := .opened, base := s.op0, cap := s.op1, words := 0, acc := 0, free := 64, finalLen := 0 } := by
  simp only [winitEffect, bind_eq_ok, check_eq_ok, Except.ok.injEq] at h
  obtain ⟨-, hregion, rfl⟩ := h
  exact ⟨hregion, rfl⟩

theorem wbitsEffect_ok {w : Nat} (h : wbitsEffect w s = .ok u) : s.writer.mode = .opened ∧ w ≤ 64 ∧
    (u = s ∨ (s.writer.total + w ≤ 8 * s.writer.cap.toNat ∧ u = s.appendBits w (lowBits w s.op0.toNat))) := by
  simp only [wbitsEffect, bind_eq_ok, check_eq_ok, checkWidth_eq_ok] at h
  obtain ⟨-, hidle, -, hw, -, hclosed, h⟩ := h
  refine ⟨?_, hw, ?_⟩
  · cases hm : s.writer.mode with
    | idle => exact absurd hm hidle
    | opened => rfl
    | closed => exact absurd hm hclosed
  · split at h
    · exact .inl (Except.ok.inj h).symm
    · simp only [bind_eq_ok, check_eq_ok, Except.ok.injEq] at h
      obtain ⟨-, hcap, rfl⟩ := h
      exact .inr ⟨hcap, rfl⟩

theorem wfinishEffect_ok (h : wfinishEffect s = .ok u) :
    (s.writer.mode = .opened ∧ u = s.closeWriter.reportStream) ∨ u = s.reportStream := by
  unfold wfinishEffect at h
  split at h
  · exact nomatch h
  · exact .inl ⟨‹_›, (Except.ok.inj h).symm⟩
  · exact .inr (Except.ok.inj h).symm

theorem rinitEffect_ok (h : rinitEffect s = .ok u) : s.op1 ≠ 0 ∧ s.inRange s.op0.toNat s.op1.toNat ∧
    u = s.withReader { isOpen := true, base := s.op0, len := s.op1, pos := 0 } := by
  simp only [rinitEffect, bind_eq_ok, check_eq_ok, Except.ok.injEq] at h
  obtain ⟨-, hlen, -, hregion, rfl⟩ := h
  exact ⟨hlen, hregion, rfl⟩

theorem rpeekEffect_ok {n : Nat} (h : rpeekEffect n s = .ok u) : u = s.withRes0 (BitVec.ofNat 64 (s.peekVal n)) := by
  obtain ⟨-, -, h⟩ := bind_eq_ok.mp h
  obtain ⟨-, -, h⟩ := bind_eq_ok.mp h
  exact (Except.ok.inj h).symm

theorem rmatchEffect_ok {n : Nat} (h : rmatchEffect n s = .ok u) :
    u = s.withRes0 (if s.peekVal n = lowBits n s.op0.toNat then 1 else 0) := by
  obtain ⟨-, -, h⟩ := bind_eq_ok.mp h
  obtain ⟨-, -, h⟩ := bind_eq_ok.mp h
  exact (Except.ok.inj h).symm

theorem radvEffect_ok {n : Nat} (h : radvEffect n s = .ok u) : s.reader.isOpen = true ∧
    s.reader.pos + n ≤ 8 * s.reader.len.toNat ∧ u = s.withReader { s.reader with pos := s.reader.pos + n } := by
  simp only [radvEffect, State.checkReader, bind_eq_ok, check_eq_ok, Except.ok.injEq] at h
  obtain ⟨-, hopen, -, -, -, hfit, rfl⟩ := h
  exact ⟨hopen, hfit, rfl⟩

theorem binitEffect_ok {k : Nat} (h : binitEffect k s = .ok u) : ∃ o, u = s.withBuilder k (Builder.fresh o) := by
  obtain ⟨-, -, h⟩ := bind_eq_ok.mp h
  obtain ⟨o, -, h⟩ := bind_eq_ok.mp h
  exact ⟨o, (Except.ok.inj h).symm⟩

theorem bscanEffect_ok {k : Nat} (h : bscanEffect k s = .ok u) : ∃ bd x, s.builders[k]? = some bd ∧ bd.mode = .active ∧
    scanOne s.params.trieCap bd s.op0 = .ok x ∧
    u = ((s.withBuilder k x.1).noteSkip (!x.2)).withRes0 (if x.2 then 1 else 0) := by
  simp only [bscanEffect, bind_eq_ok, activeBuilder_eq_ok, Except.ok.injEq] at h
  obtain ⟨bd, ⟨hk, hactive⟩, x, hx, rfl⟩ := h
  exact ⟨bd, x, hk, hactive, hx, rfl⟩

theorem blineEffect_ok {k : Nat} (h : blineEffect k s = .ok u) : ∃ bd bd', s.builders[k]? = some bd ∧
    bd.mode = .active ∧ markLine bd = .ok bd' ∧ u = s.withBuilder k bd' := by
  simp only [blineEffect, bind_eq_ok, activeBuilder_eq_ok, Except.ok.injEq] at h
  obtain ⟨bd, ⟨hk, hactive⟩, bd', hbd', rfl⟩ := h
  exact ⟨bd, bd', hk, hactive, hbd', rfl⟩

theorem bscanlnEffect_ok {k : Nat} (h : bscanlnEffect k s = .ok u) : ∃ bd r bd', s.builders[k]? = some bd ∧
    bd.mode = .active ∧ s.scanRegion bd = .ok r ∧ markLine r.builder = .ok bd' ∧ u = s.storeScan k bd' r := by
  simp only [bscanlnEffect, bind_eq_ok, activeBuilder_eq_ok, Except.ok.injEq] at h
  obtain ⟨bd, ⟨hk, hactive⟩, r, hr, bd', hbd', rfl⟩ := h
  exact ⟨bd, r, bd', hk, hactive, hr, hbd', rfl⟩

theorem bscanbufEffect_ok {k : Nat} (h : bscanbufEffect k s = .ok u) : ∃ bd r, s.builders[k]? = some bd ∧
    bd.mode = .active ∧ s.scanRegion bd = .ok r ∧ u = s.storeScan k r.builder r := by
  simp only [bscanbufEffect, bind_eq_ok, activeBuilder_eq_ok, Except.ok.injEq] at h
  obtain ⟨bd, ⟨hk, hactive⟩, r, hr, rfl⟩ := h
  exact ⟨bd, r, hk, hactive, hr, rfl⟩

theorem bmergeEffect_ok {dst src : Nat} (h : bmergeEffect dst src s = .ok u) : ∃ d r d',
    s.builders[dst]? = some d ∧ s.builders[src]? = some r ∧ d.mode = .active ∧ r.mode = .active ∧ d.order = r.order ∧
    mergeBuilders s.params.trieCap d r = .ok d' ∧ u = s.withBuilder dst d' := by
  simp only [bmergeEffect, bind_eq_ok, builderSlot_eq_ok, check_eq_ok, Except.ok.injEq] at h
  obtain ⟨d, hd, r, hr, -, ⟨hdactive, hractive, -⟩, -, horder, d', hd', rfl⟩ := h
  exact ⟨d, r, d', hd, hr, hdactive, hractive, horder, hd', rfl⟩

theorem binfoEffect_ok {k : Nat} (h : binfoEffect k s = .ok u) :
    ∃ bd : Builder, u = ((s.withRes0 bd.infoWord).withRes1 bd.lines).withRes2 bd.skips := by
  obtain ⟨bd, -, h⟩ := bind_eq_ok.mp h
  exact ⟨bd, (Except.ok.inj h).symm⟩

theorem bbuildEffect_ok {k j : Nat} (h : bbuildEffect k j s = .ok u) : ∃ bd w es,
    s.builders[k]? = some bd ∧ s.models[j]? = some none ∧ bd.freqMap.length ≤ s.params.dictCap ∧
    mapWeight bd.freqMap = .ok w ∧ huff bd.freqMap = .ok es ∧
    u = (s.withBuilder k bd.consume).installModel j { order := bd.order, entries := es } w := by
  simp only [bbuildEffect, bind_eq_ok, builderSlot_eq_ok, modelSlot_eq_ok, checkDictCap, check_eq_ok,
    Except.ok.injEq] at h
  obtain ⟨bd, hbd, _, hfree, -, -, -, rfl, -, hcap, w, hw, es, hes, rfl⟩ := h
  exact ⟨bd, w, es, hbd, hfree, hcap, hw, hes, rfl⟩

theorem hbuildEffect_ok {j : Nat} (h : hbuildEffect j s = .ok u) : ∃ o given w es,
    s.models[j]? = some none ∧ s.readEntries o s.op1.toNat s.op0.toNat [] = .ok given ∧
    (dropZeros given).length ≤ s.params.dictCap ∧ mapWeight (dropZeros given) = .ok w ∧
    huff (dropZeros given) = .ok es ∧ u = s.installModel j { order := o, entries := es } w := by
  simp only [hbuildEffect, bind_eq_ok, freeModel_eq_ok, checkDictCap, check_eq_ok, Except.ok.injEq] at h
  obtain ⟨-, hfree, o, -, -, -, given, hgiven, -, hcap, es, hes, w, hw, rfl⟩ := h
  exact ⟨o, given, w, es, hfree, hgiven, hcap, hw, hes, rfl⟩

theorem encodeEffect_ok {j : Nat} (h : encodeEffect j s = .ok u) : ∃ m bs,
    s.inRange s.op2.toNat s.op3.toNat ∧
    encodeStream m s.op3.toNat (s.readBytes s.op0.toNat s.op1.toNat) = .ok bs ∧
    u = ((s.writeBytes s.op2.toNat (packBits bs)).withRes0 (toReg .resultLen ((bs.length + 7) / 8))).withRes1
      (toReg .resultBits bs.length) := by
  simp only [encodeEffect, bind_eq_ok, checkRegions_eq_ok, Except.ok.injEq] at h
  obtain ⟨m, -, -, ⟨-, hout, -⟩, bs, hbs, rfl⟩ := h
  exact ⟨m, bs, hout, hbs, rfl⟩

theorem decodeEffect_ok {j : Nat} (h : decodeEffect j s = .ok u) : ∃ m r,
    s.inRange s.op2.toNat s.op3.toNat ∧ s.decodeLoop m (8 * s.op1.toNat + 1) 0 [] = .ok r ∧
    u = ((s.writeBytes s.op2.toNat r.1).withRes0 (BitVec.ofNat 64 r.1.length)).withRes1 (toReg .resultBits r.2) := by
  simp only [decodeEffect, bind_eq_ok, checkRegions_eq_ok, Except.ok.injEq] at h
  obtain ⟨m, -, -, -, -, ⟨-, hout, -⟩, r, hr, rfl⟩ := h
  exact ⟨m, r, hout, hr, rfl⟩

theorem minfoEffect_ok {j : Nat} (h : minfoEffect j s = .ok u) : ∃ m : Model,
    u = ((s.withRes0 (BitVec.ofNat 64 m.entries.length)).withRes1
      (BitVec.ofNat 64 (m.maxBits ||| m.order.toNat <<< 8))).withRes2 (toReg .weight m.weight) := by
  obtain ⟨m, -, h⟩ := bind_eq_ok.mp h
  exact ⟨m, (Except.ok.inj h).symm⟩

/-- MENTRY and MLOOKUP write the three results. -/
theorem reportEntry_eq (s : State) (e : Option Entry) :
    ∃ a b c, s.reportEntry e = ((s.withRes0 a).withRes1 b).withRes2 c := by
  cases e with
  | none => exact ⟨0, 0, 0, rfl⟩
  | some e => exact ⟨e.infoWord, e.value, e.freq, rfl⟩

theorem mentryEffect_ok {j : Nat} (h : mentryEffect j s = .ok u) :
    ∃ m : Model, u = s.reportEntry m.entries[s.op0.toNat]? := by
  obtain ⟨m, -, h⟩ := bind_eq_ok.mp h
  exact ⟨m, (Except.ok.inj h).symm⟩

theorem mlookupEffect_ok {j : Nat} (h : mlookupEffect j s = .ok u) :
    ∃ m : Model, u = s.reportEntry (m.dict s.op0.toNat) := by
  obtain ⟨m, -, h⟩ := bind_eq_ok.mp h
  exact ⟨m, (Except.ok.inj h).symm⟩

theorem mfreeEffect_ok {j : Nat} (h : mfreeEffect j s = .ok u) : u = s.withModel j none := by
  obtain ⟨-, -, h⟩ := bind_eq_ok.mp h
  exact (Except.ok.inj h).symm

end Effects

/-! ### What the effect of a command leaves alone -/

/-- `u` differs from `s` in what command `i` may write alone (30_encoding.md R105; 20_memory.md R72, R86;
60_exceptions.md R303). -/
structure EffectFrame (i : Instr) (s u : State) : Prop where
  fixed : u = { s with
    res0 := u.res0, res1 := u.res1, res2 := u.res2, status := u.status, writer := u.writer, reader := u.reader,
    builders := u.builders, models := u.models, dmem := u.dmem }
  status : u.status = { s.status with skipSeen := u.status.skipSeen }
  skipSeen : s.status.skipSeen = true → u.status.skipSeen = true
  res0 : writesRes0 i = false → u.res0 = s.res0
  res1 : writesRes1 i = false → u.res1 = s.res1
  res2 : writesRes2 i = false → u.res2 = s.res2
  dmem : writesDmem i = false → u.dmem = s.dmem
  writer : isWriterCommand i = false → u.writer = s.writer
  reader : movesReader i = false → u.reader = s.reader
  builders : (∀ k, changesBuilder k i = false) → u.builders = s.builders
  builder : ∀ k, changesBuilder k i = false → u.builders[k]? = s.builders[k]?
  models : (∀ j, changesModel j i = false) → u.models = s.models
  model : ∀ j, changesModel j i = false → u.models[j]? = s.models[j]?

namespace EffectFrame
variable {i : Instr} {s u : State}

theorem refl (i : Instr) (s : State) : EffectFrame i s s :=
  ⟨rfl, rfl, id, fun _ => rfl, fun _ => rfl, fun _ => rfl, fun _ => rfl, fun _ => rfl, fun _ => rfl, fun _ => rfl,
    fun _ _ => rfl, fun _ => rfl, fun _ _ => rfl⟩

theorem withRes0 (h : EffectFrame i s u) (v : Word) (hi : writesRes0 i = true) : EffectFrame i s (u.withRes0 v) :=
  { h with fixed := by rw [h.fixed]; rfl, res0 := fun hn => nomatch hi.symm.trans hn }

theorem withRes1 (h : EffectFrame i s u) (v : Word) (hi : writesRes1 i = true) : EffectFrame i s (u.withRes1 v) :=
  { h with fixed := by rw [h.fixed]; rfl, res1 := fun hn => nomatch hi.symm.trans hn }

theorem withRes2 (h : EffectFrame i s u) (v : Word) (hi : writesRes2 i = true) : EffectFrame i s (u.withRes2 v) :=
  { h with fixed := by rw [h.fixed]; rfl, res2 := fun hn => nomatch hi.symm.trans hn }

theorem writeBytes (h : EffectFrame i s u) (a : Nat) (bs : List Byte) (hi : writesDmem i = true) :
    EffectFrame i s (u.writeBytes a bs) :=
  { h with fixed := by rw [h.fixed]; rfl, dmem := fun hn => nomatch hi.symm.trans hn }

theorem withWriter (h : EffectFrame i s u) (w : Writer) (hi : isWriterCommand i = true) :
    EffectFrame i s (u.withWriter w) :=
  { h with fixed := by rw [h.fixed]; rfl, writer := fun hn => nomatch hi.symm.trans hn }

theorem withReader (h : EffectFrame i s u) (r : Reader) (hi : movesReader i = true) :
    EffectFrame i s (u.withReader r) :=
  { h with fixed := by rw [h.fixed]; rfl, reader := fun hn => nomatch hi.symm.trans hn }

theorem noteSkip (h : EffectFrame i s u) (b : Bool) : EffectFrame i s (u.noteSkip b) :=
  { h with
    fixed := by rw [h.fixed]; rfl
    status := by rw [State.noteSkip, State.withStatus_status, h.status]
    skipSeen := fun hs => by simp [State.noteSkip, h.skipSeen hs] }

theorem withBuilder (h : EffectFrame i s u) (k : Nat) (bd : Builder) (hi : changesBuilder k i = true) :
    EffectFrame i s (u.withBuilder k bd) :=
  { h with
    fixed := by rw [h.fixed]; rfl
    builders := fun hn => nomatch hi.symm.trans (hn k)
    builder := fun k' hn => by
      have hne : k ≠ k' := by
        rintro rfl
        exact nomatch hi.symm.trans hn
      rw [State.withBuilder_builders, Vector.getElem?_setIfInBounds_ne hne, h.builder k' hn] }

theorem withModel (h : EffectFrame i s u) (j : Nat) (m : Option Model) (hi : changesModel j i = true) :
    EffectFrame i s (u.withModel j m) :=
  { h with
    fixed := by rw [h.fixed]; rfl
    models := fun hn => nomatch hi.symm.trans (hn j)
    model := fun j' hn => by
      have hne : j ≠ j' := by
        rintro rfl
        exact nomatch hi.symm.trans hn
      rw [State.withModel_models, Vector.getElem?_setIfInBounds_ne hne, h.model j' hn] }

theorem reportEntry (h : EffectFrame i s u) (e : Option Entry) (h0 : writesRes0 i = true) (h1 : writesRes1 i = true)
    (h2 : writesRes2 i = true) : EffectFrame i s (u.reportEntry e) := by
  obtain ⟨a, b, c, he⟩ := reportEntry_eq u e
  rw [he]
  exact ((h.withRes0 a h0).withRes1 b h1).withRes2 c h2

theorem storeScan (h : EffectFrame i s u) (k : Nat) (bd : Builder) (r : ScanResult) (hk : changesBuilder k i = true)
    (h0 : writesRes0 i = true) (h1 : writesRes1 i = true) : EffectFrame i s (u.storeScan k bd r) :=
  (((h.withBuilder k bd hk).noteSkip _).withRes0 _ h0).withRes1 _ h1

theorem installModel (h : EffectFrame i s u) (j : Nat) (m : Model) (w : Word) (hj : changesModel j i = true)
    (h0 : writesRes0 i = true) (h1 : writesRes1 i = true) (h2 : writesRes2 i = true) :
    EffectFrame i s (u.installModel j m w) :=
  (((h.withModel j _ hj).withRes0 _ h0).withRes1 _ h1).withRes2 _ h2

theorem params (h : EffectFrame i s u) : u.params = s.params := by rw [h.fixed]

end EffectFrame

/-- Every command writes only what its row lets it write. -/
theorem effectOf_frame {i : Instr} {s u : State} (h : effectOf i s = .ok u) : EffectFrame i s u := by
  have start := EffectFrame.refl i s
  cases i with
  | nop => obtain rfl := Except.ok.inj h; exact start
  | winit => obtain ⟨-, rfl⟩ := winitEffect_ok h; exact start.withWriter _ rfl
  | wbits w =>
    obtain ⟨-, -, rfl | ⟨-, rfl⟩⟩ := wbitsEffect_ok h
    · exact start
    · unfold State.appendBits
      dsimp only
      split
      · exact start.withWriter _ rfl
      · exact (start.writeBytes _ _ rfl).withWriter _ rfl
  | wfinish =>
    obtain ⟨-, rfl⟩ | rfl := wfinishEffect_ok h
    · exact (((start.writeBytes _ _ rfl).withWriter _ rfl).withRes0 _ rfl).withRes1 _ rfl
    · exact (start.withRes0 _ rfl).withRes1 _ rfl
  | rinit => obtain ⟨-, -, rfl⟩ := rinitEffect_ok h; exact start.withReader _ rfl
  | rpeek n => obtain rfl := rpeekEffect_ok h; exact start.withRes0 _ rfl
  | rmatch n => obtain rfl := rmatchEffect_ok h; exact start.withRes0 _ rfl
  | radv n => obtain ⟨-, -, rfl⟩ := radvEffect_ok h; exact start.withReader _ rfl
  | binit k => obtain ⟨_, rfl⟩ := binitEffect_ok h; exact start.withBuilder k _ (beq_self_eq_true k)
  | bscan k =>
    obtain ⟨_, _, -, -, -, rfl⟩ := bscanEffect_ok h
    exact ((start.withBuilder k _ (beq_self_eq_true k)).noteSkip _).withRes0 _ rfl
  | bline k => obtain ⟨_, _, -, -, -, rfl⟩ := blineEffect_ok h; exact start.withBuilder k _ (beq_self_eq_true k)
  | bscanln k =>
    obtain ⟨_, _, _, -, -, -, -, rfl⟩ := bscanlnEffect_ok h
    exact start.storeScan k _ _ (beq_self_eq_true k) rfl rfl
  | bscanbuf k =>
    obtain ⟨_, _, -, -, -, rfl⟩ := bscanbufEffect_ok h
    exact start.storeScan k _ _ (beq_self_eq_true k) rfl rfl
  | bmerge dst src =>
    obtain ⟨_, _, _, -, -, -, -, -, -, rfl⟩ := bmergeEffect_ok h
    exact start.withBuilder dst _ (beq_self_eq_true dst)
  | binfo k =>
    obtain ⟨_, rfl⟩ := binfoEffect_ok h
    exact ((start.withRes0 _ rfl).withRes1 _ rfl).withRes2 _ rfl
  | bbuild k j =>
    obtain ⟨_, _, _, -, -, -, -, -, rfl⟩ := bbuildEffect_ok h
    exact (start.withBuilder k _ (beq_self_eq_true k)).installModel j _ _ (beq_self_eq_true j) rfl rfl rfl
  | hbuild j =>
    obtain ⟨_, _, _, _, -, -, -, -, -, rfl⟩ := hbuildEffect_ok h
    exact start.installModel j _ _ (beq_self_eq_true j) rfl rfl rfl
  | encode j =>
    obtain ⟨_, _, -, -, rfl⟩ := encodeEffect_ok h
    exact ((start.writeBytes _ _ rfl).withRes0 _ rfl).withRes1 _ rfl
  | decode j =>
    obtain ⟨_, _, -, -, rfl⟩ := decodeEffect_ok h
    exact ((start.writeBytes _ _ rfl).withRes0 _ rfl).withRes1 _ rfl
  | minfo j =>
    obtain ⟨_, rfl⟩ := minfoEffect_ok h
    exact ((start.withRes0 _ rfl).withRes1 _ rfl).withRes2 _ rfl
  | mentry j => obtain ⟨_, rfl⟩ := mentryEffect_ok h; exact start.reportEntry _ rfl rfl rfl
  | mlookup j => obtain ⟨_, rfl⟩ := mlookupEffect_ok h; exact start.reportEntry _ rfl rfl rfl
  | mfree j => obtain rfl := mfreeEffect_ok h; exact start.withModel j _ (beq_self_eq_true j)

/-! ### What a step can lead to -/

/-- What one host action can make of a state from which it has been taken off the list. -/
inductive ActionLeads : HostAction → State → State → Prop
  | succeeds {i : Instr} {s u : State} (v : Word) (h : effectOf i s = .ok u) :
      ActionLeads (.writeReg 8 0x00 v) s (clearError u)
  | fails {s : State} (v : Word) (e : CmdError) : ActionLeads (.writeReg 8 0x00 v) s (takeError s e)
  | setsOp0 {s : State} (v : Word) : ActionLeads (.writeReg 8 0x08 v) s (s.withOp0 v)
  | setsOp1 {s : State} (v : Word) : ActionLeads (.writeReg 8 0x10 v) s (s.withOp1 v)
  | setsOp2 {s : State} (v : Word) : ActionLeads (.writeReg 8 0x18 v) s (s.withOp2 v)
  | setsOp3 {s : State} (v : Word) : ActionLeads (.writeReg 8 0x20 v) s (s.withOp3 v)
  | ignored {s : State} (a : HostAction) : ActionLeads a s s
  | reads {s : State} (a : HostAction) (v : Seen) : ActionLeads a s (s.withSaw v)
  | writesMem {s : State} (a : Nat) (b : Byte) (h : a < s.params.dmemSize) :
      ActionLeads (.writeMem a b) s (s.withDmem (s.dmem.write a b))
  | assertsReset {s : State} : ActionLeads .assertReset s (s.withInReset true)
  | releases {s : State} : ActionLeads .releaseReset s s.release

/-- A write of CMD executes the command, takes its error, or is lost while reset is asserted. -/
theorem writeCmd_leads {v : Word} {s t : State} (h : writeCmd v s = .next t) :
    ActionLeads (.writeReg 8 0x00 v) s t := by
  unfold writeCmd issueCommand at h
  split at h
  · obtain rfl := Host.Outcome.next.inj h
    exact .ignored _
  · split at h
    · obtain ⟨u, hu, rfl⟩ | ⟨e, -, rfl⟩ := exec_eq_next h
      · exact .succeeds v hu
      · exact .fails v e
    · obtain rfl := Host.Outcome.next.inj h
      exact .fails v _

theorem writeReg_leads {off : Nat} {v : Word} {s t : State} (h : writeReg off v s = .next t) :
    ActionLeads (.writeReg 8 off v) s t := by
  unfold writeReg at h
  split at h
  · exact writeCmd_leads h
  all_goals obtain rfl := Host.Outcome.next.inj h
  · exact .setsOp0 v
  · exact .setsOp1 v
  · exact .setsOp2 v
  · exact .setsOp3 v
  · exact .ignored _

theorem hostAction_leads {a : HostAction} {s t : State} (h : hostAction a s = .next t) : ActionLeads a s t := by
  unfold hostAction at h
  split at h
  · split at h
    · rename_i hok
      obtain ⟨rfl, -, -⟩ := of_decide_eq_true hok
      exact writeReg_leads h
    · exact nomatch h
  · split at h
    · obtain rfl := Host.Outcome.next.inj h
      exact .reads _ _
    · exact nomatch h
  · split at h
    · obtain rfl := Host.Outcome.next.inj h
      exact .writesMem _ _ ‹_›
    · exact nomatch h
  · split at h
    · obtain rfl := Host.Outcome.next.inj h
      exact .reads _ _
    · exact nomatch h
  · obtain rfl := Host.Outcome.next.inj h
    exact .assertsReset
  · split at h <;> obtain rfl := Host.Outcome.next.inj h
    · exact .releases
    · exact .ignored _

/-- A step waits, or does what the host's next action can do. -/
theorem step_cases {s t : State} (h : step s = .next t) :
    t = s ∨ ∃ a rest, s.host = a :: rest ∧ ActionLeads a (s.withHost rest) t := by
  unfold step at h
  split at h
  · exact .inl (Host.Outcome.next.inj h).symm
  · rename_i a rest hhost
    exact .inr ⟨a, rest, hhost, hostAction_leads h⟩

end Sys2Proof.Machine

/-! PROOF. STATUS and DMEM over every step (10_state.md R35; 20_memory.md R70, R71): O57. -/

namespace Sys2Proof.Machine

/-! ### Outputs that fit their region -/

/-- Storing a run of bytes inside DMEM keeps it canonical and within DMEM_SIZE. -/
theorem writeBytes_dmemOk {s : State} (hs : s.DmemOk) {a : Nat} {bs : List Byte}
    (hfit : a + bs.length ≤ s.params.dmemSize) : (s.writeBytes a bs).DmemOk :=
  ⟨memory_wf_writeAll hs.1 a bs, memory_writeAll_lt hs.2 fun _ => hfit⟩

/-- A word that an append completes lies inside the writer's region. -/
theorem appendBits_dmemOk {s : State} {n v : Nat} (hs : s.DmemOk) (hw : s.writer.Ok s.params.dmemSize)
    (hfit : s.writer.total + n ≤ 8 * s.writer.cap.toNat) : (s.appendBits n v).DmemOk := by
  obtain ⟨-, hfree, -, hregion, -⟩ := hw
  unfold State.appendBits
  dsimp only
  split
  · exact hs
  · refine writeBytes_dmemOk hs ?_
    rw [length_beBytes]
    unfold Writer.total at hfit
    unfold Writer.wordAddr
    omega

/-- The partial word that WFINISH stores lies inside the writer's region. -/
theorem closeWriter_dmemOk {s : State} (hs : s.DmemOk) (hw : s.writer.Ok s.params.dmemSize) :
    s.closeWriter.DmemOk := by
  obtain ⟨-, -, -, hregion, hfit, -⟩ := hw
  refine writeBytes_dmemOk hs ?_
  have hlen : s.writer.partialBytes.length ≤ (64 - s.writer.free + 7) / 8 := List.length_take_le _ _
  unfold Writer.total at hfit
  unfold Writer.wordAddr
  omega

/-- The stream of ENCODE fits the output region. -/
theorem encodeStream_length_le {m : Model} {cap : Nat} {input : List Byte} {bs : List Bool}
    (h : encodeStream m cap input = .ok bs) : bs.length ≤ 8 * cap := by
  obtain ⟨bs', -, h⟩ := bind_eq_ok.mp h
  split at h
  · exact nomatch h
  · simp only [appendCode, bind_eq_ok, check_eq_ok, Except.ok.injEq] at h
    obtain ⟨-, hfit, rfl⟩ := h
    exact hfit

/-- The bytes of a symbol are appended within the capacity. -/
theorem emitBytes_length_le {cap : Nat} {bs out out' : List Byte} (hout : out.length ≤ cap)
    (h : emitBytes cap bs out = .ok out') : out'.length ≤ cap := by
  induction bs generalizing out with
  | nil => obtain rfl := Except.ok.inj h; exact hout
  | cons b bs ih =>
    obtain ⟨_, hne, h⟩ := bind_eq_ok.mp h
    rw [check_eq_ok] at hne
    refine ih ?_ h
    rw [List.length_append, List.length_singleton]
    omega

/-- The output of DECODE fits the output region. -/
theorem decodeLoop_length_le {s : State} {m : Model} {fuel pos : Nat} {out : List Byte} {r : List Byte × Nat}
    (hout : out.length ≤ s.op3.toNat) (h : s.decodeLoop m fuel pos out = .ok r) : r.1.length ≤ s.op3.toNat := by
  induction fuel generalizing pos out with
  | zero => exact nomatch h
  | succ fuel ih =>
    unfold State.decodeLoop at h
    split at h
    · exact nomatch h
    · obtain ⟨-, -, h⟩ := bind_eq_ok.mp h
      split at h
      · obtain rfl := Except.ok.inj h
        exact hout
      · obtain ⟨out', hout', h⟩ := bind_eq_ok.mp h
        exact ih (emitBytes_length_le hout hout') h

/-- Every command keeps DMEM canonical and within DMEM_SIZE. -/
theorem effectOf_dmemOk {i : Instr} {s u : State} (hs : s.DmemOk) (hw : s.writer.Ok s.params.dmemSize)
    (h : effectOf i s = .ok u) : u.DmemOk := by
  have hframe := effectOf_frame h
  cases i with
  | wbits w =>
    obtain ⟨-, -, rfl | ⟨hfit, rfl⟩⟩ := wbitsEffect_ok h
    · exact hs
    · exact appendBits_dmemOk hs hw hfit
  | wfinish =>
    obtain ⟨-, rfl⟩ | rfl := wfinishEffect_ok h
    · exact closeWriter_dmemOk hs hw
    · exact hs
  | encode j =>
    obtain ⟨m, bs, hout, hbs, rfl⟩ := encodeEffect_ok h
    have hfit := encodeStream_length_le hbs
    refine writeBytes_dmemOk hs (le_trans ?_ hout)
    rw [length_packBits]
    omega
  | decode j =>
    obtain ⟨m, r, hout, hr, rfl⟩ := decodeEffect_ok h
    have hfit := decodeLoop_length_le (Nat.zero_le _) hr
    exact writeBytes_dmemOk hs (le_trans (Nat.add_le_add_left hfit _) hout)
  | _ =>
    unfold State.DmemOk
    rw [hframe.dmem rfl, hframe.params]
    exact hs

/-! ### STATUS -/

theorem reset_statusOk : Status.reset.Ok := by decide

/-- Ending without an error keeps STATUS consistent. -/
theorem clearError_statusOk {s : State} (hs : s.status.Ok) : (clearError s).status.Ok :=
  ⟨hs.1, fun hne => absurd rfl hne⟩

/-- Taking an error keeps STATUS consistent. -/
theorem takeError_statusOk (s : State) (e : CmdError) : (takeError s e).status.Ok := by
  refine ⟨?_, fun _ => rfl⟩
  rw [takeError_firstErr]
  simp

/-- Every command keeps STATUS consistent. -/
theorem effectOf_statusOk {i : Instr} {s u : State} (hs : s.status.Ok) (h : effectOf i s = .ok u) : u.status.Ok := by
  rw [(effectOf_frame h).status]
  exact hs

/-- Settles O57: each outcome of the host's action keeps STATUS and DMEM, the commands by `effectOf_dmemOk`. -/
theorem stepKeepsStatusAndDmem : Obligations.StepKeepsStatusAndDmem := by
  intro s t hstatus hdmem hwriter h
  obtain rfl | ⟨a, rest, -, hleads⟩ := step_cases h
  · exact ⟨hstatus, hdmem, rfl⟩
  have hdmem' : (s.withHost rest).DmemOk := hdmem
  cases hleads with
  | @succeeds i _ u v heffect =>
    have hstatus_u : u.status.Ok := effectOf_statusOk (s := s.withHost rest) hstatus heffect
    have hdmem_u : u.DmemOk := effectOf_dmemOk hdmem' hwriter heffect
    exact ⟨clearError_statusOk hstatus_u, hdmem_u, (effectOf_frame heffect).params⟩
  | fails v e => exact ⟨takeError_statusOk _ e, hdmem, rfl⟩
  | writesMem a b ha =>
    exact ⟨hstatus, writeBytes_dmemOk hdmem' (bs := [b]) (Nat.succ_le_of_lt ha), rfl⟩
  | releases => exact ⟨reset_statusOk, ⟨rfl, fun c hc => nomatch hc⟩, rfl⟩
  | _ => exact ⟨hstatus, hdmem, rfl⟩

end Sys2Proof.Machine

/-! PROOF. The writer and the reader over every step (10_state.md R38, R42, R43): O58. -/

namespace Sys2Proof.Machine

/-! ### Invariants of the units -/

/-- `t` has the parameters and the units of `s`. -/
structure SameUnits (s t : State) : Prop where
  params : t.params = s.params
  writer : t.writer = s.writer
  reader : t.reader = s.reader
  builders : t.builders = s.builders
  models : t.models = s.models

/-- A property of the parameters and the units that reset gives and every command keeps is kept by every step. -/
theorem step_keeps_units {P : State → Prop} (same : ∀ s t, SameUnits s t → P s → P t)
    (reset : ∀ p draw, P (State.resetWith p draw)) (command : ∀ i s u, P s → effectOf i s = .ok u → P u)
    {s t : State} (hs : P s) (h : step s = .next t) : P t := by
  obtain rfl | ⟨a, rest, -, hleads⟩ := step_cases h
  · exact hs
  have hrest : P (s.withHost rest) := same s _ ⟨rfl, rfl, rfl, rfl, rfl⟩ hs
  cases hleads with
  | @succeeds i _ u v heffect => exact same u _ ⟨rfl, rfl, rfl, rfl, rfl⟩ (command _ _ _ hrest heffect)
  | releases => exact same (State.resetWith s.params (s.draw + 1)) _ ⟨rfl, rfl, rfl, rfl, rfl⟩ (reset _ _)
  | _ => exact same s _ ⟨rfl, rfl, rfl, rfl, rfl⟩ hs

/-! ### The writer -/

/-- A field put `k` places up has the bits below 0. -/
theorem shifted_mod {v j k : Nat} (hjk : j ≤ k) (hk : k ≤ 64) : (BitVec.ofNat 64 (v <<< k)).toNat % 2 ^ j = 0 := by
  rw [BitVec.toNat_ofNat, Nat.mod_mod_of_dvd _ (Nat.pow_dvd_pow 2 (hjk.trans hk)), Nat.shiftLeft_eq]
  exact Nat.mod_eq_zero_of_dvd ((Nat.pow_dvd_pow 2 hjk).mul_left v)

/-- It leaves the low bits of the accumulator 0. -/
theorem acc_or_shifted_mod {acc : Word} {v j k : Nat} (hacc : acc.toNat % 2 ^ j = 0) (hjk : j ≤ k) (hk : k ≤ 64) :
    (acc ||| BitVec.ofNat 64 (v <<< k)).toNat % 2 ^ j = 0 := by
  rw [BitVec.toNat_or, Nat.or_mod_two_pow, hacc, shifted_mod hjk hk, Nat.or_self]

/-- Appending bits that fit to an open stream keeps the writer's invariant. -/
theorem appendBits_writerOk {s : State} {size n v : Nat} (hw : s.writer.Ok size) (hopen : s.writer.mode = .opened)
    (hn : n ≤ 64) (hfit : s.writer.total + n ≤ 8 * s.writer.cap.toNat) : (s.appendBits n v).writer.Ok size := by
  obtain ⟨hfree1, hfree, hacc, hregion, -, -, hlen, -⟩ := hw
  have hclosed : s.writer.mode ≠ .closed := by simp [hopen]
  have hidle : s.writer.mode ≠ .idle := by simp [hopen]
  unfold Writer.total at hfit
  unfold State.appendBits
  dsimp only
  split
  · refine ⟨by simp; omega, by simp; omega, ?_, hregion, ?_, fun h => absurd h hclosed, hlen, fun h => absurd h hidle⟩
    · refine acc_or_shifted_mod ?_ (le_refl (s.writer.free - n)) (by omega)
      exact Nat.mod_eq_zero_of_dvd ((Nat.pow_dvd_pow 2 (Nat.sub_le _ n)).trans (Nat.dvd_of_mod_eq_zero hacc))
    · simp only [Writer.total, State.withWriter_writer]
      omega
  · refine ⟨by simp; omega, by simp, ?_, hregion, ?_, fun h => absurd h hclosed, hlen, fun h => absurd h hidle⟩
    · simp only [State.withWriter_writer]
      split
      · exact Nat.zero_mod _
      · exact shifted_mod le_rfl (Nat.sub_le _ _)
    · simp only [Writer.total, State.withWriter_writer]
      omega

/-- WINIT leaves an empty open stream. -/
theorem opened_writerOk {size : Nat} {base cap : Word} (hregion : base.toNat + cap.toNat ≤ size) :
    ({ mode := .opened, base := base, cap := cap, words := 0, acc := 0, free := 64, finalLen := 0 } : Writer).Ok size :=
  ⟨Nat.le_add_left _ _, le_rfl, rfl, hregion, Nat.zero_le _, nofun, fun _ => rfl, nofun⟩

/-- WFINISH closes an open stream with its byte length. -/
theorem closeWriter_writerOk {s : State} {size : Nat} (hw : s.writer.Ok size) : s.closeWriter.writer.Ok size := by
  obtain ⟨hfree1, hfree, hacc, hregion, hfit, -⟩ := hw
  exact ⟨hfree1, hfree, hacc, hregion, hfit, fun _ => rfl, nofun, nofun⟩

theorem reset_writerOk (size : Nat) : Writer.reset.Ok size :=
  ⟨by decide, le_rfl, rfl, Nat.zero_le _, Nat.zero_le _, nofun, nofun, fun _ => rfl⟩

/-- Every command keeps the writer's invariant. -/
theorem effectOf_writerOk {i : Instr} {s u : State} (hw : s.writer.Ok s.params.dmemSize) (h : effectOf i s = .ok u) :
    u.writer.Ok u.params.dmemSize := by
  have hframe := effectOf_frame h
  rw [hframe.params]
  cases i with
  | winit => obtain ⟨hregion, rfl⟩ := winitEffect_ok h; exact opened_writerOk hregion
  | wbits w =>
    obtain ⟨hopen, hle, rfl | ⟨hfit, rfl⟩⟩ := wbitsEffect_ok h
    · exact hw
    · exact appendBits_writerOk hw hopen hle hfit
  | wfinish =>
    obtain ⟨-, rfl⟩ | rfl := wfinishEffect_ok h
    · exact closeWriter_writerOk hw
    · exact hw
  | _ => rw [hframe.writer rfl]; exact hw

/-! ### The reader -/

theorem reset_readerOk (size : Nat) : Reader.reset.Ok size :=
  ⟨Nat.zero_le _, Nat.zero_le _, nofun, fun _ => rfl⟩

/-- Every command keeps the reader's invariant. -/
theorem effectOf_readerOk {i : Instr} {s u : State} (hr : s.reader.Ok s.params.dmemSize) (h : effectOf i s = .ok u) :
    u.reader.Ok u.params.dmemSize := by
  have hframe := effectOf_frame h
  rw [hframe.params]
  cases i with
  | rinit =>
    obtain ⟨hlen, hregion, rfl⟩ := rinitEffect_ok h
    have hpos : 1 ≤ s.op1.toNat := Nat.one_le_iff_ne_zero.mpr fun h0 => hlen (BitVec.eq_of_toNat_eq h0)
    exact ⟨hregion, Nat.zero_le _, fun _ => hpos, nofun⟩
  | radv n =>
    obtain ⟨hopen, hfit, rfl⟩ := radvEffect_ok h
    obtain ⟨hregion, -, hlen, -⟩ := hr
    exact ⟨hregion, hfit, hlen, fun hclosed => nomatch hopen.symm.trans hclosed⟩
  | _ => rw [hframe.reader rfl]; exact hr

/-- Settles O58: the writer's invariant by `effectOf_writerOk`, the reader's by `effectOf_readerOk`. -/
theorem stepKeepsWriterAndReader : Obligations.StepKeepsWriterAndReader := by
  intro s t hw hr h
  refine step_keeps_units (P := fun s => s.writer.Ok s.params.dmemSize ∧ s.reader.Ok s.params.dmemSize)
    ?_ ?_ ?_ ⟨hw, hr⟩ h
  · intro s t hsame hs
    rwa [hsame.writer, hsame.reader, hsame.params]
  · exact fun p _ => ⟨reset_writerOk p.dmemSize, reset_readerOk p.dmemSize⟩
  · exact fun i s u hs heffect => ⟨effectOf_writerOk hs.1 heffect, effectOf_readerOk hs.2 heffect⟩

end Sys2Proof.Machine

/-! PROOF. What lasts over a step: sticky STATUS fields (10_state.md R35; 60_exceptions.md R298), the register file
(R32), valid models (R53): O15, O16, O18. -/

namespace Sys2Proof.Machine

/-- Settles O15: a command that succeeds keeps FIRST_ERR and ERR_SEEN, one that fails keeps the first error, and no
other action but the release of reset touches STATUS. -/
theorem stickyStatusLastsUntilReset : Obligations.StickyStatusLastsUntilReset := by
  intro s t h hnorelease
  obtain rfl | ⟨a, rest, hhost, hleads⟩ := step_cases h
  · exact ⟨fun _ => rfl, id, id⟩
  cases hleads with
  | @succeeds i _ u v heffect =>
    have hframe := effectOf_frame heffect
    have hstatus : u.status = { s.status with skipSeen := u.status.skipSeen } := hframe.status
    refine ⟨fun _ => ?_, fun hseen => ?_, hframe.skipSeen⟩
    · show u.status.firstErr = _
      rw [hstatus]
    · show u.status.errSeen = true
      rw [hstatus]
      exact hseen
  | fails v e =>
    refine ⟨fun hfirst => ?_, fun _ => rfl, id⟩
    obtain ⟨k, hk⟩ := Option.ne_none_iff_exists'.mp hfirst
    rw [takeError_firstErr, State.withHost_status, hk, Option.some_or]
  | releases => exact absurd hhost (hnorelease rest)
  | _ => exact ⟨fun _ => rfl, id, id⟩

/-- A command that succeeds writes OP0..OP3 never and a result register only where its row names it. -/
theorem effectOf_registers {i : Instr} {s u : State} (h : effectOf i s = .ok u) :
    u.op0 = s.op0 ∧ u.op1 = s.op1 ∧ u.op2 = s.op2 ∧ u.op3 = s.op3 ∧ (writesRes0 i = false → u.res0 = s.res0) ∧
      (writesRes1 i = false → u.res1 = s.res1) ∧ (writesRes2 i = false → u.res2 = s.res2) := by
  have hframe := effectOf_frame h
  refine ⟨?_, ?_, ?_, ?_, hframe.res0, hframe.res1, hframe.res2⟩ <;> rw [hframe.fixed]

/-- Settles O16: a command by its frame, a host access by what its action can do. -/
theorem registerFileIsWrittenOnlyAsTold : Obligations.RegisterFileIsWrittenOnlyAsTold := by
  constructor
  · intro i s t h
    obtain ⟨u, hu, rfl⟩ | ⟨e, -, rfl⟩ := exec_eq_next h
    · obtain ⟨h0, h1, h2, h3, hres0, hres1, hres2⟩ := effectOf_registers hu
      exact ⟨h0, h1, h2, h3, hres0, hres1, hres2, fun hfailed => absurd rfl hfailed⟩
    · exact ⟨rfl, rfl, rfl, rfl, fun _ => rfl, fun _ => rfl, fun _ => rfl, fun _ => ⟨rfl, rfl, rfl⟩⟩
  · intro s t a rest hhost hnorelease hnocmd h
    obtain rfl | ⟨a', rest', hhost', hleads⟩ := step_cases h
    · exact ⟨rfl, rfl, rfl⟩
    obtain ⟨rfl, rfl⟩ := List.cons.inj (hhost.symm.trans hhost')
    cases hleads with
    | succeeds v _ => exact absurd rfl (hnocmd v)
    | fails v _ => exact absurd rfl (hnocmd v)
    | releases => exact absurd rfl hnorelease
    | _ => exact ⟨rfl, rfl, rfl⟩

/-- A command that stores a model into a slot finds it free; only MFREE changes a valid one. -/
theorem effectOf_keeps_valid_model {i : Instr} {s u : State} {j : Nat} {m : Model}
    (hvalid : s.models[j]? = some (some m)) (hnofree : i ≠ .mfree j) (h : effectOf i s = .ok u) :
    u.models[j]? = some (some m) := by
  have not_free : ∀ j', (j' == j) = true → s.models[j']? ≠ some none := by
    intro j' hj hfree
    rw [beq_iff_eq] at hj
    subst hj
    exact nomatch hvalid.symm.trans hfree
  cases hchanges : changesModel j i with
  | false => rw [(effectOf_frame h).model j hchanges, hvalid]
  | true =>
    cases i with
    | bbuild k j' =>
      obtain ⟨_, _, _, -, hfree, -⟩ := bbuildEffect_ok h
      exact absurd hfree (not_free j' hchanges)
    | hbuild j' =>
      obtain ⟨_, _, _, _, hfree, -⟩ := hbuildEffect_ok h
      exact absurd hfree (not_free j' hchanges)
    | mfree j' => exact absurd (congrArg Instr.mfree (beq_iff_eq.mp hchanges)) hnofree
    | _ => exact absurd hchanges Bool.false_ne_true

/-- MFREE of a slot that exists succeeds. -/
theorem effectOf_mfree {s : State} {j : Nat} {o : Option Model} (hslot : s.models[j]? = some o) :
    effectOf (.mfree j) s = .ok (s.withModel j none) := by
  show mfreeEffect j s = _
  rw [mfreeEffect, modelSlot_eq_ok.mpr hslot, bind_ok]

/-- Settles O18, by `effectOf_keeps_valid_model` and `effectOf_mfree`. -/
theorem validModelsAreNeverChanged : Obligations.ValidModelsAreNeverChanged := by
  intro s t j m hvalid
  constructor
  · intro i h hnofree
    obtain ⟨u, hu, rfl⟩ | ⟨e, -, rfl⟩ := exec_eq_next h
    · show u.models[j]? = _
      exact effectOf_keeps_valid_model hvalid hnofree hu
    · exact hvalid
  · intro h
    rw [exec_eq_complete, effectOf_mfree hvalid, complete_ok] at h
    obtain rfl := Host.Outcome.next.inj h
    have hj : j < Config.numModels := (Vector.getElem?_eq_some_iff.mp hvalid).1
    exact Vector.getElem?_setIfInBounds_self_of_lt hj

end Sys2Proof.Machine

/-! PROOF. The register window (10_state.md R30, R31): O8, O9. -/

namespace Sys2Proof.Machine

/-! ### STATUS as the host reads it -/

/-- An error field holds a number of 60_exceptions.md R290. -/
theorem errField_lt (e : Option ErrorKind) : errField e < 16 := by
  cases e with
  | none => decide
  | some k => cases k <;> decide

/-- STATUS as a number: nothing of it is cut. -/
theorem status_word_toNat (st : Status) :
    st.word.toNat = errField st.lastErr + errField st.firstErr * 2 ^ 8 + st.errSeen.toNat * 2 ^ 16
      + st.skipSeen.toNat * 2 ^ 17 := by
  have h1 := errField_lt st.lastErr
  have h2 := errField_lt st.firstErr
  have h3 := st.errSeen.toNat_le
  have h4 := st.skipSeen.toNat_le
  rw [Status.word, BitVec.toNat_ofNat, Nat.mod_eq_of_lt (by omega)]

theorem status_word_lastErr (st : Status) : st.word.toNat % 2 ^ 8 = errField st.lastErr := by
  have := errField_lt st.lastErr
  have := errField_lt st.firstErr
  rw [status_word_toNat]
  omega

theorem status_word_firstErr (st : Status) : st.word.toNat / 2 ^ 8 % 2 ^ 8 = errField st.firstErr := by
  have := errField_lt st.lastErr
  have := errField_lt st.firstErr
  rw [status_word_toNat]
  omega

/-- STATUS above its error fields. -/
theorem status_word_flags (st : Status) : st.word.toNat / 2 ^ 16 = st.errSeen.toNat + 2 * st.skipSeen.toNat := by
  have := errField_lt st.lastErr
  have := errField_lt st.firstErr
  rw [status_word_toNat]
  omega

/-- A bit of STATUS from bit 16 on. -/
theorem status_word_getLsbD (st : Status) (b : Nat) :
    st.word.getLsbD (16 + b) = (st.errSeen.toNat + 2 * st.skipSeen.toNat).testBit b := by
  rw [← status_word_flags, Nat.testBit_div_two_pow, Nat.add_comm]
  rfl

/-- W_STATUS as a number. -/
theorem writer_statusWord_toNat {w : Writer} (hfree : w.free ≤ 64) :
    w.statusWord.toNat = w.mode.code + w.free * 2 ^ 8 := by
  have hcode : w.mode.code ≤ 2 := by cases w.mode <;> decide
  rw [Writer.statusWord, BitVec.toNat_ofNat, Nat.mod_eq_of_lt (by omega)]

/-- A count that fits 64 bits is read as it is. -/
theorem toReg_toNat_of_lt (src : WideSource) {n : Nat} (h : n < 2 ^ 64) : (toReg src n).toNat = n := by
  rw [toReg_of_lt src h, BitVec.toNat_ofNat, Nat.mod_eq_of_lt h]

/-- The errors with their numbers, as 60_exceptions.md R290 lists them. -/
theorem errField_listed : ∀ x ∈ [(none, 0), (some ErrorKind.modelConstruction, 1), (some .encoding, 2),
    (some .decoding, 3), (some .bitWidth, 4), (some .writerClosed, 5), (some .inputEmpty, 6), (some .capacity, 7),
    (some .readOverrun, 8), (some .stateError, 9), (some .countOverflow, 10), (some .codeTooLong, 11),
    (some .resource, 12), (some .illegalCommand, 13), (some .address, 14), (some .overlap, 15)],
    errField x.1 = x.2 := by decide

/-- The writer's states with their numbers, as 10_state.md R38 lists them. -/
theorem mode_code_listed : ∀ x ∈ [(WriterMode.idle, 0), (.opened, 1), (.closed, 2)], x.1.code = x.2 := by decide

/-- Settles O8: the fields of STATUS by `status_word_lastErr`, `status_word_firstErr` and `status_word_getLsbD`,
W_STATUS by `writer_statusWord_toNat`, the counts by `toReg_toNat_of_lt`. -/
theorem registerMapShowsTheState : Obligations.RegisterMapShowsTheState := by
  intro s
  have hflags (b : Nat) : (s.readReg 0x40).getLsbD (16 + b) = _ := status_word_getLsbD s.status b
  refine ⟨rfl, rfl, rfl, rfl, rfl, rfl, rfl, fun x hx => ⟨?_, ?_⟩, ?_, ?_, ?_, rfl, ?_, ?_, rfl, rfl, ?_, ?_, rfl, rfl,
    rfl⟩
  · rintro hlast
    rw [← errField_listed x hx, ← hlast]
    exact status_word_lastErr s.status
  · rintro hfirst
    rw [← errField_listed x hx, ← hfirst]
    exact status_word_firstErr s.status
  · rw [hflags 0]
    cases s.status.errSeen <;> cases s.status.skipSeen <;> rfl
  · rw [hflags 1]
    cases s.status.errSeen <;> cases s.status.skipSeen <;> rfl
  · intro b hb
    obtain ⟨c, rfl⟩ := Nat.exists_eq_add_of_le hb
    rw [show 18 + c = 16 + (2 + c) by omega, hflags]
    refine Nat.testBit_lt_two_pow (lt_of_lt_of_le ?_ (Nat.pow_le_pow_right two_pos (Nat.le_add_right 2 c)))
    have := s.status.errSeen.toNat_le
    have := s.status.skipSeen.toNat_le
    omega
  · intro x hx hmode hfree
    rw [← mode_code_listed x hx, ← hmode]
    exact writer_statusWord_toNat hfree
  · exact toReg_toNat_of_lt .writerTotal
  · show (BitVec.ofNat 64 s.reader.isOpen.toNat).toNat = _
    cases s.reader.isOpen <;> rfl
  · exact toReg_toNat_of_lt .readerPos

/-! ### Accesses that do nothing -/

/-- An offset past the operand registers is no register that a write sets. -/
theorem writeReg_of_readOnly {off : Nat} (hoff : 0x28 ≤ off) (v : Word) (s : State) : writeReg off v s = .next s := by
  unfold writeReg
  split
  case h_6 => rfl
  all_goals omega

/-- An offset past PARAM is reserved and reads 0. -/
theorem readReg_of_reserved {off : Nat} (hoff : 0x98 ≤ off) (s : State) : s.readReg off = 0 := by
  unfold State.readReg
  split
  case h_19 => rfl
  all_goals omega

theorem regAccessOk_iff {bytes off : Nat} : regAccessOk bytes off = true ↔ bytes = 8 ∧ off % 8 = 0 ∧ off < 256 :=
  decide_eq_true_iff

/-- The step of a state whose next action is known. -/
theorem step_of_host {s : State} {a : HostAction} {rest : List HostAction} (h : s.host = a :: rest) :
    step s = hostAction a (s.withHost rest) := by
  unfold step
  rw [h]

/-- Settles O9: `regAccessOk` decides which accesses the window has, and past OP3 a write sets nothing. -/
theorem otherRegisterAccessesDoNothingOrAreRefused : Obligations.OtherRegisterAccessesDoNothingOrAreRefused := by
  intro s bytes off v rest
  refine ⟨fun hbad => ⟨fun hhost => ?_, fun hhost => ?_⟩, fun hal hlow hhigh hhost => ?_,
    fun hal hlow hhigh hhost => ?_⟩
  · rw [step_of_host hhost, hostAction, if_neg (mt regAccessOk_iff.mp hbad)]
  · rw [step_of_host hhost, hostAction, if_neg (mt regAccessOk_iff.mp hbad)]
  · rw [step_of_host hhost, hostAction, if_pos (regAccessOk_iff.mpr ⟨rfl, hal, hhigh⟩), writeReg_of_readOnly hlow]
    rfl
  · rw [step_of_host hhost, hostAction, if_pos (regAccessOk_iff.mpr ⟨rfl, hal, hhigh⟩), readReg_of_reserved hlow]
    rfl

end Sys2Proof.Machine

/-! PROOF. The builder slots over every step (10_state.md R49; 42_context_builder.md R171, R174, R188): O59. -/

namespace Sys2Proof.Machine

/-! ### Canonical maps by what they hold at each key -/

section Maps
variable {κ ν : Type} [DecidableEq κ]

/-- A listed key has a value. -/
theorem mapGet_ne_none_of_mem {x : κ × ν} {m : List (κ × ν)} (h : x ∈ m) : mapGet x.1 m ≠ none := by
  induction m with
  | nil => exact nomatch h
  | cons y m ih =>
    rw [mapGet_cons]
    split
    · exact nofun
    · rename_i hne
      obtain rfl | h := List.mem_cons.mp h
      · exact absurd rfl hne
      · exact ih h

/-- The first key of a canonical map stands nowhere else in it. -/
theorem mapGet_tail_head {lt : κ → κ → Bool} (hlt : KeyOrder lt) {k : κ} {v : ν} {m : List (κ × ν)}
    (h : mapSorted lt ((k, v) :: m) = true) : mapGet k m = none := by
  refine Option.eq_none_iff_forall_ne_some.mpr fun w hw => ?_
  have hkk : lt k k = true := mapSorted_head hlt h _ (mem_of_mapGet hw)
  exact absurd (hlt.irrefl k) (by simp [hkk])

/-- What holds of every entry of a canonical map holds at every key with a value, and the other way. -/
theorem forall_mem_iff_mapGet {lt : κ → κ → Bool} (hlt : KeyOrder lt) {m : List (κ × ν)} (hm : mapSorted lt m = true)
    (d : ν) {Q : κ → ν → Prop} :
    (∀ x ∈ m, Q x.1 x.2) ↔ ∀ k, mapGet k m ≠ none → Q k ((mapGet k m).getD d) := by
  constructor
  · intro h k hk
    obtain ⟨v, hv⟩ := Option.ne_none_iff_exists'.mp hk
    rw [hv]
    exact h (k, v) (mem_of_mapGet hv)
  · intro h x hx
    have hq := h x.1 (mapGet_ne_none_of_mem hx)
    rwa [mapGet_of_mem hlt hm hx] at hq

end Maps

/-- Every byte. -/
def allBytes : Finset Byte := (Finset.range 256).image (BitVec.ofNat 8)

theorem mem_allBytes (b : Byte) : b ∈ allBytes :=
  Finset.mem_image.mpr ⟨b.toNat, Finset.mem_range.mpr b.isLt, by simp⟩

/-- A sum over the entries of a canonical map whose keys are those of the bytes, as a sum over all bytes. -/
theorem sum_entries_eq_sum_allBytes {κ ν : Type} [DecidableEq κ] {lt : κ → κ → Bool} (hlt : KeyOrder lt)
    {key : Byte → κ} (hkey : Function.Injective key) {isKey : κ → Bool} (hisKey : ∀ k, isKey k = true ↔ ∃ b, key b = k)
    (g : ν → Nat) {m : List (κ × ν)} (hm : mapSorted lt m = true) :
    ((m.filter fun x => isKey x.1).map fun x => g x.2).sum = ∑ b ∈ allBytes, (mapGet (key b) m).elim 0 g := by
  induction m with
  | nil => simp
  | cons x m ih =>
    have hm' := ih (mapSorted_tail hm)
    cases hx : isKey x.1 with
    | false =>
      have hne : ∀ b, key b ≠ x.1 := fun b hb => absurd ((hisKey _).mpr ⟨b, hb⟩) (by simp [hx])
      simpa [hx, mapGet_cons, hne] using hm'
    | true =>
      obtain ⟨c, hc⟩ := (hisKey _).mp hx
      have hsplit : ∀ b, (mapGet (key b) (x :: m)).elim 0 g
          = (if b = c then g x.2 else 0) + (mapGet (key b) m).elim 0 g := by
        intro b
        rw [mapGet_cons, ← hc]
        by_cases hb : b = c
        · subst hb
          have hnone : mapGet (key b) m = none := hc ▸ mapGet_tail_head hlt hm
          simp [hnone]
        · simp [hb, hkey.ne hb]
      simp only [hsplit, Finset.sum_add_distrib, Finset.sum_ite_eq', mem_allBytes, if_true]
      simp [hx, hm']

/-- Σ FLAT, byte by byte. -/
theorem flatSum_eq {f : Flat} (hf : mapSorted byteLt f = true) :
    flatSum f = ∑ b ∈ allBytes, (flatCount f b).toNat := by
  have h := sum_entries_eq_sum_allBytes byteLt_order (key := id) Function.injective_id (isKey := fun _ => true)
    (fun k => ⟨fun _ => ⟨k, rfl⟩, fun _ => rfl⟩) BitVec.toNat hf
  rw [List.filter_true] at h
  rw [flatSum, h]
  refine Finset.sum_congr rfl fun b _ => ?_
  rw [flatCount, id]
  cases mapGet b f <;> rfl

/-- Σ PASS of depth 1, byte by byte. -/
theorem depthOnePass_eq {t : Trie} (ht : mapSorted seqLt t = true) :
    depthOnePass t = ∑ b ∈ allBytes, (nodeCounts t [b]).pass.toNat := by
  have h := sum_entries_eq_sum_allBytes seqLt_order (key := fun b => [b]) (fun _ _ h => List.head_eq_of_cons_eq h)
    (isKey := fun p => p.length == 1) (fun p => by
      rw [beq_iff_eq, List.length_eq_one_iff]
      exact exists_congr fun _ => eq_comm)
    (fun c : NodeCounts => c.pass.toNat) ht
  rw [depthOnePass, h]
  refine Finset.sum_congr rfl fun b _ => ?_
  rw [nodeCounts]
  cases mapGet [b] t <;> rfl

/-! ### What the invariant asks of the counts -/

/-- A leaf is a node without a one-byte extension. -/
theorem isLeaf_iff (t : Trie) (p : List Byte) : isLeaf t p = true ↔ ∀ b, mapGet (p ++ [b]) t = none := by
  simp only [isLeaf, List.all_eq_true, Bool.not_eq_true', Bool.and_eq_false_iff, beq_eq_false_iff_ne]
  constructor
  · intro h b
    refine Option.eq_none_iff_forall_ne_some.mpr fun c hc => ?_
    obtain hlen | hpre := h _ (mem_of_mapGet hc)
    · exact hlen (by simp)
    · exact absurd (List.isPrefixOf_iff_prefix.mpr (List.prefix_append p [b])) (by simp [hpre])
  · intro h x hx
    by_contra hno
    obtain ⟨hlen, hpre⟩ := not_or.mp hno
    obtain ⟨r, hr⟩ := List.isPrefixOf_iff_prefix.mp (Bool.not_eq_false _ ▸ hpre)
    obtain ⟨b, rfl⟩ : ∃ b, r = [b] := by
      rw [← List.length_eq_one_iff]
      have := congrArg List.length hr
      rw [List.length_append] at this
      have := not_not.mp hlen
      omega
    exact mapGet_ne_none_of_mem hx (hr ▸ h b)

/-- What holds of every node of a canonical trie holds of the counts at every node, and the other way. -/
theorem forall_node_iff {t : Trie} (ht : mapSorted seqLt t = true) (Q : List Byte → NodeCounts → Prop) :
    (∀ x ∈ t, Q x.1 x.2) ↔ ∀ p, mapGet p t ≠ none → Q p (nodeCounts t p) :=
  forall_mem_iff_mapGet seqLt_order ht ⟨0, 0⟩

/-- A node within ORDER and A that has been passed. -/
abbrev nodeFits (o : Order) (p : List Byte) (c : NodeCounts) : Prop :=
  p ≠ [] ∧ p.length ≤ o.toNat ∧ allInAlphabet p ∧ 1 ≤ c.pass.toNat

/-- FLAT in canonical form, of bytes of A with nonzero counts (10_state.md R49; log 14). -/
abbrev FlatOk (f : Flat) : Prop := mapSorted byteLt f = true ∧ ∀ x ∈ f, alphabetic x.1.toNat ∧ x.2 ≠ 0

/-- What `Builder.Ok` asks of FLAT and TRIE, by what they hold at each key. -/
structure CountsOk (cap : Nat) (o : Order) (f : Flat) (t : Trie) : Prop where
  flat : FlatOk f
  sorted : mapSorted seqLt t = true
  fits : t.length ≤ cap
  node : ∀ p, mapGet p t ≠ none → nodeFits o p (nodeCounts t p)
  parent : ∀ p, mapGet p t ≠ none → p.dropLast ≠ [] → mapGet p.dropLast t ≠ none
  leaf : ∀ p, mapGet p t ≠ none → (∀ b, mapGet (p ++ [b]) t = none) → 1 ≤ (nodeCounts t p).exact.toNat
  sum : ∑ b ∈ allBytes, (flatCount f b).toNat = ∑ b ∈ allBytes, (nodeCounts t [b]).pass.toNat

/-- A slot in use that meets its invariant. -/
abbrev Builder.ActiveOk (cap : Nat) (bd : Builder) : Prop := bd.mode = .active ∧ bd.Ok cap

/-- The invariant of a slot in use: its window and its counts. -/
theorem activeOk_iff {cap : Nat} {bd : Builder} :
    bd.ActiveOk cap ↔ bd.mode = .active ∧ bd.win.length ≤ bd.order.toNat ∧ allInAlphabet bd.win ∧
      CountsOk cap bd.order bd.flat bd.trie := by
  constructor
  · rintro ⟨hactive, hwin, halpha, hsorted, hfits, hnode, hparent, hleaf, hflat, hentry, hsum, -⟩
    have at_key := forall_node_iff hsorted
    rw [flatSum_eq hflat, depthOnePass_eq hsorted] at hsum
    simp only [isLeaf_iff] at hleaf
    exact ⟨hactive, hwin, halpha, ⟨hflat, hentry⟩, hsorted, hfits, (at_key (nodeFits bd.order)).mp hnode,
      (at_key fun p _ => p.dropLast ≠ [] → mapGet p.dropLast bd.trie ≠ none).mp hparent,
      (at_key fun p c => (∀ b, mapGet (p ++ [b]) bd.trie = none) → 1 ≤ c.exact.toNat).mp hleaf, hsum⟩
  · rintro ⟨hactive, hwin, halpha, ⟨hflat, hentry⟩, hsorted, hfits, hnode, hparent, hleaf, hsum⟩
    have at_key := forall_node_iff hsorted
    rw [← flatSum_eq hflat, ← depthOnePass_eq hsorted] at hsum
    simp only [← isLeaf_iff] at hleaf
    exact ⟨hactive, hwin, halpha, hsorted, hfits, (at_key (nodeFits bd.order)).mpr hnode,
      (at_key fun p _ => p.dropLast ≠ [] → mapGet p.dropLast bd.trie ≠ none).mpr hparent,
      (at_key fun p c => isLeaf bd.trie p = true → 1 ≤ c.exact.toNat).mpr hleaf, hflat, hentry, hsum,
      fun hne => absurd hactive hne⟩

/-- A skip keeps the invariant of a slot in use. -/
theorem withSkips_activeOk {cap : Nat} {bd : Builder} (h : bd.ActiveOk cap) (n : Word) :
    ({ bd with skips := n } : Builder).ActiveOk cap := by
  obtain ⟨hactive, hwin, halpha, hcounts⟩ := activeOk_iff.mp h
  exact activeOk_iff.mpr ⟨hactive, hwin, halpha, hcounts⟩

/-- A line boundary keeps the invariant of a slot in use. -/
theorem withLines_activeOk {cap : Nat} {bd : Builder} (h : bd.ActiveOk cap) (n : Word) :
    ({ bd with win := [], lines := n } : Builder).ActiveOk cap := by
  obtain ⟨hactive, -, -, hcounts⟩ := activeOk_iff.mp h
  exact activeOk_iff.mpr ⟨hactive, Nat.zero_le _, List.forall_mem_nil _, hcounts⟩

/-! ### An accepted byte -/

/-- Counting a byte of A keeps FLAT canonical. -/
theorem bumpFlat_flatOk {f f' : Flat} {b : Byte} {n : Word} (hf : FlatOk f) (hb : alphabetic b.toNat) (hn : n ≠ 0)
    (h : bumpFlat f b n = .ok f') : FlatOk f' := by
  obtain ⟨c, hc, h⟩ := bind_eq_ok.mp h
  obtain rfl := Except.ok.inj h
  refine ⟨mapSorted_mapPut byteLt_order b c hf.1, fun x hx => ?_⟩
  obtain rfl | hx := mem_mapPut byteLt b c f hx
  · refine ⟨hb, fun hc0 => hn (BitVec.eq_of_toNat_eq ?_)⟩
    rw [addCount_eq_ok, show c = 0 from hc0] at hc
    exact (Nat.add_eq_zero_iff.mp hc.symm).2
  · exact hf.2 x hx

/-- A walk keeps the trie canonical and within TRIE_CAP. -/
theorem walkTrie_canonical {cap : Nat} {ps : List (List Byte)} {t t' : Trie} (ht : mapSorted seqLt t = true)
    (hcap : t.length ≤ cap) (h : walkTrie cap ps t = .ok t') : mapSorted seqLt t' = true ∧ t'.length ≤ cap := by
  induction ps generalizing t with
  | nil => obtain rfl := Except.ok.inj h; exact ⟨ht, hcap⟩
  | cons p ps ih =>
    obtain ⟨_, hroom, h⟩ := bind_eq_ok.mp h
    obtain ⟨v, -, h⟩ := bind_eq_ok.mp h
    rw [check_eq_ok] at hroom
    exact ih (mapSorted_mapPut seqLt_order _ _ ht) (length_mapPut_le ht hcap hroom _) h

/-- Counting the end of the window at a node that is there keeps the trie canonical and its size. -/
theorem bumpExact_canonical {t t' : Trie} {p : List Byte} (ht : mapSorted seqLt t = true) (hp : mapGet p t ≠ none)
    (h : bumpExact t p = .ok t') : mapSorted seqLt t' = true ∧ t'.length = t.length := by
  obtain ⟨v, -, h⟩ := bind_eq_ok.mp h
  obtain rfl := Except.ok.inj h
  refine ⟨mapSorted_mapPut seqLt_order _ _ ht, ?_⟩
  rw [length_mapPut_of_sorted seqLt_order _ _ ht, if_neg hp, Nat.add_zero]

/-- An accepted byte keeps both maps canonical and the trie within TRIE_CAP. -/
theorem acceptByte_canonical {cap : Nat} {bd bd' : Builder} {b : Byte} (hwin : bd.win.length ≤ bd.order.toNat)
    (hcounts : CountsOk cap bd.order bd.flat bd.trie) (hb : alphabetic b.toNat) (h : acceptByte cap bd b = .ok bd') :
    FlatOk bd'.flat ∧ mapSorted seqLt bd'.trie = true ∧ bd'.trie.length ≤ cap := by
  obtain ⟨flat, hflat, h⟩ := bind_eq_ok.mp h
  rw [slideWindow_eq hwin] at h
  obtain ⟨walked, hwalk, h⟩ := bind_eq_ok.mp h
  obtain ⟨trie, hexact, h⟩ := bind_eq_ok.mp h
  obtain rfl := Except.ok.inj h
  obtain ⟨hsorted, hfits⟩ := walkTrie_canonical hcounts.sorted hcounts.fits hwalk
  have hthere : mapGet (bd.slid b) walked ≠ none :=
    (walkTrie_ok (windowPaths_nodup _) hwalk _).2.2.mpr (.inr (mem_windowPaths.mpr
      ⟨slid_ne_nil bd b, List.isPrefixOf_iff_prefix.mpr List.prefix_rfl⟩))
  obtain ⟨hsorted', hlen⟩ := bumpExact_canonical hsorted hthere hexact
  exact ⟨bumpFlat_flatOk hcounts.flat hb (by decide) hflat, hsorted', hlen ▸ hfits⟩

/-- The new window holds bytes of A. -/
theorem slid_allInAlphabet {bd : Builder} {b : Byte} (hwin : allInAlphabet bd.win) (hb : alphabetic b.toNat) :
    allInAlphabet (bd.slid b) := by
  intro c hc
  obtain hc | hc := List.mem_append.mp (List.mem_of_mem_drop hc)
  · exact hwin c hc
  · rwa [List.mem_singleton.mp hc]

/-- An initial part of the window that is not all of it goes on by a byte. -/
theorem prefix_extends {α : Type} {p w : List α} (h : p <+: w) (hne : p ≠ w) : ∃ b, p ++ [b] <+: w := by
  obtain ⟨r, rfl⟩ := h
  cases r with
  | nil => exact absurd (List.append_nil p).symm hne
  | cons b r => exact ⟨b, r, by simp⟩

/-- An accepted byte adds one to the passes of depth 1: those of the window's first byte. -/
theorem accepts_depthOne {bd bd' : Builder} {b : Byte} (h : bd.Accepts b bd') :
    ∑ c ∈ allBytes, (nodeCounts bd'.trie [c]).pass.toNat = ∑ c ∈ allBytes, (nodeCounts bd.trie [c]).pass.toNat + 1 := by
  obtain ⟨-, -, hpass, -⟩ := h
  obtain ⟨a, r, hw⟩ := List.exists_cons_of_ne_nil (slid_ne_nil bd b)
  have hone : ∀ c, (nodeCounts bd'.trie [c]).pass.toNat
      = (nodeCounts bd.trie [c]).pass.toNat + if c = a then 1 else 0 := by
    intro c
    rw [hpass, hw]
    simp [List.isPrefixOf]
  simp only [hone, Finset.sum_add_distrib, Finset.sum_ite_eq', mem_allBytes, if_true]

/-- An accepted byte adds one to FLAT. -/
theorem accepts_flat {bd bd' : Builder} {b : Byte} (h : bd.Accepts b bd') :
    ∑ c ∈ allBytes, (flatCount bd'.flat c).toNat = ∑ c ∈ allBytes, (flatCount bd.flat c).toNat + 1 := by
  obtain ⟨-, hflat, -⟩ := h
  simp only [hflat, Finset.sum_add_distrib, Finset.sum_ite_eq', mem_allBytes, if_true]

/-- An accepted byte of A keeps what the invariant asks of the counts. -/
theorem acceptByte_countsOk {cap : Nat} {bd bd' : Builder} {b : Byte} (hwin : bd.win.length ≤ bd.order.toNat)
    (halpha : allInAlphabet bd.win) (hcounts : CountsOk cap bd.order bd.flat bd.trie) (hb : alphabetic b.toNat)
    (h : acceptByte cap bd b = .ok bd') : CountsOk cap bd.order bd'.flat bd'.trie := by
  have haccepts := acceptByte_accepts hwin h
  obtain ⟨hflat, hsorted, hfits⟩ := acceptByte_canonical hwin hcounts hb h
  have ⟨_, _, hpass, hexact, hkeys⟩ := haccepts
  simp only [List.isPrefixOf_iff_prefix] at hpass hkeys
  refine ⟨hflat, hsorted, hfits, fun p hp => ?_, fun p hp hne => ?_, fun p hp hleaf => ?_, ?_⟩
  · rw [nodeFits, hpass]
    obtain hold | ⟨hne, hpre⟩ := (hkeys p).mp hp
    · obtain ⟨hne, hlen, hin, hpos⟩ := hcounts.node p hold
      exact ⟨hne, hlen, hin, Nat.le_add_right_of_le hpos⟩
    · rw [if_pos ⟨hne, hpre⟩]
      exact ⟨hne, hpre.length_le.trans (slid_length_le bd b),
        fun c hc => slid_allInAlphabet halpha hb c (hpre.subset hc), Nat.le_add_left _ _⟩
  · obtain hold | ⟨-, hpre⟩ := (hkeys p).mp hp
    · exact (hkeys _).mpr (.inl (hcounts.parent p hold hne))
    · exact (hkeys _).mpr (.inr ⟨hne, (List.dropLast_prefix p).trans hpre⟩)
  · rw [hexact]
    by_cases hw : p = bd.slid b
    · rw [if_pos hw]
      exact Nat.le_add_left _ _
    have hnopre : ¬p <+: bd.slid b := by
      intro hpre
      obtain ⟨c, hc⟩ := prefix_extends hpre hw
      exact (hkeys (p ++ [c])).mpr (.inr ⟨by simp, hc⟩) (hleaf c)
    have hold : mapGet p bd.trie ≠ none := ((hkeys p).mp hp).resolve_right fun hpre => hnopre hpre.2
    refine Nat.le_add_right_of_le (hcounts.leaf p hold fun c => ?_)
    by_contra hc
    exact (hkeys (p ++ [c])).mpr (.inl hc) (hleaf c)
  · rw [accepts_flat haccepts, accepts_depthOne haccepts, hcounts.sum]

/-- An accepted byte of A keeps the invariant of a slot in use. -/
theorem acceptByte_activeOk {cap : Nat} {bd bd' : Builder} {b : Byte} (hbd : bd.ActiveOk cap) (hb : alphabetic b.toNat)
    (h : acceptByte cap bd b = .ok bd') : bd'.ActiveOk cap := by
  obtain ⟨hactive, hwin, halpha, hcounts⟩ := activeOk_iff.mp hbd
  have hcounts' := acceptByte_countsOk hwin halpha hcounts hb h
  obtain ⟨hfields, -⟩ := acceptByte_accepts hwin h
  rw [hfields]
  exact activeOk_iff.mpr ⟨hactive, slid_length_le bd b, slid_allInAlphabet halpha hb, hcounts'⟩

/-! ### Scans -/

/-- A scan of one value keeps the invariant of a slot in use. -/
theorem scanOne_activeOk {cap : Nat} {bd : Builder} {v : Word} {x : Builder × Bool} (hbd : bd.ActiveOk cap)
    (h : scanOne cap bd v = .ok x) : x.1.ActiveOk cap := by
  unfold scanOne at h
  split at h
  · rename_i hv
    rw [inAlphabet_iff] at hv
    obtain ⟨bd', hbd', h⟩ := bind_eq_ok.mp h
    obtain rfl := Except.ok.inj h
    have hbyte : (BitVec.ofNat 8 v.toNat).toNat = v.toNat := by
      rw [BitVec.toNat_ofNat, Nat.mod_eq_of_lt (by omega)]
    exact acceptByte_activeOk hbd (by rwa [hbyte]) hbd'
  · obtain ⟨bd', hbd', h⟩ := bind_eq_ok.mp h
    obtain ⟨n, -, hbd'⟩ := bind_eq_ok.mp hbd'
    obtain rfl := Except.ok.inj h
    obtain rfl := Except.ok.inj hbd'
    exact withSkips_activeOk hbd n

theorem scanBytes_activeOk {cap : Nat} {bs : List Byte} {r r' : ScanResult} (hr : r.builder.ActiveOk cap)
    (h : scanBytes cap bs r = .ok r') : r'.builder.ActiveOk cap := by
  induction bs generalizing r with
  | nil => obtain rfl := Except.ok.inj h; exact hr
  | cons b bs ih =>
    obtain ⟨x, hx, h⟩ := bind_eq_ok.mp h
    exact ih (scanOne_activeOk hr hx) h

theorem scanRegion_activeOk {s : State} {bd : Builder} {r : ScanResult} (hbd : bd.ActiveOk s.params.trieCap)
    (h : s.scanRegion bd = .ok r) : r.builder.ActiveOk s.params.trieCap := by
  obtain ⟨-, -, h⟩ := bind_eq_ok.mp h
  exact scanBytes_activeOk hbd h

theorem markLine_activeOk {cap : Nat} {bd bd' : Builder} (hbd : bd.ActiveOk cap) (h : markLine bd = .ok bd') :
    bd'.ActiveOk cap := by
  obtain ⟨n, -, h⟩ := bind_eq_ok.mp h
  obtain rfl := Except.ok.inj h
  exact withLines_activeOk hbd n

/-! ### Merging -/

/-- Merged FLAT: canonical, each count the sum of the two. -/
theorem mergeFlat_ok {src dst f' : Flat} (hsrc : FlatOk src) (hdst : FlatOk dst) (h : mergeFlat src dst = .ok f') :
    FlatOk f' ∧ ∀ c, (flatCount f' c).toNat = (flatCount dst c).toNat + (flatCount src c).toNat := by
  induction src generalizing dst with
  | nil => obtain rfl := Except.ok.inj h; exact ⟨hdst, fun c => rfl⟩
  | cons x src ih =>
    obtain ⟨dst', hbump, h⟩ := bind_eq_ok.mp h
    obtain ⟨halpha, hne⟩ := hsrc.2 x List.mem_cons_self
    obtain ⟨hok, hcount⟩ := ih ⟨mapSorted_tail hsrc.1, fun y hy => hsrc.2 y (List.mem_cons_of_mem x hy)⟩
      (bumpFlat_flatOk hdst halpha hne hbump) h
    refine ⟨hok, fun c => ?_⟩
    rw [hcount, bumpFlat_ok hbump]
    have hx : flatCount src x.1 = 0 := by rw [flatCount, mapGet_tail_head byteLt_order hsrc.1]; rfl
    have hcons : flatCount (x :: src) c = if c = x.1 then x.2 else flatCount src c := by
      rw [flatCount, mapGet_cons]
      split <;> rfl
    rw [hcons]
    split
    · rename_i hc
      rw [hc, hx]
      rfl
    · rfl

/-- Merging a node puts the sum of its counts into the destination, a node it lacks counting 0. -/
theorem mergeNodes_cons_ok {x : List Byte × NodeCounts} {src dst t' : Trie} (h : mergeNodes (x :: src) dst = .ok t') :
    ∃ v : NodeCounts, v.pass.toNat = (nodeCounts dst x.1).pass.toNat + x.2.pass.toNat ∧
      v.exact.toNat = (nodeCounts dst x.1).exact.toNat + x.2.exact.toNat ∧
      mergeNodes src (mapPut seqLt x.1 v dst) = .ok t' := by
  unfold mergeNodes at h
  split at h
  · rename_i d hd
    simp only [addNode, bind_eq_ok, addCount_eq_ok, Except.ok.injEq] at h
    obtain ⟨v, ⟨p, hp, e, he, rfl⟩, h⟩ := h
    rw [nodeCounts, hd]
    exact ⟨_, hp, he, h⟩
  · rename_i hd
    rw [nodeCounts, hd]
    exact ⟨x.2, (Nat.zero_add _).symm, (Nat.zero_add _).symm, h⟩

/-- The counts of the nodes of a trie with its first node. -/
theorem nodeCounts_cons (x : List Byte × NodeCounts) (t : Trie) (p : List Byte) :
    nodeCounts (x :: t) p = if p = x.1 then x.2 else nodeCounts t p := by
  rw [nodeCounts, mapGet_cons]
  split <;> rfl

/-- Merged TRIE: canonical, with the nodes of both, each count the sum of the two. -/
theorem mergeNodes_ok {src dst t' : Trie} (hsrc : mapSorted seqLt src = true) (hdst : mapSorted seqLt dst = true)
    (h : mergeNodes src dst = .ok t') :
    mapSorted seqLt t' = true ∧ (∀ p, mapGet p t' ≠ none ↔ mapGet p dst ≠ none ∨ mapGet p src ≠ none) ∧
      (∀ p, (nodeCounts t' p).pass.toNat = (nodeCounts dst p).pass.toNat + (nodeCounts src p).pass.toNat) ∧
      ∀ p, (nodeCounts t' p).exact.toNat = (nodeCounts dst p).exact.toNat + (nodeCounts src p).exact.toNat := by
  induction src generalizing dst with
  | nil =>
    obtain rfl := Except.ok.inj h
    exact ⟨hdst, fun p => by simp, fun p => rfl, fun p => rfl⟩
  | cons x src ih =>
    obtain ⟨v, hpass, hexact, h⟩ := mergeNodes_cons_ok h
    obtain ⟨hsorted, hkeys, hpass', hexact'⟩ := ih (mapSorted_tail hsrc) (mapSorted_mapPut seqLt_order _ _ hdst) h
    have hx : nodeCounts src x.1 = ⟨0, 0⟩ := nodeCounts_of_missing (mapGet_tail_head seqLt_order hsrc)
    refine ⟨hsorted, fun p => ?_, fun p => ?_, fun p => ?_⟩
    · rw [hkeys, mapGet_mapPut, mapGet_cons]
      split <;> simp
    · rw [hpass', nodeCounts_mapPut, nodeCounts_cons]
      split
      · rename_i hp
        rw [hp, hx, hpass]
        rfl
      · rfl
    · rw [hexact', nodeCounts_mapPut, nodeCounts_cons]
      split
      · rename_i hp
        rw [hp, hx, hexact]
        rfl
      · rfl

/-- The merged trie has the destination's nodes and those it lacked. -/
theorem mergeNodes_length {src dst t' : Trie} (hsrc : mapSorted seqLt src = true) (hdst : mapSorted seqLt dst = true)
    (h : mergeNodes src dst = .ok t') : t'.length = dst.length + (newNodes src dst).length := by
  induction src generalizing dst with
  | nil => obtain rfl := Except.ok.inj h; rfl
  | cons x src ih =>
    obtain ⟨v, -, -, h⟩ := mergeNodes_cons_ok h
    have hx : mapGet x.1 src = none := mapGet_tail_head seqLt_order hsrc
    have hnew : newNodes src (mapPut seqLt x.1 v dst) = newNodes src dst := by
      refine List.filter_congr fun y hy => ?_
      have hne : y.1 ≠ x.1 := fun he => mapGet_ne_none_of_mem hy (he ▸ hx)
      rw [mapGet_mapPut_other seqLt hne]
    rw [ih (mapSorted_tail hsrc) (mapSorted_mapPut seqLt_order _ _ hdst) h, hnew,
      length_mapPut_of_sorted seqLt_order _ _ hdst]
    cases hd : mapGet x.1 dst <;> simp [newNodes, hd]
    omega

/-- A merge of tries that succeeds stays within TRIE_CAP. -/
theorem mergeTrie_ok {cap : Nat} {src dst t' : Trie} (hsrc : mapSorted seqLt src = true)
    (hdst : mapSorted seqLt dst = true) (hcap : dst.length ≤ cap) (h : mergeTrie cap src dst = .ok t') :
    mergeNodes src dst = .ok t' ∧ t'.length ≤ cap := by
  unfold mergeTrie at h
  split at h
  · split at h
    · exact nomatch h
    · split at h <;> exact nomatch h
  · rename_i hfits
    refine ⟨h, ?_⟩
    rw [mergeNodes_length hsrc hdst h]
    by_cases hnew : newNodes src dst = []
    · rw [hnew]
      exact hcap
    · exact Nat.le_of_not_lt fun hover => hfits ⟨hnew, hover⟩

/-- The merge of two counts of one order keeps what the invariant asks of them. -/
theorem merge_countsOk {cap : Nat} {o : Order} {f g f' : Flat} {t u t' : Trie} (hdst : CountsOk cap o f t)
    (hsrc : CountsOk cap o g u) (hflat : mergeFlat g f = .ok f') (htrie : mergeTrie cap u t = .ok t') :
    CountsOk cap o f' t' := by
  obtain ⟨hflatOk, hcount⟩ := mergeFlat_ok hsrc.flat hdst.flat hflat
  obtain ⟨hnodes, hfits⟩ := mergeTrie_ok hsrc.sorted hdst.sorted hdst.fits htrie
  obtain ⟨hsorted, hkeys, hpass, hexact⟩ := mergeNodes_ok hsrc.sorted hdst.sorted hnodes
  refine ⟨hflatOk, hsorted, hfits, fun p hp => ?_, fun p hp hne => ?_, fun p hp hleaf => ?_, ?_⟩
  · rw [nodeFits, hpass]
    obtain hp | hp := (hkeys p).mp hp
    · obtain ⟨hne, hlen, hin, hpos⟩ := hdst.node p hp
      exact ⟨hne, hlen, hin, Nat.le_add_right_of_le hpos⟩
    · obtain ⟨hne, hlen, hin, hpos⟩ := hsrc.node p hp
      exact ⟨hne, hlen, hin, Nat.le_add_left_of_le hpos⟩
  · exact (hkeys _).mpr (((hkeys p).mp hp).imp (hdst.parent p · hne) (hsrc.parent p · hne))
  · have hnone : ∀ b, mapGet (p ++ [b]) t = none ∧ mapGet (p ++ [b]) u = none := by
      intro b
      have hno := mt (hkeys (p ++ [b])).mpr (not_not.mpr (hleaf b))
      exact (not_or.mp hno).imp not_not.mp not_not.mp
    rw [hexact]
    obtain hp | hp := (hkeys p).mp hp
    · exact Nat.le_add_right_of_le (hdst.leaf p hp fun b => (hnone b).1)
    · exact Nat.le_add_left_of_le (hsrc.leaf p hp fun b => (hnone b).2)
  · simp only [hcount, hpass, Finset.sum_add_distrib, hdst.sum, hsrc.sum]

/-- A merge into a slot in use keeps its invariant. -/
theorem mergeBuilders_activeOk {cap : Nat} {d r d' : Builder} (hd : d.ActiveOk cap) (hr : r.ActiveOk cap)
    (horder : d.order = r.order) (h : mergeBuilders cap d r = .ok d') : d'.ActiveOk cap := by
  obtain ⟨hactive, hwin, halpha, hcounts⟩ := activeOk_iff.mp hd
  obtain ⟨-, -, -, hcounts'⟩ := activeOk_iff.mp hr
  simp only [mergeBuilders, bind_eq_ok, Except.ok.injEq] at h
  obtain ⟨flat, hflat, trie, htrie, lines, -, skips, -, rfl⟩ := h
  exact activeOk_iff.mpr ⟨hactive, hwin, halpha, merge_countsOk hcounts (horder ▸ hcounts') hflat htrie⟩

/-! ### The commands -/

/-- A slot just created. -/
theorem fresh_ok (cap : Nat) (o : Order) : (Builder.fresh o).Ok cap :=
  ⟨Nat.zero_le _, nofun, rfl, Nat.zero_le _, nofun, nofun, nofun, rfl, nofun, rfl, fun hne => absurd rfl hne⟩

/-- A slot that holds nothing: after reset, or consumed. -/
theorem holdingNothing_ok (cap : Nat) (mode : BuilderMode) (o : Order) :
    ({ mode := mode, order := o, win := [], flat := [], trie := [], lines := 0, skips := 0 } : Builder).Ok cap :=
  ⟨Nat.zero_le _, nofun, rfl, Nat.zero_le _, nofun, nofun, nofun, rfl, nofun, rfl, fun _ => ⟨rfl, rfl, rfl, rfl, rfl⟩⟩

theorem withBuilder_buildersOk {s : State} {k : Nat} {bd : Builder} (hs : s.BuildersOk)
    (hbd : bd.Ok s.params.trieCap) : (s.withBuilder k bd).BuildersOk := by
  intro bd' hmem
  rw [State.withBuilder_builders, Vector.toList_setIfInBounds] at hmem
  obtain hmem | rfl := List.mem_or_eq_of_mem_set hmem
  · exact hs bd' hmem
  · exact hbd

theorem builder_ok_of_slot {s : State} {k : Nat} {bd : Builder} (hs : s.BuildersOk) (hk : s.builders[k]? = some bd) :
    bd.Ok s.params.trieCap :=
  hs bd (Vector.mem_toList_iff.mpr (Vector.mem_of_getElem? hk))

/-- Every command keeps every builder slot's invariant. -/
theorem effectOf_buildersOk {i : Instr} {s u : State} (hs : s.BuildersOk) (h : effectOf i s = .ok u) :
    u.BuildersOk := by
  have hframe := effectOf_frame h
  cases i with
  | binit k => obtain ⟨o, rfl⟩ := binitEffect_ok h; exact withBuilder_buildersOk hs (fresh_ok _ o)
  | bscan k =>
    obtain ⟨bd, x, hk, hactive, hx, rfl⟩ := bscanEffect_ok h
    exact withBuilder_buildersOk hs (scanOne_activeOk ⟨hactive, builder_ok_of_slot hs hk⟩ hx).2
  | bline k =>
    obtain ⟨bd, bd', hk, hactive, hline, rfl⟩ := blineEffect_ok h
    exact withBuilder_buildersOk hs (markLine_activeOk ⟨hactive, builder_ok_of_slot hs hk⟩ hline).2
  | bscanln k =>
    obtain ⟨bd, r, bd', hk, hactive, hr, hline, rfl⟩ := bscanlnEffect_ok h
    have hscanned := scanRegion_activeOk ⟨hactive, builder_ok_of_slot hs hk⟩ hr
    exact withBuilder_buildersOk hs (markLine_activeOk hscanned hline).2
  | bscanbuf k =>
    obtain ⟨bd, r, hk, hactive, hr, rfl⟩ := bscanbufEffect_ok h
    exact withBuilder_buildersOk hs (scanRegion_activeOk ⟨hactive, builder_ok_of_slot hs hk⟩ hr).2
  | bmerge dst src =>
    obtain ⟨d, r, d', hd, hr, hdactive, hractive, horder, hmerge, rfl⟩ := bmergeEffect_ok h
    exact withBuilder_buildersOk hs (mergeBuilders_activeOk ⟨hdactive, builder_ok_of_slot hs hd⟩
      ⟨hractive, builder_ok_of_slot hs hr⟩ horder hmerge).2
  | bbuild k j =>
    obtain ⟨bd, w, es, -, -, -, -, -, rfl⟩ := bbuildEffect_ok h
    exact withBuilder_buildersOk hs (holdingNothing_ok _ .consumed bd.order)
  | _ =>
    unfold State.BuildersOk
    rw [hframe.builders fun _ => rfl, hframe.params]
    exact hs

/-- Every builder slot is empty after reset. -/
theorem resetWith_buildersOk (p : Params) (draw : Nat) : (State.resetWith p draw).BuildersOk := by
  intro bd hbd
  obtain ⟨-, rfl⟩ := Vector.mem_replicate.mp (Vector.mem_toList_iff.mp hbd)
  exact holdingNothing_ok p.trieCap .empty .one

theorem sameUnits_buildersOk {s t : State} (h : SameUnits s t) (hs : s.BuildersOk) : t.BuildersOk := by
  unfold State.BuildersOk
  rwa [h.builders, h.params]

/-- Settles O59, by `effectOf_buildersOk`. -/
theorem stepKeepsTheBuilders : Obligations.StepKeepsTheBuilders := fun _ _ hs h =>
  step_keeps_units (P := State.BuildersOk) (fun _ _ => sameUnits_buildersOk) resetWith_buildersOk
    (fun _ _ _ => effectOf_buildersOk) hs h

end Sys2Proof.Machine

/-! PROOF. The model slots over every step (10_state.md R52; 43_huffman.md R216, R222, R227): O60. -/

namespace Sys2Proof.Machine

/-! ### Codes as numbers -/

/-- The bits of the number a bit string reads as are the string. -/
theorem bitsOf_valOf (bs : List Bool) : bitsOf bs.length (valOf bs) = bs := by
  induction bs using List.reverseRecOn with
  | nil => rfl
  | append_singleton bs b ih =>
    have hinit : ∀ i ∈ List.range bs.length, (2 * valOf bs + b.toNat).testBit (bs.length - i)
        = (valOf bs).testBit (bs.length - 1 - i) := by
      intro i hi
      rw [List.mem_range] at hi
      rw [show bs.length - i = bs.length - 1 - i + 1 by omega, Nat.testBit_succ]
      congr 1
      have := b.toNat_le
      omega
    have hlast : (2 * valOf bs + b.toNat).testBit 0 = b := by cases b <;> simp
    rw [bitsOf, List.length_append, List.length_singleton, valOf_append_singleton, List.range_succ, List.map_append]
    simp only [Nat.add_sub_cancel, List.map_cons, List.map_nil, Nat.sub_self, hlast]
    rw [List.map_congr_left hinit]
    exact congrArg (· ++ [b]) ih

/-! ### The codes of a tree -/

/-- The symbols of a tree's leaves, left to right. -/
def Tree.syms : Tree → List Sym
  | .leaf x _ => [x]
  | .node l r _ => l.syms ++ r.syms

/-- Neither bit string begins the other. -/
abbrev bitsApart (a b : Sym × List Bool) : Prop := ¬a.2 <+: b.2 ∧ ¬b.2 <+: a.2

theorem labelTree_syms (t : Tree) (bs : List Bool) : (labelTree t bs).map (·.1) = t.syms := by
  induction t generalizing bs with
  | leaf x f => rfl
  | node l r f hl hr => rw [labelTree, List.map_append, hl, hr, Tree.syms]

/-- Every code of a subtree begins with the path to it. -/
theorem labelTree_prefix {t : Tree} {bs : List Bool} {c : Sym × List Bool} (h : c ∈ labelTree t bs) : bs <+: c.2 := by
  induction t generalizing bs with
  | leaf x f =>
    obtain rfl := List.mem_singleton.mp h
    exact List.prefix_rfl
  | node l r f hl hr =>
    obtain h | h := List.mem_append.mp h
    · exact (List.prefix_append bs _).trans (hl h)
    · exact (List.prefix_append bs _).trans (hr h)

/-- Strings that part at a bit do not begin one another. -/
theorem not_prefix_of_part {bs a b : List Bool} {x y : Bool} (hxy : x ≠ y) (ha : bs ++ [x] <+: a)
    (hb : bs ++ [y] <+: b) : ¬a <+: b := by
  intro hab
  have heq := (List.prefix_of_prefix_length_le (ha.trans hab) hb (by simp)).eq_of_length (by simp)
  exact hxy (List.singleton_inj.mp (List.append_cancel_left heq))

/-- No code of a tree's leaves begins another (43_huffman.md R216). -/
theorem labelTree_apart (t : Tree) (bs : List Bool) : (labelTree t bs).Pairwise bitsApart := by
  induction t generalizing bs with
  | leaf x f => exact List.pairwise_singleton _ _
  | node l r f hl hr =>
    refine List.pairwise_append.mpr ⟨hl _, hr _, fun a ha b hb => ?_⟩
    have hpa := labelTree_prefix ha
    have hpb := labelTree_prefix hb
    exact ⟨not_prefix_of_part Bool.false_ne_true hpa hpb, not_prefix_of_part Bool.false_ne_true.symm hpb hpa⟩

theorem treeCodes_syms (t : Tree) : (treeCodes t).map (·.1) = t.syms := by
  cases t with
  | leaf x f => rfl
  | node l r f => exact labelTree_syms _ _

theorem treeCodes_apart (t : Tree) : (treeCodes t).Pairwise bitsApart := by
  cases t with
  | leaf x f => exact List.pairwise_singleton _ _
  | node l r f => exact labelTree_apart _ _

/-- No code is empty. -/
theorem treeCodes_length_pos {t : Tree} {c : Sym × List Bool} (h : c ∈ treeCodes t) : 1 ≤ c.2.length := by
  cases t with
  | leaf x f =>
    obtain rfl := List.mem_singleton.mp h
    exact le_rfl
  | node l r f =>
    obtain h | h := List.mem_append.mp h
    · exact (labelTree_prefix h).length_le
    · exact (labelTree_prefix h).length_le

/-- Merging keeps the symbols. -/
theorem Reduces.syms_perm {q : List Tree} {root : Tree} (h : Reduces q root) :
    root.syms.Perm (q.flatMap Tree.syms) := by
  induction h with
  | one t => simp
  | merge x y lo hi f root _ _ _ _ ih =>
    refine ih.trans ?_
    simp only [List.flatMap_append, List.flatMap_cons, Tree.syms]
    rw [← List.append_assoc x.syms]
    exact List.perm_append_comm_assoc _ _ _

/-- The leaves of a map's tree are its symbols. -/
theorem HuffTree.syms_perm {f : FreqMap} {root : Tree} (h : HuffTree f root) : root.syms.Perm (f.map (·.1)) := by
  obtain ⟨leaves, hperm, -, -, hreduces⟩ := h
  have hsyms := hreduces.syms_perm
  rw [List.flatMap_map] at hsyms
  have hleaves : leaves.flatMap (fun p => (Tree.leaf p.1 p.2).syms) = leaves.map (·.1) := List.map_eq_flatMap.symm
  exact (hleaves ▸ hsyms).trans (hperm.map _)

/-! ### Entries -/

/-- The entry of a symbol of the map (43_huffman.md R215). -/
def entryOf (codes : List (Sym × List Bool)) (p : Sym × Word) : Entry :=
  { sym := p.1, width := symWidth p.1.toNat, value := BitVec.ofNat 64 (valOf (codeOf codes p.1)),
    length := (codeOf codes p.1).length, freq := p.2 }

/-- The entries stand in the order of the map, no code longer than 64 bits. -/
theorem emitEntries_ok {codes : List (Sym × List Bool)} {f : FreqMap} {es : List Entry}
    (h : emitEntries codes f = .ok es) : es = f.map (entryOf codes) ∧ ∀ p ∈ f, (codeOf codes p.1).length ≤ 64 := by
  induction f generalizing es with
  | nil => obtain rfl := Except.ok.inj h; exact ⟨rfl, List.forall_mem_nil _⟩
  | cons p f ih =>
    simp only [emitEntries, bind_eq_ok, check_eq_ok, Except.ok.injEq] at h
    obtain ⟨-, hlen, es', hes', rfl⟩ := h
    obtain ⟨rfl, hall⟩ := ih hes'
    exact ⟨rfl, List.forall_mem_cons.mpr ⟨hlen, hall⟩⟩

theorem entryOf_value {codes : List (Sym × List Bool)} {p : Sym × Word} (h : (codeOf codes p.1).length ≤ 64) :
    (entryOf codes p).value.toNat = valOf (codeOf codes p.1) := by
  show (BitVec.ofNat 64 _).toNat = _
  rw [BitVec.toNat_ofNat, Nat.mod_eq_of_lt ((valOf_lt _).trans_le (Nat.pow_le_pow_right two_pos h))]

/-- The bits of an entry are its code. -/
theorem entryOf_bits {codes : List (Sym × List Bool)} {p : Sym × Word} (h : (codeOf codes p.1).length ≤ 64) :
    (entryOf codes p).bits = codeOf codes p.1 := by
  rw [Entry.bits, entryOf_value h]
  exact bitsOf_valOf _

/-- A symbol of the tree has one of its codes. -/
theorem codeOf_mem {t : Tree} {x : Sym} (h : x ∈ t.syms) : (x, codeOf (treeCodes t) x) ∈ treeCodes t := by
  rw [← treeCodes_syms] at h
  obtain ⟨c, hc, rfl⟩ := List.mem_map.mp h
  obtain ⟨bs, hbs⟩ := Option.ne_none_iff_exists'.mp (mapGet_ne_none_of_mem hc)
  rw [codeOf, hbs]
  exact mem_of_mapGet hbs

/-- A build succeeds only on a map with a nonzero frequency, with the entries of its tree, no code longer than 64
bits. -/
theorem huff_ok {f : FreqMap} {es : List Entry} (h : huff f = .ok es) :
    dropZeros f ≠ [] ∧ ∃ root, root.syms.Perm ((dropZeros f).map (·.1)) ∧
      es = (dropZeros f).map (entryOf (treeCodes root)) ∧
      ∀ p ∈ dropZeros f, (codeOf (treeCodes root) p.1).length ≤ 64 := by
  obtain ⟨root, hroot, hes⟩ := bind_eq_ok.mp h
  refine ⟨fun hnil => ?_, root, (buildTree_huffTree hroot).syms_perm, emitEntries_ok hes⟩
  rw [hnil] at hroot
  exact nomatch hroot

/-- No code of a build from a map of distinct symbols begins another (43_huffman.md R216). -/
theorem huff_codesApart {f : FreqMap} {es : List Entry} (hf : (f.map (·.1)).Nodup) (h : huff f = .ok es) :
    es.Pairwise codesApart := by
  obtain ⟨-, root, hperm, rfl, hlen⟩ := huff_ok h
  have hdistinct : (dropZeros f).Pairwise fun p q => p.1 ≠ q.1 :=
    List.pairwise_map.mp (hf.sublist (List.filter_sublist.map _))
  refine List.pairwise_map.mpr (hdistinct.imp_of_mem fun {p q} hp hq hpq => ?_)
  have hcode {p : Sym × Word} (hp : p ∈ dropZeros f) := codeOf_mem (hperm.mem_iff.mpr (List.mem_map_of_mem hp))
  have hsymm : Std.Symm bitsApart := ⟨fun _ _ => And.symm⟩
  obtain ⟨hpre, hpre'⟩ := (treeCodes_apart root).forall (hcode hp) (hcode hq) fun he => hpq (Prod.ext_iff.mp he).1
  simp only [codesApart, entryOf_bits (hlen p hp), entryOf_bits (hlen q hq), ← Bool.not_eq_true,
    List.isPrefixOf_iff_prefix]
  exact ⟨hpre, hpre'⟩

/-- Every entry of a build is one the rules allow, when the map's symbols are valid for the order. -/
theorem huff_entries_ok {o : Order} {f : FreqMap} {es : List Entry} (hsym : ∀ p ∈ f, symOk o p.1)
    (h : huff f = .ok es) : ∀ e ∈ es, e.Ok o := by
  obtain ⟨-, root, hperm, rfl, hlen⟩ := huff_ok h
  intro e he
  obtain ⟨p, hp, rfl⟩ := List.mem_map.mp he
  obtain ⟨hpf, hfreq⟩ := List.mem_filter.mp hp
  have hcode := codeOf_mem (hperm.mem_iff.mpr (List.mem_map_of_mem hp))
  refine ⟨hsym p hpf, (symBytes_length p.1).symm, treeCodes_length_pos hcode, hlen p hp, ?_, bne_iff_ne.mp hfreq⟩
  rw [entryOf_value (hlen p hp)]
  exact valOf_lt _

/-- Dropping the zero frequencies keeps the total weight. -/
theorem dropZeros_weight (f : FreqMap) :
    ((dropZeros f).map fun p => p.2.toNat).sum = (f.map fun p => p.2.toNat).sum := by
  induction f with
  | nil => rfl
  | cons p f ih =>
    rw [dropZeros, List.filter_cons]
    split
    · rw [List.map_cons, List.map_cons, List.sum_cons, List.sum_cons]
      exact congrArg _ ih
    · rename_i hzero
      have hp : p.2 = 0 := by simpa using hzero
      rw [List.map_cons, List.sum_cons, hp]
      exact ih.trans (Nat.zero_add _).symm

/-! ### The symbols of a map -/

/-- Distinct symbols valid for the order. -/
abbrev SymbolsOk (o : Order) (xs : List Sym) : Prop := xs.Nodup ∧ ∀ x ∈ xs, symOk o x

theorem symbolsOk_append_singleton {o : Order} {xs : List Sym} {x : Sym} (h : SymbolsOk o xs) (hx : symOk o x)
    (hnew : x ∉ xs) : SymbolsOk o (xs ++ [x]) :=
  ⟨List.concat_eq_append ▸ h.1.concat hnew, List.forall_mem_append.mpr ⟨h.2, List.forall_mem_singleton.mpr hx⟩⟩

theorem dropZeros_symbolsOk {o : Order} {f : FreqMap} (h : SymbolsOk o (f.map (·.1))) :
    SymbolsOk o ((dropZeros f).map (·.1)) :=
  have hsub : ((dropZeros f).map (·.1)).Sublist (f.map (·.1)) := List.filter_sublist.map _
  ⟨h.1.sublist hsub, fun x hx => h.2 x (hsub.subset hx)⟩

/-- The model of a build: of a map of distinct valid symbols within DICT_CAP and 64 bits of weight. -/
theorem model_ok_of_huff {cap : Nat} {o : Order} {f : FreqMap} {es : List Entry} {w : Word}
    (hsyms : SymbolsOk o (f.map (·.1))) (hcap : f.length ≤ cap) (hw : mapWeight f = .ok w) (h : huff f = .ok es) :
    Model.Ok cap { order := o, entries := es } := by
  obtain ⟨hdistinct, hvalid⟩ := hsyms
  obtain ⟨hne, root, -, hes, -⟩ := huff_ok h
  refine ⟨?_, ?_, ?_, huff_entries_ok (List.forall_mem_map.mp hvalid) h, huff_codesApart hdistinct h, ?_⟩
  · rw [hes, List.length_map]
    exact List.length_pos_iff.mpr hne
  · rw [hes, List.length_map]
    exact (List.length_filter_le _ _).trans hcap
  · rw [hes, List.map_map]
    exact hdistinct.sublist (List.filter_sublist.map _)
  · rw [mapWeight, sumCounts_eq_ok, List.map_map] at hw
    have hweight : (es.map fun e => e.freq.toNat).sum = (f.map fun p => p.2.toNat).sum := by
      rw [hes, List.map_map, ← dropZeros_weight]
      rfl
    rw [Model.weight, hweight]
    have hlt := w.isLt
    rw [hw, show (0 : Word).toNat = 0 from rfl, Nat.zero_add] at hlt
    exact hlt

/-- `put` adds its symbol at the end, unless the map has it. -/
theorem putFreq_syms (x : Sym) (n : Word) (f : FreqMap) :
    (putFreq x n f).map (·.1) = if x ∈ f.map (·.1) then f.map (·.1) else f.map (·.1) ++ [x] := by
  induction f with
  | nil => rfl
  | cons p f ih =>
    rw [putFreq]
    split
    · rename_i hx
      simp [hx]
    · rename_i hx
      rw [List.map_cons, ih]
      simp only [List.map_cons, List.mem_cons, hx, false_or]
      split <;> rfl

theorem putFreq_symbolsOk {o : Order} {x : Sym} {n : Word} {f : FreqMap} (h : SymbolsOk o (f.map (·.1)))
    (hx : symOk o x) : SymbolsOk o ((putFreq x n f).map (·.1)) := by
  rw [putFreq_syms]
  split
  · exact h
  · rename_i hnew
    exact symbolsOk_append_singleton h hx hnew

theorem foldl_putFreq_symbolsOk {o : Order} {l : List (Sym × Word)} {f : FreqMap} (h : SymbolsOk o (f.map (·.1)))
    (hl : ∀ p ∈ l, symOk o p.1) : SymbolsOk o ((l.foldl (fun m p => putFreq p.1 p.2 m) f).map (·.1)) := by
  induction l generalizing f with
  | nil => exact h
  | cons p l ih =>
    obtain ⟨hp, hl⟩ := List.forall_mem_cons.mp hl
    exact ih (putFreq_symbolsOk h hp) hl

/-- The bytes of a packed sequence of bytes of A are the sequence (00_scope.md R17). -/
theorem symBytes_packSym {p : List Byte} (hne : p ≠ []) (hlen : p.length ≤ 3) (hp : allInAlphabet p) :
    symBytes (packSym p) = p := by
  have hvalue := packSym_toNat hlen
  have hbyte (i : Nat) (b : Byte) (hb : seqValue p / 2 ^ i % 2 ^ 8 = b.toNat) : (packSym p).extractLsb' i 8 = b :=
    BitVec.eq_of_toNat_eq (by rw [BitVec.extractLsb'_toNat, Nat.shiftRight_eq_div_pow, hvalue, hb])
  match p, hne, hlen with
  | [a], _, _ =>
    have ha := a.isLt
    have hv : seqValue [a] = a.toNat := by simp [seqValue]
    rw [symBytes, if_pos (by omega), hbyte 0 a (by omega)]
  | [a, b], _, _ =>
    have ha := a.isLt
    have hb := b.isLt
    have hb0 : alphabetic b.toNat := hp b (by simp)
    have hv : seqValue [a, b] = a.toNat + 2 ^ 8 * b.toNat := by simp [seqValue]
    rw [symBytes, if_neg (by omega), if_pos (by omega), hbyte 0 a (by omega), hbyte 8 b (by omega)]
  | [a, b, c], _, _ =>
    have ha := a.isLt
    have hb := b.isLt
    have hc := c.isLt
    have hc0 : alphabetic c.toNat := hp c (by simp)
    have hv : seqValue [a, b, c] = a.toNat + 2 ^ 8 * b.toNat + 2 ^ 16 * c.toNat := by simp [seqValue]
    rw [symBytes, if_neg (by omega), if_neg (by omega), hbyte 0 a (by omega), hbyte 8 b (by omega),
      hbyte 16 c (by omega)]

/-- A sequence of bytes of A within the order packs to a valid symbol. -/
theorem packSym_symOk {o : Order} {p : List Byte} (hne : p ≠ []) (hlen : p.length ≤ o.toNat) (hp : allInAlphabet p) :
    symOk o (packSym p) := by
  have ho : o.toNat ≤ 3 := by cases o <;> decide
  right
  rw [symBytes_packSym hne (hlen.trans ho) hp]
  exact ⟨hp, hlen⟩

/-! ### The map of a builder -/

/-- The seeds are the counted bytes, ascending (42_context_builder.md R200). -/
theorem seeds_eq (bd : Builder) : bd.seeds =
    ((List.range 256).filter fun b => flatCount bd.flat (BitVec.ofNat 8 b) != 0).map fun b =>
      (BitVec.ofNat 24 b, flatCount bd.flat (BitVec.ofNat 8 b)) := by
  rw [Builder.seeds, ← List.filterMap_eq_map, List.filterMap_filter]
  refine List.filterMap_congr fun b _ => ?_
  by_cases hb : flatCount bd.flat (BitVec.ofNat 8 b) = 0 <;> simp [hb]

/-- A byte with a count is listed. -/
theorem flat_mem_of_count {f : Flat} {b : Byte} (h : flatCount f b ≠ 0) : (b, flatCount f b) ∈ f := by
  cases hb : mapGet b f with
  | none => exact absurd (by rw [flatCount, hb]; rfl) h
  | some n =>
    rw [flatCount, hb]
    exact mem_of_mapGet hb

theorem seeds_symbolsOk {cap : Nat} {bd : Builder} (hbd : bd.Ok cap) : SymbolsOk bd.order (bd.seeds.map (·.1)) := by
  obtain ⟨-, -, -, -, -, -, -, -, hflat, -⟩ := hbd
  have ho : 1 ≤ bd.order.toNat := by cases bd.order <;> decide
  rw [seeds_eq, List.map_map]
  constructor
  · refine (List.nodup_map_iff_inj_on (List.nodup_range.filter _)).mpr fun a ha b hb hab => ?_
    have ha := List.mem_range.mp (List.mem_of_mem_filter ha)
    have hb := List.mem_range.mp (List.mem_of_mem_filter hb)
    have hab := congrArg BitVec.toNat hab
    simp only [Function.comp, BitVec.toNat_ofNat] at hab
    omega
  · refine List.forall_mem_map.mpr fun b hb => ?_
    obtain ⟨hlt, hcount⟩ := List.mem_filter.mp hb
    rw [List.mem_range] at hlt
    obtain ⟨halpha, -⟩ := hflat _ (flat_mem_of_count (bne_iff_ne.mp hcount))
    have hsym : BitVec.ofNat 24 b = packSym [BitVec.ofNat 8 b] := by
      simp [packSym, leNat, Nat.mod_eq_of_lt hlt]
    show symOk bd.order (BitVec.ofNat 24 b)
    rw [hsym]
    exact packSym_symOk (List.cons_ne_nil _ _) ho (List.forall_mem_singleton.mpr halpha)

/-- The leaves of a builder's trie with EOF are valid symbols. -/
theorem trieLeaves_symOk {cap : Nat} {bd : Builder} (hbd : bd.Ok cap) :
    ∀ p ∈ trieLeaves bd.trieWithEof, symOk bd.order p.1 := by
  obtain ⟨-, -, -, -, hnode, -⟩ := hbd
  refine List.forall_mem_map.mpr fun x hx => ?_
  obtain rfl | hx := mem_mapPut seqLt _ _ _ (List.mem_of_mem_filter hx)
  · exact .inl rfl
  · obtain ⟨hne, hlen, halpha, -⟩ := hnode x hx
    exact packSym_symOk hne hlen halpha

/-- The map of a builder has distinct valid symbols. -/
theorem freqMap_symbolsOk {cap : Nat} {bd : Builder} (hbd : bd.Ok cap) : SymbolsOk bd.order (bd.freqMap.map (·.1)) :=
  dropZeros_symbolsOk (foldl_putFreq_symbolsOk (seeds_symbolsOk hbd) (trieLeaves_symOk hbd))

/-! ### The map HBUILD reads -/

/-- What HBUILD accepts of a symbol: it is valid for the order and new. -/
theorem hbuildSymOk_new {o : Order} {acc : FreqMap} {x : Nat} (h : hbuildSymOk o acc x = true) :
    symOk o (BitVec.ofNat 24 x) ∧ BitVec.ofNat 24 x ∉ acc.map (·.1) := by
  simp only [hbuildSymOk, Bool.and_eq_true, Bool.or_eq_true, decide_eq_true_eq, List.all_eq_true] at h
  obtain ⟨⟨hvalid, hwidth⟩, hnew⟩ := h
  have hlt : x < 2 ^ 24 := by
    simp only [symValid, Bool.or_eq_true, Bool.and_eq_true, decide_eq_true_eq] at hvalid
    omega
  have hx : (BitVec.ofNat 24 x).toNat = x := by rw [BitVec.toNat_ofNat, Nat.mod_eq_of_lt hlt]
  refine ⟨(symOk_iff o _).mpr (hx.symm ▸ ⟨hvalid, hwidth⟩), fun hmem => ?_⟩
  obtain ⟨p, hp, hpx⟩ := List.mem_map.mp hmem
  exact hnew p hp (by rw [hpx, hx])

theorem readEntries_symbolsOk {s : State} {o : Order} {n a : Nat} {acc given : FreqMap}
    (hacc : SymbolsOk o (acc.map (·.1))) (h : s.readEntries o n a acc = .ok given) : SymbolsOk o (given.map (·.1)) := by
  induction n generalizing a acc with
  | zero => obtain rfl := Except.ok.inj h; exact hacc
  | succ n ih =>
    obtain ⟨_, hcheck, h⟩ := bind_eq_ok.mp h
    obtain ⟨hsym, hnew⟩ := hbuildSymOk_new (check_eq_ok.mp hcheck)
    refine ih ?_ h
    rw [List.map_append]
    exact symbolsOk_append_singleton hacc hsym hnew

/-! ### The commands -/

theorem withModel_modelsOk {s : State} {j : Nat} {o : Option Model} (hs : s.ModelsOk)
    (ho : ∀ m ∈ o.toList, m.Ok s.params.dictCap) : (s.withModel j o).ModelsOk := by
  intro o' hmem
  rw [State.withModel_models, Vector.toList_setIfInBounds] at hmem
  obtain hmem | rfl := List.mem_or_eq_of_mem_set hmem
  · exact hs o' hmem
  · exact ho

theorem installModel_modelsOk {s : State} {j : Nat} {m : Model} {w : Word} (hs : s.ModelsOk)
    (hm : m.Ok s.params.dictCap) : (s.installModel j m w).ModelsOk :=
  withModel_modelsOk hs (List.forall_mem_singleton.mpr hm)

/-- Every command keeps every valid model's invariant. -/
theorem effectOf_modelsOk {i : Instr} {s u : State} (hbuilders : s.BuildersOk) (hs : s.ModelsOk)
    (h : effectOf i s = .ok u) : u.ModelsOk := by
  have hframe := effectOf_frame h
  cases i with
  | bbuild k j =>
    obtain ⟨bd, w, es, hk, -, hcap, hw, hes, rfl⟩ := bbuildEffect_ok h
    have hsyms := freqMap_symbolsOk (builder_ok_of_slot hbuilders hk)
    exact installModel_modelsOk (s := s.withBuilder k _) hs (model_ok_of_huff hsyms hcap hw hes)
  | hbuild j =>
    obtain ⟨o, given, w, es, -, hgiven, hcap, hw, hes, rfl⟩ := hbuildEffect_ok h
    have hsyms := readEntries_symbolsOk (acc := []) ⟨List.nodup_nil, List.forall_mem_nil _⟩ hgiven
    exact installModel_modelsOk hs (model_ok_of_huff (dropZeros_symbolsOk hsyms) hcap hw hes)
  | mfree j => obtain rfl := mfreeEffect_ok h; exact withModel_modelsOk hs (List.forall_mem_nil _)
  | _ =>
    unfold State.ModelsOk
    rw [hframe.models fun _ => rfl, hframe.params]
    exact hs

/-- No model slot is valid after reset. -/
theorem resetWith_modelsOk (p : Params) (draw : Nat) : (State.resetWith p draw).ModelsOk := by
  intro o ho
  obtain ⟨-, rfl⟩ := Vector.mem_replicate.mp (Vector.mem_toList_iff.mp ho)
  exact List.forall_mem_nil _

theorem sameUnits_modelsOk {s t : State} (h : SameUnits s t) (hs : s.ModelsOk) : t.ModelsOk := by
  unfold State.ModelsOk
  rwa [h.models, h.params]

/-- Settles O60, by `effectOf_modelsOk`, the builders' invariant carried along by `effectOf_buildersOk`. -/
theorem stepKeepsTheModels : Obligations.StepKeepsTheModels := fun _ _ hbuilders hs h =>
  (step_keeps_units (P := fun s => s.BuildersOk ∧ s.ModelsOk)
    (fun _ _ hsame hs => ⟨sameUnits_buildersOk hsame hs.1, sameUnits_modelsOk hsame hs.2⟩)
    (fun p draw => ⟨resetWith_buildersOk p draw, resetWith_modelsOk p draw⟩)
    (fun _ _ _ hs heffect => ⟨effectOf_buildersOk hs.1 heffect, effectOf_modelsOk hs.1 hs.2 heffect⟩)
    ⟨hbuilders, hs⟩ h).2

end Sys2Proof.Machine

/-! PROOF. DMEM and who reaches it (20_memory.md R70, R72, R78, R83): O10, O17. -/

namespace Sys2Proof.Machine

/-! ### Commands -/

/-- No command that succeeds changes the parameters, the draw of DMEM, reset or the host's part. -/
theorem effectOf_keeps_host_and_reset {i : Instr} {s u : State} (h : effectOf i s = .ok u) :
    u.params = s.params ∧ u.draw = s.draw ∧ u.inReset = s.inReset ∧ u.host = s.host ∧ u.saw = s.saw := by
  have hfixed := (effectOf_frame h).fixed
  refine ⟨?_, ?_, ?_, ?_, ?_⟩ <;> rw [hfixed]

/-- Settles O17: a command that succeeds by its frame, one that fails because its error sets STATUS and ERR_INFO
alone. -/
theorem onlyFourCommandsWriteDmem : Obligations.OnlyFourCommandsWriteDmem := by
  intro i s t h
  obtain ⟨u, hu, rfl⟩ | ⟨e, -, rfl⟩ := exec_eq_next h
  · have hkept := effectOf_keeps_host_and_reset hu
    exact ⟨(effectOf_frame hu).dmem, hkept⟩
  · exact ⟨fun _ => rfl, rfl, rfl, rfl, rfl, rfl⟩

/-! ### Host accesses -/

section
variable {s : State} {a : Nat}

theorem hostAction_writeMem_of_lt (h : a < s.params.dmemSize) (v : Byte) :
    hostAction (.writeMem a v) s = .next (s.withDmem (s.dmem.write a v)) := if_pos h

theorem hostAction_readMem_of_lt (h : a < s.params.dmemSize) :
    hostAction (.readMem a) s = .next (s.withSaw (.byte (s.readByte a))) := if_pos h

theorem hostAction_writeMem_of_le (h : s.params.dmemSize ≤ a) (v : Byte) :
    hostAction (.writeMem a v) s = .fault (.hostDmemOutOfRange a) := if_neg (Nat.not_lt.mpr h)

theorem hostAction_readMem_of_le (h : s.params.dmemSize ≤ a) :
    hostAction (.readMem a) s = .fault (.hostDmemOutOfRange a) := if_neg (Nat.not_lt.mpr h)

end

/-- Settles O10: DMEM_SIZE decides which accesses exist, and a written byte is read back by `memory_read_write`. -/
theorem hostDmemAccessesReachOneByte : Obligations.HostDmemAccessesReachOneByte := by
  intro s a v rest
  refine ⟨fun hhost hin => ?_, fun hhost hin => ?_, fun hout => ⟨fun hhost => ?_, fun hhost => ?_⟩⟩
  · have hstep := (step_of_host hhost).trans (hostAction_writeMem_of_lt (s := s.withHost rest) hin v)
    exact ⟨_, hstep, rfl, fun b => memory_read_write s.dmem s.draw a b v⟩
  · exact (step_of_host hhost).trans (hostAction_readMem_of_lt hin)
  · exact (step_of_host hhost).trans (hostAction_writeMem_of_le (s := s.withHost rest) hout v)
  · exact (step_of_host hhost).trans (hostAction_readMem_of_le hout)

end Sys2Proof.Machine

/-! PROOF. Command words (30_encoding.md R101 to R110): the fields of a word, the row of an opcode, the rows a word
selects, the words that decode and their commands: O1 to O5. -/

namespace Sys2Proof.Laws

/-! ### The fields of a word (R101) -/

theorem fieldOf_lt (c : CmdWord) (lo n : Nat) : fieldOf c lo n < 2 ^ n := Nat.mod_lt _ (Nat.two_pow_pos n)

theorem saOf_lt (c : CmdWord) : saOf c < 8 := fieldOf_lt c 8 3

theorem sbOf_lt (c : CmdWord) : sbOf c < 8 := fieldOf_lt c 11 3

theorem w7Of_lt (c : CmdWord) : w7Of c < 128 := fieldOf_lt c 14 7

/-- A field of a masked word is the masked field. -/
theorem fieldOf_and (c m : CmdWord) (lo n : Nat) : fieldOf (c &&& m) lo n = fieldOf c lo n &&& fieldOf m lo n := by
  rw [fieldOf, BitVec.toNat_and, Nat.and_div_two_pow, Nat.and_mod_two_pow]
  rfl

/-- A field under a mask of ones stays. -/
theorem fieldOf_and_of_ones {m : CmdWord} {lo n : Nat} (hm : fieldOf m lo n = 2 ^ n - 1) (c : CmdWord) :
    fieldOf (c &&& m) lo n = fieldOf c lo n := by
  rw [fieldOf_and, hm, Nat.and_two_pow_sub_one_eq_mod, Nat.mod_eq_of_lt (fieldOf_lt c lo n)]

/-- A field under a mask of zeros is 0. -/
theorem fieldOf_and_of_zeros {m : CmdWord} {lo n : Nat} (hm : fieldOf m lo n = 0) (c : CmdWord) :
    fieldOf (c &&& m) lo n = 0 := by
  rw [fieldOf_and, hm, Nat.and_zero]

/-- The five fields are the whole word. -/
theorem cmdWord_ext {c d : CmdWord} (hopc : opcOf c = opcOf d) (hsa : saOf c = saOf d) (hsb : sbOf c = sbOf d)
    (hw7 : w7Of c = w7Of d) (hrsv : rsvOf c = rsvOf d) : c = d := by
  have hc := c.isLt
  have hd := d.isLt
  simp only [opcOf, saOf, sbOf, w7Of, rsvOf, fieldOf] at hopc hsa hsb hw7 hrsv
  exact BitVec.eq_of_toNat_eq (by omega)

/-- A packed word holds its slots and its width, each cut to its field. -/
theorem packWord_operands {opc : Nat} (h : opc < 256) (sa sb w7 : Nat) :
    saOf (packWord opc sa sb w7) = sa % 8 ∧ sbOf (packWord opc sa sb w7) = sb % 8 ∧
      w7Of (packWord opc sa sb w7) = w7 % 128 := by
  simp only [saOf, sbOf, w7Of, fieldOf, packWord, BitVec.toNat_ofNat]
  omega

/-- A word with RSV zero is packed from its own fields. -/
theorem packWord_fields {c : CmdWord} (hrsv : rsvOf c = 0) : packWord (opcOf c) (saOf c) (sbOf c) (w7Of c) = c := by
  have hlt : opcOf c < 256 := fieldOf_lt c 0 8
  obtain ⟨hopc, hpack⟩ := packWord_opcode hlt (saOf c) (sbOf c) (w7Of c)
  obtain ⟨hsa, hsb, hw7⟩ := packWord_operands hlt (saOf c) (sbOf c) (w7Of c)
  exact cmdWord_ext hopc (hsa.trans (Nat.mod_eq_of_lt (saOf_lt c))) (hsb.trans (Nat.mod_eq_of_lt (sbOf_lt c)))
    (hw7.trans (Nat.mod_eq_of_lt (w7Of_lt c))) (hpack.trans hrsv.symm)

/-! ### The opcode map (R105) -/

/-- The rows have distinct opcodes. -/
theorem opTable_opc_inj {r r' : OpRow} (hr : r ∈ opTable) (hr' : r' ∈ opTable) (h : r.opc = r'.opc) : r = r' :=
  List.inj_on_of_nodup_map (f := OpRow.opc) (by decide) hr hr' h

theorem opTable_opc_lt : ∀ r ∈ opTable, r.opc < 0x17 := by decide

theorem exists_row_of_lt : ∀ opc < 0x17, ∃ r ∈ opTable, r.opc = opc := by decide

/-- No row has a width in a slot field or a slot in the width field. -/
theorem opTable_uses : ∀ r ∈ opTable, r.sa ≠ .width ∧ r.sb ≠ .width ∧ (r.w7 = .zero ∨ r.w7 = .width) := by decide

/-- The decoder's search finds the row of the opcode. -/
theorem find_row_eq_some {r : OpRow} {opc : Nat} :
    opTable.find? (fun r => decide (r.opc = opc)) = some r ↔ r ∈ opTable ∧ r.opc = opc := by
  have hfound {r' : OpRow} (h : opTable.find? (fun r => decide (r.opc = opc)) = some r') :
      r' ∈ opTable ∧ r'.opc = opc := by
    have hopc := List.find?_some h
    exact ⟨List.mem_of_find?_eq_some h, of_decide_eq_true hopc⟩
  refine ⟨hfound, fun ⟨hr, hopc⟩ => ?_⟩
  have hsome : (opTable.find? fun r => decide (r.opc = opc)).isSome = true :=
    List.find?_isSome.mpr ⟨r, hr, decide_eq_true hopc⟩
  obtain ⟨r', h⟩ := Option.isSome_iff_exists.mp hsome
  obtain ⟨hr', hopc'⟩ := hfound h
  rw [h, opTable_opc_inj hr hr' (hopc.trans hopc'.symm)]

/-! ### The field uses of a row (R103, R104) -/

/-- A field's value as its row uses it: a field marked `0` is not used. -/
def usedValue (u : FieldUse) (v : Nat) : Nat := if u = .zero then 0 else v

theorem usedValue_of_legal {u : FieldUse} {v : Nat} (h : u.legal v = true) : usedValue u v = v := by
  cases u with
  | zero => exact (of_decide_eq_true h).symm
  | _ => rfl

/-- A legal value is the used one, in range. -/
theorem legal_iff_used {u : FieldUse} {v : Nat} :
    u.legal v = true ↔ (u = .zero → v = 0) ∧ u.legal (usedValue u v) = true := by
  cases u <;> simp [FieldUse.legal, usedValue]

/-- A legal value of a slot field fits it. -/
theorem legal_lt_of_ne_width {u : FieldUse} {v : Nat} (hu : u ≠ .width) (h : u.legal v = true) : v < 2 := by
  cases u with
  | zero => exact (of_decide_eq_true h : v = 0) ▸ two_pos
  | width => exact absurd rfl hu
  | _ => exact of_decide_eq_true h

/-- Every legal value fits the width field. -/
theorem legal_lt {u : FieldUse} {v : Nat} (h : u.legal v = true) : v < 128 := by
  by_cases hu : u = .width
  · subst hu
    exact of_decide_eq_true h
  · exact (legal_lt_of_ne_width hu h).trans (by decide)

/-- Of the values the width field can hold, those are legal that do not break the row. -/
theorem legal_iff_not_breaks {u : FieldUse} {v : Nat} (hv : v < 128) :
    u.legal v = true ↔ ¬Machine.fieldBreaks u v := by
  cases u <;> simp [FieldUse.legal, builderOk, modelOk, widthOk, hv]

theorem zeroFieldsOk_iff {r : OpRow} {c : CmdWord} : r.zeroFieldsOk c = true ↔
    rsvOf c = 0 ∧ (r.sa = .zero → saOf c = 0) ∧ (r.sb = .zero → sbOf c = 0) ∧ (r.w7 = .zero → w7Of c = 0) := by
  simp [OpRow.zeroFieldsOk, and_assoc, ← imp_iff_not_or]

/-! ### The rows a word selects (R106) -/

/-- The mask of a row has ones in OPC and RSV. -/
theorem mask_opc_rsv (r : OpRow) : opcOf r.mask = 2 ^ 8 - 1 ∧ rsvOf r.mask = 2 ^ 11 - 1 := by
  simp only [opcOf, rsvOf, fieldOf, OpRow.mask, FieldUse.maskBits, ↓reduceIte]
  split_ifs <;> decide

/-- The mask of a row has ones in a slot or width field where the row marks it `0`, zeros in the others. -/
theorem mask_operands (r : OpRow) : saOf r.mask = (if r.sa = .zero then 2 ^ 3 - 1 else 0) ∧
    sbOf r.mask = (if r.sb = .zero then 2 ^ 3 - 1 else 0) ∧
    w7Of r.mask = (if r.w7 = .zero then 2 ^ 7 - 1 else 0) := by
  simp only [saOf, sbOf, w7Of, fieldOf, OpRow.mask, FieldUse.maskBits, ↓reduceIte]
  split_ifs <;> decide

/-- A masked slot or width field is 0 exactly when its value is, where the row marks it `0`. -/
theorem fieldOf_and_eq_zero {u : FieldUse} {m : CmdWord} {lo n : Nat}
    (hm : fieldOf m lo n = if u = .zero then 2 ^ n - 1 else 0) (c : CmdWord) :
    fieldOf (c &&& m) lo n = 0 ↔ (u = .zero → fieldOf c lo n = 0) := by
  split at hm
  · rename_i hu
    rw [fieldOf_and_of_ones hm, imp_iff_right hu]
  · rename_i hu
    exact iff_of_true (fieldOf_and_of_zeros hm c) fun h => absurd h hu

theorem matchWord_eq {r : OpRow} (hr : r ∈ opTable) : r.matchWord = packWord r.opc 0 0 0 := by
  have := opTable_opc_lt r hr
  rw [OpRow.matchWord, packWord, Nat.mod_eq_of_lt (by omega)]
  rfl

/-- A word selects the row of its opcode, when the fields required to be zero are. -/
theorem selects_iff {r : OpRow} (hr : r ∈ opTable) (c : CmdWord) :
    r.selects c = true ↔ r.opc = opcOf c ∧ r.zeroFieldsOk c = true := by
  have hlt : r.opc < 256 := (opTable_opc_lt r hr).trans (by decide)
  obtain ⟨hopc, hrsv⟩ := packWord_opcode hlt 0 0 0
  obtain ⟨hsa, hsb, hw7⟩ := packWord_operands hlt 0 0 0
  obtain ⟨hmopc, hmrsv⟩ := mask_opc_rsv r
  obtain ⟨hmsa, hmsb, hmw7⟩ := mask_operands r
  have hcopc : opcOf (c &&& r.mask) = opcOf c := fieldOf_and_of_ones hmopc c
  have hcrsv : rsvOf (c &&& r.mask) = rsvOf c := fieldOf_and_of_ones hmrsv c
  have hcsa : saOf (c &&& r.mask) = 0 ↔ _ := fieldOf_and_eq_zero hmsa c
  have hcsb : sbOf (c &&& r.mask) = 0 ↔ _ := fieldOf_and_eq_zero hmsb c
  have hcw7 : w7Of (c &&& r.mask) = 0 ↔ _ := fieldOf_and_eq_zero hmw7 c
  rw [OpRow.selects, decide_eq_true_iff, matchWord_eq hr, zeroFieldsOk_iff]
  constructor
  · intro h
    rw [h] at hcopc hcrsv hcsa hcsb hcw7
    exact ⟨hopc.symm.trans hcopc, hcrsv.symm.trans hrsv, hcsa.mp hsa, hcsb.mp hsb, hcw7.mp hw7⟩
  · rintro ⟨ho, hv, ha, hb, hw⟩
    exact cmdWord_ext (by rw [hcopc, hopc, ho]) ((hcsa.mpr ha).trans hsa.symm) ((hcsb.mpr hb).trans hsb.symm)
      ((hcw7.mpr hw).trans hw7.symm) (by rw [hcrsv, hrsv, hv])

/-! ### The commands of a row (R105) -/

/-- The fields of a command's word besides the opcode. -/
structure Operands where
  sa : Nat
  sb : Nat
  w7 : Nat

/-- The fields of a command, 0 where its row marks them `0`. -/
def operands : Instr → Operands
  | .nop | .winit | .wfinish | .rinit => ⟨0, 0, 0⟩
  | .wbits w | .rpeek w | .rmatch w | .radv w => ⟨0, 0, w⟩
  | .binit k | .bscan k | .bline k | .bscanln k | .bscanbuf k | .binfo k => ⟨k, 0, 0⟩
  | .bmerge dst src => ⟨dst, src, 0⟩
  | .bbuild k j => ⟨k, j, 0⟩
  | .hbuild j => ⟨0, j, 0⟩
  | .encode j | .decode j | .minfo j | .mentry j | .mlookup j | .mfree j => ⟨j, 0, 0⟩

theorem opcodeNumber_lt (i : Instr) : opcodeNumber i < 0x17 := by
  cases i <;> exact of_decide_eq_true rfl

/-- The encoder packs a command's opcode and operands (R110). -/
theorem encode_eq_packWord (i : Instr) :
    encode i = packWord (opcodeNumber i) (operands i).sa (operands i).sb (operands i).w7 := by
  cases i <;> rfl

/-- A command is the one of its opcode and operands. -/
theorem instrOf_operands (i : Instr) :
    instrOf (opcodeNumber i) (operands i).sa (operands i).sb (operands i).w7 = some i := by
  cases i <;> rfl

/-- A row and any fields give a command. It has the row's opcode and the fields the row uses, and is well formed when
these are legal: read off row by row. -/
theorem exists_command_of_row {r : OpRow} (hr : r ∈ opTable) (sa sb w7 : Nat) :
    ∃ i, instrOf r.opc sa sb w7 = some i ∧ opcodeNumber i = r.opc ∧
      operands i = ⟨usedValue r.sa sa, usedValue r.sb sb, usedValue r.w7 w7⟩ ∧
      (i.wf = true ↔ r.sa.legal (usedValue r.sa sa) = true ∧ r.sb.legal (usedValue r.sb sb) = true ∧
        r.w7.legal (usedValue r.w7 w7) = true) := by
  fin_cases hr <;> exact ⟨_, rfl, rfl, rfl, by simp [Instr.wf, FieldUse.legal, usedValue]⟩

section
variable {r : OpRow} {sa sb w7 : Nat} {i : Instr}

/-- The fields of a row are legal exactly when the decoder's two checks pass: the fields marked `0` are zero and the
command is well formed (R103, R104). -/
theorem legal_iff_wf (hr : r ∈ opTable) (hi : instrOf r.opc sa sb w7 = some i) :
    (r.sa.legal sa = true ∧ r.sb.legal sb = true ∧ r.w7.legal w7 = true) ↔
      ((r.sa = .zero → sa = 0) ∧ (r.sb = .zero → sb = 0) ∧ (r.w7 = .zero → w7 = 0)) ∧ i.wf = true := by
  obtain ⟨i', hi', -, -, hwf⟩ := exists_command_of_row hr sa sb w7
  obtain rfl := Option.some.inj (hi.symm.trans hi')
  rw [hwf, legal_iff_used (v := sa), legal_iff_used (v := sb), legal_iff_used (v := w7)]
  tauto

/-- The command of a row and its legal fields is encoded as they are packed (R110). -/
theorem encode_of_legal (hr : r ∈ opTable) (hi : instrOf r.opc sa sb w7 = some i) (hsa : r.sa.legal sa = true)
    (hsb : r.sb.legal sb = true) (hw7 : r.w7.legal w7 = true) : encode i = packWord r.opc sa sb w7 := by
  obtain ⟨i', hi', hopc, hops, -⟩ := exists_command_of_row hr sa sb w7
  obtain rfl := Option.some.inj (hi.symm.trans hi')
  rw [encode_eq_packWord, hopc, hops, usedValue_of_legal hsa, usedValue_of_legal hsb, usedValue_of_legal hw7]

end

/-- A command has a row, and its fields are legal there when it is well formed. -/
theorem exists_row_of_wf {i : Instr} (hwf : i.wf = true) : ∃ r ∈ opTable, r.opc = opcodeNumber i ∧
    r.sa.legal (operands i).sa = true ∧ r.sb.legal (operands i).sb = true ∧ r.w7.legal (operands i).w7 = true := by
  obtain ⟨r, hr, hopc⟩ := exists_row_of_lt _ (opcodeNumber_lt i)
  obtain ⟨i', hi, -, hops, hlegal⟩ := exists_command_of_row hr (operands i).sa (operands i).sb (operands i).w7
  rw [hopc, instrOf_operands] at hi
  obtain rfl := Option.some.inj hi
  have hfields := hlegal.mp hwf
  obtain ⟨hsa, hsb, hw7⟩ := Operands.mk.inj hops
  rw [← hsa, ← hsb, ← hw7] at hfields
  exact ⟨r, hr, hopc, hfields⟩

/-! ### The words that decode (R107, R108) -/

/-- A row takes a word: its opcode, RSV zero, every other field legal for the row. -/
structure Admits (r : OpRow) (c : CmdWord) : Prop where
  opc : r.opc = opcOf c
  rsv : rsvOf c = 0
  sa : r.sa.legal (saOf c) = true
  sb : r.sb.legal (sbOf c) = true
  w7 : r.w7.legal (w7Of c) = true

/-- A row takes a word of its opcode exactly when it passes the decoder's two checks. -/
theorem admits_iff {r : OpRow} {c : CmdWord} {i : Instr} (hr : r ∈ opTable) (hopc : r.opc = opcOf c)
    (hi : instrOf r.opc (saOf c) (sbOf c) (w7Of c) = some i) :
    Admits r c ↔ r.zeroFieldsOk c = true ∧ i.wf = true := by
  rw [zeroFieldsOk_iff, and_assoc, ← legal_iff_wf hr hi]
  exact ⟨fun h => ⟨h.rsv, h.sa, h.sb, h.w7⟩, fun ⟨hrsv, hsa, hsb, hw7⟩ => ⟨hopc, hrsv, hsa, hsb, hw7⟩⟩

/-- What the decoder answers for a word whose opcode has a row. -/
theorem decode_of_row {r : OpRow} {c : CmdWord} {i : Instr} (hr : r ∈ opTable) (hopc : r.opc = opcOf c)
    (hi : instrOf r.opc (saOf c) (sbOf c) (w7Of c) = some i) :
    decode c = if !r.zeroFieldsOk c then .error .nonzeroField
      else if i.wf then .ok i else .error .slotOutOfRange := by
  rw [hopc] at hi
  rw [decode, find_row_eq_some.mpr ⟨hr, hopc⟩, hi]

/-- A word decodes only if its opcode has a row. -/
theorem exists_row_of_decode {c : CmdWord} {i : Instr} (h : decode c = .ok i) :
    ∃ r ∈ opTable, r.opc = opcOf c := by
  unfold decode at h
  split at h
  · rename_i r _ hr _
    obtain ⟨hmem, hopc⟩ := find_row_eq_some.mp hr
    exact ⟨r, hmem, hopc⟩
  · exact nomatch h

/-- A word decodes to the command of the row that takes it. -/
theorem decode_eq_ok {c : CmdWord} {i : Instr} : decode c = .ok i ↔
    ∃ r ∈ opTable, Admits r c ∧ instrOf r.opc (saOf c) (sbOf c) (w7Of c) = some i := by
  constructor
  · intro h
    obtain ⟨r, hr, hopc⟩ := exists_row_of_decode h
    obtain ⟨i', hi, -⟩ := exists_command_of_row hr (saOf c) (sbOf c) (w7Of c)
    rw [decode_of_row hr hopc hi] at h
    split at h
    · exact nomatch h
    · rename_i hzero
      split at h
      · rename_i hwf
        obtain rfl := Except.ok.inj h
        exact ⟨r, hr, (admits_iff hr hopc hi).mpr ⟨by simpa using hzero, hwf⟩, hi⟩
      · exact nomatch h
  · rintro ⟨r, hr, hadm, hi⟩
    obtain ⟨hzero, hwf⟩ := (admits_iff hr hadm.opc hi).mp hadm
    rw [decode_of_row hr hadm.opc hi, hzero, hwf]
    rfl

/-- A word decodes exactly when a row takes it. -/
theorem exists_decode_iff {c : CmdWord} : (∃ i, decode c = .ok i) ↔ ∃ r ∈ opTable, Admits r c := by
  constructor
  · rintro ⟨i, h⟩
    obtain ⟨r, hr, hadm, -⟩ := decode_eq_ok.mp h
    exact ⟨r, hr, hadm⟩
  · rintro ⟨r, hr, hadm⟩
    obtain ⟨i, hi, -⟩ := exists_command_of_row hr (saOf c) (sbOf c) (w7Of c)
    exact ⟨i, decode_eq_ok.mpr ⟨r, hr, hadm, hi⟩⟩

/-- The encoding of a well-formed command holds its operands. -/
theorem operands_of_encode {i : Instr} (hwf : i.wf = true) : saOf (encode i) = (operands i).sa ∧
    sbOf (encode i) = (operands i).sb ∧ w7Of (encode i) = (operands i).w7 := by
  obtain ⟨r, hr, -, hsa, hsb, hw7⟩ := exists_row_of_wf hwf
  obtain ⟨husa, husb, -⟩ := opTable_uses r hr
  have := legal_lt_of_ne_width husa hsa
  have := legal_lt_of_ne_width husb hsb
  have := legal_lt hw7
  obtain ⟨ha, hb, hw⟩ := packWord_operands ((opcodeNumber_lt i).trans (by decide)) (operands i).sa (operands i).sb
    (operands i).w7
  rw [encode_eq_packWord, ha, hb, hw]
  omega

/-- The encoding of every command carries its opcode and zeros in RSV. -/
theorem opcodeField_statement (i : Instr) : OpcodeField.Statement i := by
  rw [OpcodeField.Statement, encode_eq_packWord]
  exact packWord_opcode ((opcodeNumber_lt i).trans (by decide)) _ _ _

/-- Settles O1: by `operands_of_encode` the command's row takes its encoding, which so decodes by `decode_eq_ok`. -/
theorem decodingAnEncodedCommandGivesItBack : Obligations.DecodingAnEncodedCommandGivesItBack := by
  intro i hwf
  obtain ⟨r, hr, hrow, hsa, hsb, hw7⟩ := exists_row_of_wf hwf
  obtain ⟨hopc, hrsv⟩ := opcodeField_statement i
  obtain ⟨ha, hb, hw⟩ := operands_of_encode hwf
  refine decode_eq_ok.mpr ⟨r, hr, ⟨hrow.trans hopc.symm, hrsv, ha ▸ hsa, hb ▸ hsb, hw ▸ hw7⟩, ?_⟩
  rw [hrow, ha, hb, hw]
  exact instrOf_operands i

/-- Settles O2: the row that takes the word packs the word's own fields, by `encode_of_legal`. -/
theorem encodingADecodedWordGivesItBack : Obligations.EncodingADecodedWordGivesItBack := by
  intro c i h
  obtain ⟨r, hr, hadm, hi⟩ := decode_eq_ok.mp h
  refine ⟨((admits_iff hr hadm.opc hi).mp hadm).2, ?_⟩
  rw [encode_of_legal hr hi hadm.sa hadm.sb hadm.w7, hadm.opc]
  exact packWord_fields hadm.rsv

/-- A row takes a word exactly when the word selects it with legal slots: any width is legal (R102). -/
theorem admits_iff_selects {r : OpRow} (hr : r ∈ opTable) (c : CmdWord) :
    Admits r c ↔ r.selects c = true ∧ r.sa.legal (saOf c) = true ∧ r.sb.legal (sbOf c) = true := by
  rw [selects_iff hr, zeroFieldsOk_iff]
  constructor
  · rintro ⟨hopc, hrsv, hsa, hsb, hw7⟩
    exact ⟨⟨hopc, hrsv, (legal_iff_used.mp hsa).1, (legal_iff_used.mp hsb).1, (legal_iff_used.mp hw7).1⟩, hsa, hsb⟩
  · rintro ⟨⟨hopc, hrsv, -, -, hzero⟩, hsa, hsb⟩
    refine ⟨hopc, hrsv, hsa, hsb, ?_⟩
    obtain ⟨-, -, hu | hu⟩ := opTable_uses r hr
    · rw [hu]
      exact decide_eq_true (hzero hu)
    · rw [hu]
      exact decide_eq_true (w7Of_lt c)

/-- Settles O3: two rows a word selects have its opcode, and a word decodes when a row takes it. -/
theorem legalWordsSelectExactlyOneRow : Obligations.LegalWordsSelectExactlyOneRow := by
  intro c
  constructor
  · intro r hr r' hr' hsel hsel'
    obtain ⟨hopc, -⟩ := (selects_iff hr c).mp hsel
    obtain ⟨hopc', -⟩ := (selects_iff hr' c).mp hsel'
    exact opTable_opc_inj hr hr' (hopc.trans hopc'.symm)
  · rw [exists_decode_iff]
    exact exists_congr fun r => and_congr_right fun hr => admits_iff_selects hr c

/-! ### Illegal words (R107) -/

/-- A row takes a word of its opcode exactly when RSV is zero and no field breaks the row. -/
theorem admits_iff_not_breaks {r : OpRow} {c : CmdWord} (hopc : r.opc = opcOf c) :
    Admits r c ↔ rsvOf c = 0 ∧ ¬(Machine.fieldBreaks r.sa (saOf c) ∨ Machine.fieldBreaks r.sb (sbOf c) ∨
      Machine.fieldBreaks r.w7 (w7Of c)) := by
  have hsa := legal_iff_not_breaks (u := r.sa) ((saOf_lt c).trans (by decide))
  have hsb := legal_iff_not_breaks (u := r.sb) ((sbOf_lt c).trans (by decide))
  have hw7 := legal_iff_not_breaks (u := r.w7) (w7Of_lt c)
  constructor
  · rintro ⟨-, hrsv, hla, hlb, hlw⟩
    exact ⟨hrsv, not_or.mpr ⟨hsa.mp hla, not_or.mpr ⟨hsb.mp hlb, hw7.mp hlw⟩⟩⟩
  · rintro ⟨hrsv, hkeep⟩
    obtain ⟨hka, hkeep⟩ := not_or.mp hkeep
    obtain ⟨hkb, hkw⟩ := not_or.mp hkeep
    exact ⟨hopc, hrsv, hsa.mpr hka, hsb.mpr hkb, hw7.mpr hkw⟩

/-- The illegal words are those that no row takes. -/
theorem illegalByRule_iff (c : CmdWord) : Machine.illegalByRule c ↔ ∀ r ∈ opTable, ¬Admits r c := by
  constructor
  · intro hill r hr hadm
    obtain ⟨hrsv, hkeep⟩ := (admits_iff_not_breaks hadm.opc).mp hadm
    obtain hopc | hbad | ⟨r', hr', hopc', hbreaks⟩ := hill
    · exact absurd (opTable_opc_lt r hr) (hadm.opc ▸ hopc.not_gt)
    · exact hbad hrsv
    · rw [opTable_opc_inj hr' hr (hopc'.trans hadm.opc.symm)] at hbreaks
      exact hkeep hbreaks
  · intro hnone
    by_contra hlegal
    obtain ⟨hopc, hrsv, hkeep⟩ : opcOf c < 0x17 ∧ rsvOf c = 0 ∧ _ := by
      simpa only [Machine.illegalByRule, not_or, not_le, not_not] using hlegal
    obtain ⟨r, hr, hrow⟩ := exists_row_of_lt _ hopc
    exact hnone r hr ((admits_iff_not_breaks hrow).mpr ⟨hrsv, fun hbreaks => hkeep ⟨r, hr, hrow, hbreaks⟩⟩)

/-- A word is illegal exactly when it does not decode (R108). -/
theorem illegalByRule_iff_not_decode (c : CmdWord) :
    Machine.illegalByRule c ↔ ¬∃ i, decode c = .ok i := by
  rw [exists_decode_iff, illegalByRule_iff]
  simp

end Sys2Proof.Laws

namespace Sys2Proof.Machine

/-- A word that does not decode raises IllegalCommand with the word (R107). -/
theorem issueCommand_of_error {c : CmdWord} {e : DecodeError} (h : decode c = .error e) (s : State) :
    issueCommand c s = .next (s.afterError .illegalCommand (c.setWidth 64)) := by
  have hinfo : toReg .errInfo c.toNat = c.setWidth 64 :=
    (toReg_of_lt .errInfo (c.isLt.trans (by decide))).trans (BitVec.ofNat_toNat 64 c)
  rw [issueCommand, h]
  show Host.Outcome.next (takeError s (illegalWord c)) = _
  rw [takeError_eq_afterError, illegalWord, hinfo]

/-- A write of CMD outside reset issues the command of its low 32 bits in that step (45_system.md R281). -/
theorem step_of_cmdWrite {s : State} {v : Word} {rest : List HostAction} (hhost : s.host = .writeReg 8 0x00 v :: rest)
    (hreset : s.inReset = false) : step s = issueCommand (v.setWidth 32) { s with host := rest } := by
  rw [step_of_host hhost]
  show writeCmd v (s.withHost rest) = _
  rw [writeCmd, if_neg (by simp [hreset])]
  rfl

/-- Settles O4: the illegal words are those that do not decode, and these raise their error as they are issued. -/
theorem illegalWordsRaiseIllegalCommand : Obligations.IllegalWordsRaiseIllegalCommand := by
  constructor
  · intro s v rest hhost hreset hill
    rw [step_of_cmdWrite hhost hreset]
    cases hdec : decode (v.setWidth 32) with
    | ok i => exact absurd ⟨i, hdec⟩ ((Laws.illegalByRule_iff_not_decode _).mp hill)
    | error e => exact issueCommand_of_error hdec _
  · intro c hlegal
    by_contra hdec
    exact hlegal ((Laws.illegalByRule_iff_not_decode c).mpr hdec)

/-- Settles O5: each word is a literal and decodes by computation. -/
theorem sampleWordsDecodeAsWritten : Obligations.SampleWordsDecodeAsWritten :=
  ⟨rfl, rfl, rfl, rfl, rfl, rfl, rfl, rfl, rfl, rfl, rfl, rfl, rfl, rfl⟩

end Sys2Proof.Machine

/-! PROOF. The bit writer's commands (40_bitwriter.md R130 to R135; 20_memory.md R75): O23 to O27. -/

namespace Sys2Proof.Machine

/-! ### The two ends of a command, as the statements say them -/

/-- A command whose effect fails raises that error and changes nothing else. -/
theorem raises_of_effectOf {i : Instr} {s : State} {e : CmdError} (h : effectOf i s = .error e) :
    Raises i s e.kind (toReg .errInfo e.info) := by
  rw [Raises, exec_eq_complete, h, complete_error, takeError_eq_afterError]

/-- A command whose effect succeeds ends with it and LAST_ERR cleared. -/
theorem exec_of_effectOf {i : Instr} {s u : State} (h : effectOf i s = .ok u) : exec i s = .next (clearError u) := by
  rw [exec_eq_complete, h, complete_ok]

/-! ### WINIT (R130) -/

/-- Settles O23: the region check decides between the opened stream and AddressError. -/
theorem winitOpensAStream : Obligations.WinitOpensAStream := by
  refine ⟨rfl, fun s => ⟨fun hregion => ?_, fun hregion => ?_⟩⟩
  · have hok : effectOf .winit s = .ok (s.withWriter
        { mode := .opened, base := s.op0, cap := s.op1, words := 0, acc := 0, free := 64, finalLen := 0 }) := by
      show winitEffect s = _
      rw [winitEffect, check_pos hregion, bind_ok]
    exact exec_of_effectOf hok
  · have herr : effectOf .winit s = .error (addressError s.op0.toNat) := by
      show winitEffect s = _
      rw [winitEffect, check_neg hregion.not_ge, bind_error]
    rw [← toReg_toNat .errInfo s.op0]
    exact raises_of_effectOf herr

/-! ### The checks of WBITS, in order (R131) -/

section Wbits
variable {s : State} {w : Nat}

theorem effectOf_wbits_of_gt (hopened : s.writer.mode ≠ .idle) (hw : 64 < w) :
    effectOf (.wbits w) s = .error { kind := .bitWidth, info := w } := by
  show wbitsEffect w s = _
  rw [wbitsEffect, check_pos hopened, bind_ok, checkWidth, check_neg hw.not_ge, bind_error]

theorem effectOf_wbits_of_closed (hw : w ≤ 64) (hclosed : s.writer.mode = .closed) :
    effectOf (.wbits w) s = .error { kind := .writerClosed, info := 0 } := by
  show wbitsEffect w s = _
  rw [wbitsEffect, check_pos (by simp [hclosed]), bind_ok, checkWidth, check_pos hw, bind_ok,
    check_neg (fun hne => hne hclosed), bind_error]

/-- On an open stream a legal width is left with the capacity check, and width 0 with nothing. -/
theorem effectOf_wbits_of_opened (hopen : s.writer.mode = .opened) (hw : w ≤ 64) :
    effectOf (.wbits w) s = if w = 0 then .ok s else
      check (s.writer.total + w ≤ 8 * s.writer.cap.toNat) { kind := .capacity, info := s.writer.total + w } >>=
        fun _ => .ok (s.appendBits w (lowBits w s.op0.toNat)) := by
  show wbitsEffect w s = _
  rw [wbitsEffect, check_pos (by simp [hopen]), bind_ok, checkWidth, check_pos hw, bind_ok,
    check_pos (by simp [hopen]), bind_ok]

theorem effectOf_wbits_of_full (hopen : s.writer.mode = .opened) (hw : w ≤ 64) (hw1 : 1 ≤ w)
    (hfull : 8 * s.writer.cap.toNat < s.writer.total + w) :
    effectOf (.wbits w) s = .error { kind := .capacity, info := s.writer.total + w } := by
  rw [effectOf_wbits_of_opened hopen hw, if_neg (Nat.ne_of_gt hw1), check_neg hfull.not_ge, bind_error]

end Wbits

/-- Settles O25: the width check stands before the check for a closed stream, and this one before the case of width
0. -/
theorem wbitsChecksWidthThenClosed : Obligations.WbitsChecksWidthThenClosed := by
  intro s w hopened hlt
  refine ⟨fun hwide => ?_, fun hw hclosed => ?_⟩
  · rw [← toReg_of_lt .errInfo (hlt.trans (by decide))]
    exact raises_of_effectOf (effectOf_wbits_of_gt hopened hwide)
  · exact raises_of_effectOf (effectOf_wbits_of_closed hw hclosed)

/-! ### Appending a field (R131, R132) -/

theorem lowBits_zero (v : Nat) : lowBits 0 v = 0 := Nat.mod_one v

theorem lowBits_lt (n v : Nat) : lowBits n v < 2 ^ n := Nat.mod_lt _ (Nat.two_pow_pos n)

section Append
variable {s : State} {n v : Nat}

/-- A field shorter than the free part of the accumulator goes there whole. -/
theorem appendBits_of_lt (hn : n < s.writer.free) (v : Nat) : s.appendBits n v = s.withWriter
    { s.writer with
      acc := s.writer.acc ||| BitVec.ofNat 64 (v <<< (s.writer.free - n)), free := s.writer.free - n } := if_pos hn

/-- A longer one completes the word, which is stored, and starts the next. -/
theorem appendBits_of_le (hn : s.writer.free ≤ n) (v : Nat) : s.appendBits n v =
    (s.writeBytes s.writer.wordAddr (beBytes (s.writer.filledAcc n v))).withWriter
      { s.writer with
        words := s.writer.words + 1
        acc := BitVec.ofNat 64 (lowBits (n - s.writer.free) v <<< (64 - (n - s.writer.free)))
        free := 64 - (n - s.writer.free) } := by
  refine (if_neg hn.not_gt).trans ?_
  dsimp only
  split
  · rename_i hwhole
    rw [hwhole, lowBits_zero, Nat.zero_shiftLeft]
    rfl
  · rfl

/-- Appending no bits changes nothing, so that WBITS treats width 0 like any other. -/
theorem appendBits_zero (hfree : 1 ≤ s.writer.free) : s.appendBits 0 0 = s := by
  rw [appendBits_of_lt hfree]
  simp [State.withWriter]

theorem effectOf_wbits_of_room (hw : s.writer.Ok s.params.dmemSize) (hopen : s.writer.mode = .opened) (hn : n ≤ 64)
    (hroom : s.writer.total + n ≤ 8 * s.writer.cap.toNat) :
    effectOf (.wbits n) s = .ok (s.appendBits n (lowBits n s.op0.toNat)) := by
  rw [effectOf_wbits_of_opened hopen hn, check_pos hroom, bind_ok]
  split
  · rename_i hzero
    rw [hzero, lowBits_zero, appendBits_zero hw.1]
  · rfl

/-- Appending changes DMEM, W_WORDS, W_ACC and W_FREE alone. -/
theorem appendBits_frame (s : State) (n v : Nat) : s.appendBits n v =
    { s with
      writer := { s.writer with
        words := (s.appendBits n v).writer.words
        acc := (s.appendBits n v).writer.acc
        free := (s.appendBits n v).writer.free }
      dmem := (s.appendBits n v).dmem } := by
  by_cases hn : n < s.writer.free
  · rw [appendBits_of_lt hn]
    rfl
  · rw [appendBits_of_le (Nat.not_lt.mp hn)]
    rfl

theorem appendBits_total {size : Nat} (hw : s.writer.Ok size) (hn : n ≤ 64) (v : Nat) :
    (s.appendBits n v).writer.total = s.writer.total + n := by
  obtain ⟨hfree1, hfree, -⟩ := hw
  by_cases hlt : n < s.writer.free
  · rw [appendBits_of_lt hlt]
    simp only [Writer.total, State.withWriter_writer]
    omega
  · rw [appendBits_of_le (Nat.not_lt.mp hlt)]
    simp only [Writer.total, State.withWriter_writer]
    omega

/-- It stores to the eight bytes of the current word alone. -/
theorem readByte_appendBits_of_not_inRegion {a : Nat} (ha : ¬inRegion a s.writer.wordAddr 8) (n v : Nat) :
    (s.appendBits n v).readByte a = s.readByte a := by
  by_cases hn : n < s.writer.free
  · rw [appendBits_of_lt hn]
    rfl
  · rw [appendBits_of_le (Nat.not_lt.mp hn)]
    exact (readByte_writeBytes s _ _ _).trans (if_neg ha)

end Append

/-! ### Bits of words, and of words in DMEM (20_memory.md R74, R75) -/

/-- Only the low n bits of a number matter to its n-bit string. -/
theorem bitsOf_lowBits (n v : Nat) : bitsOf n (lowBits n v) = bitsOf n v := by
  refine List.map_congr_left fun i hi => ?_
  rw [List.mem_range] at hi
  rw [lowBits, Nat.testBit_mod_two_pow, decide_eq_true (by omega), Bool.true_and]

/-- A bit string of k + r bits is that of its high k bits and that of its low r bits. -/
theorem bitsOf_add (k r v : Nat) : bitsOf (k + r) v = bitsOf k (v >>> r) ++ bitsOf r v := by
  rw [bitsOf, List.range_add, List.map_append, List.map_map]
  congr 1
  · refine List.map_congr_left fun i hi => ?_
    rw [List.mem_range] at hi
    rw [Nat.testBit_shiftRight]
    congr 1
    omega
  · refine List.map_congr_left fun i _ => ?_
    show v.testBit (k + r - 1 - (k + i)) = _
    congr 1
    omega

theorem take_bitsOf {m n : Nat} (h : m ≤ n) (v : Nat) :
    (bitsOf n v).take m = (List.range m).map fun i => v.testBit (n - 1 - i) := by
  rw [bitsOf, ← List.map_take, List.take_range, Nat.min_eq_left h]

/-- A number whose low `k` bits are 0 has each of them 0. -/
theorem testBit_of_mod_eq_zero {a j k : Nat} (ha : a % 2 ^ k = 0) (hj : j < k) : a.testBit j = false := by
  have hbit : (a % 2 ^ k).testBit j = a.testBit j := by
    rw [Nat.testBit_mod_two_pow, decide_eq_true hj, Bool.true_and]
  rw [← hbit, ha, Nat.zero_testBit]

/-- The bits of an accumulator after a field of `n` bits is put below those in use: the bits in use, then the field. -/
theorem take_bitsOf_or_shifted {acc : Word} {free n v : Nat} (hfree : free ≤ 64) (hacc : acc.toNat % 2 ^ free = 0)
    (hn : n ≤ free) (hv : v < 2 ^ n) :
    (bitsOf 64 (acc ||| BitVec.ofNat 64 (v <<< (free - n))).toNat).take (64 - (free - n)) =
      (bitsOf 64 acc.toNat).take (64 - free) ++ bitsOf n v := by
  have hbit : ∀ j < 64, (acc ||| BitVec.ofNat 64 (v <<< (free - n))).toNat.testBit j =
      (acc.toNat.testBit j || (decide (free - n ≤ j) && v.testBit (j - (free - n)))) := by
    intro j hj
    rw [BitVec.toNat_or, Nat.testBit_or, BitVec.toNat_ofNat, Nat.testBit_mod_two_pow, decide_eq_true hj,
      Bool.true_and, Nat.testBit_shiftLeft]
  rw [take_bitsOf (by omega), take_bitsOf (by omega), bitsOf, show 64 - (free - n) = 64 - free + n by omega,
    List.range_add, List.map_append, List.map_map]
  congr 1
  · refine List.map_congr_left fun i hi => ?_
    rw [List.mem_range] at hi
    have hhigh : v.testBit (64 - 1 - i - (free - n)) = false :=
      Nat.testBit_lt_two_pow (hv.trans_le (Nat.pow_le_pow_right (by decide) (by omega)))
    rw [hbit _ (by omega), hhigh, Bool.and_false, Bool.or_false]
  · refine List.map_congr_left fun i hi => ?_
    rw [List.mem_range] at hi
    show Nat.testBit _ (64 - 1 - (64 - free + i)) = _
    rw [hbit _ (by omega), testBit_of_mod_eq_zero hacc (by omega), decide_eq_true (by omega), Bool.false_or,
      Bool.true_and]
    congr 1
    omega

/-- The bits of a byte of a stored word (R75). -/
theorem getLsbD_beBytes {j : Nat} (hj : j < 64) (w : Word) :
    ((beBytes w).getD (j / 8) 0).getLsbD (7 - j % 8) = w.toNat.testBit (63 - j) := by
  have hget : (beBytes w).getD (j / 8) 0 = BitVec.ofNat 8 (w.toNat / 2 ^ (56 - 8 * (j / 8))) := by
    rw [List.getD_eq_getElem _ _ (by rw [length_beBytes]; omega)]
    simp [beBytes]
  rw [hget, BitVec.getLsbD_ofNat, decide_eq_true (by omega), Bool.true_and, Nat.testBit_div_two_pow]
  congr 1
  omega

/-- Past its data a stream reads 0 (R76). -/
theorem streamBit_of_le {base len i : Nat} (s : State) (h : 8 * len ≤ i) : s.streamBit base len i = false :=
  if_neg h.not_gt

/-- `s` after the first `k` bytes of the word `w` are stored behind the `len` bytes at `base`. -/
abbrev State.storeBehind (s : State) (base len k : Nat) (w : Word) : State :=
  s.writeBytes (base + len) ((beBytes w).take k)

section Store
variable {base len k : Nat} (s : State) (w : Word)

/-- The stream before the stored bytes is kept. -/
theorem streamBit_storeBehind_old {i : Nat} (hi : i < 8 * len) :
    (s.storeBehind base len k w).streamBit base (len + k) i = s.streamBit base len i := by
  rw [State.streamBit, State.streamBit, if_pos (by omega), if_pos hi, readByte_writeBytes, if_neg (by omega)]

/-- It goes on with the word's bits, as many as are stored. -/
theorem streamBit_storeBehind_new {j : Nat} (hk : k ≤ 8) (hj : j < 8 * k) :
    (s.storeBehind base len k w).streamBit base (len + k) (8 * len + j) = w.toNat.testBit (63 - j) := by
  have hbyte : (8 * len + j) / 8 = len + j / 8 := by omega
  have hstored : base + (len + j / 8) - (base + len) = j / 8 := by omega
  have hget : ((beBytes w).take k).getD (j / 8) 0 = (beBytes w).getD (j / 8) 0 := by
    rw [List.getD_eq_getElem?_getD, List.getD_eq_getElem?_getD, List.getElem?_take_of_lt (by omega)]
  rw [State.streamBit, if_pos (by omega), readByte_writeBytes, hbyte, hstored, hget, List.length_take, length_beBytes,
    if_pos (by omega), Nat.mul_add_mod, getLsbD_beBytes (by omega)]

/-- The stream after the stored bytes: as before, then the word's bits. -/
theorem streamBits_storeBehind {m : Nat} (hk : k ≤ 8) (hm : m ≤ 8 * k) :
    (s.storeBehind base len k w).streamBits base (len + k) 0 (8 * len + m) =
      s.streamBits base len 0 (8 * len) ++ (bitsOf 64 w.toNat).take m := by
  rw [take_bitsOf (by omega), State.streamBits, State.streamBits, List.range_add, List.map_append, List.map_map]
  congr 1
  · refine List.map_congr_left fun i hi => ?_
    rw [List.mem_range] at hi
    rw [Nat.zero_add]
    exact streamBit_storeBehind_old s w hi
  · refine List.map_congr_left fun j hj => ?_
    rw [List.mem_range] at hj
    show State.streamBit _ _ _ (0 + (8 * len + j)) = _
    rw [Nat.zero_add]
    exact streamBit_storeBehind_new s w hk (by omega)

end Store

/-! ### The stream after an append (R131, R132): O24 -/

section Stream
variable {s : State} {size n v : Nat}

/-- A field that does not complete the word lengthens the accumulator's part of the stream. -/
theorem writtenBits_appendBits_of_lt (hw : s.writer.Ok size) (hn : n < s.writer.free) (hv : v < 2 ^ n) :
    (s.appendBits n v).writtenBits = s.writtenBits ++ bitsOf n v := by
  obtain ⟨-, hfree, hacc, -⟩ := hw
  rw [appendBits_of_lt hn, State.writtenBits, State.writtenBits, List.append_assoc,
    ← take_bitsOf_or_shifted hfree hacc hn.le hv]
  rfl

/-- The stored words after a word more: as before, then its bits. -/
theorem streamBits_storeWord (s : State) (base words : Nat) (w : Word) :
    (s.writeBytes (base + 8 * words) (beBytes w)).streamBits base (8 * (words + 1)) 0 (64 * (words + 1)) =
      s.streamBits base (8 * words) 0 (64 * words) ++ bitsOf 64 w.toNat := by
  have hstore := streamBits_storeBehind (base := base) (len := 8 * words) s w le_rfl (le_refl (8 * 8))
  rw [State.storeBehind, ← Nat.mul_assoc, List.take_of_length_le (length_beBytes w).le,
    List.take_of_length_le (length_bitsOf _ _).le] at hstore
  exact hstore

/-- The completed word: the bits that were in use, then the high bits of the field. -/
theorem bitsOf_filledAcc {w : Writer} (hw : w.Ok size) (hn : w.free ≤ n) (hv : v < 2 ^ n) :
    bitsOf 64 (w.filledAcc n v).toNat =
      (bitsOf 64 w.acc.toNat).take (64 - w.free) ++ bitsOf w.free (v >>> (n - w.free)) := by
  obtain ⟨-, hfree, hacc, -⟩ := hw
  have hhigh : v >>> (n - w.free) < 2 ^ w.free := by
    rw [Nat.shiftRight_eq_div_pow]
    refine Nat.div_lt_of_lt_mul ?_
    rwa [← Nat.pow_add, Nat.sub_add_cancel hn]
  have hfill := take_bitsOf_or_shifted hfree hacc le_rfl hhigh
  rwa [Nat.sub_self, Nat.shiftLeft_zero, List.take_of_length_le (length_bitsOf _ _).le] at hfill

/-- The accumulator that a field starts: the field. -/
theorem take_bitsOf_shifted {r : Nat} (hr : r ≤ 64) (hv : v < 2 ^ r) :
    (bitsOf 64 (BitVec.ofNat 64 (v <<< (64 - r))).toNat).take (64 - (64 - r)) = bitsOf r v := by
  have hstart := take_bitsOf_or_shifted (acc := 0#64) le_rfl rfl hr hv
  rwa [BitVec.zero_or, Nat.sub_self, List.take_zero, List.nil_append] at hstart

/-- A field that completes the word is split: its high bits in the word stored, its low bits in the accumulator. -/
theorem writtenBits_appendBits_of_le (hw : s.writer.Ok size) (hn : s.writer.free ≤ n) (hn64 : n ≤ 64)
    (hv : v < 2 ^ n) : (s.appendBits n v).writtenBits = s.writtenBits ++ bitsOf n v := by
  rw [appendBits_of_le hn]
  calc
    _ = State.streamBits _ s.writer.base.toNat (8 * (s.writer.words + 1)) 0 (64 * (s.writer.words + 1)) ++
          (bitsOf 64 (BitVec.ofNat 64 (lowBits (n - s.writer.free) v <<< (64 - (n - s.writer.free)))).toNat).take
            (64 - (64 - (n - s.writer.free))) := rfl
    _ = (s.streamBits s.writer.base.toNat (8 * s.writer.words) 0 (64 * s.writer.words) ++
          ((bitsOf 64 s.writer.acc.toNat).take (64 - s.writer.free) ++
            bitsOf s.writer.free (v >>> (n - s.writer.free)))) ++ bitsOf (n - s.writer.free) v := by
      rw [take_bitsOf_shifted (by omega) (lowBits_lt _ _), bitsOf_lowBits,
        ← bitsOf_filledAcc hw hn hv, ← streamBits_storeWord]
      rfl
    _ = s.writtenBits ++ bitsOf (s.writer.free + (n - s.writer.free)) v := by
      simp only [bitsOf_add, State.writtenBits, List.append_assoc]
    _ = s.writtenBits ++ bitsOf n v := by rw [Nat.add_sub_cancel' hn]

theorem writtenBits_appendBits (hw : s.writer.Ok size) (hn : n ≤ 64) (hv : v < 2 ^ n) :
    (s.appendBits n v).writtenBits = s.writtenBits ++ bitsOf n v := by
  by_cases hlt : n < s.writer.free
  · exact writtenBits_appendBits_of_lt hw hlt hv
  · exact writtenBits_appendBits_of_le hw (Nat.not_lt.mp hlt) hn hv

end Stream

/-- Settles O24: WBITS appends the field by `appendBits`, of which each clause is a lemma. -/
theorem wbitsAppendsToTheStream : Obligations.WbitsAppendsToTheStream := by
  intro s w hw hopen hle hroom
  refine ⟨_, exec_of_effectOf (effectOf_wbits_of_room hw hopen hle hroom), ?_, ?_,
    congrArg State.writer (appendBits_frame s w _), appendBits_total hw hle _, fun hlt => ?_,
    fun a ha => readByte_appendBits_of_not_inRegion ha w _⟩
  · rw [appendBits_frame]
    rfl
  · rw [← bitsOf_lowBits]
    exact writtenBits_appendBits hw hle (lowBits_lt _ _)
  · rw [appendBits_of_lt hlt]
    rfl

/-! ### Closing the stream (R133, R134): O26 -/

/-- The byte length of the stream: the stored words and the bytes of the partial one. -/
theorem Writer.byteLen_eq (w : Writer) : (w.total + 7) / 8 = 8 * w.words + (64 - w.free + 7) / 8 := by
  unfold Writer.total
  omega

theorem closeWriter_total (s : State) : s.closeWriter.writer.total = s.writer.total := rfl

/-- Closing changes DMEM, W_STATE and W_FINAL_LEN alone. -/
theorem closeWriter_frame (s : State) : s.closeWriter =
    { s with
      writer := { s.writer with mode := .closed, finalLen := (s.writer.total + 7) / 8 }
      dmem := s.closeWriter.dmem } := rfl

section Close
variable {s : State}

/-- The region then holds the stream. -/
theorem streamBits_closeWriter (s : State) :
    s.closeWriter.streamBits s.writer.base.toNat ((s.writer.total + 7) / 8) 0 s.writer.total = s.writtenBits := by
  have hstore := streamBits_storeBehind (base := s.writer.base.toNat) (len := 8 * s.writer.words)
    (k := (64 - s.writer.free + 7) / 8) (m := 64 - s.writer.free) s s.writer.acc (by omega) (by omega)
  rw [← Nat.mul_assoc] at hstore
  rw [s.writer.byteLen_eq]
  exact hstore

/-- Behind the stream it holds zero bits. -/
theorem streamBit_closeWriter_of_le {size b : Nat} (hw : s.writer.Ok size) (hb : s.writer.total ≤ b) :
    s.closeWriter.streamBit s.writer.base.toNat ((s.writer.total + 7) / 8) b = false := by
  obtain ⟨-, -, hacc, -⟩ := hw
  by_cases hin : b < 8 * ((s.writer.total + 7) / 8)
  · rw [s.writer.byteLen_eq] at hin ⊢
    unfold Writer.total at hb
    obtain ⟨j, rfl⟩ : ∃ j, b = 8 * (8 * s.writer.words) + j := ⟨b - 8 * (8 * s.writer.words), by omega⟩
    refine (streamBit_storeBehind_new s s.writer.acc (by omega) (by omega)).trans ?_
    exact testBit_of_mod_eq_zero hacc (by omega)
  · exact streamBit_of_le _ (Nat.not_lt.mp hin)

/-- Closing stores to the bytes of the partial word alone. -/
theorem readByte_closeWriter_of_not_inRegion {a : Nat}
    (ha : ¬inRegion a s.writer.wordAddr ((s.writer.total + 7) / 8 - 8 * s.writer.words)) :
    s.closeWriter.readByte a = s.readByte a := by
  refine (readByte_writeBytes s _ _ _).trans (if_neg fun hin => ha ?_)
  have hlen : s.writer.partialBytes.length ≤ (64 - s.writer.free + 7) / 8 := List.length_take_le _ _
  rw [s.writer.byteLen_eq]
  exact ⟨hin.1, by omega⟩

theorem effectOf_wfinish_of_opened (hopen : s.writer.mode = .opened) :
    effectOf .wfinish s = .ok s.closeWriter.reportStream := by
  show wfinishEffect s = _
  rw [wfinishEffect, hopen]

theorem effectOf_wfinish_of_closed (hclosed : s.writer.mode = .closed) : effectOf .wfinish s = .ok s.reportStream := by
  show wfinishEffect s = _
  rw [wfinishEffect, hclosed]

/-- Lengths that fit their registers are reported as they are. -/
theorem reportStream_eq (hlen : s.writer.finalLen = (s.writer.total + 7) / 8) (hfit : s.writer.total < 2 ^ 64) :
    s.reportStream =
      (s.withRes0 (BitVec.ofNat 64 ((s.writer.total + 7) / 8))).withRes1 (BitVec.ofNat 64 s.writer.total) := by
  rw [State.reportStream, hlen, toReg_of_lt _ hfit, toReg_of_lt _ (by omega)]

end Close

/-- Settles O26: an open stream is closed and reported, a closed one reported with the length its invariant gives. -/
theorem wfinishStoresAndReportsTheStream : Obligations.WfinishStoresAndReportsTheStream := by
  intro s hw hfit
  constructor
  · intro hopen
    have hexec := exec_of_effectOf (effectOf_wfinish_of_opened hopen)
    rw [reportStream_eq (s := s.closeWriter) rfl hfit, closeWriter_total] at hexec
    refine ⟨_, hexec, ?_, ?_, fun b hb => ?_, fun a ha => ?_⟩
    · rw [closeWriter_frame]
      rfl
    · exact streamBits_closeWriter s
    · exact streamBit_closeWriter_of_le hw hb
    · exact readByte_closeWriter_of_not_inRegion ha
  · intro hclosed
    obtain ⟨-, -, -, -, -, hlen, -⟩ := hw
    rw [exec_of_effectOf (effectOf_wfinish_of_closed hclosed), reportStream_eq (hlen hclosed) hfit]
    rfl

/-! ### The writer's region (R135): O27 -/

section Region
variable {s : State} {size a : Nat}

/-- A field that fits the capacity is stored inside the region. -/
theorem readByte_appendBits_of_not_inCap {n : Nat} (hw : s.writer.Ok size)
    (hroom : s.writer.total + n ≤ 8 * s.writer.cap.toNat)
    (ha : ¬inRegion a s.writer.base.toNat s.writer.cap.toNat) (v : Nat) :
    (s.appendBits n v).readByte a = s.readByte a := by
  obtain ⟨-, hfree, -⟩ := hw
  by_cases hlt : n < s.writer.free
  · rw [appendBits_of_lt hlt]
    rfl
  · refine readByte_appendBits_of_not_inRegion (fun hin => ha ?_) n v
    unfold Writer.total at hroom
    unfold Writer.wordAddr at hin
    exact ⟨by omega, by omega⟩

/-- The partial word is stored inside the region. -/
theorem readByte_closeWriter_of_not_inCap (hw : s.writer.Ok size)
    (ha : ¬inRegion a s.writer.base.toNat s.writer.cap.toNat) : s.closeWriter.readByte a = s.readByte a := by
  obtain ⟨-, -, -, -, hfits, -⟩ := hw
  refine readByte_closeWriter_of_not_inRegion fun hin => ha ?_
  unfold Writer.wordAddr at hin
  exact ⟨by omega, by omega⟩

/-- No writer command that succeeds stores a byte outside the region. -/
theorem effectOf_writer_readByte {i : Instr} {u : State} (hi : isWriterCommand i = true) (hw : s.writer.Ok size)
    (h : effectOf i s = .ok u) (ha : ¬inRegion a s.writer.base.toNat s.writer.cap.toNat) :
    u.readByte a = s.readByte a := by
  cases i with
  | winit => obtain ⟨-, rfl⟩ := winitEffect_ok h; rfl
  | wbits n =>
    obtain ⟨-, -, rfl | ⟨hroom, rfl⟩⟩ := wbitsEffect_ok h
    · rfl
    · exact readByte_appendBits_of_not_inCap hw hroom ha _
  | wfinish =>
    obtain ⟨-, rfl⟩ | rfl := wfinishEffect_ok h
    · exact readByte_closeWriter_of_not_inCap hw ha
    · rfl
  | _ => exact nomatch hi

end Region

/-- Settles O27: a field that does not fit fails the capacity check, and what a writer command stores lies in the region
by `effectOf_writer_readByte`. -/
theorem writerStaysInItsRegion : Obligations.WriterStaysInItsRegion := by
  constructor
  · intro s w hopen hw1 hw64 hfull hfit
    rw [← toReg_of_lt .errInfo hfit]
    exact raises_of_effectOf (effectOf_wbits_of_full hopen hw64 hw1 hfull)
  · intro s t i a hi hw h ha
    obtain ⟨u, hu, rfl⟩ | ⟨e, -, rfl⟩ := exec_eq_next h
    · show u.readByte a = _
      exact effectOf_writer_readByte hi hw hu ha
    · rfl

end Sys2Proof.Machine

/-! PROOF. The bit reader's commands (41_bitreader.md R150 to R156): O28 to O31. -/

namespace Sys2Proof.Machine

/-! ### RINIT (R150) -/

/-- Settles O28: the check for an empty region stands before the region check, and both before the new reader. -/
theorem rinitOpensAReader : Obligations.RinitOpensAReader := by
  refine ⟨rfl, fun s => ⟨fun hempty => ?_, fun hlen hregion => ?_, fun hlen hregion => ?_⟩⟩
  · have herr : effectOf .rinit s = .error { kind := .inputEmpty, info := 0 } := by
      show rinitEffect s = _
      rw [rinitEffect, check_neg (fun hlen => hlen hempty), bind_error]
    exact raises_of_effectOf herr
  · have herr : effectOf .rinit s = .error (addressError s.op0.toNat) := by
      show rinitEffect s = _
      rw [rinitEffect, check_pos hlen, bind_ok, check_neg hregion.not_ge, bind_error]
    rw [← toReg_toNat .errInfo s.op0]
    exact raises_of_effectOf herr
  · have hok : effectOf .rinit s =
        .ok (s.withReader { isOpen := true, base := s.op0, len := s.op1, pos := 0 }) := by
      show rinitEffect s = _
      rw [rinitEffect, check_pos hlen, bind_ok, check_pos hregion, bind_ok]
    exact exec_of_effectOf hok

/-! ### What RPEEK, RMATCH and RADV share: their words and their first two checks (R152, R154, R156) -/

/-- The word of a command with a width and no slots (30_encoding.md R101). -/
theorem packWord_of_width {opc n : Nat} (hopc : opc < 256) (hn : n < 128) :
    packWord opc 0 0 n = BitVec.ofNat 32 (opc + n * 2 ^ 14) := by
  refine congrArg (BitVec.ofNat 32) ?_
  omega

/-- `body` behind the checks of a reader command: the reader is open, then the width is at most 64. -/
def State.readerChecked (s : State) (opc n : Nat) (body : Except CmdError State) : Except CmdError State :=
  s.checkReader opc >>= fun _ => checkWidth n >>= fun _ => body

theorem effectOf_rpeek (s : State) (n : Nat) :
    effectOf (.rpeek n) s = s.readerChecked 0x05 n (.ok (s.withRes0 (BitVec.ofNat 64 (s.peekVal n)))) := rfl

theorem effectOf_rmatch (s : State) (n : Nat) : effectOf (.rmatch n) s =
    s.readerChecked 0x06 n (.ok (s.withRes0 (if s.peekVal n = lowBits n s.op0.toNat then 1 else 0))) := rfl

theorem effectOf_radv (s : State) (n : Nat) : effectOf (.radv n) s = s.readerChecked 0x07 n
    (check (s.reader.pos + n ≤ 8 * s.reader.len.toNat) { kind := .readOverrun, info := s.reader.pos + n } >>=
      fun _ => .ok (s.withReader { s.reader with pos := s.reader.pos + n })) := rfl

section ReaderChecked
variable {s : State} {opc n : Nat} {body : Except CmdError State} {i : Instr}

theorem readerChecked_of_open (hopen : s.reader.isOpen = true) (hn : n ≤ 64) : s.readerChecked opc n body = body := by
  rw [State.readerChecked, State.checkReader, check_pos hopen, bind_ok, checkWidth, check_pos hn, bind_ok]

theorem raises_stateError_of_closed (hi : effectOf i s = s.readerChecked opc n body) (hopc : opc < 256)
    (hclosed : s.reader.isOpen = false) : Raises i s .stateError (BitVec.ofNat 64 opc) := by
  have herr : effectOf i s = .error (wrongState opc) := by
    rw [hi, State.readerChecked, State.checkReader, check_neg (by simp [hclosed]), bind_error]
  rw [← toReg_of_lt .errInfo (hopc.trans (by decide))]
  exact raises_of_effectOf herr

theorem raises_bitWidth_of_wide (hi : effectOf i s = s.readerChecked opc n body) (hlt : n < 128)
    (hopen : s.reader.isOpen = true) (hwide : 64 < n) : Raises i s .bitWidth (BitVec.ofNat 64 n) := by
  have herr : effectOf i s = .error { kind := .bitWidth, info := n } := by
    rw [hi, State.readerChecked, State.checkReader, check_pos hopen, bind_ok, checkWidth, check_neg hwide.not_ge,
      bind_error]
  rw [← toReg_of_lt .errInfo (hlt.trans (by decide))]
  exact raises_of_effectOf herr

end ReaderChecked

/-! ### The next bits of the stream -/

/-- Two numbers have the same n-bit string exactly when they agree below 2^n. -/
theorem bitsOf_eq_bitsOf_iff {n v w : Nat} : bitsOf n v = bitsOf n w ↔ lowBits n v = lowBits n w := by
  constructor
  · intro h
    refine Nat.eq_of_testBit_eq fun j => ?_
    rw [lowBits, lowBits, Nat.testBit_mod_two_pow, Nat.testBit_mod_two_pow]
    by_cases hj : j < n
    · have hbit := List.map_inj_left.mp h (n - 1 - j) (List.mem_range.mpr (by omega))
      rw [show n - 1 - (n - 1 - j) = j by omega] at hbit
      rw [hbit]
    · rw [decide_eq_false hj, Bool.false_and, Bool.false_and]
  · intro h
    rw [← bitsOf_lowBits, h, bitsOf_lowBits]

section PeekVal
variable (s : State) (n : Nat)

theorem peekVal_lt : s.peekVal n < 2 ^ n := by
  have h := valOf_lt (s.streamBits s.reader.base.toNat s.reader.len.toNat s.reader.pos n)
  rwa [length_streamBits] at h

theorem bitsOf_peekVal :
    bitsOf n (s.peekVal n) = s.streamBits s.reader.base.toNat s.reader.len.toNat s.reader.pos n := by
  have h := bitsOf_valOf (s.streamBits s.reader.base.toNat s.reader.len.toNat s.reader.pos n)
  rwa [length_streamBits] at h

/-- A number agrees with the next n bits exactly when each of its low n bits, the highest first, is the stream's. -/
theorem peekVal_eq_lowBits_iff (v : Nat) : s.peekVal n = lowBits n v ↔ ∀ b < n,
    s.streamBit s.reader.base.toNat s.reader.len.toNat (s.reader.pos + b) = v.testBit (n - 1 - b) := by
  have hlow : lowBits n (s.peekVal n) = s.peekVal n := Nat.mod_eq_of_lt (peekVal_lt s n)
  calc s.peekVal n = lowBits n v
    _ ↔ s.streamBits s.reader.base.toNat s.reader.len.toNat s.reader.pos n = bitsOf n v := by
      rw [← bitsOf_peekVal, bitsOf_eq_bitsOf_iff, hlow]
    _ ↔ _ := by simp only [State.streamBits, bitsOf, List.map_inj_left, List.mem_range]

end PeekVal

/-! ### The commands -/

/-- Settles O29: the value read is the number with the stream's next bits, which a register of 64 bits holds whole. -/
theorem rpeekReturnsTheNextBits : Obligations.RpeekReturnsTheNextBits := by
  intro s n hlt
  refine ⟨packWord_of_width (by decide) hlt, fun hopen hn => ?_,
    raises_stateError_of_closed (effectOf_rpeek s n) (by decide), raises_bitWidth_of_wide (effectOf_rpeek s n) hlt⟩
  have hfit : (BitVec.ofNat 64 (s.peekVal n)).toNat = s.peekVal n :=
    Nat.mod_eq_of_lt ((peekVal_lt s n).trans_le (Nat.pow_le_pow_right (by decide) hn))
  refine ⟨BitVec.ofNat 64 (s.peekVal n),
    exec_of_effectOf ((effectOf_rpeek s n).trans (readerChecked_of_open hopen hn)), ?_, ?_⟩
  · rw [hfit]
    exact peekVal_lt s n
  · rw [hfit]
    exact fun b hb => ((peekVal_eq_lowBits_iff s n _).mp (Nat.mod_eq_of_lt (peekVal_lt s n)).symm b hb).symm

/-- Settles O30: numbers of n bits are equal exactly when their bits are. -/
theorem rmatchComparesTheNextBits : Obligations.RmatchComparesTheNextBits := by
  intro s n hlt
  refine ⟨packWord_of_width (by decide) hlt, fun hopen hn => ?_,
    raises_stateError_of_closed (effectOf_rmatch s n) (by decide), raises_bitWidth_of_wide (effectOf_rmatch s n) hlt⟩
  rw [exec_of_effectOf ((effectOf_rmatch s n).trans (readerChecked_of_open hopen hn)),
    if_congr (peekVal_eq_lowBits_iff s n _) rfl rfl]
  rfl

/-- Settles O31: behind the shared checks, the overrun check decides between the new position and its error. -/
theorem radvConsumesBits : Obligations.RadvConsumesBits := by
  intro s n hlt
  refine ⟨packWord_of_width (by decide) hlt, fun hopen hn hroom => ?_,
    raises_stateError_of_closed (effectOf_radv s n) (by decide), raises_bitWidth_of_wide (effectOf_radv s n) hlt,
    fun hopen hn hover hfit => ?_⟩
  · have hok : effectOf (.radv n) s = .ok (s.withReader { s.reader with pos := s.reader.pos + n }) := by
      rw [effectOf_radv, readerChecked_of_open hopen hn, check_pos hroom, bind_ok]
    exact exec_of_effectOf hok
  · have herr : effectOf (.radv n) s = .error { kind := .readOverrun, info := s.reader.pos + n } := by
      rw [effectOf_radv, readerChecked_of_open hopen hn, check_neg hover.not_ge, bind_error]
    rw [← toReg_of_lt .errInfo hfit]
    exact raises_of_effectOf herr

end Sys2Proof.Machine

/-! PROOF. The builder commands without a scan: BINIT, BLINE and BINFO (42_context_builder.md R170, R180, R186): O32, O35,
O38. -/

namespace Sys2Proof.Machine

/-! ### The slot a command names -/

/-- The word of a command with a builder slot alone (30_encoding.md R101). -/
theorem packWord_of_slot {opc k : Nat} (hopc : opc < 256) (hk : k < 2) :
    packWord opc k 0 0 = BitVec.ofNat 32 (opc + k * 2 ^ 8) := by
  refine congrArg (BitVec.ofNat 32) ?_
  omega

theorem slot_lt_of_builder {s : State} {k : Nat} {bd : Builder} (hk : s.builders[k]? = some bd) : k < 2 :=
  (Vector.getElem?_eq_some_iff.mp hk).1

theorem activeBuilder_of_inactive {s : State} {k : Nat} {bd : Builder} (hk : s.builders[k]? = some bd)
    (hmode : bd.mode ≠ .active) (i : Instr) (opc : Nat) : s.activeBuilder i k opc = .error (wrongState opc) := by
  rw [State.activeBuilder, builderSlot_eq_ok.mpr hk, bind_ok, check_neg hmode, bind_error]

/-! ### BINIT (R170) -/

theorem effectOf_binit {s : State} {k : Nat} (hk : k < 2) :
    effectOf (.binit k) s = checkOrder s.op0 >>= fun o => .ok (s.withBuilder k (Builder.fresh o)) := by
  show binitEffect k s = _
  rw [binitEffect, builderSlot_eq_ok.mpr (Vector.getElem?_eq_getElem hk), bind_ok]

/-- An operand that is the number of no order is refused. -/
theorem checkOrder_of_outside {v : Word} (h : v.toNat = 0 ∨ 3 < v.toNat) :
    checkOrder v = .error { kind := .modelConstruction, info := v.toNat } := by
  cases hv : checkOrder v with
  | ok o =>
    rw [checkOrder_eq_ok] at hv
    cases o <;> simp only [Order.toNat] at hv <;> omega
  | error e =>
    unfold checkOrder at hv
    split at hv
    · exact nomatch hv
    · exact hv.symm

theorem order_listed : ∀ x ∈ [(Order.one, 1), (.two, 2), (.three, 3)], x.1.toNat = x.2 := by decide

/-- Settles O32: the order check decides between the new slot and its error. -/
theorem binitCreatesABuilder : Obligations.BinitCreatesABuilder := by
  intro s k hk
  refine ⟨packWord_of_slot (by decide) hk, fun x hx horder => ?_, fun hout => ?_⟩
  · have hok : effectOf (.binit k) s = .ok (s.withBuilder k (Builder.fresh x.1)) := by
      rw [effectOf_binit hk, checkOrder_eq_ok.mpr (horder.trans (order_listed x hx).symm), bind_ok]
    exact exec_of_effectOf hok
  · have herr : effectOf (.binit k) s = .error { kind := .modelConstruction, info := s.op0.toNat } := by
      rw [effectOf_binit hk, checkOrder_of_outside hout, bind_error]
    rw [← toReg_toNat .errInfo s.op0]
    exact raises_of_effectOf herr

/-! ### BLINE (R180) -/

theorem markLine_of_lt {bd : Builder} (h : bd.lines.toNat + 1 < 2 ^ 64) :
    markLine bd = .ok { bd with win := [], lines := bd.lines + 1 } := by
  rw [markLine, addCount_one_of_lt h, bind_ok]

theorem markLine_of_max {bd : Builder} (h : bd.lines.toNat + 1 = 2 ^ 64) :
    markLine bd = .error { kind := .countOverflow, info := 0 } := by
  rw [markLine, addCount_one_of_max h, bind_error]

theorem effectOf_bline_of_active {s : State} {k : Nat} {bd : Builder} (hk : s.builders[k]? = some bd)
    (hactive : bd.mode = .active) :
    effectOf (.bline k) s = markLine bd >>= fun bd' => .ok (s.withBuilder k bd') := by
  show blineEffect k s = _
  rw [blineEffect, activeBuilder_eq_ok.mpr ⟨hk, hactive⟩, bind_ok]

/-- Settles O35: an ACTIVE slot ends its line as `markLine` does, any other is refused. -/
theorem blineEndsALine : Obligations.BlineEndsALine := by
  intro s k bd hk
  refine ⟨packWord_of_slot (by decide) (slot_lt_of_builder hk), fun hactive hlines => ?_, fun hmode => ?_,
    fun hactive hlines => ?_⟩
  · have hok := effectOf_bline_of_active hk hactive
    rw [markLine_of_lt hlines, bind_ok] at hok
    exact exec_of_effectOf hok
  · have herr : effectOf (.bline k) s = .error (wrongState 0x0A) := by
      show blineEffect k s = _
      rw [blineEffect, activeBuilder_of_inactive hk hmode, bind_error]
    exact raises_of_effectOf herr
  · have herr := effectOf_bline_of_active hk hactive
    rw [markLine_of_max hlines, bind_error] at herr
    exact raises_of_effectOf herr

/-! ### BINFO (R186) -/

/-- A field put above the bits in use adds to them. -/
theorem or_shiftLeft_eq_add {a n : Nat} (ha : a < 2 ^ n) (b : Nat) : a ||| b <<< n = a + b * 2 ^ n := by
  rw [Nat.lor_comm, ← Nat.shiftLeft_add_eq_or_of_lt ha, Nat.shiftLeft_eq, Nat.add_comm]

theorem builderMode_listed : ∀ x ∈ [(BuilderMode.empty, 0), (.active, 1), (.consumed, 2)], x.1.code = x.2 := by decide

theorem builderMode_code_lt (m : BuilderMode) : m.code < 4 := by cases m <;> decide

theorem order_toNat_lt (o : Order) : o.toNat < 4 := by cases o <;> decide

theorem winAt_lt (bd : Builder) (i : Nat) : bd.winAt i < 256 := (bd.win.getD i 0).isLt

/-- RES0 of BINFO as the sum of its fields. -/
theorem infoWord_toNat {bd : Builder} (hwin : bd.win.length ≤ 3) (hnodes : bd.trie.length < 2 ^ 32) :
    bd.infoWord.toNat = bd.mode.code + bd.order.toNat * 2 ^ 2 + bd.win.length * 2 ^ 4 + bd.winAt 0 * 2 ^ 8
      + bd.winAt 1 * 2 ^ 16 + bd.winAt 2 * 2 ^ 24 + bd.trie.length * 2 ^ 32 := by
  have hmode := builderMode_code_lt bd.mode
  have horder := order_toNat_lt bd.order
  have h0 := winAt_lt bd 0
  have h1 := winAt_lt bd 1
  have h2 := winAt_lt bd 2
  rw [Builder.infoWord, or_shiftLeft_eq_add (n := 2) (by omega), or_shiftLeft_eq_add (n := 4) (by omega),
    or_shiftLeft_eq_add (n := 8) (by omega), or_shiftLeft_eq_add (n := 16) (by omega),
    or_shiftLeft_eq_add (n := 24) (by omega), or_shiftLeft_eq_add (n := 32) (by omega), BitVec.toNat_ofNat,
    Nat.mod_eq_of_lt (by omega)]

/-- Settles O38: each field is read off the sum of `infoWord_toNat`. -/
theorem binfoShowsTheSlot : Obligations.BinfoShowsTheSlot := by
  intro s k bd hk hwin hnodes
  have hok : effectOf (.binfo k) s = .ok (((s.withRes0 bd.infoWord).withRes1 bd.lines).withRes2 bd.skips) := by
    show binfoEffect k s = _
    rw [binfoEffect, builderSlot_eq_ok.mpr hk, bind_ok]
  have hmode := builderMode_code_lt bd.mode
  have horder := order_toNat_lt bd.order
  have h0 := winAt_lt bd 0
  have h1 := winAt_lt bd 1
  have h2 := winAt_lt bd 2
  refine ⟨packWord_of_slot (by decide) (slot_lt_of_builder hk), bd.infoWord, exec_of_effectOf hok, ?_⟩
  rw [infoWord_toNat hwin hnodes]
  unfold Builder.winAt at *
  refine ⟨fun x hx hmodeEq => ?_, fun x hx horderEq => ?_, by omega, by omega, by omega, by omega, by omega⟩
  · rw [← builderMode_listed x hx, ← hmodeEq]
    omega
  · rw [← order_listed x hx, ← horderEq]
    omega

end Sys2Proof.Machine

/-! PROOF. Scans of several bytes (42_context_builder.md R171, R175, R182, R184): the window a scan leaves, that
`Builder.Scans` fixes the slot it ends with, which scans succeed, and BSCANLN and BSCANBUF: O36, O37, O41. -/

namespace Sys2Proof.Machine

/-! ### What a scan changes -/

/-- A scan takes its first byte, as the alphabet says, and then the others. -/
theorem scans_cons {bd m : Builder} {b : Byte} {bs : List Byte} (h : bd.Scans (b :: bs) m) :
    ∃ m', (alphabetic b.toNat ∧ bd.Accepts b m' ∨ ¬alphabetic b.toNat ∧ bd.Skips m') ∧ m'.Scans bs m := by
  obtain ⟨m', haccept, hskip, hrest⟩ := h
  by_cases hb : alphabetic b.toNat
  · exact ⟨m', .inl ⟨hb, haccept hb⟩, hrest⟩
  · exact ⟨m', .inr ⟨hb, hskip hb⟩, hrest⟩

/-- A scan leaves the state, the order and the lines of a slot. -/
theorem scans_frame {bd m : Builder} {bs : List Byte} (h : bd.Scans bs m) :
    m = { bd with win := m.win, flat := m.flat, trie := m.trie, skips := m.skips } := by
  induction bs generalizing bd with
  | nil => rw [show m = bd from h]
  | cons b bs ih =>
    obtain ⟨m', ⟨-, hfields, -⟩ | ⟨-, hfields, -⟩, hrest⟩ := scans_cons h
    · rw [ih hrest, hfields]
    · rw [ih hrest, hfields]

/-- A scan removes no node. -/
theorem scans_keeps_nodes {bd m : Builder} {bs : List Byte} (h : bd.Scans bs m) {p : List Byte}
    (hp : mapGet p bd.trie ≠ none) : mapGet p m.trie ≠ none := by
  induction bs generalizing bd with
  | nil => rwa [show m = bd from h]
  | cons b bs ih =>
    obtain ⟨m', ⟨-, -, -, -, -, hkeys⟩ | ⟨-, hfields, -⟩, hrest⟩ := scans_cons h
    · exact ih hrest ((hkeys p).mpr (.inl hp))
    · exact ih hrest (by rwa [hfields])

/-! ### The window (R175): O41 -/

/-- Keeping the last `n` of a list before more is appended loses nothing of the last `n` after. -/
theorem rtake_rtake_append {α : Type} (l r : List α) (n : Nat) : (l.rtake n ++ r).rtake n = (l ++ r).rtake n := by
  simp only [List.rtake_eq_reverse_take_reverse, List.reverse_append, List.reverse_reverse, List.take_append,
    List.take_take]
  rw [Nat.min_eq_left (Nat.sub_le _ _)]

theorem slid_eq_rtake (bd : Builder) (b : Byte) : bd.slid b = (bd.win ++ [b]).rtake bd.order.toNat := by
  simp [Builder.slid, List.rtake]

/-- The bytes of A among these: those a scan accepts. -/
def acceptedOf (bs : List Byte) : List Byte := bs.filter fun b => decide (alphabetic b.toNat)

/-- After a scan the window holds the last ORDER of what it held and the accepted bytes. -/
theorem scans_win {bd m : Builder} {bs : List Byte} (hwin : bd.win.length ≤ bd.order.toNat) (h : bd.Scans bs m) :
    m.win = (bd.win ++ acceptedOf bs).rtake bd.order.toNat := by
  induction bs generalizing bd with
  | nil => simp [acceptedOf, List.rtake, show m = bd from h, Nat.sub_eq_zero_of_le hwin]
  | cons b bs ih =>
    obtain ⟨m', ⟨hb, hfields, -⟩ | ⟨hb, hfields, -⟩, hrest⟩ := scans_cons h
    · have hwin' : m'.win = bd.slid b := by rw [hfields]
      have horder : m'.order = bd.order := by rw [hfields]
      have hcons : acceptedOf (b :: bs) = [b] ++ acceptedOf bs := by simp [acceptedOf, hb]
      rw [ih (by rw [hwin', horder]; exact slid_length_le bd b) hrest, hwin', horder, slid_eq_rtake, rtake_rtake_append,
        hcons, List.append_assoc]
    · have hwin' : m'.win = bd.win := by rw [hfields]
      have horder : m'.order = bd.order := by rw [hfields]
      have hcons : acceptedOf (b :: bs) = acceptedOf bs := by simp [acceptedOf, hb]
      rw [ih (by rwa [hwin', horder]) hrest, hwin', horder, hcons]

/-- Settles O41, by `scans_win` from the empty window. -/
theorem windowHoldsTheLastAcceptedBytes : Obligations.WindowHoldsTheLastAcceptedBytes := by
  intro cap bs bd r hempty h
  have hwin : bd.win.length ≤ bd.order.toNat := by simp [hempty]
  rw [scans_win hwin (scanBytes_scans hwin h), hempty]
  rfl

/-! ### Builders that count alike -/

/-- `a` and `b` agree in every field and in every count and node. -/
structure Builder.Alike (a b : Builder) : Prop where
  fields : a = { b with flat := a.flat, trie := a.trie }
  flat : ∀ c, flatCount a.flat c = flatCount b.flat c
  counts : ∀ p, nodeCounts a.trie p = nodeCounts b.trie p
  nodes : ∀ p, mapGet p a.trie ≠ none ↔ mapGet p b.trie ≠ none

theorem Builder.Alike.refl (a : Builder) : a.Alike a := ⟨rfl, fun _ => rfl, fun _ => rfl, fun _ => Iff.rfl⟩

theorem nodeCounts_ext {c d : NodeCounts} (hpass : c.pass.toNat = d.pass.toNat)
    (hexact : c.exact.toNat = d.exact.toNat) : c = d := by
  cases c
  cases d
  rw [NodeCounts.mk.injEq]
  exact ⟨BitVec.eq_of_toNat_eq hpass, BitVec.eq_of_toNat_eq hexact⟩

/-- Canonical FLATs of equal counts are equal. -/
theorem flat_ext {f g : Flat} (hf : FlatOk f) (hg : FlatOk g) (h : ∀ c, flatCount f c = flatCount g c) : f = g := by
  have some_iff {f : Flat} (hf : FlatOk f) (c : Byte) (n : Word) : mapGet c f = some n ↔ n ≠ 0 ∧ flatCount f c = n := by
    constructor
    · intro hc
      exact ⟨(hf.2 _ (mem_of_mapGet hc)).2, by rw [flatCount, hc]; rfl⟩
    · rintro ⟨hn, rfl⟩
      exact mapGet_of_mem byteLt_order hf.1 (flat_mem_of_count hn)
  refine mapSorted_ext byteLt_order hf.1 hg.1 fun c => Option.ext fun n => ?_
  rw [some_iff hf, some_iff hg, h]

/-- Canonical tries of equal nodes and counts are equal. -/
theorem trie_ext {t u : Trie} (ht : mapSorted seqLt t = true) (hu : mapSorted seqLt u = true)
    (hnodes : ∀ p, mapGet p t ≠ none ↔ mapGet p u ≠ none) (hcounts : ∀ p, nodeCounts t p = nodeCounts u p) : t = u := by
  refine mapSorted_ext seqLt_order ht hu fun p => ?_
  have hn := hnodes p
  have hc := hcounts p
  unfold nodeCounts at hc
  cases htp : mapGet p t <;> cases hup : mapGet p u <;> simp_all

/-- Builders that meet the invariant and count alike are equal. -/
theorem eq_of_alike {cap : Nat} {a b : Builder} (ha : a.Ok cap) (hb : b.Ok cap) (h : a.Alike b) : a = b := by
  obtain ⟨-, -, hta, -, -, -, -, hfa, hna, -⟩ := ha
  obtain ⟨-, -, htb, -, -, -, -, hfb, hnb, -⟩ := hb
  rw [h.fields, flat_ext ⟨hfa, hna⟩ ⟨hfb, hnb⟩ h.flat, trie_ext hta htb h.nodes h.counts]

theorem alike_slid {a b : Builder} (h : a.Alike b) (c : Byte) : a.slid c = b.slid c := by
  rw [h.fields]
  rfl

/-- Builders that count alike do so after both accepted the same byte. -/
theorem accepts_alike {a b a' b' : Builder} {c : Byte} (h : a.Alike b) (ha : a.Accepts c a') (hb : b.Accepts c b') :
    a'.Alike b' := by
  obtain ⟨hfields, hflat, hpass, hexact, hkeys⟩ := ha
  obtain ⟨hfields', hflat', hpass', hexact', hkeys'⟩ := hb
  have hslid := alike_slid h c
  refine ⟨?_, fun x => ?_, fun p => ?_, fun p => ?_⟩
  · rw [hfields, hfields', hslid, h.fields]
  · exact BitVec.eq_of_toNat_eq (by rw [hflat, hflat', h.flat])
  · refine nodeCounts_ext ?_ ?_
    · rw [hpass, hpass', h.counts, hslid]
    · rw [hexact, hexact', h.counts, hslid]
  · rw [hkeys, hkeys', h.nodes, hslid]

/-- Builders that count alike do so after both skipped a byte. -/
theorem skips_alike {a b a' b' : Builder} (h : a.Alike b) (ha : a.Skips a') (hb : b.Skips b') : a'.Alike b' := by
  obtain ⟨hfields, hskips⟩ := ha
  obtain ⟨hfields', hskips'⟩ := hb
  have hsame : a.skips = b.skips := by rw [h.fields]
  have hcount : a'.skips = b'.skips := BitVec.eq_of_toNat_eq (by rw [hskips, hskips', hsame])
  rw [hfields, hfields', hcount]
  exact ⟨by rw [h.fields], h.flat, h.counts, h.nodes⟩

/-! ### How many nodes a trie has -/

/-- A canonical map lists no key twice. -/
theorem mapSorted_keys_nodup {κ ν : Type} {lt : κ → κ → Bool} (hlt : KeyOrder lt) {m : List (κ × ν)}
    (hm : mapSorted lt m = true) : (m.map (·.1)).Nodup := by
  induction m with
  | nil => exact List.nodup_nil
  | cons x m ih =>
    refine List.nodup_cons.mpr ⟨fun hmem => ?_, ih (mapSorted_tail hm)⟩
    obtain ⟨y, hy, hkey⟩ := List.mem_map.mp hmem
    have hxy := mapSorted_head hlt hm y hy
    rw [hkey, hlt.irrefl] at hxy
    exact Bool.noConfusion hxy

theorem mem_keys_iff {t : Trie} {p : List Byte} : p ∈ t.map (·.1) ↔ mapGet p t ≠ none := by
  constructor
  · intro h
    obtain ⟨x, hx, rfl⟩ := List.mem_map.mp h
    exact mapGet_ne_none_of_mem hx
  · intro h
    obtain ⟨c, hc⟩ := Option.ne_none_iff_exists'.mp h
    exact List.mem_map_of_mem (mem_of_mapGet hc)

/-- A trie that has all nodes of another and all nodes of a walk has room for those the walk misses. -/
theorem length_add_missingNodes_le {t u : Trie} {ps : List (List Byte)} (ht : mapSorted seqLt t = true) (hps : ps.Nodup)
    (htu : ∀ p, mapGet p t ≠ none → mapGet p u ≠ none) (hpsu : ∀ p ∈ ps, mapGet p u ≠ none) :
    t.length + missingNodes t ps ≤ u.length := by
  have hnodup : (t.map (·.1) ++ ps.filter fun p => decide (mapGet p t = none)).Nodup := by
    refine List.nodup_append.mpr ⟨mapSorted_keys_nodup seqLt_order ht, hps.filter _, fun p hp q hq hpq => ?_⟩
    have hnone : mapGet q t = none := of_decide_eq_true (List.mem_filter.mp hq).2
    exact mem_keys_iff.mp hp (hpq ▸ hnone)
  have hsub : (t.map (·.1) ++ ps.filter fun p => decide (mapGet p t = none)) ⊆ u.map (·.1) := by
    intro p hp
    obtain hp | hp := List.mem_append.mp hp
    · exact mem_keys_iff.mpr (htu p (mem_keys_iff.mp hp))
    · exact mem_keys_iff.mpr (hpsu p (List.mem_of_mem_filter hp))
  have hlen := (hnodup.subperm hsub).length_le
  rwa [List.length_append, List.length_map, List.length_map, ← List.countP_eq_length_filter] at hlen

/-- A canonical trie whose nodes are those of another or of a walk has no more nodes than both. -/
theorem length_le_of_nodes {t u : Trie} {ps : List (List Byte)} (hu : mapSorted seqLt u = true)
    (h : ∀ p, mapGet p u ≠ none → mapGet p t ≠ none ∨ p ∈ ps) : u.length ≤ t.length + ps.length := by
  have hsub : u.map (·.1) ⊆ t.map (·.1) ++ ps := fun p hp =>
    List.mem_append.mpr ((h p (mem_keys_iff.mp hp)).imp_left mem_keys_iff.mpr)
  have hlen := ((mapSorted_keys_nodup seqLt_order hu).subperm hsub).length_le
  rwa [List.length_append, List.length_map, List.length_map] at hlen

/-! ### The scan that `Builder.Scans` says is the one made -/

/-- A byte that was accepted could be counted. -/
theorem not_cannotCount_of_accepts {bd bd' : Builder} {b : Byte} (h : bd.Accepts b bd') : ¬bd.CannotCount b := by
  obtain ⟨-, hflat, hpass, hexact, -⟩ := h
  refine not_cannotCount ?_ (fun p hp => ?_) ?_
  · have hb := hflat b
    rw [if_pos rfl] at hb
    exact hb ▸ (flatCount bd'.flat b).isLt
  · have hp' := hpass p
    rw [if_pos (mem_windowPaths.mp hp)] at hp'
    exact hp' ▸ (nodeCounts bd'.trie p).pass.isLt
  · have hw := hexact (bd.slid b)
    rw [if_pos rfl] at hw
    exact hw ▸ (nodeCounts bd'.trie (bd.slid b)).exact.isLt

theorem cannotCount_of_alike {a b : Builder} {c : Byte} (h : a.Alike b) (hb : b.CannotCount c) : a.CannotCount c := by
  unfold Builder.CannotCount at *
  rwa [alike_slid h, h.flat, h.counts, show (∃ p, p ≠ [] ∧ p.isPrefixOf (b.slid c) = true ∧
    (nodeCounts a.trie p).pass.toNat + 1 = 2 ^ 64) ↔ _ from exists_congr fun p => by rw [h.counts]]

/-- A byte that `a` accepts, within TRIE_CAP in the end, `b` accepts that counts as `a` does. -/
theorem acceptByte_of_alike {cap : Nat} {a a' b m : Builder} {c : Byte} (h : a.Alike b) (hb : b.Ok cap)
    (haccept : a.Accepts c a') (hkept : ∀ p, mapGet p a'.trie ≠ none → mapGet p m.trie ≠ none)
    (hm : m.trie.length ≤ cap) : ∃ b', b.Accepts c b' ∧ acceptByte cap b c = .ok b' := by
  obtain ⟨hover, -⟩ | ⟨-, hfull, -⟩ | ⟨-, -, hdone⟩ := acceptByte_cases hb c
  · exact absurd (cannotCount_of_alike h hover) (not_cannotCount_of_accepts haccept)
  · have ⟨_, _, _, _, hkeys⟩ := haccept
    have ⟨_, _, hsorted, _⟩ := hb
    have hroom : b.trie.length + missingNodes b.trie (windowPaths (b.slid c)) ≤ m.trie.length :=
      length_add_missingNodes_le hsorted (windowPaths_nodup _)
        (fun p hp => hkept p ((hkeys p).mpr (.inl ((h.nodes p).mpr hp))))
        (fun p hp => hkept p ((hkeys p).mpr (.inr (by rw [alike_slid h]; exact mem_windowPaths.mp hp))))
    rw [builder_missing_eq] at hfull
    omega
  · exact hdone

/-- How many of these bytes are of A, and how many not. -/
def countIn (bs : List Byte) : Nat := bs.countP fun b => decide (alphabetic b.toNat)

def countOut (bs : List Byte) : Nat := bs.countP fun b => decide ¬alphabetic b.toNat

theorem countIn_cons (b : Byte) (bs : List Byte) :
    countIn (b :: bs) = countIn bs + if alphabetic b.toNat then 1 else 0 := by
  simp only [countIn, List.countP_cons, decide_eq_true_eq]

theorem countOut_cons (b : Byte) (bs : List Byte) :
    countOut (b :: bs) = countOut bs + if ¬alphabetic b.toNat then 1 else 0 := by
  simp only [countOut, List.countP_cons, decide_eq_true_eq]

theorem decide_countOut_pos (bs : List Byte) :
    decide (0 < countOut bs) = bs.any fun b => decide ¬alphabetic b.toNat := by
  rw [Bool.eq_iff_iff, decide_eq_true_iff, countOut, List.countP_pos_iff, List.any_eq_true]

theorem byte_setWidth_toNat (b : Byte) : (b.setWidth 64).toNat = b.toNat := by
  have hb := b.isLt
  rw [BitVec.toNat_setWidth, Nat.mod_eq_of_lt (by omega)]

theorem scanBytes_cons_of_accept {cap : Nat} {r : ScanResult} {bd' : Builder} {b : Byte} (hb : alphabetic b.toNat)
    (h : acceptByte cap r.builder b = .ok bd') (bs : List Byte) :
    scanBytes cap (b :: bs) r = scanBytes cap bs ⟨bd', r.accepted + 1, r.skipped⟩ := by
  rw [scanBytes, scanOne_of_alphabetic (by rwa [byte_setWidth_toNat]), BitVec.setWidth_setWidth_of_le _ (by decide),
    BitVec.setWidth_eq, h]
  rfl

theorem scanBytes_cons_of_skip {cap : Nat} {r : ScanResult} {b : Byte} (hb : ¬alphabetic b.toNat)
    (h : r.builder.skips.toNat + 1 < 2 ^ 64) (bs : List Byte) : scanBytes cap (b :: bs) r =
      scanBytes cap bs ⟨{ r.builder with skips := r.builder.skips + 1 }, r.accepted, r.skipped + 1⟩ := by
  rw [scanBytes, scanOne_of_not_alphabetic (by rwa [byte_setWidth_toNat]), skipByte_of_lt h]
  rfl

theorem skips_of_lt {bd : Builder} (h : bd.skips.toNat + 1 < 2 ^ 64) :
    bd.Skips { bd with skips := bd.skips + 1 } :=
  ⟨rfl, addCount_eq_ok.mp (addCount_one_of_lt h)⟩

/-- A scan of bytes from a slot that counts as `bd` ends with the slot that `Builder.Scans` gives from `bd`, when that one
is within TRIE_CAP. -/
theorem scanBytes_of_scans {cap : Nat} {bs : List Byte} {bd m : Builder} {r : ScanResult} (halike : bd.Alike r.builder)
    (hr : r.builder.ActiveOk cap) (h : bd.Scans bs m) (hm : m.Ok cap) :
    scanBytes cap bs r = .ok ⟨m, r.accepted + countIn bs, r.skipped + countOut bs⟩ := by
  induction bs generalizing bd r with
  | nil =>
    rw [show m = bd from h] at hm ⊢
    rw [eq_of_alike hm hr.2 halike]
    rfl
  | cons b bs ih =>
    have ⟨_, _, _, hfits, _⟩ := hm
    obtain ⟨m', ⟨hb, haccept⟩ | ⟨hb, hskip⟩, hrest⟩ := scans_cons h
    · obtain ⟨bd', haccept', hdone⟩ :=
        acceptByte_of_alike halike hr.2 haccept (fun p => scans_keeps_nodes hrest) hfits
      rw [scanBytes_cons_of_accept hb hdone,
        ih (r := ⟨bd', _, _⟩) (accepts_alike halike haccept haccept') (acceptByte_activeOk hr hb hdone) hrest,
        countIn_cons, countOut_cons, if_pos hb, if_neg (not_not.mpr hb), Nat.add_right_comm]
      rfl
    · have hlt : r.builder.skips.toNat + 1 < 2 ^ 64 := by
        have hsame : bd.skips = r.builder.skips := by rw [halike.fields]
        exact hsame ▸ hskip.2 ▸ m'.skips.isLt
      rw [scanBytes_cons_of_skip hb hlt,
        ih (r := ⟨_, _, _⟩) (skips_alike halike hskip (skips_of_lt hlt)) (withSkips_activeOk hr _) hrest, countIn_cons,
        countOut_cons, if_neg hb, if_pos hb, Nat.add_right_comm r.skipped]
      rfl

/-! ### Scans with room -/

/-- `n` more scans fit, count by count: what `Builder.Room` asks of the entries, at every key. -/
structure RoomAt (cap n : Nat) (bd : Builder) : Prop where
  flat : ∀ c, (flatCount bd.flat c).toNat + n < 2 ^ 64
  pass : ∀ p, (nodeCounts bd.trie p).pass.toNat + n < 2 ^ 64
  exact : ∀ p, (nodeCounts bd.trie p).exact.toNat + n < 2 ^ 64
  skips : bd.skips.toNat + n < 2 ^ 64
  nodes : bd.trie.length + 3 * n ≤ cap

/-- What holds of 0 and of every listed count holds of FLAT at every byte. -/
theorem flatCount_of_forall {P : Word → Prop} {f : Flat} (hzero : P 0) (h : ∀ x ∈ f, P x.2) (c : Byte) :
    P (flatCount f c) := by
  unfold flatCount
  cases hc : mapGet c f with
  | none => exact hzero
  | some v => exact h _ (mem_of_mapGet hc)

/-- What holds of no counts and of the counts of every node holds of the counts at every sequence. -/
theorem nodeCounts_of_forall {P : NodeCounts → Prop} {t : Trie} (hzero : P ⟨0, 0⟩) (h : ∀ x ∈ t, P x.2)
    (p : List Byte) : P (nodeCounts t p) := by
  unfold nodeCounts
  cases hp : mapGet p t with
  | none => exact hzero
  | some v => exact h _ (mem_of_mapGet hp)

theorem roomAt_of_room {cap n : Nat} {bd : Builder} (h : bd.Room cap n) : RoomAt cap n bd := by
  obtain ⟨hflat, hpass, hexact, hskips, hn, hnodes⟩ := h
  have hzero : (0 : Word).toNat + n < 2 ^ 64 := by simpa using hn
  exact ⟨flatCount_of_forall (P := fun v => v.toNat + n < 2 ^ 64) hzero hflat,
    nodeCounts_of_forall (P := fun c => c.pass.toNat + n < 2 ^ 64) hzero hpass,
    nodeCounts_of_forall (P := fun c => c.exact.toNat + n < 2 ^ 64) hzero hexact, hskips, hnodes⟩

theorem slid_length_le_three (bd : Builder) (b : Byte) : (bd.slid b).length ≤ 3 :=
  (slid_length_le bd b).trans (by cases bd.order <;> decide)

theorem length_windowPaths (w : List Byte) : (windowPaths w).length = w.length := by simp [windowPaths]

/-- A byte scanned takes the room of one scan. -/
theorem roomAt_accepts {cap n : Nat} {bd bd' : Builder} {b : Byte} (hroom : RoomAt cap (n + 1) bd)
    (hsorted : mapSorted seqLt bd'.trie = true) (h : bd.Accepts b bd') : RoomAt cap n bd' := by
  obtain ⟨hfields, hflat, hpass, hexact, hkeys⟩ := h
  refine ⟨fun c => ?_, fun p => ?_, fun p => ?_, ?_, ?_⟩
  · have := hroom.flat c
    rw [hflat]
    split <;> omega
  · have := hroom.pass p
    rw [hpass]
    split <;> omega
  · have := hroom.exact p
    rw [hexact]
    split <;> omega
  · have hsame : bd'.skips = bd.skips := by rw [hfields]
    have := hroom.skips
    rw [hsame]
    omega
  · have hlen := length_le_of_nodes hsorted fun p hp => ((hkeys p).mp hp).imp_right mem_windowPaths.mpr
    rw [length_windowPaths] at hlen
    have := slid_length_le_three bd b
    have := hroom.nodes
    omega

/-- A byte skipped takes the room of one scan. -/
theorem roomAt_skips {cap n : Nat} {bd bd' : Builder} (hroom : RoomAt cap (n + 1) bd) (h : bd.Skips bd') :
    RoomAt cap n bd' := by
  obtain ⟨hfields, hcount⟩ := h
  have hskips := hroom.skips
  have hnodes := hroom.nodes
  have hlt : bd'.skips.toNat + n < 2 ^ 64 := by omega
  rw [hfields]
  exact ⟨fun c => Nat.lt_of_succ_lt (hroom.flat c), fun p => Nat.lt_of_succ_lt (hroom.pass p),
    fun p => Nat.lt_of_succ_lt (hroom.exact p), hlt, by show bd.trie.length + 3 * n ≤ cap; omega⟩

/-- With room for a scan a byte is accepted. -/
theorem acceptByte_of_room {cap n : Nat} {bd : Builder} (hok : bd.Ok cap) (hroom : RoomAt cap (n + 1) bd) (b : Byte) :
    ∃ bd', bd.Accepts b bd' ∧ acceptByte cap bd b = .ok bd' := by
  obtain ⟨hover, -⟩ | ⟨-, hfull, -⟩ | ⟨-, -, hdone⟩ := acceptByte_cases hok b
  · refine absurd hover (not_cannotCount ?_ (fun p _ => ?_) ?_)
    · have := hroom.flat b
      omega
    · have := hroom.pass p
      omega
    · have := hroom.exact (bd.slid b)
      omega
  · have hmissing : bd.missing (bd.slid b) ≤ (bd.slid b).length := by
      rw [builder_missing_eq, ← length_windowPaths]
      exact List.countP_le_length
    have := slid_length_le_three bd b
    have := hroom.nodes
    omega
  · exact hdone

/-- With room for as many scans as there are bytes their scan comes to an end. -/
theorem scanBytes_of_room {cap : Nat} {bs : List Byte} {r : ScanResult} (hr : r.builder.ActiveOk cap)
    (hroom : RoomAt cap bs.length r.builder) : ∃ r', scanBytes cap bs r = .ok r' := by
  induction bs generalizing r with
  | nil => exact ⟨r, rfl⟩
  | cons b bs ih =>
    by_cases hb : alphabetic b.toNat
    · obtain ⟨bd', haccepts, hdone⟩ := acceptByte_of_room hr.2 hroom b
      have hok' := acceptByte_activeOk hr hb hdone
      have ⟨_, _, _, hsorted, _⟩ := hok'
      rw [scanBytes_cons_of_accept hb hdone]
      exact ih (r := ⟨bd', _, _⟩) hok' (roomAt_accepts hroom hsorted haccepts)
    · have hlt : r.builder.skips.toNat + 1 < 2 ^ 64 := by
        have := hroom.skips
        rw [List.length_cons] at this
        omega
      rw [scanBytes_cons_of_skip hb hlt]
      exact ih (r := ⟨_, _, _⟩) (withSkips_activeOk hr _) (roomAt_skips hroom (skips_of_lt hlt))

/-! ### Scans that fail -/

/-- A byte that `Builder.Refuses` fails with that error. -/
theorem scanOne_of_refuses {cap : Nat} {bd : Builder} {b : Byte} {e : ErrorKind} {info : Nat} (hok : bd.Ok cap)
    (h : bd.Refuses cap b e info) : scanOne cap bd (b.setWidth 64) = .error ⟨e, info⟩ := by
  have hbyte : (b.setWidth 64).setWidth 8 = b := by
    rw [BitVec.setWidth_setWidth_of_le _ (by decide), BitVec.setWidth_eq]
  have haccept (hb : alphabetic b.toNat) :=
    scanOne_of_alphabetic (cap := cap) (bd := bd) (v := b.setWidth 64) (by rwa [byte_setWidth_toNat])
  rw [hbyte] at haccept
  obtain ⟨hb, hskips, rfl, rfl⟩ | ⟨hb, hover, rfl, rfl⟩ | ⟨hb, hcounts, hfull, rfl, rfl⟩ := h
  · rw [scanOne_of_not_alphabetic (by rwa [byte_setWidth_toNat]), skipByte_of_max hskips]
    rfl
  · obtain ⟨-, herr⟩ | ⟨hnot, -⟩ | ⟨hnot, -⟩ := acceptByte_cases hok b
    · rw [haccept hb, herr]
      rfl
    · exact absurd hover hnot
    · exact absurd hover hnot
  · obtain ⟨hover, -⟩ | ⟨-, -, herr⟩ | ⟨-, hfit, -⟩ := acceptByte_cases hok b
    · exact absurd hover hcounts
    · rw [haccept hb, herr]
      rfl
    · exact absurd hfit hfull.not_ge

theorem scanBytes_append (cap : Nat) (bs cs : List Byte) (r : ScanResult) :
    scanBytes cap (bs ++ cs) r = scanBytes cap bs r >>= scanBytes cap cs := by
  induction bs generalizing r with
  | nil => rfl
  | cons b bs ih =>
    rw [List.cons_append, scanBytes, scanBytes]
    cases scanOne cap r.builder (b.setWidth 64) with
    | error e => rfl
    | ok x => exact ih _

/-- The first byte whose scan fails ends the scan with its error. -/
theorem scanBytes_of_refuses {cap : Nat} {bs : List Byte} {bd m : Builder} (hbd : bd.ActiveOk cap) {n : Nat}
    (hn : n < bs.length) {e : ErrorKind} {info : Nat} (h : bd.Scans (bs.take n) m) (hm : m.Ok cap)
    (hrefuses : m.Refuses cap bs[n] e info) : scanBytes cap bs ⟨bd, 0, 0⟩ = .error ⟨e, info⟩ := by
  have hbs : bs = bs.take n ++ bs[n] :: bs.drop (n + 1) := by
    rw [← List.drop_eq_getElem_cons hn, List.take_append_drop]
  have hfirst := scanBytes_of_scans (r := ⟨bd, 0, 0⟩) (.refl bd) hbd h hm
  calc scanBytes cap bs ⟨bd, 0, 0⟩
    _ = scanBytes cap (bs.take n ++ bs[n] :: bs.drop (n + 1)) ⟨bd, 0, 0⟩ := by rw [← hbs]
    _ = .error ⟨e, info⟩ := by
      rw [scanBytes_append, hfirst, bind_ok, scanBytes, scanOne_of_refuses hm hrefuses, bind_error]

/-! ### The commands -/

section Region
variable {s : State} {k : Nat} {bd : Builder}

theorem scanRegion_of_gt (h : s.params.dmemSize < s.op0.toNat + s.op1.toNat) (bd : Builder) :
    s.scanRegion bd = .error (addressError s.op0.toNat) := by
  rw [State.scanRegion, check_neg h.not_ge, bind_error]

theorem scanRegion_of_le (h : s.op0.toNat + s.op1.toNat ≤ s.params.dmemSize) (bd : Builder) :
    s.scanRegion bd = scanBytes s.params.trieCap (s.readBytes s.op0.toNat s.op1.toNat) ⟨bd, 0, 0⟩ := by
  rw [State.scanRegion, check_pos h, bind_ok]

/-- With room for OP1 scans the region has a scan that meets the invariant. -/
theorem exists_scans_of_room (hbd : bd.ActiveOk s.params.trieCap) (hroom : bd.Room s.params.trieCap s.op1.toNat) :
    ∃ m : Builder, bd.Scans (s.readBytes s.op0.toNat s.op1.toNat) m ∧ m.Ok s.params.trieCap := by
  have hlen : (s.readBytes s.op0.toNat s.op1.toNat).length = s.op1.toNat := by simp [State.readBytes]
  obtain ⟨r, hr⟩ := scanBytes_of_room (r := ⟨bd, 0, 0⟩) hbd (hlen ▸ roomAt_of_room hroom)
  have hwin : bd.win.length ≤ bd.order.toNat := hbd.2.1
  exact ⟨r.builder, scanBytes_scans hwin hr, (scanBytes_activeOk hbd hr).2⟩

theorem effectOf_bscanln_of_active (hk : s.builders[k]? = some bd) (hactive : bd.mode = .active) :
    effectOf (.bscanln k) s =
      s.scanRegion bd >>= fun r => markLine r.builder >>= fun bd' => .ok (s.storeScan k bd' r) := by
  show bscanlnEffect k s = _
  rw [bscanlnEffect, activeBuilder_eq_ok.mpr ⟨hk, hactive⟩, bind_ok]

theorem effectOf_bscanbuf_of_active (hk : s.builders[k]? = some bd) (hactive : bd.mode = .active) :
    effectOf (.bscanbuf k) s = s.scanRegion bd >>= fun r => .ok (s.storeScan k r.builder r) := by
  show bscanbufEffect k s = _
  rw [bscanbufEffect, activeBuilder_eq_ok.mpr ⟨hk, hactive⟩, bind_ok]

/-- A command that scans the region first raises the errors of the scan. -/
theorem raises_of_scanRegion {i : Instr} {f : ScanResult → Except CmdError State} {e : CmdError}
    (hi : effectOf i s = s.scanRegion bd >>= f) (h : s.scanRegion bd = .error e) :
    Raises i s e.kind (toReg .errInfo e.info) :=
  raises_of_effectOf (by rw [hi, h, bind_error])

/-- A command that scans the region first raises AddressError for one that does not exist. -/
theorem raises_address_of_scanRegion {i : Instr} {f : ScanResult → Except CmdError State}
    (hi : effectOf i s = s.scanRegion bd >>= f) (h : s.params.dmemSize < s.op0.toNat + s.op1.toNat) :
    Raises i s .address s.op0 := by
  rw [← toReg_toNat .errInfo s.op0]
  exact raises_of_scanRegion hi (scanRegion_of_gt h bd)

/-- A command that scans the region first raises the error of the first byte whose scan fails. -/
theorem raises_refusal_of_scanRegion {i : Instr} {f : ScanResult → Except CmdError State}
    (hi : effectOf i s = s.scanRegion bd >>= f) (hregion : s.op0.toNat + s.op1.toNat ≤ s.params.dmemSize)
    (hbd : bd.ActiveOk s.params.trieCap) {m : Builder} {n : Nat}
    (hn : n < (s.readBytes s.op0.toNat s.op1.toNat).length) {e : ErrorKind} {info : Nat}
    (h : bd.Scans ((s.readBytes s.op0.toNat s.op1.toNat).take n) m) (hm : m.Ok s.params.trieCap)
    (hrefuses : m.Refuses s.params.trieCap (s.readBytes s.op0.toNat s.op1.toNat)[n] e info) (hinfo : info < 2 ^ 64) :
    Raises i s e (BitVec.ofNat 64 info) := by
  rw [← toReg_of_lt .errInfo hinfo]
  exact raises_of_scanRegion hi ((scanRegion_of_le hregion bd).trans (scanBytes_of_refuses hbd hn h hm hrefuses))

/-- The end of a region scan: the slot, SKIP_SEEN and the two counts. -/
theorem clearError_storeScan (s : State) (k : Nat) (bd m : Builder) (a n : Nat) :
    clearError (s.storeScan k bd ⟨m, a, n⟩) = { s with
      builders := s.builders.setIfInBounds k bd
      res0 := BitVec.ofNat 64 a
      res1 := BitVec.ofNat 64 n
      status := { s.status with lastErr := none, skipSeen := s.status.skipSeen || decide (0 < n) } } := by
  simp only [clearError_frame, State.storeScan, State.noteSkip, State.withBuilder, State.withStatus, State.withRes0,
    State.withRes1]

end Region

/-- Settles O36: the scan made is the one of `Builder.Scans`, behind it stands the line boundary. -/
theorem bscanlnScansALine : Obligations.BscanlnScansALine := by
  intro s k bd bs hk hactive hok hbs
  subst hbs
  have heffect := effectOf_bscanln_of_active hk hactive
  have hbd : bd.ActiveOk s.params.trieCap := ⟨hactive, hok⟩
  refine ⟨raises_address_of_scanRegion heffect, fun hregion => ⟨exists_scans_of_room hbd, fun m hscans hm => ?_,
    fun m n hn e info hscans hm => raises_refusal_of_scanRegion heffect hregion hbd hn hscans hm⟩⟩
  have hlines : m.lines = bd.lines := by rw [scans_frame hscans]
  rw [scanRegion_of_le hregion, scanBytes_of_scans (r := ⟨bd, 0, 0⟩) (.refl bd) hbd hscans hm, bind_ok,
    Nat.zero_add, Nat.zero_add] at heffect
  refine ⟨fun hmax => ?_, fun hlt => ?_⟩
  · rw [markLine_of_max (hlines ▸ hmax), bind_error] at heffect
    exact raises_of_effectOf heffect
  · rw [markLine_of_lt (hlines ▸ hlt), bind_ok, hlines] at heffect
    rw [exec_of_effectOf heffect, clearError_storeScan, decide_countOut_pos, countIn, countOut]

/-- Settles O37: the scan made is the one of `Builder.Scans`. -/
theorem bscanbufScansARegion : Obligations.BscanbufScansARegion := by
  intro s k bd bs hk hactive hok hbs
  subst hbs
  have heffect := effectOf_bscanbuf_of_active hk hactive
  have hbd : bd.ActiveOk s.params.trieCap := ⟨hactive, hok⟩
  refine ⟨raises_address_of_scanRegion heffect, fun hregion => ⟨exists_scans_of_room hbd, fun m hscans hm => ?_,
    fun m n hn e info hscans hm => raises_refusal_of_scanRegion heffect hregion hbd hn hscans hm⟩⟩
  rw [scanRegion_of_le hregion, scanBytes_of_scans (r := ⟨bd, 0, 0⟩) (.refl bd) hbd hscans hm, bind_ok,
    Nat.zero_add, Nat.zero_add] at heffect
  refine ⟨by rw [scans_frame hscans], ?_⟩
  rw [exec_of_effectOf heffect, clearError_storeScan, decide_countOut_pos, countIn, countOut]

end Sys2Proof.Machine

/-! PROOF. BMERGE and merged shards (42_context_builder.md R188, R190): the sum of two FLATs and of two tries or the
overflow that stops it, the two limits of a merge, and that a scan adds what it counts to what was counted before: O39,
O40. -/

namespace Sys2Proof.Machine

/-! ### Merging FLAT -/

theorem flatCount_cons (x : Byte × Word) (f : Flat) (c : Byte) :
    flatCount (x :: f) c = if c = x.1 then x.2 else flatCount f c := by
  rw [flatCount, mapGet_cons]
  split <;> rfl

/-- Merging FLAT gives the sums, or one of them overflows. -/
theorem mergeFlat_cases {src dst : Flat} (hsrc : mapSorted byteLt src = true) :
    (∃ f, mergeFlat src dst = .ok f ∧
      ∀ c, (flatCount f c).toNat = (flatCount dst c).toNat + (flatCount src c).toNat) ∨
    mergeFlat src dst = .error { kind := .countOverflow, info := 0 } ∧
      ∃ c, 2 ^ 64 ≤ (flatCount dst c).toNat + (flatCount src c).toNat := by
  induction src generalizing dst with
  | nil => exact .inl ⟨dst, rfl, fun c => rfl⟩
  | cons x src ih =>
    have hx : flatCount src x.1 = 0 := by rw [flatCount, mapGet_tail_head byteLt_order hsrc]; rfl
    rw [mergeFlat]
    cases hbump : bumpFlat dst x.1 x.2 with
    | error e =>
      obtain hadd | ⟨_, -, hdone⟩ := bind_eq_error.mp hbump
      · obtain ⟨hover, rfl⟩ := addCount_eq_error.mp hadd
        exact .inr ⟨rfl, x.1, by rwa [flatCount_cons, if_pos rfl]⟩
      · exact nomatch hdone
    | ok dst' =>
      have hsum (c : Byte) : (flatCount dst' c).toNat + (flatCount src c).toNat =
          (flatCount dst c).toNat + (flatCount (x :: src) c).toNat := by
        rw [bumpFlat_ok hbump, flatCount_cons]
        split
        · rename_i hc
          rw [hc, hx]
          rfl
        · rfl
      rw [bind_ok]
      simp only [← hsum]
      exact ih (mapSorted_tail hsrc)

/-! ### Merging TRIE -/

theorem addNode_cases (a b : NodeCounts) :
    (∃ v, addNode a b = .ok v ∧ v.pass.toNat = a.pass.toNat + b.pass.toNat ∧
      v.exact.toNat = a.exact.toNat + b.exact.toNat) ∨
    addNode a b = .error { kind := .countOverflow, info := 0 } ∧
      (2 ^ 64 ≤ a.pass.toNat + b.pass.toNat ∨ 2 ^ 64 ≤ a.exact.toNat + b.exact.toNat) := by
  rw [addNode]
  cases hpass : addCount a.pass b.pass with
  | error e =>
    obtain ⟨hover, rfl⟩ := addCount_eq_error.mp hpass
    exact .inr ⟨rfl, .inl hover⟩
  | ok p =>
    cases hexact : addCount a.exact b.exact with
    | error e =>
      obtain ⟨hover, rfl⟩ := addCount_eq_error.mp hexact
      exact .inr ⟨rfl, .inr hover⟩
    | ok n => exact .inl ⟨_, rfl, addCount_eq_ok.mp hpass, addCount_eq_ok.mp hexact⟩

/-- Merging a node puts the sum of its counts into the destination, a node it lacks counting 0, or one overflows. -/
theorem mergeNodes_cons_cases (x : List Byte × NodeCounts) (src dst : Trie) :
    (∃ v : NodeCounts, v.pass.toNat = (nodeCounts dst x.1).pass.toNat + x.2.pass.toNat ∧
      v.exact.toNat = (nodeCounts dst x.1).exact.toNat + x.2.exact.toNat ∧
      mergeNodes (x :: src) dst = mergeNodes src (mapPut seqLt x.1 v dst)) ∨
    mergeNodes (x :: src) dst = .error { kind := .countOverflow, info := 0 } ∧
      (2 ^ 64 ≤ (nodeCounts dst x.1).pass.toNat + x.2.pass.toNat ∨
        2 ^ 64 ≤ (nodeCounts dst x.1).exact.toNat + x.2.exact.toNat) := by
  rw [mergeNodes]
  cases hd : mapGet x.1 dst with
  | none =>
    rw [nodeCounts_of_missing hd]
    exact .inl ⟨x.2, (Nat.zero_add _).symm, (Nat.zero_add _).symm, rfl⟩
  | some d =>
    have hcounts : nodeCounts dst x.1 = d := by rw [nodeCounts, hd]; rfl
    rw [hcounts]
    dsimp only
    obtain ⟨v, hv, hpass, hexact⟩ | ⟨herr, hover⟩ := addNode_cases d x.2
    · exact .inl ⟨v, hpass, hexact, by rw [hv]; rfl⟩
    · exact .inr ⟨by rw [herr]; rfl, hover⟩

/-- Moving the first node's counts from the source into the destination keeps the sum at every node. -/
theorem nodeCounts_sum_moved {x : List Byte × NodeCounts} {src dst : Trie} (hsrc : mapSorted seqLt (x :: src) = true)
    {v : NodeCounts} {g : NodeCounts → Word} (hzero : g ⟨0, 0⟩ = 0)
    (hv : (g v).toNat = (g (nodeCounts dst x.1)).toNat + (g x.2).toNat) (p : List Byte) :
    (g (nodeCounts (mapPut seqLt x.1 v dst) p)).toNat + (g (nodeCounts src p)).toNat =
      (g (nodeCounts dst p)).toNat + (g (nodeCounts (x :: src) p)).toNat := by
  have hx : nodeCounts src x.1 = ⟨0, 0⟩ := nodeCounts_of_missing (mapGet_tail_head seqLt_order hsrc)
  rw [nodeCounts_mapPut, nodeCounts_cons]
  split
  · rename_i hp
    rw [hp, hx, hzero, hv]
    rfl
  · rfl

/-- Merging TRIE gives the sums at the nodes of both, or one of them overflows. -/
theorem mergeNodes_cases {src dst : Trie} (hsrc : mapSorted seqLt src = true) :
    (∃ t, mergeNodes src dst = .ok t ∧ (∀ p, mapGet p t ≠ none ↔ mapGet p dst ≠ none ∨ mapGet p src ≠ none) ∧
      (∀ p, (nodeCounts t p).pass.toNat = (nodeCounts dst p).pass.toNat + (nodeCounts src p).pass.toNat) ∧
      ∀ p, (nodeCounts t p).exact.toNat = (nodeCounts dst p).exact.toNat + (nodeCounts src p).exact.toNat) ∨
    mergeNodes src dst = .error { kind := .countOverflow, info := 0 } ∧
      ∃ p, 2 ^ 64 ≤ (nodeCounts dst p).pass.toNat + (nodeCounts src p).pass.toNat ∨
        2 ^ 64 ≤ (nodeCounts dst p).exact.toNat + (nodeCounts src p).exact.toNat := by
  induction src generalizing dst with
  | nil => exact .inl ⟨dst, rfl, fun p => by simp, fun p => rfl, fun p => rfl⟩
  | cons x src ih =>
    obtain ⟨v, hpass, hexact, hmerge⟩ | ⟨herr, hover⟩ := mergeNodes_cons_cases x src dst
    · have hnodes (p : List Byte) : mapGet p (mapPut seqLt x.1 v dst) ≠ none ∨ mapGet p src ≠ none ↔
          mapGet p dst ≠ none ∨ mapGet p (x :: src) ≠ none := by
        rw [mapGet_mapPut, mapGet_cons]
        split <;> simp
      rw [hmerge]
      simp only [← hnodes, ← nodeCounts_sum_moved hsrc (g := NodeCounts.pass) rfl hpass,
        ← nodeCounts_sum_moved hsrc (g := NodeCounts.exact) rfl hexact]
      exact ih (mapSorted_tail hsrc)
    · exact .inr ⟨herr, x.1, by rwa [nodeCounts_cons, if_pos rfl]⟩

theorem length_newNodes (d r : Builder) : (newNodes r.trie d.trie).length = d.lacks r := by
  rw [newNodes, Builder.lacks, ← List.countP_eq_length_filter]
  refine List.countP_congr fun x _ => ?_
  simp

/-- Where the nodes fit TRIE_CAP the tries are merged. -/
theorem mergeTrie_of_fits {cap : Nat} {d r : Builder} (h : d.lacks r = 0 ∨ d.trie.length + d.lacks r ≤ cap) :
    mergeTrie cap r.trie d.trie = mergeNodes r.trie d.trie := by
  rw [mergeTrie, if_neg]
  rintro ⟨hne, hfull⟩
  have hpos := List.length_pos_iff.mpr hne
  rw [length_newNodes] at hpos hfull
  omega

/-- Where they do not, the error is the one of the free choice when a count overflows too (log 4), else ResourceError
(log 5). -/
theorem mergeTrie_of_full {cap : Nat} {d r : Builder} (hcap : d.trie.length ≤ cap)
    (hfull : cap < d.trie.length + d.lacks r) (hr : mapSorted seqLt r.trie = true) :
    mergeTrie cap r.trie d.trie = .error { kind := .resource, info := cap } ∨
      d.TrieOverflows r ∧ mergeTrie cap r.trie d.trie = .error { kind := .countOverflow, info := 0 } := by
  have hlen := length_newNodes d r
  have hne : newNodes r.trie d.trie ≠ [] := by
    rw [← List.length_pos_iff]
    omega
  rw [mergeTrie, if_pos ⟨hne, by rwa [hlen]⟩]
  obtain ⟨t, hmerge, -⟩ | ⟨herr, hover⟩ := mergeNodes_cases (dst := d.trie) hr
  · rw [hmerge]
    exact .inl rfl
  · rw [herr]
    dsimp only
    split
    · exact .inr ⟨hover, rfl⟩
    · exact .inl rfl

/-! ### BMERGE (R188) -/

theorem addCount_of_lt {a b : Word} (h : a.toNat + b.toNat < 2 ^ 64) : addCount a b = .ok (a + b) := by
  rw [addCount_eq_ok, BitVec.toNat_add]
  exact Nat.mod_eq_of_lt h

theorem addCount_of_ge {a b : Word} (h : 2 ^ 64 ≤ a.toNat + b.toNat) :
    addCount a b = .error { kind := .countOverflow, info := 0 } :=
  addCount_eq_error.mpr ⟨h, rfl⟩

section Merge
variable {cap : Nat} {d r : Builder}

theorem mergeBuilders_of_flatOverflows (hr : mapSorted byteLt r.flat = true) (hover : d.FlatOverflows r) :
    mergeBuilders cap d r = .error { kind := .countOverflow, info := 0 } := by
  obtain ⟨f, -, hsum⟩ | ⟨herr, -⟩ := mergeFlat_cases (dst := d.flat) hr
  · obtain ⟨c, hc⟩ := hover
    exact absurd (hsum c ▸ (flatCount f c).isLt) hc.not_gt
  · rw [mergeBuilders, herr, bind_error]

/-- Where FLAT does not overflow, what is left of a merge is the tries and the two counts of the slot. -/
theorem mergeBuilders_of_flat (hr : mapSorted byteLt r.flat = true) (hflat : ¬d.FlatOverflows r) :
    ∃ f, (∀ c, (flatCount f c).toNat = (flatCount d.flat c).toNat + (flatCount r.flat c).toNat) ∧
      mergeBuilders cap d r = mergeTrie cap r.trie d.trie >>= fun t => addCount d.lines r.lines >>= fun lines =>
        addCount d.skips r.skips >>= fun skips =>
          .ok { d with flat := f, trie := t, lines := lines, skips := skips } := by
  obtain ⟨f, hf, hsum⟩ | ⟨-, hover⟩ := mergeFlat_cases (dst := d.flat) hr
  · exact ⟨f, hsum, by rw [mergeBuilders, hf, bind_ok]⟩
  · exact absurd hover hflat

theorem mergeBuilders_of_overflow (hflatSorted : mapSorted byteLt r.flat = true)
    (htrieSorted : mapSorted seqLt r.trie = true) (hflat : ¬d.FlatOverflows r)
    (hfits : d.lacks r = 0 ∨ d.trie.length + d.lacks r ≤ cap)
    (hover : d.TrieOverflows r ∨ 2 ^ 64 ≤ d.lines.toNat + r.lines.toNat ∨ 2 ^ 64 ≤ d.skips.toNat + r.skips.toNat) :
    mergeBuilders cap d r = .error { kind := .countOverflow, info := 0 } := by
  obtain ⟨f, -, hmerge⟩ := mergeBuilders_of_flat (cap := cap) hflatSorted hflat
  rw [hmerge, mergeTrie_of_fits hfits]
  obtain ⟨t, ht, -, hpass, hexact⟩ | ⟨herr, -⟩ := mergeNodes_cases (dst := d.trie) htrieSorted
  · obtain ⟨p, hp | hp⟩ | hlines | hskips := hover
    · exact absurd (hpass p ▸ (nodeCounts t p).pass.isLt) hp.not_gt
    · exact absurd (hexact p ▸ (nodeCounts t p).exact.isLt) hp.not_gt
    · rw [ht, bind_ok, addCount_of_ge hlines, bind_error]
    · rw [ht, bind_ok]
      cases hl : addCount d.lines r.lines with
      | error e => rw [bind_error, (addCount_eq_error.mp hl).2]
      | ok lines => rw [bind_ok, addCount_of_ge hskips, bind_error]
  · rw [herr, bind_error]

end Merge

/-- BMERGE of two ACTIVE slots goes on to the check of their orders. -/
theorem effectOf_bmerge_of_active {s : State} {dst src : Nat} {d r : Builder} (hd : s.builders[dst]? = some d)
    (hr : s.builders[src]? = some r) (hne : dst ≠ src) (hdactive : d.mode = .active) (hractive : r.mode = .active) :
    effectOf (.bmerge dst src) s =
      check (d.order = r.order) { kind := .modelConstruction, info := r.order.toNat } >>= fun _ =>
        mergeBuilders s.params.trieCap d r >>= fun d' => .ok (s.withBuilder dst d') := by
  show bmergeEffect dst src s = _
  rw [bmergeEffect, builderSlot_eq_ok.mpr hd, bind_ok, builderSlot_eq_ok.mpr hr, bind_ok,
    check_pos ⟨hdactive, hractive, hne⟩, bind_ok]

/-- Settles O39: after the orders and FLAT, the room for the missing nodes decides between the two errors and the sums. -/
theorem bmergeAddsTheCounts : Obligations.BmergeAddsTheCounts := by
  intro s dst src d r hd hr hne hdactive hractive
  have heffect := effectOf_bmerge_of_active hd hr hne hdactive hractive
  refine ⟨fun horder => ?_, fun horder hflatSorted htrieSorted => ?_⟩
  · rw [check_neg horder, bind_error] at heffect
    rw [← toReg_of_lt .errInfo ((order_toNat_lt r.order).trans (by decide))]
    exact raises_of_effectOf heffect
  rw [check_pos horder, bind_ok] at heffect
  have raises {e : CmdError} (h : mergeBuilders s.params.trieCap d r = .error e) :
      Raises (.bmerge dst src) s e.kind (toReg .errInfo e.info) :=
    raises_of_effectOf (by rw [heffect, h, bind_error])
  refine ⟨fun hover => raises (mergeBuilders_of_flatOverflows hflatSorted hover), fun hflat hcap hfull hlt => ?_,
    fun hflat hfits => ⟨fun hover => raises (mergeBuilders_of_overflow hflatSorted htrieSorted hflat hfits hover),
      fun htrie hlines hskips => ?_⟩⟩
  · obtain ⟨f, -, hmerge⟩ := mergeBuilders_of_flat (cap := s.params.trieCap) hflatSorted hflat
    rw [← toReg_of_lt .errInfo hlt]
    obtain hres | ⟨hover, herr⟩ := mergeTrie_of_full hcap hfull htrieSorted
    · rw [hres, bind_error] at hmerge
      exact ⟨fun _ => raises hmerge, fun _ => .inr (raises hmerge)⟩
    · rw [herr, bind_error] at hmerge
      exact ⟨fun hno => absurd hover hno, fun _ => .inl (raises hmerge)⟩
  · obtain ⟨f, hsum, hmerge⟩ := mergeBuilders_of_flat (cap := s.params.trieCap) hflatSorted hflat
    obtain ⟨t, ht, hnodes, hpass, hexact⟩ | ⟨-, hover⟩ := mergeNodes_cases (dst := d.trie) htrieSorted
    · rw [mergeTrie_of_fits hfits, ht, bind_ok, addCount_of_lt hlines, bind_ok, addCount_of_lt hskips, bind_ok] at hmerge
      rw [hmerge, bind_ok] at heffect
      exact ⟨_, exec_of_effectOf heffect, rfl, hsum, hpass, hexact, hnodes⟩
    · exact absurd hover htrie

/-! ### Merged shards (R190) -/

/-- Every count of `u` is the sum of those of `a` and `b`, and the nodes of `u` are those of both. -/
structure Builder.CountsSum (u a b : Builder) : Prop where
  flat : ∀ c, (flatCount u.flat c).toNat = (flatCount a.flat c).toNat + (flatCount b.flat c).toNat
  pass : ∀ p, (nodeCounts u.trie p).pass.toNat = (nodeCounts a.trie p).pass.toNat + (nodeCounts b.trie p).pass.toNat
  exact : ∀ p,
    (nodeCounts u.trie p).exact.toNat = (nodeCounts a.trie p).exact.toNat + (nodeCounts b.trie p).exact.toNat
  nodes : ∀ p, mapGet p u.trie ≠ none ↔ mapGet p a.trie ≠ none ∨ mapGet p b.trie ≠ none
  skips : u.skips.toNat = a.skips.toNat + b.skips.toNat

/-- Slots that meet the invariant and hold the same sums hold the same counts. -/
theorem countsSum_unique {cap : Nat} {u v a b : Builder} (hu : u.Ok cap) (hv : v.Ok cap) (h : u.CountsSum a b)
    (h' : v.CountsSum a b) : u.flat = v.flat ∧ u.trie = v.trie ∧ u.skips = v.skips := by
  obtain ⟨-, -, htu, -, -, -, -, hfu, hnu, -⟩ := hu
  obtain ⟨-, -, htv, -, -, -, -, hfv, hnv, -⟩ := hv
  exact ⟨flat_ext ⟨hfu, hnu⟩ ⟨hfv, hnv⟩ fun c => BitVec.eq_of_toNat_eq (by rw [h.flat, h'.flat]),
    trie_ext htu htv (fun p => by rw [h.nodes, h'.nodes])
      fun p => nodeCounts_ext (by rw [h.pass, h'.pass]) (by rw [h.exact, h'.exact]),
    BitVec.eq_of_toNat_eq (by rw [h.skips, h'.skips])⟩

theorem accepts_countsSum {u u' a b b' : Builder} {c : Byte} (h : u.CountsSum a b) (hslid : u.slid c = b.slid c)
    (hu : u.Accepts c u') (hb : b.Accepts c b') : u'.CountsSum a b' := by
  obtain ⟨hfields, hflat, hpass, hexact, hkeys⟩ := hu
  obtain ⟨hfields', hflat', hpass', hexact', hkeys'⟩ := hb
  refine ⟨fun x => ?_, fun p => ?_, fun p => ?_, fun p => ?_, ?_⟩
  · rw [hflat, hflat', h.flat, Nat.add_assoc]
  · rw [hpass, hpass', h.pass, hslid, Nat.add_assoc]
  · rw [hexact, hexact', h.exact, hslid, Nat.add_assoc]
  · rw [hkeys, hkeys', h.nodes, hslid, or_assoc]
  · rw [hfields, hfields']
    exact h.skips

theorem skips_countsSum {u u' a b b' : Builder} (h : u.CountsSum a b) (hu : u.Skips u') (hb : b.Skips b') :
    u'.CountsSum a b' := by
  obtain ⟨hfields, hskips⟩ := hu
  obtain ⟨hfields', hskips'⟩ := hb
  have hsum : u'.skips.toNat = a.skips.toNat + b'.skips.toNat := by rw [hskips, hskips', h.skips, Nat.add_assoc]
  rw [hfields, hfields']
  exact ⟨h.flat, h.pass, h.exact, h.nodes, hsum⟩

/-- A scan from a slot that holds `a`'s counts beside those of `b` adds what the same scan adds to `b`, when both windows
are the same. -/
theorem scans_countsSum {u u' a b b' : Builder} {bs : List Byte} (hwin : u.win = b.win) (horder : u.order = b.order)
    (h : u.CountsSum a b) (hu : u.Scans bs u') (hb : b.Scans bs b') : u'.CountsSum a b' := by
  induction bs generalizing u b with
  | nil => rwa [show u' = u from hu, show b' = b from hb]
  | cons c bs ih =>
    obtain ⟨u₁, hu₁, hu⟩ := scans_cons hu
    obtain ⟨b₁, hb₁, hb⟩ := scans_cons hb
    by_cases hc : alphabetic c.toNat
    · have hslid : u.slid c = b.slid c := by rw [Builder.slid, hwin, horder, Builder.slid]
      have haccepts := (hu₁.resolve_right fun hno => hno.1 hc).2
      have haccepts' := (hb₁.resolve_right fun hno => hno.1 hc).2
      refine ih ?_ ?_ (accepts_countsSum h hslid haccepts haccepts') hu hb
      · rw [haccepts.1, haccepts'.1]
        exact hslid
      · rw [haccepts.1, haccepts'.1]
        exact horder
    · have hskips := (hu₁.resolve_left fun hno => hc hno.1).2
      have hskips' := (hb₁.resolve_left fun hno => hc hno.1).2
      refine ih ?_ ?_ (skips_countsSum h hskips hskips') hu hb
      · rw [hskips.1, hskips'.1]
        exact hwin
      · rw [hskips.1, hskips'.1]
        exact horder

/-- A merge holds the sums of both slots. -/
theorem mergeBuilders_countsSum {cap : Nat} {d r m : Builder} (hd : d.Ok cap) (hr : r.Ok cap)
    (h : mergeBuilders cap d r = .ok m) : m.CountsSum d r := by
  obtain ⟨-, -, htd, hfits, -, -, -, hfd, hnd, -⟩ := hd
  obtain ⟨-, -, htr, -, -, -, -, hfr, hnr, -⟩ := hr
  simp only [mergeBuilders, bind_eq_ok, Except.ok.injEq, addCount_eq_ok] at h
  obtain ⟨flat, hflat, trie, htrie, lines, -, skips, hskips, rfl⟩ := h
  obtain ⟨hnodes, -⟩ := mergeTrie_ok htr htd hfits htrie
  obtain ⟨-, hkeys, hpass, hexact⟩ := mergeNodes_ok htr htd hnodes
  exact ⟨(mergeFlat_ok ⟨hfr, hnr⟩ ⟨hfd, hnd⟩ hflat).2, hpass, hexact, hkeys, hskips⟩

/-- Settles O40: the merge and the scan after the boundary hold the same sums. -/
theorem mergedShardsEqualOneScan : Obligations.MergedShardsEqualOneScan := by
  intro cap o xs ys a b c m l ha hb hm hl hc
  have hfresh : (Builder.fresh o).ActiveOk cap := ⟨rfl, fresh_ok cap o⟩
  have haOk := scanBytes_activeOk (r := ⟨Builder.fresh o, 0, 0⟩) hfresh ha
  have hbOk := scanBytes_activeOk (r := ⟨Builder.fresh o, 0, 0⟩) hfresh hb
  have hlOk := markLine_activeOk haOk hl
  have hcOk := scanBytes_activeOk (r := ⟨l, 0, 0⟩) hlOk hc
  have hascan := scanBytes_scans (r := ⟨Builder.fresh o, 0, 0⟩) (Nat.zero_le _) ha
  have hbscan := scanBytes_scans (r := ⟨Builder.fresh o, 0, 0⟩) (Nat.zero_le _) hb
  have hcscan := scanBytes_scans (r := ⟨l, 0, 0⟩) hlOk.2.1 hc
  have horder : a.builder.order = o := by rw [scans_frame hascan]; rfl
  have horder' : b.builder.order = o := by rw [scans_frame hbscan]; rfl
  have hmOk := mergeBuilders_activeOk haOk hbOk (horder.trans horder'.symm) hm
  obtain ⟨n, -, hl⟩ := bind_eq_ok.mp hl
  obtain rfl := Except.ok.inj hl
  have hstart : Builder.CountsSum { a.builder with win := [], lines := n } a.builder (Builder.fresh o) :=
    ⟨fun c => rfl, fun p => rfl, fun p => rfl, fun p => by simp [Builder.fresh], rfl⟩
  refine countsSum_unique hmOk.2 hcOk.2 (mergeBuilders_countsSum haOk.2 hbOk.2 hm)
    (scans_countsSum ?_ ?_ hstart hcscan hbscan)
  · rfl
  · exact horder

end Sys2Proof.Machine

/-! PROOF. The frequency map of a slot (42_context_builder.md R200 to R204; 43_huffman.md R220): what puts into a map leave,
the leaves of the trie with EOF, their symbols, and the map they make with the counted bytes: O46. -/

namespace Sys2Proof.Machine

/-! ### Putting frequencies into a map -/

/-- After a put the map holds the pair put and every pair of another symbol. -/
theorem mem_putFreq {x : Sym} {n : Word} {f : FreqMap} (hf : (f.map (·.1)).Nodup) {p : Sym × Word} :
    p ∈ putFreq x n f ↔ p = (x, n) ∨ p ∈ f ∧ p.1 ≠ x := by
  induction f with
  | nil => simp [putFreq]
  | cons q f ih =>
    obtain ⟨hq, hf⟩ := List.nodup_cons.mp hf
    rw [putFreq]
    split
    · rename_i hx
      have hother : p ∈ f → p.1 ≠ x := fun hp hpx => hq (List.mem_map.mpr ⟨p, hp, hpx.trans hx⟩)
      have hrest : (p = q ∨ p ∈ f) ∧ p.1 ≠ x ↔ p ∈ f :=
        ⟨fun h => h.1.resolve_left fun hpq => h.2 (hpq ▸ hx.symm), fun hp => ⟨.inr hp, hother hp⟩⟩
      rw [List.mem_cons, List.mem_cons, hrest]
    · rename_i hx
      have hother : p = q → p.1 ≠ x := fun hpq => hpq ▸ Ne.symm hx
      rw [List.mem_cons, List.mem_cons, ih hf, or_and_right, and_iff_left_of_imp hother, or_left_comm]

/-- The pairs put into a map, one after the other (R200 step 3). -/
def putAll (l : List (Sym × Word)) (f : FreqMap) : FreqMap := l.foldl (fun m p => putFreq p.1 p.2 m) f

theorem putFreq_nodup {x : Sym} {n : Word} {f : FreqMap} (hf : (f.map (·.1)).Nodup) :
    ((putFreq x n f).map (·.1)).Nodup := by
  rw [putFreq_syms]
  split
  · exact hf
  · rename_i hx
    exact List.concat_eq_append ▸ hf.concat hx

/-- Pairs of distinct symbols put into a map are in it, beside the pairs of every other symbol. -/
theorem mem_putAll {l : List (Sym × Word)} {f : FreqMap} (hl : (l.map (·.1)).Nodup) (hf : (f.map (·.1)).Nodup)
    {p : Sym × Word} : p ∈ putAll l f ↔ p ∈ l ∨ p ∈ f ∧ p.1 ∉ l.map (·.1) := by
  induction l generalizing f with
  | nil => simp [putAll]
  | cons q l ih =>
    obtain ⟨hq, hl⟩ := List.nodup_cons.mp hl
    have hnew : p = q → p.1 ∉ l.map (·.1) := fun hpq => hpq ▸ hq
    calc p ∈ putAll (q :: l) f
      _ ↔ p ∈ putAll l (putFreq q.1 q.2 f) := Iff.rfl
      _ ↔ p ∈ l ∨ (p = q ∨ p ∈ f ∧ p.1 ≠ q.1) ∧ p.1 ∉ l.map (·.1) := by
        rw [ih hl (putFreq_nodup hf), mem_putFreq hf]
      _ ↔ p ∈ q :: l ∨ p ∈ f ∧ p.1 ∉ (q :: l).map (·.1) := by
        rw [or_and_right, and_iff_left_of_imp hnew, and_assoc, or_left_comm, List.mem_cons, List.map_cons, List.mem_cons,
          not_or, or_assoc]

/-- The symbols put that the map lacks come after those it has. -/
theorem putAll_syms {l : List (Sym × Word)} {f : FreqMap} (hl : (l.map (·.1)).Nodup) :
    (putAll l f).map (·.1) = f.map (·.1) ++ (l.map (·.1)).filter fun x => decide (x ∉ f.map (·.1)) := by
  induction l generalizing f with
  | nil => simp [putAll]
  | cons q l ih =>
    obtain ⟨hq, hl⟩ := List.nodup_cons.mp hl
    rw [show putAll (q :: l) f = putAll l (putFreq q.1 q.2 f) from rfl, ih hl, putFreq_syms, List.map_cons]
    split
    · rename_i hmem
      rw [List.filter_cons_of_neg (by simpa using hmem)]
    · rename_i hmem
      have hrest : (l.map (·.1)).filter (fun x => decide (x ∉ f.map (·.1) ++ [q.1])) =
          (l.map (·.1)).filter fun x => decide (x ∉ f.map (·.1)) := by
        refine List.filter_congr fun x hx => ?_
        have hne : x ≠ q.1 := ne_of_mem_of_not_mem hx hq
        simp [hne]
      rw [List.filter_cons_of_pos (by simpa using hmem), hrest, List.append_assoc, List.singleton_append]

/-- A key after all others is put at the end. -/
theorem mapPut_of_last {κ ν : Type} [DecidableEq κ] {lt : κ → κ → Bool} (hlt : KeyOrder lt) {k : κ} (v : ν)
    {m : List (κ × ν)} (h : ∀ x ∈ m, lt x.1 k = true) : mapPut lt k v m = m ++ [(k, v)] := by
  induction m with
  | nil => rfl
  | cons x m ih =>
    obtain ⟨hx, hm⟩ := List.forall_mem_cons.mp h
    have hne : k ≠ x.1 := fun he => absurd hx (by simp [he, hlt.irrefl])
    have hnot : ¬lt k x.1 = true := fun hk => absurd (hlt.trans _ _ _ hk hx) (by simp [hlt.irrefl])
    rw [mapPut, if_neg hne, if_neg hnot, ih hm, List.cons_append]

/-! ### Sequences that stand for symbols -/

/-- One to three bytes of A: what a node of a trie and a counted byte stand for (00_scope.md R17). -/
abbrev IsSymSeq (p : List Byte) : Prop := p ≠ [] ∧ p.length ≤ 3 ∧ allInAlphabet p

theorem not_alphabetic_eof : ¬alphabetic (0xFF : Byte).toNat := by decide

theorem symBytes_of_seq {p : List Byte} (hp : IsSymSeq p) : symBytes (packSym p) = p :=
  symBytes_packSym hp.1 hp.2.1 hp.2.2

theorem packSym_inj {p q : List Byte} (hp : IsSymSeq p) (hq : IsSymSeq q) (h : packSym p = packSym q) : p = q := by
  rw [← symBytes_of_seq hp, h, symBytes_of_seq hq]

/-- No sequence of bytes of A has the symbol of EOF. -/
theorem packSym_ne_eof {p : List Byte} (hp : IsSymSeq p) : packSym p ≠ 255 := by
  intro h
  have hbytes : symBytes 255 = p := h ▸ symBytes_of_seq hp
  exact not_alphabetic_eof (hp.2.2 0xFF (hbytes ▸ by decide))

theorem packSym_eq_ofNat {p : List Byte} (hp : IsSymSeq p) : packSym p = BitVec.ofNat 24 (seqValue p) := by
  rw [← packSym_toNat hp.2.1, BitVec.ofNat_toNat, BitVec.setWidth_eq]

theorem packSym_singleton (b : Byte) : packSym [b] = BitVec.ofNat 24 b.toNat := rfl

section Slot
variable {cap : Nat} {bd : Builder}

theorem node_isSymSeq (hbd : bd.Ok cap) {x : List Byte × NodeCounts} (hx : x ∈ bd.trie) : IsSymSeq x.1 := by
  obtain ⟨-, -, -, -, hnode, -⟩ := hbd
  obtain ⟨hne, hlen, hin, -⟩ := hnode x hx
  exact ⟨hne, hlen.trans (by cases bd.order <;> decide), hin⟩

theorem counted_isSymSeq (hbd : bd.Ok cap) {b : Byte} (hb : flatCount bd.flat b ≠ 0) : IsSymSeq [b] := by
  obtain ⟨-, -, -, -, -, -, -, -, hflat, -⟩ := hbd
  exact ⟨List.cons_ne_nil _ _, by simp, List.forall_mem_singleton.mpr (hflat _ (flat_mem_of_count hb)).1⟩

/-! ### The leaves of the trie with EOF (R200 step 1, R201) -/

theorem childless_iff {p : List Byte} : bd.childless p = true ↔ ∀ b, mapGet (p ++ [b]) bd.trie = none := by
  simp only [Builder.childless, List.all_eq_true, List.mem_range, Option.isNone_iff_eq_none]
  constructor
  · intro h b
    have hb := h b.toNat b.isLt
    rwa [BitVec.ofNat_toNat, BitVec.setWidth_eq] at hb
  · exact fun h c _ => h _

/-- EOF stands after every node. -/
theorem trieWithEof_eq (hbd : bd.Ok cap) :
    bd.trieWithEof = bd.trie ++ [([0xFF], ⟨bd.eofCount, bd.eofCount⟩)] := by
  refine mapPut_of_last seqLt_order _ fun x hx => ?_
  obtain ⟨hne, -, hin⟩ := node_isSymSeq hbd hx
  obtain ⟨a, p, hp⟩ := List.exists_cons_of_ne_nil hne
  have ha : alphabetic a.toNat := hin a (hp ▸ List.mem_cons_self)
  have hne' : a ≠ 0xFF := fun he => not_alphabetic_eof (he ▸ ha)
  rw [hp, seqLt, if_neg hne', byteLt, decide_eq_true_iff]
  show a.toNat < 255
  omega

theorem trieWithEof_ne_nil (hbd : bd.Ok cap) {x : List Byte × NodeCounts} (hx : x ∈ bd.trieWithEof) : x.1 ≠ [] := by
  obtain rfl | hx := mem_mapPut seqLt _ _ _ hx
  · exact List.cons_ne_nil _ _
  · exact (node_isSymSeq hbd hx).1

/-- Below a sequence the trie with EOF has the nodes of the trie. -/
theorem isLeaf_trieWithEof {p : List Byte} (hp : p ≠ []) : isLeaf bd.trieWithEof p = bd.childless p := by
  rw [Bool.eq_iff_iff, isLeaf_iff, childless_iff]
  refine forall_congr' fun b => ?_
  have hne : p ++ [b] ≠ [0xFF] := by simp [List.append_eq_cons_iff, hp]
  rw [Builder.trieWithEof, mapGet_mapPut_other seqLt hne]

theorem childless_eof (hbd : bd.Ok cap) : bd.childless [0xFF] = true := by
  refine childless_iff.mpr fun b => Option.eq_none_iff_forall_ne_some.mpr fun c hc => ?_
  obtain ⟨-, -, hin⟩ := node_isSymSeq hbd (mem_of_mapGet hc)
  exact not_alphabetic_eof (hin 0xFF (by simp))

/-- The leaves of a slot's trie, as pairs for the map. -/
def Builder.leafPairs (bd : Builder) : List (Sym × Word) :=
  (bd.trie.filter fun x => bd.childless x.1).map fun x => (packSym x.1, x.2.exact)

/-- The leaves are the childless nodes in the trie's order, and EOF after them. -/
theorem trieLeaves_eq (hbd : bd.Ok cap) : trieLeaves bd.trieWithEof = bd.leafPairs ++ [(255, bd.eofCount)] := by
  have hleaves : bd.trieWithEof.filter (fun x => isLeaf bd.trieWithEof x.1) =
      bd.trieWithEof.filter fun x => bd.childless x.1 :=
    List.filter_congr fun x hx => isLeaf_trieWithEof (trieWithEof_ne_nil hbd hx)
  have heof : [(([0xFF] : List Byte), (⟨bd.eofCount, bd.eofCount⟩ : NodeCounts))].filter (fun x => bd.childless x.1) =
      [([0xFF], ⟨bd.eofCount, bd.eofCount⟩)] := List.filter_cons_of_pos (childless_eof hbd)
  rw [trieLeaves, hleaves, trieWithEof_eq hbd, List.filter_append, heof, List.map_append]
  rfl

theorem mem_leafPairs {p : Sym × Word} :
    p ∈ bd.leafPairs ↔ ∃ x ∈ bd.trie, bd.childless x.1 = true ∧ p = (packSym x.1, x.2.exact) := by
  simp only [Builder.leafPairs, List.mem_map, List.mem_filter, and_assoc, eq_comm]

/-- The leaves and EOF have distinct symbols. -/
theorem trieLeaves_nodup (hbd : bd.Ok cap) :
    ((bd.leafPairs ++ [(255, bd.eofCount)] : List (Sym × Word)).map (·.1)).Nodup := by
  have ⟨_, _, hsorted, _⟩ := hbd
  have hkeys : bd.trie.Pairwise fun x y => x.1 ≠ y.1 :=
    List.pairwise_map.mp (mapSorted_keys_nodup seqLt_order hsorted)
  have hnodes : (bd.trie.filter fun x => bd.childless x.1).Pairwise fun x y => x.1 ≠ y.1 :=
    hkeys.sublist List.filter_sublist
  rw [List.map_append, List.nodup_append, Builder.leafPairs, List.map_map]
  refine ⟨List.pairwise_map.mpr (hnodes.imp_of_mem fun hx hy hne => ?_), List.nodup_singleton _, ?_⟩
  · exact mt (packSym_inj (node_isSymSeq hbd (List.mem_of_mem_filter hx))
      (node_isSymSeq hbd (List.mem_of_mem_filter hy))) hne
  · refine List.forall_mem_map.mpr fun x hx y hy => ?_
    rw [List.mem_singleton.mp hy]
    exact packSym_ne_eof (node_isSymSeq hbd (List.mem_of_mem_filter hx))

/-! ### The counted bytes (R200 step 2) -/

theorem mem_seeds {p : Sym × Word} :
    p ∈ bd.seeds ↔ ∃ b, flatCount bd.flat b ≠ 0 ∧ p = (packSym [b], flatCount bd.flat b) := by
  simp only [seeds_eq, List.mem_map, List.mem_filter, List.mem_range, bne_iff_ne]
  constructor
  · rintro ⟨b, ⟨hlt, hb⟩, rfl⟩
    refine ⟨BitVec.ofNat 8 b, hb, ?_⟩
    rw [packSym_singleton, BitVec.toNat_ofNat, Nat.mod_eq_of_lt hlt]
  · rintro ⟨b, hb, rfl⟩
    exact ⟨b.toNat, ⟨b.isLt, by simpa using hb⟩, by simp [packSym_singleton]⟩

theorem seed_syms_toNat : (bd.seeds.map (·.1)).map BitVec.toNat =
    (List.range 256).filter fun b => flatCount bd.flat (BitVec.ofNat 8 b) != 0 := by
  rw [seeds_eq, List.map_map, List.map_map]
  refine (List.map_congr_left fun b hb => ?_).trans (List.map_id _)
  have hlt := List.mem_range.mp (List.mem_of_mem_filter hb)
  exact Nat.mod_eq_of_lt (by omega)

/-- A sequence has the symbol of a counted byte exactly when it is that byte. -/
theorem packSym_mem_seeds (hbd : bd.Ok cap) {p : List Byte} (hp : IsSymSeq p) :
    packSym p ∈ bd.seeds.map (·.1) ↔ (p.length == 1 && flatCount bd.flat (p.getD 0 0) != 0) = true := by
  simp only [List.mem_map, mem_seeds, Bool.and_eq_true, beq_iff_eq, bne_iff_ne]
  constructor
  · rintro ⟨_, ⟨b, hb, rfl⟩, h⟩
    rw [packSym_inj hp (counted_isSymSeq hbd hb) h.symm]
    exact ⟨rfl, hb⟩
  · rintro ⟨hlen, hb⟩
    obtain ⟨b, rfl⟩ := List.length_eq_one_iff.mp hlen
    exact ⟨_, ⟨b, hb, rfl⟩, rfl⟩

theorem eof_notMem_seeds (hbd : bd.Ok cap) : (255 : Sym) ∉ bd.seeds.map (·.1) := by
  simp only [List.mem_map, mem_seeds]
  rintro ⟨_, ⟨b, hb, rfl⟩, h⟩
  exact packSym_ne_eof (counted_isSymSeq hbd hb) h

/-! ### The map (R200, R202) -/

theorem eofCount_toNat (bd : Builder) : bd.eofCount.toNat = max bd.lines.toNat 1 := by
  unfold Builder.eofCount
  split
  · rename_i h
    rw [h]
    rfl
  · rename_i h
    have hne : bd.lines.toNat ≠ 0 := fun h0 => h (BitVec.eq_of_toNat_eq h0)
    omega

theorem eofCount_ne_zero (bd : Builder) : bd.eofCount ≠ 0 := by
  intro h
  have hcount := eofCount_toNat bd
  rw [h, show (0 : Word).toNat = 0 from rfl] at hcount
  omega

/-- Before the zero drop the map holds the leaves, EOF, and the counted bytes that are no leaves. -/
theorem mem_putAll_leaves (hbd : bd.Ok cap) {p : Sym × Word} :
    p ∈ putAll (bd.leafPairs ++ [(255, bd.eofCount)]) bd.seeds ↔
      p ∈ bd.leafPairs ∨ p = (255, bd.eofCount) ∨ p ∈ bd.seeds ∧ p.1 ∉ bd.leafPairs.map (·.1) := by
  have hseed : p ∈ bd.seeds ∧ ¬(p.1 ∈ bd.leafPairs.map (·.1) ∨ p.1 = 255) ↔
      p ∈ bd.seeds ∧ p.1 ∉ bd.leafPairs.map (·.1) := by
    refine and_congr_right fun hp => not_congr (or_iff_left fun he => ?_)
    exact eof_notMem_seeds hbd (he ▸ List.mem_map_of_mem hp)
  rw [mem_putAll (trieLeaves_nodup hbd) (seeds_symbolsOk hbd).1, List.mem_append, List.mem_singleton, List.map_append,
    List.mem_append, List.map_singleton, List.mem_singleton, hseed, or_assoc]

/-- No pair of the map is dropped: the zero drop finds no zero. -/
theorem freqMap_eq (hbd : bd.Ok cap) : bd.freqMap = putAll (bd.leafPairs ++ [(255, bd.eofCount)]) bd.seeds := by
  have ⟨_, _, hsorted, _, _, _, hleaf, _⟩ := hbd
  rw [Builder.freqMap, trieLeaves_eq hbd]
  refine List.filter_eq_self.mpr fun p hp => bne_iff_ne.mpr fun hzero => ?_
  obtain hp | rfl | ⟨hp, -⟩ := (mem_putAll_leaves hbd).mp hp
  · obtain ⟨x, hx, hchild, rfl⟩ := mem_leafPairs.mp hp
    have hpos := hleaf x hx ((isLeaf_iff _ _).mpr (childless_iff.mp hchild))
    rw [show x.2.exact = 0 from hzero] at hpos
    exact absurd hpos (by decide)
  · exact eofCount_ne_zero bd hzero
  · obtain ⟨b, hb, rfl⟩ := mem_seeds.mp hp
    exact hb hzero

theorem mem_freqMap (hbd : bd.Ok cap) {p : Sym × Word} : p ∈ bd.freqMap ↔
    p ∈ bd.leafPairs ∨ p = (255, bd.eofCount) ∨ p ∈ bd.seeds ∧ p.1 ∉ bd.leafPairs.map (·.1) := by
  rw [freqMap_eq hbd, mem_putAll_leaves hbd]

/-- The symbols of the map: the counted bytes, the leaves that are none, EOF. -/
theorem freqMap_syms (hbd : bd.Ok cap) : bd.freqMap.map (fun p => p.1.toNat) = bd.mapSymbols := by
  have hleaves : ((bd.leafPairs.map (·.1)).filter fun x => decide (x ∉ bd.seeds.map (·.1))).map BitVec.toNat =
      (bd.trie.filter fun x =>
        bd.childless x.1 && !(x.1.length == 1 && flatCount bd.flat (x.1.getD 0 0) != 0)).map fun x => seqValue x.1 := by
    rw [Builder.leafPairs, List.map_map, List.filter_map, List.filter_filter, List.map_map]
    refine (congrArg _ (List.filter_congr fun x hx => ?_)).trans (List.map_congr_left fun x hx => ?_)
    · rw [Bool.and_comm]
      congr 1
      rw [Bool.eq_iff_iff, Function.comp, Function.comp, decide_eq_true_iff, packSym_mem_seeds hbd (node_isSymSeq hbd hx),
        Bool.not_eq_true', Bool.not_eq_true]
    · exact packSym_toNat (node_isSymSeq hbd (List.mem_of_mem_filter hx)).2.1
  have heof : ([255] : List Sym).filter (fun x => decide (x ∉ bd.seeds.map (·.1))) = [255] :=
    List.filter_cons_of_pos (decide_eq_true (eof_notMem_seeds hbd))
  calc bd.freqMap.map (fun p => p.1.toNat)
    _ = (bd.freqMap.map (·.1)).map BitVec.toNat := by rw [List.map_map]; rfl
    _ = bd.mapSymbols := by
      rw [freqMap_eq hbd, putAll_syms (trieLeaves_nodup hbd), List.map_append (f := fun p : Sym × Word => p.1),
        List.filter_append, List.map_singleton, heof, List.map_append, List.map_append, seed_syms_toNat, hleaves,
        ← List.append_assoc]
      rfl

theorem eof_mem_freqMap (hbd : bd.Ok cap) : (255, bd.eofCount) ∈ bd.freqMap :=
  (mem_freqMap hbd).mpr (.inr (.inl rfl))

/-- Only EOF's own pair has the symbol of EOF. -/
theorem eq_eof_of_mem_freqMap (hbd : bd.Ok cap) {p : Sym × Word} (hp : p ∈ bd.freqMap) (hsym : p.1 = 255) :
    p = (255, bd.eofCount) := by
  obtain hp | hp | ⟨hp, -⟩ := (mem_freqMap hbd).mp hp
  · obtain ⟨x, hx, -, rfl⟩ := mem_leafPairs.mp hp
    exact absurd hsym (packSym_ne_eof (node_isSymSeq hbd hx))
  · exact hp
  · exact absurd (hsym ▸ List.mem_map_of_mem hp) (eof_notMem_seeds hbd)

/-- A counted byte that is no leaf keeps its flat count. -/
theorem counted_mem_freqMap (hbd : bd.Ok cap) {b : Byte} (hb : flatCount bd.flat b ≠ 0)
    (hleaf : mapGet [b] bd.trie = none ∨ bd.childless [b] = false) :
    (packSym [b], flatCount bd.flat b) ∈ bd.freqMap := by
  refine (mem_freqMap hbd).mpr (.inr (.inr ⟨mem_seeds.mpr ⟨b, hb, rfl⟩, fun hmem => ?_⟩))
  obtain ⟨p, hp, hsym⟩ := List.mem_map.mp hmem
  obtain ⟨x, hx, hchild, rfl⟩ := mem_leafPairs.mp hp
  have hnode : x.1 = [b] := packSym_inj (node_isSymSeq hbd hx) (counted_isSymSeq hbd hb) hsym
  obtain hnone | hparent := hleaf
  · exact mapGet_ne_none_of_mem hx (hnode ▸ hnone)
  · rw [hnode, hparent] at hchild
    exact Bool.noConfusion hchild

/-! ### The model of a slot (43_huffman.md R220) -/

/-- A build gives every pair of nonzero frequency an entry. -/
theorem exists_entry_of_huff {f : FreqMap} {es : List Entry} (h : huff f = .ok es) {p : Sym × Word} (hp : p ∈ f)
    (hne : p.2 ≠ 0) : ∃ e ∈ es, e.sym = p.1 ∧ e.freq = p.2 := by
  obtain ⟨-, root, -, rfl, -⟩ := huff_ok h
  exact ⟨_, List.mem_map_of_mem (List.mem_filter.mpr ⟨hp, bne_iff_ne.mpr hne⟩), rfl, rfl⟩

/-- A BBUILD without an error stores a model of the slot's map. -/
theorem bbuild_stores {s t : State} {k j : Nat} (hk : s.builders[k]? = some bd) (hj : j < 2)
    (h : exec (.bbuild k j) s = .next t) (hdone : t.status.lastErr = none) :
    ∃ es, huff bd.freqMap = .ok es ∧ t.models[j]? = some (some { order := bd.order, entries := es }) := by
  obtain ⟨u, hu, rfl⟩ | ⟨e, -, rfl⟩ := exec_eq_next h
  · obtain ⟨bd', w, es, hk', -, -, -, hes, rfl⟩ := bbuildEffect_ok hu
    obtain rfl := Option.some.inj (hk'.symm.trans hk)
    exact ⟨es, hes, Vector.getElem?_setIfInBounds_self_of_lt hj⟩
  · rw [takeError_lastErr] at hdone
    exact nomatch hdone

end Slot

/-- Settles O46, by what `mem_freqMap` and `freqMap_syms` say of the map. -/
theorem everyBbuildModelHasAnEofCode : Obligations.EveryBbuildModelHasAnEofCode := by
  intro s k bd hk hbd
  refine ⟨freqMap_syms hbd, fun p hp hsym => ?_, fun x hx hchild => ?_, fun b => counted_mem_freqMap hbd,
    fun t j hj h hdone => ?_⟩
  · rw [eq_eof_of_mem_freqMap hbd hp hsym, eofCount_toNat]
  · rw [← packSym_eq_ofNat (node_isSymSeq hbd hx)]
    exact (mem_freqMap hbd).mpr (.inl (mem_leafPairs.mpr ⟨x, hx, hchild, rfl⟩))
  · obtain ⟨es, hes, hmodel⟩ := bbuild_stores hk hj h hdone
    obtain ⟨e, he, hsym, hfreq⟩ := exists_entry_of_huff hes (eof_mem_freqMap hbd) (eofCount_ne_zero bd)
    exact ⟨_, e, hmodel, he, hsym, by rw [hfreq, eofCount_toNat]⟩

end Sys2Proof.Machine

/-! PROOF. The codes of a build (43_huffman.md R210 to R217): codes are the paths of the tree, the tree is full, and the
depths of its leaves fall as their frequencies rise: O42, O43, O44. -/

namespace Sys2Proof.Machine

/-! ### Codes are paths (R213) -/

theorem symAt_leaf {x y : Sym} {f : Word} {path : List Bool} :
    (Tree.leaf x f).symAt path = some y ↔ path = [] ∧ x = y := by
  cases path <;> simp [Tree.symAt]

theorem symAt_node {l r : Tree} {f : Word} {x : Sym} {path : List Bool} :
    (Tree.node l r f).symAt path = some x ↔
      (∃ p, path = false :: p ∧ l.symAt p = some x) ∨ ∃ p, path = true :: p ∧ r.symAt p = some x := by
  match path with
  | [] => simp [Tree.symAt]
  | false :: p => simp [Tree.symAt]
  | true :: p => simp [Tree.symAt]

/-- The label of a leaf is the path to its tree and then the path to it in the tree. -/
theorem mem_labelTree {t : Tree} {bs : List Bool} {c : Sym × List Bool} :
    c ∈ labelTree t bs ↔ ∃ path, c.2 = bs ++ path ∧ t.symAt path = some c.1 := by
  induction t generalizing bs with
  | leaf x f =>
    simp only [labelTree, List.mem_singleton, symAt_leaf, Prod.ext_iff]
    constructor
    · exact fun h => ⟨[], by simp [h.2], rfl, h.1.symm⟩
    · rintro ⟨_, hc, rfl, hx⟩
      exact ⟨hx.symm, by simpa using hc⟩
  | node l r f hl hr =>
    simp only [labelTree, List.mem_append, hl, hr, symAt_node]
    constructor
    · rintro (⟨p, hc, hp⟩ | ⟨p, hc, hp⟩)
      · exact ⟨false :: p, by simp [hc], .inl ⟨p, rfl, hp⟩⟩
      · exact ⟨true :: p, by simp [hc], .inr ⟨p, rfl, hp⟩⟩
    · rintro ⟨_, hc, ⟨p, rfl, hp⟩ | ⟨p, rfl, hp⟩⟩
      · exact .inl ⟨p, by simp [hc], hp⟩
      · exact .inr ⟨p, by simp [hc], hp⟩

/-- The codes of a tree of several leaves are the paths to its symbols. -/
theorem mem_treeCodes_node {l r : Tree} {f : Word} {c : Sym × List Bool} :
    c ∈ treeCodes (.node l r f) ↔ (Tree.node l r f).symAt c.2 = some c.1 := by
  rw [treeCodes, mem_labelTree]
  simp

theorem length_le_depth {t : Tree} {path : List Bool} {x : Sym} (h : t.symAt path = some x) :
    path.length ≤ t.depth := by
  induction t generalizing path with
  | leaf y f =>
    obtain ⟨rfl, -⟩ := symAt_leaf.mp h
    exact le_rfl
  | node l r f hl hr =>
    obtain ⟨p, rfl, hp⟩ | ⟨p, rfl, hp⟩ := symAt_node.mp h
    · exact Nat.succ_le_succ ((hl hp).trans (le_max_left _ _))
    · exact Nat.succ_le_succ ((hr hp).trans (le_max_right _ _))

/-- No code is longer than the tree is deep, but for the code of a single leaf (R212). -/
theorem treeCodes_length_le {t : Tree} {c : Sym × List Bool} (h : c ∈ treeCodes t) : c.2.length ≤ max 1 t.depth := by
  cases t with
  | leaf x f =>
    obtain rfl := List.mem_singleton.mp h
    exact le_max_left _ _
  | node l r f => exact (length_le_depth (mem_treeCodes_node.mp h)).trans (le_max_right _ _)

/-- Of distinct symbols, each has the code listed for it. -/
theorem codeOf_of_mem {codes : List (Sym × List Bool)} (hcodes : (codes.map (·.1)).Nodup) {c : Sym × List Bool}
    (hc : c ∈ codes) : codeOf codes c.1 = c.2 := by
  induction codes with
  | nil => exact nomatch hc
  | cons d codes ih =>
    obtain ⟨hd, hcodes⟩ := List.nodup_cons.mp hcodes
    rw [codeOf, mapGet_cons]
    obtain rfl | hc := List.mem_cons.mp hc
    · rw [if_pos rfl]
      rfl
    · rw [if_neg (ne_of_mem_of_not_mem (List.mem_map_of_mem hc) hd)]
      exact ih hcodes hc

/-! ### The tree of a build -/

/-- A build succeeds only with the entries of its map's tree, no code longer than 64 bits. -/
theorem huff_ok_huffTree {f : FreqMap} {es : List Entry} (h : huff f = .ok es) :
    ∃ root, HuffTree (dropZeros f) root ∧ es = (dropZeros f).map (entryOf (treeCodes root)) ∧
      ∀ p ∈ dropZeros f, (codeOf (treeCodes root) p.1).length ≤ 64 := by
  obtain ⟨root, hroot, hes⟩ := bind_eq_ok.mp h
  exact ⟨root, buildTree_huffTree hroot, emitEntries_ok hes⟩

/-- The entries carry the pairs of the map in its order (R215). -/
theorem entries_pairs (codes : List (Sym × List Bool)) (f : FreqMap) :
    (f.map (entryOf codes)).map (fun e => (e.sym, e.freq)) = f := by
  rw [List.map_map]
  exact List.map_id f

theorem HuffTree.code_mem {f : FreqMap} {root : Tree} (h : HuffTree f root) {p : Sym × Word} (hp : p ∈ f) :
    (p.1, codeOf (treeCodes root) p.1) ∈ treeCodes root :=
  codeOf_mem (h.syms_perm.mem_iff.mpr (List.mem_map_of_mem hp))

/-- The tree of a map of several symbols has an inner node at its root. -/
theorem HuffTree.eq_node {f : FreqMap} {root : Tree} (h : HuffTree f root) (hf : 2 ≤ f.length) :
    ∃ l r w, root = .node l r w := by
  cases root with
  | node l r w => exact ⟨l, r, w, rfl⟩
  | leaf x w =>
    have hlen := h.syms_perm.length_eq
    rw [List.length_map, Tree.syms, List.length_singleton] at hlen
    omega

/-- The bits of an entry's value, the first the most significant, are its code (00_scope.md R14). -/
theorem entryOf_getLsbD {codes : List (Sym × List Bool)} {p : Sym × Word} (h : (codeOf codes p.1).length ≤ 64)
    {i : Nat} (hi : i < (codeOf codes p.1).length) :
    (codeOf codes p.1)[i] = (entryOf codes p).value.getLsbD ((codeOf codes p.1).length - 1 - i) := by
  have hbits : bitsOf (codeOf codes p.1).length (entryOf codes p).value.toNat = codeOf codes p.1 := entryOf_bits h
  calc (codeOf codes p.1)[i]
    _ = (bitsOf (codeOf codes p.1).length (entryOf codes p).value.toNat)[i]'(by simpa using hi) := by simp only [hbits]
    _ = _ := by simp [bitsOf, BitVec.getLsbD]

/-- Settles O43: the entries are those of the map's tree (`huff_ok_huffTree`), whose codes are paths
(`mem_treeCodes_node`). -/
theorem builtEntriesKeepTheMapsOrder : Obligations.BuiltEntriesKeepTheMapsOrder := by
  intro f es h
  obtain ⟨root, hroot, rfl, hlen⟩ := huff_ok_huffTree h
  refine ⟨entries_pairs _ _, List.forall_mem_map.mpr fun p hp => ⟨rfl, ?_, hlen p hp, ?_⟩, root, hroot,
    fun htwo => List.forall_mem_map.mpr fun p hp => ?_⟩
  · exact treeCodes_length_pos (hroot.code_mem hp)
  · rw [entryOf_value (hlen p hp)]
    exact valOf_lt _
  · obtain ⟨l, r, w, rfl⟩ := hroot.eq_node (by rwa [List.length_map] at htwo)
    exact ⟨_, mem_treeCodes_node.mp (hroot.code_mem hp), rfl, fun i hi => entryOf_getLsbD (hlen p hp) hi⟩

/-- Settles O44: the tree of one symbol is its leaf, which gets the code "0". -/
theorem singleSymbolGetsTheCodeZero : Obligations.SingleSymbolGetsTheCodeZero := by
  intro x f hf
  have hkept : dropZeros [(x, f)] = [(x, f)] := List.filter_cons_of_pos (bne_iff_ne.mpr hf)
  have hcode : codeOf (treeCodes (.leaf x f)) x = [false] := by rw [codeOf, treeCodes, mapGet_cons, if_pos rfl]; rfl
  rw [huff, hkept, show buildTree [(x, f)] = .ok (.leaf x f) from rfl, bind_ok, symBytes_length]
  simp only [emitEntries, hcode]
  rfl

/-! ### The tree is full (R216) -/

theorem labelTree_ne_nil (t : Tree) (bs : List Bool) : labelTree t bs ≠ [] := by
  induction t generalizing bs with
  | leaf x f => exact List.cons_ne_nil _ _
  | node l r f hl hr => exact fun h => hl _ (List.append_eq_nil_iff.mp h).1

/-- The codes of a subtree, cut at n bits, share out all that begins with the path to it. -/
theorem labelTree_kraft {t : Tree} {bs : List Bool} {n : Nat} (h : ∀ c ∈ labelTree t bs, c.2.length ≤ n) :
    ((labelTree t bs).map fun c => 2 ^ (n - c.2.length)).sum = 2 ^ (n - bs.length) := by
  induction t generalizing bs with
  | leaf x f => simp [labelTree]
  | node l r f hl hr =>
    obtain ⟨hleft, hright⟩ := List.forall_mem_append.mp h
    obtain ⟨c, hc⟩ := List.exists_mem_of_ne_nil _ (labelTree_ne_nil l (bs ++ [false]))
    have hroom : bs.length + 1 ≤ n := by simpa using (labelTree_prefix hc).length_le.trans (hleft c hc)
    rw [labelTree, List.map_append, List.sum_append, hl hleft, hr hright, List.length_append, List.length_append,
      List.length_singleton, List.length_singleton, show n - bs.length = n - (bs.length + 1) + 1 by omega]
    ring

/-- The codes of the entries of a map of distinct symbols are those of its tree, each once. -/
theorem HuffTree.lengths_perm {f : FreqMap} {root : Tree} (h : HuffTree f root) (hf : (f.map (·.1)).Nodup) :
    ((f.map (entryOf (treeCodes root))).map (·.length)).Perm ((treeCodes root).map (·.2.length)) := by
  have hsyms : ((treeCodes root).map (·.1)).Perm (f.map (·.1)) := treeCodes_syms root ▸ h.syms_perm
  have hcodes : ((treeCodes root).map (·.1)).map (fun x => (codeOf (treeCodes root) x).length) =
      (treeCodes root).map (·.2.length) := by
    rw [List.map_map]
    refine List.map_congr_left fun c hc => ?_
    rw [Function.comp, codeOf_of_mem (hsyms.nodup_iff.mpr hf) hc]
  rw [← hcodes, List.map_map, show (Entry.length ∘ entryOf (treeCodes root)) =
    (fun x => (codeOf (treeCodes root) x).length) ∘ (·.1) from rfl, ← List.map_map]
  exact hsyms.symm.map _

theorem huff_full {f : FreqMap} {es : List Entry} (hf : (f.map (·.1)).Nodup) (h : huff f = .ok es)
    (htwo : 2 ≤ es.length) : (es.map fun e => 2 ^ (64 - e.length)).sum = 2 ^ 64 := by
  obtain ⟨root, hroot, rfl, hlen⟩ := huff_ok_huffTree h
  have hperm := hroot.lengths_perm (hf.sublist (List.filter_sublist.map _))
  obtain ⟨l, r, w, rfl⟩ := hroot.eq_node (by rwa [List.length_map] at htwo)
  have hshort : ∀ c ∈ labelTree (.node l r w) [], c.2.length ≤ 64 := by
    intro c hc
    obtain ⟨e, he, hce⟩ := List.mem_map.mp (hperm.mem_iff.mpr (List.mem_map_of_mem hc))
    obtain ⟨p, hp, rfl⟩ := List.mem_map.mp he
    exact hce ▸ hlen p hp
  have hkraft := labelTree_kraft hshort
  calc _
    _ = ((((dropZeros f).map (entryOf (treeCodes (.node l r w)))).map (·.length)).map fun n => 2 ^ (64 - n)).sum := by
      rw [List.map_map (g := fun n => 2 ^ (64 - n))]
      rfl
    _ = (((treeCodes (.node l r w)).map (·.2.length)).map fun n => 2 ^ (64 - n)).sum := (hperm.map _).sum_eq
    _ = 2 ^ 64 := by rwa [List.map_map]

/-! ### Lower frequencies lie deeper (R217) -/

/-- The leaves of a tree, each with its depth where the tree's root lies at depth `d`. -/
def Tree.leavesAt : Tree → Nat → List ((Sym × Word) × Nat)
  | .leaf x f, d => [((x, f), d)]
  | .node l r _, d => l.leavesAt (d + 1) ++ r.leavesAt (d + 1)

theorem labelTree_lengths (t : Tree) (bs : List Bool) :
    (labelTree t bs).map (fun c => (c.1, c.2.length)) = (t.leavesAt bs.length).map fun x => (x.1.1, x.2) := by
  induction t generalizing bs with
  | leaf x f => rfl
  | node l r f hl hr =>
    simp only [labelTree, Tree.leavesAt, List.map_append, hl, hr, List.length_append, List.length_singleton]

/-- `ps` are the nodes of a queue with the depths at which the tree made of the queue holds them: they fall along the
queue, and a node that is no heavier than the first two together lies at most one level above the first. -/
structure QueueDepths (root : Tree) (ps : List (Tree × Nat)) : Prop where
  leaves : (root.leavesAt 0).Perm (ps.flatMap fun p => p.1.leavesAt p.2)
  falling : ps.Pairwise fun a b => b.2 ≤ a.2
  near : ∀ a b, [a, b] <+: ps → ∀ p ∈ ps, p.1.weight ≤ a.1.weight + b.1.weight → a.2 ≤ p.2 + 1

/-- The queue stays rising when its first two nodes are merged. -/
theorem rising_merge {x y z : Tree} {lo hi : List Tree} (hz : z.weight = x.weight + y.weight)
    (hq : (x :: y :: (lo ++ hi)).Pairwise fun a b => a.weight ≤ b.weight) (hlo : ∀ n ∈ lo, n.weight ≤ z.weight)
    (hhi : ∀ n ∈ hi, z.weight < n.weight) : (lo ++ z :: hi).Pairwise fun a b => a.weight ≤ b.weight := by
  obtain ⟨hl, hh, hlh⟩ := List.pairwise_append.mp (List.pairwise_cons.mp (List.pairwise_cons.mp hq).2).2
  refine List.pairwise_append.mpr ⟨hl, List.pairwise_cons.mpr ⟨fun n hn => (hhi n hn).le, hh⟩, fun a ha b hb => ?_⟩
  obtain rfl | hb := List.mem_cons.mp hb
  · exact hlo a ha
  · exact hlh a ha b hb

/-- Nodes that stand before a merged node and weigh half of it or more lie at most one level below it. -/
theorem QueueDepths.before_merged {root z : Tree} {d k : Nat} {lo hi : List (Tree × Nat)}
    (h : QueueDepths root (lo ++ (z, d) :: hi)) (hlo : ∀ p ∈ lo, k ≤ p.1.weight) (hz : z.weight ≤ k + k) :
    ∀ p ∈ lo, p.2 ≤ d + 1 := by
  cases lo with
  | nil => exact List.forall_mem_nil _
  | cons a lo =>
    have hfirst : a.2 ≤ d + 1 := by
      cases lo with
      | nil => exact h.near a (z, d) (List.prefix_append [a, (z, d)] hi) (z, d) (by simp) (Nat.le_add_left _ _)
      | cons b lo =>
        have ha := hlo a (by simp)
        have hb := hlo b (by simp)
        exact h.near a b (List.prefix_append [a, b] _) (z, d) (by simp) (hz.trans (Nat.add_le_add ha hb))
    obtain ⟨hbelow, -⟩ := List.pairwise_cons.mp h.falling
    exact List.forall_mem_cons.mpr ⟨hfirst, fun p hp => (hbelow p (List.mem_append_left _ hp)).trans hfirst⟩

/-- The parts of a merged node lie one level below it. -/
theorem QueueDepths.unmerge {root x y : Tree} {f : Word} {d : Nat} {lo hi : List (Tree × Nat)}
    (h : QueueDepths root (lo ++ (.node x y f, d) :: hi)) (hxy : x.weight ≤ y.weight)
    (hlo : ∀ p ∈ lo, y.weight ≤ p.1.weight) (hhi : ∀ p ∈ hi, x.weight + y.weight < p.1.weight) :
    QueueDepths root ((x, d + 1) :: (y, d + 1) :: (lo ++ hi)) := by
  obtain ⟨hfallLo, hfallHi, hfall⟩ := List.pairwise_append.mp h.falling
  obtain ⟨hbelow, hfallHi⟩ := List.pairwise_cons.mp hfallHi
  have habove := h.before_merged hlo (Nat.add_le_add_right hxy y.weight)
  have hrest : ∀ p ∈ lo ++ hi, p.2 ≤ d + 1 :=
    List.forall_mem_append.mpr ⟨habove, fun p hp => (hbelow p hp).trans (Nat.le_succ d)⟩
  refine ⟨?_, ?_, ?_⟩
  · refine h.leaves.trans ?_
    simp only [List.flatMap_append, List.flatMap_cons, Tree.leavesAt]
    rw [← List.append_assoc (x.leavesAt _)]
    exact List.perm_append_comm_assoc _ _ _
  · refine List.pairwise_cons.mpr ⟨List.forall_mem_cons.mpr ⟨le_rfl, hrest⟩, List.pairwise_cons.mpr ⟨hrest, ?_⟩⟩
    exact List.pairwise_append.mpr ⟨hfallLo, hfallHi, fun a ha b hb => hfall a ha b (List.mem_cons_of_mem _ hb)⟩
  · intro a b hab p hp hweight
    obtain ⟨rfl, rfl⟩ : a = (x, d + 1) ∧ b = (y, d + 1) := by simpa using hab
    obtain rfl | rfl | hp : p = (x, d + 1) ∨ p = (y, d + 1) ∨ p ∈ lo ++ hi := by simpa using hp
    · exact Nat.le_succ _
    · exact Nat.le_succ _
    obtain hp | hp := List.mem_append.mp hp
    · exact Nat.succ_le_succ (hfall p hp _ List.mem_cons_self)
    · exact absurd hweight (hhi p hp).not_ge

/-- The tree of a rising queue holds its nodes at such depths. -/
theorem Reduces.exists_depths {q : List Tree} {root : Tree} (h : Reduces q root)
    (hq : q.Pairwise fun a b => a.weight ≤ b.weight) : ∃ ps, ps.map (·.1) = q ∧ QueueDepths root ps := by
  induction h with
  | one t =>
    refine ⟨[(t, 0)], rfl, by simp, List.pairwise_singleton _ _, fun a b hab => ?_⟩
    simpa using hab.length_le
  | merge x y lo hi f root hf hlo hhi _ ih =>
    obtain ⟨ps, hps, hdepths⟩ := ih (rising_merge rfl hq hlo hhi)
    obtain ⟨plo, rest, rfl, rfl, hrest⟩ := List.map_eq_append_iff.mp hps
    obtain ⟨⟨_, d⟩, phi, rfl, rfl, rfl⟩ := List.map_eq_cons_iff.mp hrest
    obtain ⟨hx, hq⟩ := List.pairwise_cons.mp hq
    obtain ⟨hy, -⟩ := List.pairwise_cons.mp hq
    refine ⟨(x, d + 1) :: (y, d + 1) :: (plo ++ phi), by simp, hdepths.unmerge (hx y List.mem_cons_self) ?_ ?_⟩
    · exact fun p hp => hy _ (List.mem_append_left _ (List.mem_map_of_mem hp))
    · exact fun p hp => hhi _ (List.mem_map_of_mem hp)

/-- A leaf with its depth, as a node of a queue. -/
def leafAt (x : (Sym × Word) × Nat) : Tree × Nat := (.leaf x.1.1 x.1.2, x.2)

/-- A queue of leaves with depths is a map with depths. -/
theorem exists_leafAt {ps : List (Tree × Nat)} {f : FreqMap}
    (h : ps.map (·.1) = f.map fun p => Tree.leaf p.1 p.2) :
    ∃ xs : List ((Sym × Word) × Nat), xs.map (·.1) = f ∧ ps = xs.map leafAt := by
  induction ps generalizing f with
  | nil => exact ⟨[], (List.map_eq_nil_iff.mp h.symm).symm, rfl⟩
  | cons p ps ih =>
    obtain ⟨q, f, rfl, hq, hf⟩ := List.map_eq_cons_iff.mp h.symm
    obtain ⟨xs, rfl, rfl⟩ := ih hf.symm
    exact ⟨(q, p.2) :: xs, rfl, by simp [leafAt, hq]⟩

/-- Of two leaves with depths, the first lies no deeper if its frequency is higher. -/
abbrev NoDeeper (a b : (Sym × Word) × Nat) : Prop := b.1.2.toNat < a.1.2.toNat → a.2 ≤ b.2

/-- The leaves of a map's tree are its pairs, and one of higher frequency lies no deeper. -/
theorem HuffTree.leavesAt {f : FreqMap} {root : Tree} (h : HuffTree f root) :
    ((root.leavesAt 0).map (·.1)).Perm f ∧
      ∀ a ∈ root.leavesAt 0, ∀ b ∈ root.leavesAt 0, NoDeeper a b := by
  obtain ⟨leaves, hperm, hrising, -, hreduces⟩ := h
  obtain ⟨ps, hps, hdepths⟩ := hreduces.exists_depths (List.pairwise_map.mpr hrising)
  obtain ⟨xs, rfl, rfl⟩ := exists_leafAt hps
  have hroot : (root.leavesAt 0).Perm xs := by
    have hleaves := hdepths.leaves
    rw [List.flatMap_map] at hleaves
    exact hleaves.trans (.of_eq (List.flatMap_singleton' xs))
  refine ⟨(hroot.map _).trans hperm, fun a ha b hb hlt => ?_⟩
  have hboth := (List.pairwise_map.mp hrising).and (List.pairwise_map.mp hdepths.falling)
  have hrel : xs.Pairwise fun a b => NoDeeper a b ∧ NoDeeper b a :=
    hboth.imp fun hab => ⟨fun hlt => absurd hab.1 hlt.not_ge, fun _ => hab.2⟩
  have hsymm : Std.Symm fun a b => NoDeeper a b ∧ NoDeeper b a := ⟨fun _ _ => And.symm⟩
  have hne : a ≠ b := by
    rintro rfl
    exact hlt.false
  exact (hrel.forall (hroot.mem_iff.mp ha) (hroot.mem_iff.mp hb) hne).1 hlt

/-- Of distinct symbols, each lies as deep as its code is long. -/
theorem HuffTree.entry_leafAt {f : FreqMap} {l r : Tree} {w : Word} (h : HuffTree f (.node l r w))
    (hf : (f.map (·.1)).Nodup) {p : Sym × Word} (hp : p ∈ f) :
    (p, (codeOf (treeCodes (.node l r w)) p.1).length) ∈ (Tree.node l r w).leavesAt 0 := by
  have hmem := List.mem_map_of_mem (f := fun c : Sym × List Bool => (c.1, c.2.length)) (h.code_mem hp)
  rw [treeCodes, labelTree_lengths] at hmem
  obtain ⟨⟨q, d⟩, hq, hqp⟩ := List.mem_map.mp hmem
  obtain ⟨hsym, rfl⟩ := Prod.ext_iff.mp hqp
  have hqf : q ∈ f := h.leavesAt.1.mem_iff.mp (List.mem_map_of_mem hq)
  rwa [List.inj_on_of_nodup_map hf hqf hp hsym] at hq

/-- Settles O42: by `huff_codesApart`, `huff_full`, and the depths of `HuffTree.leavesAt`. -/
theorem builtCodesArePrefixFree : Obligations.BuiltCodesArePrefixFree := by
  intro f es hf h
  refine ⟨huff_codesApart hf h, huff_full hf h, fun a ha b hb hlt => ?_⟩
  obtain ⟨root, hroot, rfl, -⟩ := huff_ok_huffTree h
  have hdistinct : ((dropZeros f).map (·.1)).Nodup := hf.sublist (List.filter_sublist.map _)
  obtain ⟨p, hp, rfl⟩ := List.mem_map.mp ha
  obtain ⟨q, hq, rfl⟩ := List.mem_map.mp hb
  cases root with
  | leaf x w =>
    have hone := List.perm_singleton.mp hroot.leavesAt.1.symm
    rw [hone] at hp hq
    obtain rfl := List.mem_singleton.mp hp
    obtain rfl := List.mem_singleton.mp hq
    exact hlt.false.elim
  | node l r w =>
    exact hroot.leavesAt.2 _ (hroot.entry_leafAt hdistinct hp) _ (hroot.entry_leafAt hdistinct hq) hlt

end Sys2Proof.Machine

/-! PROOF. Which maps build (43_huffman.md R210, R214, R226): the weight decides whether there is a tree, the depths of its
leaves whether every code fits. -/

namespace Sys2Proof.Machine

/-! ### The weight of a map -/

/-- The total weight of a map. -/
abbrev weightOf (f : FreqMap) : Nat := (f.map fun p => p.2.toNat).sum

/-- CountOverflowError (60_exceptions.md R290). -/
abbrev countOverflow : CmdError := { kind := .countOverflow, info := 0 }

theorem sumCounts_of_ge {fs : List Word} {a : Word} (h : 2 ^ 64 ≤ a.toNat + (fs.map fun f => f.toNat).sum) :
    sumCounts fs a = .error countOverflow := by
  induction fs generalizing a with
  | nil => exact absurd a.isLt h.not_gt
  | cons f fs ih =>
    rw [List.map_cons, List.sum_cons, ← Nat.add_assoc] at h
    rw [sumCounts]
    cases hadd : addCount a f with
    | ok b => exact ih (addCount_eq_ok.mp hadd ▸ h)
    | error e => rw [(addCount_eq_error.mp hadd).2, bind_error]

theorem mapWeight_of_lt {f : FreqMap} (h : weightOf f < 2 ^ 64) : mapWeight f = .ok (BitVec.ofNat 64 (weightOf f)) := by
  rw [mapWeight, sumCounts_eq_ok, List.map_map, BitVec.toNat_ofNat, Nat.mod_eq_of_lt h]
  exact (Nat.zero_add _).symm

theorem mapWeight_of_ge {f : FreqMap} (h : 2 ^ 64 ≤ weightOf f) : mapWeight f = .error countOverflow := by
  refine sumCounts_of_ge ?_
  rw [List.map_map]
  exact h.trans (Nat.le_add_left _ _)

theorem dropZeros_dropZeros (f : FreqMap) : dropZeros (dropZeros f) = dropZeros f :=
  List.filter_eq_self.mpr fun _ hp => (List.mem_filter.mp hp).2

/-! ### The tree, or the overflow that stops it -/

/-- The sum of the frequencies of a queue's nodes. -/
def queueFreq (q : List Tree) : Nat := (q.map fun t => (treeFreq t).toNat).sum

theorem queueFreq_cons (t : Tree) (q : List Tree) : queueFreq (t :: q) = (treeFreq t).toNat + queueFreq q := by
  rw [queueFreq, List.map_cons, List.sum_cons]
  rfl

theorem queueInsert_perm (z : Tree) (q : List Tree) : (queueInsert z q).Perm (z :: q) := by
  induction q with
  | nil => exact .rfl
  | cons n q ih =>
    rw [queueInsert]
    split
    · exact (ih.cons n).trans (.swap z n q)
    · exact .rfl

/-- Merging a queue gives a tree when its frequencies fit 64 bits together, and overflows when not. -/
theorem mergeQueue_cases {n : Nat} {x : Tree} {q : List Tree} (hn : q.length = n) :
    (queueFreq (x :: q) < 2 ^ 64 ∧ ∃ root, mergeQueue n x q = .ok root) ∨
      2 ^ 64 ≤ queueFreq (x :: q) ∧ mergeQueue n x q = .error countOverflow := by
  induction n generalizing x q with
  | zero =>
    obtain rfl := List.eq_nil_of_length_eq_zero hn
    exact .inl ⟨(treeFreq x).isLt, x, rfl⟩
  | succ n ih =>
    obtain ⟨y, q, rfl⟩ := List.exists_cons_of_length_eq_add_one hn
    rw [mergeQueue]
    cases hadd : addCount (treeFreq x) (treeFreq y) with
    | error e =>
      obtain ⟨hover, rfl⟩ := addCount_eq_error.mp hadd
      refine .inr ⟨?_, rfl⟩
      rw [queueFreq_cons, queueFreq_cons]
      omega
    | ok f =>
      have hperm := queueInsert_perm (.node x y f) q
      have hfreq : queueFreq (queueInsert (.node x y f) q) = queueFreq (x :: y :: q) := by
        have hsum : queueFreq (queueInsert (.node x y f) q) = queueFreq (.node x y f :: q) := (hperm.map _).sum_eq
        rw [hsum, queueFreq_cons, queueFreq_cons, queueFreq_cons, ← Nat.add_assoc, ← addCount_eq_ok.mp hadd]
        rfl
      cases hnext : queueInsert (.node x y f) q with
      | nil => exact absurd (hnext ▸ hperm.length_eq) (by simp)
      | cons x' q' =>
        have hlen := hperm.length_eq
        rw [hnext, List.length_cons, List.length_cons] at hlen
        rw [bind_ok, ← hfreq, hnext]
        exact ih (by simpa using hlen.trans hn)

/-- A map that is not empty has a tree when its weight fits 64 bits, and overflows when not. -/
theorem buildTree_cases {f : FreqMap} (hf : f ≠ []) :
    (weightOf f < 2 ^ 64 ∧ ∃ root, buildTree f = .ok root) ∨
      2 ^ 64 ≤ weightOf f ∧ buildTree f = .error countOverflow := by
  obtain ⟨leaves, hsorted, hperm, -, -⟩ := sortLeaves_eq f
  have hfreq : queueFreq (leaves.map fun p => Tree.leaf p.1 p.2) = weightOf f := by
    rw [queueFreq, List.map_map]
    exact (hperm.map _).sum_eq
  rw [buildTree, hsorted, ← hfreq]
  cases leaves with
  | nil => exact absurd hperm.nil_eq.symm hf
  | cons p leaves => exact mergeQueue_cases rfl

/-! ### The entries, or the first code that is too long -/

theorem emitEntries_of_le {codes : List (Sym × List Bool)} {f : FreqMap}
    (h : ∀ p ∈ f, (codeOf codes p.1).length ≤ 64) : emitEntries codes f = .ok (f.map (entryOf codes)) := by
  induction f with
  | nil => rfl
  | cons p f ih =>
    obtain ⟨hp, hf⟩ := List.forall_mem_cons.mp h
    rw [emitEntries, check_pos hp, bind_ok, ih hf, bind_ok]
    rfl

theorem emitEntries_of_gt {codes : List (Sym × List Bool)} {f g : FreqMap} {p : Sym × Word}
    (hf : ∀ q ∈ f, (codeOf codes q.1).length ≤ 64) (hp : 64 < (codeOf codes p.1).length) :
    emitEntries codes (f ++ p :: g) = .error { kind := .codeTooLong, info := (codeOf codes p.1).length } := by
  induction f with
  | nil => rw [List.nil_append, emitEntries, check_neg hp.not_ge, bind_error]
  | cons q f ih =>
    obtain ⟨hq, hf⟩ := List.forall_mem_cons.mp hf
    rw [List.cons_append, emitEntries, check_pos hq, bind_ok, ih hf, bind_error]

/-! ### Building -/

section Huff
variable {f : FreqMap}

/-- A map of no nonzero frequency builds no model (R210 step 1). -/
theorem huff_of_zeros (h : dropZeros f = []) : huff f = .error { kind := .modelConstruction, info := 0 } := by
  rw [huff, h]
  rfl

theorem huff_of_weight_ge (h : 2 ^ 64 ≤ weightOf f) : huff f = .error countOverflow := by
  rw [weightOf, ← dropZeros_weight] at h
  have hne : dropZeros f ≠ [] := by
    intro hnil
    rw [hnil] at h
    exact absurd h (by decide)
  obtain ⟨hlt, -⟩ | ⟨-, hover⟩ := buildTree_cases hne
  · exact absurd h hlt.not_ge
  · rw [huff, hover, bind_error]

/-- A build is left with the codes of its map's tree. -/
theorem huff_of_weight_lt (hne : dropZeros f ≠ []) (hweight : weightOf f < 2 ^ 64) :
    ∃ root, HuffTree (dropZeros f) root ∧ huff f = emitEntries (treeCodes root) (dropZeros f) := by
  rw [weightOf, ← dropZeros_weight] at hweight
  obtain ⟨-, root, hroot⟩ | ⟨hge, -⟩ := buildTree_cases hne
  · exact ⟨root, buildTree_huffTree hroot, by rw [huff, hroot, bind_ok]⟩
  · exact absurd hweight hge.not_gt

/-- No leaf of the tree too deep: the map builds a model. -/
theorem huff_of_shallow (hne : dropZeros f ≠ []) (hweight : weightOf f < 2 ^ 64)
    (hdepth : ∀ root, HuffTree (dropZeros f) root → root.depth ≤ 64) : ∃ es, huff f = .ok es := by
  obtain ⟨root, hroot, hhuff⟩ := huff_of_weight_lt hne hweight
  refine ⟨_, hhuff.trans (emitEntries_of_le fun p hp => ?_)⟩
  exact (treeCodes_length_le (hroot.code_mem hp)).trans (max_le (by decide) (hdepth root hroot))

/-- Of distinct symbols, one whose leaf is not the root has the path to it as its code. -/
theorem HuffTree.codeOf_eq {g : FreqMap} {l r : Tree} {w : Word} (h : HuffTree g (.node l r w))
    (hg : (g.map (·.1)).Nodup) {x : Sym} {path : List Bool} (hpath : (Tree.node l r w).symAt path = some x) :
    codeOf (treeCodes (.node l r w)) x = path := by
  have hcodes : ((treeCodes (.node l r w)).map (·.1)).Nodup := treeCodes_syms _ ▸ h.syms_perm.nodup_iff.mpr hg
  exact codeOf_of_mem hcodes (c := (x, path)) (mem_treeCodes_node.mpr hpath)

/-- The first code past 64 bits is the error's (R214). -/
theorem huff_of_firstTooLong (hf : (f.map (·.1)).Nodup) (hweight : weightOf f < 2 ^ 64) {n : Nat}
    (h : FirstTooLong (dropZeros f) n) : huff f = .error { kind := .codeTooLong, info := n } := by
  obtain ⟨root, hroot, xs, ys, p, path, heq, hpath, rfl, hlong, hshort⟩ := h
  obtain ⟨root', hroot', hhuff⟩ := huff_of_weight_lt (by simp [heq]) hweight
  obtain rfl := hroot'.unique hroot
  have hdistinct : ((dropZeros f).map (·.1)).Nodup := hf.sublist (List.filter_sublist.map _)
  cases root' with
  | leaf x w =>
    obtain ⟨rfl, -⟩ := symAt_leaf.mp hpath
    exact absurd hlong (by decide)
  | node l r w =>
    have hcode := hroot.codeOf_eq hdistinct hpath
    rw [← hcode] at hlong ⊢
    rw [hhuff, heq]
    refine emitEntries_of_gt (fun q hq => ?_) hlong
    obtain ⟨v, hv, hlen⟩ := hshort q hq
    exact hroot.codeOf_eq hdistinct hv ▸ hlen

end Huff

end Sys2Proof.Machine

/-! PROOF. BBUILD, MINFO, MENTRY, MLOOKUP and MFREE (43_huffman.md R214, R220, R230 to R236): O45, O49 to O52. -/

namespace Sys2Proof.Machine

/-! ### Entries and models as the commands report them (R218, R231) -/

/-- MAXBITS is no shorter than any code, and the length of one. -/
theorem maxBits_spec {m : Model} (hne : m.entries ≠ []) :
    (∀ e ∈ m.entries, e.length ≤ m.maxBits) ∧ ∃ e ∈ m.entries, e.length = m.maxBits := by
  have hmax : (0 :: m.entries.map (·.length)).max? = some m.maxBits := by
    rw [List.max?_cons', List.foldl_map]
    rfl
  obtain ⟨hmem, hle⟩ := List.max?_eq_some_iff.mp hmax
  have hle' : ∀ e ∈ m.entries, e.length ≤ m.maxBits := fun e he =>
    hle _ (List.mem_cons_of_mem _ (List.mem_map_of_mem he))
  refine ⟨hle', ?_⟩
  obtain hzero | hmem := List.mem_cons.mp hmem
  · obtain ⟨e, he⟩ := List.exists_mem_of_ne_nil _ hne
    exact ⟨e, he, by have := hle' e he; omega⟩
  · exact List.mem_map.mp hmem

theorem maxBits_eq {m : Model} {n : Nat} (hle : ∀ e ∈ m.entries, e.length ≤ n) (hex : ∃ e ∈ m.entries, e.length = n) :
    m.maxBits = n := by
  obtain ⟨e, he, rfl⟩ := hex
  obtain ⟨hmax, e', he', heq⟩ := maxBits_spec (List.ne_nil_of_mem he)
  exact le_antisymm (heq ▸ hle e' he') (hmax e he)

/-- RES0 of MENTRY and MLOOKUP as the sum of its fields. -/
theorem entry_infoWord {e : Entry} (hwidth : e.width < 2 ^ 8) :
    e.infoWord = BitVec.ofNat 64 (e.sym.toNat + e.width * 2 ^ 24 + e.length * 2 ^ 32) := by
  have hsym := e.sym.isLt
  rw [Entry.infoWord, or_shiftLeft_eq_add (n := 24) hsym, or_shiftLeft_eq_add (n := 32) (by omega)]

theorem dict_of_mem {m : Model} (hdistinct : (m.entries.map (·.sym)).Nodup) {e : Entry} (he : e ∈ m.entries) {x : Nat}
    (hx : e.sym.toNat = x) : m.dict x = some e := by
  cases hdict : m.dict x with
  | none => exact absurd hx (by simpa using List.find?_eq_none.mp hdict e he)
  | some e' =>
    have hsym : e'.sym.toNat = x := by simpa using List.find?_some hdict
    have heq : e' = e := List.inj_on_of_nodup_map hdistinct (List.mem_of_find?_eq_some hdict) he
      (BitVec.eq_of_toNat_eq (hsym.trans hx.symm))
    rw [heq]

theorem dict_of_notMem {m : Model} {x : Nat} (h : ∀ e ∈ m.entries, e.sym.toNat ≠ x) : m.dict x = none :=
  List.find?_eq_none.mpr fun e he => by simpa using h e he

/-- The end of a build that stores a model. -/
theorem clearError_installModel (s : State) (j : Nat) (m : Model) (w : Word) : clearError (s.installModel j m w) =
    { s with
      models := s.models.setIfInBounds j (some m)
      res0 := BitVec.ofNat 64 m.entries.length
      res1 := BitVec.ofNat 64 m.maxBits
      res2 := w
      status := { s.status with lastErr := none } } := by
  simp only [clearError, State.installModel, State.withModel, State.withRes0, State.withRes1, State.withRes2,
    State.withStatus]

/-! ### Read-out and release -/

theorem validModel_of_invalid {s : State} {j : Nat} (hj : s.models[j]? = some none) (i : Instr) (opc : Nat) :
    s.validModel i j opc = .error (wrongState opc) := by
  rw [State.validModel, modelSlot_eq_ok.mpr hj]
  rfl

/-- Settles O49: the slot decides between the summary of its model and StateError. -/
theorem minfoReportsTheModel : Obligations.MinfoReportsTheModel := by
  refine fun s j => ⟨packWord_of_slot (by decide), fun m n hj hweight hle hex hn => ?_, fun hj => ?_⟩
  · have hok : effectOf (.minfo j) s = .ok (((s.withRes0 (BitVec.ofNat 64 m.entries.length)).withRes1
        (BitVec.ofNat 64 (n + m.order.toNat * 2 ^ 8))).withRes2 (BitVec.ofNat 64 m.weight)) := by
      show minfoEffect j s = _
      rw [minfoEffect, validModel_eq_ok.mpr hj, bind_ok, maxBits_eq hle hex, or_shiftLeft_eq_add (n := 8) (by omega),
        toReg_of_lt _ hweight]
    exact exec_of_effectOf hok
  · have herr : effectOf (.minfo j) s = .error (wrongState 0x13) := by
      show minfoEffect j s = _
      rw [minfoEffect, validModel_of_invalid hj, bind_error]
    exact raises_of_effectOf herr

/-- MENTRY reports what the list of entries has at index OP0. -/
theorem effectOf_mentry {s : State} {j : Nat} {m : Model} (hj : s.models[j]? = some (some m)) :
    effectOf (.mentry j) s = .ok (s.reportEntry m.entries[s.op0.toNat]?) := by
  show mentryEffect j s = _
  rw [mentryEffect, validModel_eq_ok.mpr hj, bind_ok]

/-- MLOOKUP reports what the dictionary has for OP0. -/
theorem effectOf_mlookup {s : State} {j : Nat} {m : Model} (hj : s.models[j]? = some (some m)) :
    effectOf (.mlookup j) s = .ok (s.reportEntry (m.dict s.op0.toNat)) := by
  show mlookupEffect j s = _
  rw [mlookupEffect, validModel_eq_ok.mpr hj, bind_ok]

theorem reportEntry_some (s : State) {e : Entry} (hwidth : e.width < 2 ^ 8) : s.reportEntry (some e) =
    { s with
      res0 := BitVec.ofNat 64 (e.sym.toNat + e.width * 2 ^ 24 + e.length * 2 ^ 32)
      res1 := e.value
      res2 := e.freq } := by
  rw [← entry_infoWord hwidth]
  rfl

/-- Settles O50: the entry at index OP0, or none past the last one. -/
theorem mentryReportsAnEntry : Obligations.MentryReportsAnEntry := by
  refine fun s j => ⟨packWord_of_slot (by decide), fun m e hj he hwidth _ => ?_, fun m hj hlen => ?_, fun hj => ?_⟩
  · have hok := effectOf_mentry hj
    rw [he, reportEntry_some s hwidth] at hok
    exact exec_of_effectOf hok
  · have hok := effectOf_mentry hj
    rw [List.getElem?_eq_none hlen] at hok
    exact exec_of_effectOf hok
  · have herr : effectOf (.mentry j) s = .error (wrongState 0x14) := by
      show mentryEffect j s = _
      rw [mentryEffect, validModel_of_invalid hj, bind_error]
    exact raises_of_effectOf herr

/-- Settles O51: the entry of symbol OP0, or none. -/
theorem mlookupReportsASymbol : Obligations.MlookupReportsASymbol := by
  refine fun s j => ⟨packWord_of_slot (by decide), fun m e hj hdistinct he hsym hwidth _ => ?_,
    fun m hj hlacks => ?_, fun hj => ?_⟩
  · have hok := effectOf_mlookup hj
    rw [dict_of_mem hdistinct he hsym, reportEntry_some s hwidth] at hok
    exact exec_of_effectOf hok
  · have hok := effectOf_mlookup hj
    rw [dict_of_notMem hlacks] at hok
    exact exec_of_effectOf hok
  · have herr : effectOf (.mlookup j) s = .error (wrongState 0x15) := by
      show mlookupEffect j s = _
      rw [mlookupEffect, validModel_of_invalid hj, bind_error]
    exact raises_of_effectOf herr

/-- Settles O52: the slot is emptied whatever it holds. -/
theorem mfreeInvalidatesASlot : Obligations.MfreeInvalidatesASlot := by
  intro s j hj
  have hok : effectOf (.mfree j) s = .ok (s.withModel j none) := by
    show mfreeEffect j s = _
    rw [mfreeEffect, modelSlot_eq_ok.mpr (Vector.getElem?_eq_getElem hj), bind_ok]
  exact ⟨packWord_of_slot (by decide) hj, exec_of_effectOf hok⟩

/-! ### BBUILD (R220) -/

section Bbuild
variable {s : State} {k j : Nat} {bd : Builder}

/-- An ACTIVE builder and an invalid model slot leave BBUILD with the map: its size, its weight, its tree. -/
theorem effectOf_bbuild (hk : s.builders[k]? = some bd) (hactive : bd.mode = .active)
    (hj : s.models[j]? = some none) : effectOf (.bbuild k j) s =
      checkDictCap s.params.dictCap bd.freqMap >>= fun _ => mapWeight bd.freqMap >>= fun w => huff bd.freqMap >>= fun es =>
        .ok ((s.withBuilder k bd.consume).installModel j { order := bd.order, entries := es } w) := by
  show bbuildEffect k j s = _
  rw [bbuildEffect, builderSlot_eq_ok.mpr hk, bind_ok, modelSlot_eq_ok.mpr hj, bind_ok, check_pos hactive, bind_ok,
    check_pos rfl, bind_ok]

theorem huff_entries_ne_nil {f : FreqMap} {es : List Entry} (h : huff f = .ok es) : es ≠ [] := by
  obtain ⟨hne, root, -, rfl, -⟩ := huff_ok h
  simpa using hne

end Bbuild

/-- Settles O45: the map's size, its weight, and then `huff` decide. -/
theorem bbuildBuildsAndConsumes : Obligations.BbuildBuildsAndConsumes := by
  intro s k j bd hk hactive hj hbd
  have heffect := effectOf_bbuild hk hactive hj
  refine ⟨fun hcap hlt => ?_, fun hcap => ?_⟩
  · rw [checkDictCap, check_neg hcap.not_ge, bind_error] at heffect
    rw [← toReg_of_lt .errInfo hlt]
    exact raises_of_effectOf heffect
  rw [checkDictCap, check_pos hcap, bind_ok] at heffect
  refine ⟨fun hweight => ?_, fun hweight => ?_⟩
  · rw [mapWeight_of_ge hweight, bind_error] at heffect
    exact raises_of_effectOf heffect
  rw [mapWeight_of_lt hweight, bind_ok] at heffect
  have hkept : dropZeros bd.freqMap = bd.freqMap := dropZeros_dropZeros _
  refine ⟨fun hdepth => ?_, fun n hlong hlt => ?_⟩
  · have hne : dropZeros bd.freqMap ≠ [] := hkept.symm ▸ List.ne_nil_of_mem (eof_mem_freqMap hbd)
    obtain ⟨es, hes⟩ := huff_of_shallow hne hweight (hkept.symm ▸ hdepth)
    obtain ⟨hle, hex⟩ := maxBits_spec (m := { order := bd.order, entries := es }) (huff_entries_ne_nil hes)
    rw [hes, bind_ok] at heffect
    have hexec := exec_of_effectOf heffect
    rw [clearError_installModel] at hexec
    exact ⟨es, _, hes, hle, hex, hexec⟩
  · rw [huff_of_firstTooLong (freqMap_symbolsOk hbd).1 hweight (hkept.symm ▸ hlong), bind_error] at heffect
    rw [← toReg_of_lt .errInfo hlt]
    exact raises_of_effectOf heffect

end Sys2Proof.Machine

/-! PROOF. HBUILD (43_huffman.md R214, R225 to R227): the entries it reads from DMEM, the first one it refuses, and what
their map then builds: O47, O48. -/

namespace Sys2Proof.Machine

/-! ### The entries HBUILD reads (R225, R226) -/

/-- What HBUILD accepts of a symbol field: a symbol that is valid for the order and new. -/
theorem hbuildSymOk_iff {o : Order} {acc : FreqMap} {x : Nat} : hbuildSymOk o acc x = true ↔
    x < 2 ^ 24 ∧ symOk o (BitVec.ofNat 24 x) ∧ BitVec.ofNat 24 x ∉ acc.map (·.1) := by
  constructor
  · intro h
    obtain ⟨hsym, hnew⟩ := hbuildSymOk_new h
    refine ⟨?_, hsym, hnew⟩
    simp only [hbuildSymOk, symValid, Bool.and_eq_true, Bool.or_eq_true, decide_eq_true_eq] at h
    omega
  · rintro ⟨hlt, hsym, hnew⟩
    have hx : (BitVec.ofNat 24 x).toNat = x := by rw [BitVec.toNat_ofNat, Nat.mod_eq_of_lt hlt]
    obtain ⟨hvalid, hwidth⟩ := (symOk_iff o _).mp hsym
    rw [hx] at hvalid hwidth
    simp only [hbuildSymOk, hvalid, Bool.true_and, Bool.and_eq_true, Bool.or_eq_true, decide_eq_true_eq,
      List.all_eq_true]
    refine ⟨hwidth, fun p hp hpx => hnew (List.mem_map.mpr ⟨p, hp, ?_⟩)⟩
    exact BitVec.eq_of_toNat_eq (hpx.trans hx.symm)

theorem entrySym_eq (s : State) (a : Nat) : s.entrySym a = s.leWord a 4 := by
  rw [State.entrySym, leNat_readBytes]

theorem entryFreq_eq (s : State) (a : Nat) : s.entryFreq a = BitVec.ofNat 64 (s.leWord (a + 8) 8) := by
  rw [State.entryFreq, leNat_readBytes]

/-- `n` little-endian bytes stand for a number below 256^n. -/
theorem leNat_lt (bs : List Byte) : leNat bs < 256 ^ bs.length := by
  induction bs with
  | nil => decide
  | cons b bs ih =>
    have hb := b.isLt
    rw [leNat, List.length_cons, Nat.pow_succ]
    omega

theorem entrySym_lt (s : State) (a : Nat) : s.entrySym a < 2 ^ 32 := by
  calc s.entrySym a
    _ < 256 ^ (s.readBytes a 4).length := leNat_lt _
    _ = 2 ^ 32 := by simp [State.readBytes]

/-- The `n` entries of 16 bytes that stand from address `a` on, as a map. -/
def State.entriesAt (s : State) (a n : Nat) : FreqMap :=
  (List.range n).map fun i => (BitVec.ofNat 24 (s.entrySym (a + 16 * i)), s.entryFreq (a + 16 * i))

theorem entriesAt_succ (s : State) (a n : Nat) : s.entriesAt a (n + 1) =
    s.entriesAt a n ++ [(BitVec.ofNat 24 (s.entrySym (a + 16 * n)), s.entryFreq (a + 16 * n))] := by
  rw [State.entriesAt, List.range_succ, List.map_append]
  rfl

section Entries
variable {s : State} {o : Order} {a : Nat}

/-- Entries with distinct valid symbols are read one after the other. -/
theorem readEntries_of_symbolsOk {n : Nat} (hlt : ∀ i < n, s.entrySym (a + 16 * i) < 2 ^ 24)
    (h : SymbolsOk o ((s.entriesAt a n).map (·.1))) (m : Nat) :
    s.readEntries o (n + m) a [] = s.readEntries o m (a + 16 * n) (s.entriesAt a n) := by
  induction n generalizing m with
  | zero => rw [Nat.zero_add]; rfl
  | succ n ih =>
    rw [entriesAt_succ, List.map_append] at h
    obtain ⟨hdistinct, hvalid⟩ := h
    obtain ⟨hdistinct, -, hnew⟩ := List.nodup_append.mp hdistinct
    obtain ⟨hvalid, hlast⟩ := List.forall_mem_append.mp hvalid
    have hsym : hbuildSymOk o (s.entriesAt a n) (s.entrySym (a + 16 * n)) = true :=
      hbuildSymOk_iff.mpr ⟨hlt n n.lt_succ_self, hlast _ List.mem_cons_self,
        fun hmem => hnew _ hmem _ List.mem_cons_self rfl⟩
    rw [Nat.add_right_comm, Nat.add_assoc, ih (fun i hi => hlt i (hi.trans n.lt_succ_self)) ⟨hdistinct, hvalid⟩,
      State.readEntries, check_pos hsym, bind_ok, entriesAt_succ, Nat.mul_succ, Nat.add_assoc]

/-- The first entry of a symbol that is not valid, or not new, stops the reading. -/
theorem readEntries_of_bad {xs : List Sym} {n : Nat} (hn : xs.length < n)
    (hxs : ∀ i (h : i < xs.length), s.leWord (a + 16 * i) 4 = (xs[i]).toNat) (hsyms : SymbolsOk o xs)
    (hbad : 2 ^ 24 ≤ s.leWord (a + 16 * xs.length) 4 ∨
      ¬symOk o (BitVec.ofNat 24 (s.leWord (a + 16 * xs.length) 4)) ∨
      ∃ y ∈ xs, y.toNat = s.leWord (a + 16 * xs.length) 4) :
    s.readEntries o n a [] =
      .error { kind := .modelConstruction, info := s.leWord (a + 16 * xs.length) 4 } := by
  have hread : (s.entriesAt a xs.length).map (·.1) = xs := by
    refine List.ext_getElem (by simp [State.entriesAt]) fun i _ hi => ?_
    simp [State.entriesAt, entrySym_eq, hxs i hi]
  have hlt : ∀ i < xs.length, s.entrySym (a + 16 * i) < 2 ^ 24 := fun i hi => by
    rw [entrySym_eq, hxs i hi]
    exact (xs[i]).isLt
  obtain ⟨m, rfl⟩ := Nat.exists_eq_add_of_lt hn
  rw [Nat.add_assoc, readEntries_of_symbolsOk hlt (hread.symm ▸ hsyms), State.readEntries, check_neg, bind_error,
    entrySym_eq]
  rw [hbuildSymOk_iff, hread, entrySym_eq]
  rintro ⟨hx, hsym, hnew⟩
  obtain hge | hinvalid | ⟨y, hy, hyx⟩ := hbad
  · exact hge.not_gt hx
  · exact hinvalid hsym
  · exact hnew (hyx ▸ by simpa using hy)

/-- The pairs of `f` stand in DMEM as entries from address `a` on. -/
abbrev State.HoldsEntries (s : State) (a : Nat) (f : FreqMap) : Prop :=
  ∀ i (h : i < f.length), s.leWord (a + 16 * i) 4 = (f[i]).1.toNat ∧ s.leWord (a + 16 * i + 8) 8 = (f[i]).2.toNat

/-- Entries of distinct valid symbols are read as they stand. -/
theorem readEntries_of_holds {f : FreqMap} (h : s.HoldsEntries a f) (hsyms : SymbolsOk o (f.map (·.1))) :
    s.readEntries o f.length a [] = .ok f := by
  have hread : s.entriesAt a f.length = f := by
    refine List.ext_getElem (by simp [State.entriesAt]) fun i _ hi => ?_
    obtain ⟨hsym, hfreq⟩ := h i hi
    simp [State.entriesAt, entrySym_eq, entryFreq_eq, hsym, hfreq]
  have hlt : ∀ i < f.length, s.entrySym (a + 16 * i) < 2 ^ 24 := fun i hi => by
    rw [entrySym_eq, (h i hi).1]
    exact (f[i]).1.isLt
  have hall := readEntries_of_symbolsOk hlt (hread.symm ▸ hsyms) 0
  rw [hread] at hall
  exact hall

end Entries

/-! ### HBUILD (R226) -/

/-- HBUILD once its entries are read: the map's size, its tree, its weight. -/
def State.buildGiven (s : State) (j : Nat) (o : Order) (f : FreqMap) : Except CmdError State :=
  checkDictCap s.params.dictCap (dropZeros f) >>= fun _ => huff (dropZeros f) >>= fun es =>
    mapWeight (dropZeros f) >>= fun w => .ok (s.installModel j { order := o, entries := es } w)

section Hbuild
variable {s : State} {j : Nat} {o : Order} {f : FreqMap}

/-- An invalid model slot and the number of an order leave HBUILD with its region and its entries. -/
theorem effectOf_hbuild (hj : s.models[j]? = some none) (ho : s.op2.toNat = o.toNat) : effectOf (.hbuild j) s =
    check (s.inRange s.op0.toNat (16 * s.op1.toNat)) (addressError s.op0.toNat) >>= fun _ =>
      s.readEntries o s.op1.toNat s.op0.toNat [] >>= s.buildGiven j o := by
  show hbuildEffect j s = _
  rw [hbuildEffect, (freeModel_eq_ok (u := ())).mpr hj, bind_ok, checkOrder_eq_ok.mpr ho, bind_ok]
  rfl

/-- Entries of distinct valid symbols in an existing region leave HBUILD with their map. -/
theorem effectOf_hbuild_of_holds (hj : s.models[j]? = some none) (ho : s.op2.toNat = o.toNat)
    (hregion : s.inRange s.op0.toNat (16 * s.op1.toNat)) (hlen : f.length = s.op1.toNat)
    (hf : s.HoldsEntries s.op0.toNat f) (hsyms : SymbolsOk o (f.map (·.1))) :
    effectOf (.hbuild j) s = s.buildGiven j o f := by
  rw [effectOf_hbuild hj ho, check_pos hregion, bind_ok, ← hlen, readEntries_of_holds hf hsyms, bind_ok]

theorem buildGiven_of_dictCap_lt (hcap : s.params.dictCap < (dropZeros f).length) :
    s.buildGiven j o f = .error { kind := .resource, info := (dropZeros f).length } := by
  rw [State.buildGiven, checkDictCap, check_neg hcap.not_ge, bind_error]

theorem huff_dropZeros (f : FreqMap) : huff (dropZeros f) = huff f := by rw [huff, dropZeros_dropZeros, huff]

/-- A map within DICT_CAP is left with its tree. -/
theorem buildGiven_of_le_dictCap (hcap : (dropZeros f).length ≤ s.params.dictCap) : s.buildGiven j o f =
    huff f >>= fun es => mapWeight (dropZeros f) >>= fun w =>
      .ok (s.installModel j { order := o, entries := es } w) := by
  rw [State.buildGiven, checkDictCap, check_pos hcap, bind_ok, huff_dropZeros]

end Hbuild

/-- Settles O47: the entries read are the map's pairs (`readEntries_of_holds`), and the map builds
(`huff_of_shallow`). -/
theorem hbuildBuildsFromDmem : Obligations.HbuildBuildsFromDmem := by
  intro s j o f hj ho hregion hlen hf hvalid hdistinct hpos hcap hweight hdepth
  obtain ⟨es, hes⟩ := huff_of_shallow (List.length_pos_iff.mp hpos) hweight hdepth
  have heffect := effectOf_hbuild_of_holds hj ho hregion hlen hf ⟨hdistinct, List.forall_mem_map.mpr hvalid⟩
  have hkept : weightOf (dropZeros f) = weightOf f := dropZeros_weight f
  obtain ⟨hle, hex⟩ := maxBits_spec (m := { order := o, entries := es }) (huff_entries_ne_nil hes)
  rw [buildGiven_of_le_dictCap hcap, hes, bind_ok, mapWeight_of_lt (hkept ▸ hweight), bind_ok, hkept] at heffect
  have hexec := exec_of_effectOf heffect
  rw [clearError_installModel] at hexec
  exact ⟨es, _, hes, hle, hex, hexec⟩

/-- Settles O48: the checks in their order, each deciding what the ones before it leave. -/
theorem hbuildRefusesBadOperands : Obligations.HbuildRefusesBadOperands := by
  refine fun s j hj => ⟨fun hout => ?_, fun o ho => ⟨fun hregion => ?_, fun hregion =>
    ⟨fun xs x hn hxs hvalid hdistinct hx hbad => ?_, fun f hlen hf hvalid hdistinct => ?_⟩⟩⟩
  · have herr : effectOf (.hbuild j) s = .error { kind := .modelConstruction, info := s.op2.toNat } := by
      show hbuildEffect j s = _
      rw [hbuildEffect, (freeModel_eq_ok (u := ())).mpr hj, bind_ok, checkOrder_of_outside hout, bind_error]
    rw [← toReg_toNat .errInfo s.op2]
    exact raises_of_effectOf herr
  · have herr := effectOf_hbuild hj ho
    rw [check_neg hregion.not_ge, bind_error] at herr
    rw [← toReg_toNat .errInfo s.op0]
    exact raises_of_effectOf herr
  · subst hx
    have herr := effectOf_hbuild hj ho
    rw [check_pos hregion, bind_ok, readEntries_of_bad hn hxs ⟨hdistinct, hvalid⟩ hbad, bind_error] at herr
    have hlt := entrySym_lt s (s.op0.toNat + 16 * xs.length)
    rw [← toReg_of_lt .errInfo (by rw [← entrySym_eq]; omega)]
    exact raises_of_effectOf herr
  · have heffect := effectOf_hbuild_of_holds hj ho hregion hlen hf ⟨hdistinct, List.forall_mem_map.mpr hvalid⟩
    refine ⟨fun hcap => ?_, fun hzero => ?_, fun hcap => ⟨fun hweight => ?_, fun hweight n hlong hlt => ?_⟩⟩
    · rw [buildGiven_of_dictCap_lt hcap] at heffect
      have hlt : (dropZeros f).length < 2 ^ 64 := (List.length_filter_le _ _).trans_lt (hlen ▸ s.op1.isLt)
      have hraises := raises_of_effectOf heffect
      rw [toReg_of_lt .errInfo hlt] at hraises
      exact hraises
    · have hnil : dropZeros f = [] := List.filter_eq_nil_iff.mpr fun p hp => by simp [hzero p hp]
      rw [buildGiven_of_le_dictCap (by simp [hnil]), huff_of_zeros hnil, bind_error] at heffect
      exact raises_of_effectOf heffect
    · rw [buildGiven_of_le_dictCap hcap, huff_of_weight_ge hweight, bind_error] at heffect
      exact raises_of_effectOf heffect
    · rw [buildGiven_of_le_dictCap hcap, huff_of_firstTooLong hdistinct hweight hlong, bind_error] at heffect
      rw [← toReg_of_lt .errInfo hlt]
      exact raises_of_effectOf heffect

end Sys2Proof.Machine

/-! PROOF. The bit writer W and the bit reader R (44_codec.md R257): who changes them, and that ENCODE and DECODE do not
read them: O20. -/

namespace Sys2Proof.Machine

/-- `s` with another writer and another reader. -/
abbrev State.withUnits (s : State) (w : Writer) (r : Reader) : State := (s.withWriter w).withReader r

section Units
variable (s : State) (w : Writer) (r : Reader)

theorem matchCode_withUnits (m : Model) (pos : Nat) (lens : List Nat) :
    (s.withUnits w r).matchCode m pos lens = s.matchCode m pos lens := by
  induction lens with
  | nil => rfl
  | cons len lens ih =>
    rw [State.matchCode, State.matchCode, ih]
    rfl

theorem decodeLoop_withUnits (m : Model) (fuel pos : Nat) (out : List Byte) :
    (s.withUnits w r).decodeLoop m fuel pos out = s.decodeLoop m fuel pos out := by
  induction fuel generalizing pos out with
  | zero => rfl
  | succ fuel ih =>
    simp only [State.decodeLoop, State.nextCode, matchCode_withUnits, ih]
    rfl

theorem effectOf_encode_withUnits (j : Nat) :
    effectOf (.encode j) (s.withUnits w r) = (fun u => u.withUnits w r) <$> effectOf (.encode j) s := by
  simp only [effectOf, encodeEffect, map_bind]
  rfl

theorem effectOf_decode_withUnits (j : Nat) :
    effectOf (.decode j) (s.withUnits w r) = (fun u => u.withUnits w r) <$> effectOf (.decode j) s := by
  simp only [effectOf, decodeEffect, map_bind, decodeLoop_withUnits]
  rfl

variable {s w r}

/-- A command whose effect takes another writer and reader along ends as before but for these two. -/
theorem exec_withUnits {i : Instr} {t : State}
    (hi : effectOf i (s.withUnits w r) = (fun u => u.withUnits w r) <$> effectOf i s) (h : exec i s = .next t) :
    exec i (s.withUnits w r) = .next (t.withUnits w r) := by
  rw [exec_eq_complete, hi]
  obtain ⟨u, hu, rfl⟩ | ⟨e, he, rfl⟩ := exec_eq_next h
  · rw [hu]
    rfl
  · rw [he]
    rfl

end Units

/-- Settles O20: a command's effect writes only the units of its row (`effectOf_frame`), and the effects of ENCODE and
DECODE take any writer and reader along. -/
theorem writerAndReaderAreLeftAlone : Obligations.WriterAndReaderAreLeftAlone := by
  constructor
  · intro i s t h
    obtain ⟨u, hu, rfl⟩ | ⟨e, -, rfl⟩ := exec_eq_next h
    · exact ⟨(effectOf_frame hu).writer, (effectOf_frame hu).reader⟩
    · exact ⟨fun _ => rfl, fun _ => rfl⟩
  · rintro s t j w r i (rfl | rfl) h
    · exact exec_withUnits (effectOf_encode_withUnits s w r j) h
    · exact exec_withUnits (effectOf_decode_withUnits s w r j) h

end Sys2Proof.Machine

/-! PROOF. What ENCODE and DECODE share (44_codec.md R250, R260): the checks of their regions, the codes of several
entries, bit strings and bytes in a region of DMEM. -/

namespace Sys2Proof.Machine

/-! ### The regions (R250, R260; 60_exceptions.md R295) -/

section Regions
variable {s : State} {i : Instr} {body : Unit → Except CmdError State}

theorem checkRegions_of_apart (hin : s.op0.toNat + s.op1.toNat ≤ s.params.dmemSize)
    (hout : s.op2.toNat + s.op3.toNat ≤ s.params.dmemSize) (hapart : ¬s.sharesByte) : s.checkRegions = .ok () :=
  checkRegions_eq_ok.mpr ⟨hin, hout, (regionsOverlap_iff s).not.mpr hapart⟩

theorem raises_address_of_input (hi : effectOf i s = s.checkRegions >>= body)
    (hin : s.params.dmemSize < s.op0.toNat + s.op1.toNat) : Raises i s .address s.op0 := by
  have herr : effectOf i s = .error (addressError s.op0.toNat) := by
    rw [hi, State.checkRegions, check_neg hin.not_ge, bind_error, bind_error]
  rw [← toReg_toNat .errInfo s.op0]
  exact raises_of_effectOf herr

theorem raises_address_of_output (hi : effectOf i s = s.checkRegions >>= body)
    (hin : s.op0.toNat + s.op1.toNat ≤ s.params.dmemSize) (hout : s.params.dmemSize < s.op2.toNat + s.op3.toNat) :
    Raises i s .address s.op2 := by
  have herr : effectOf i s = .error (addressError s.op2.toNat) := by
    rw [hi, State.checkRegions, check_pos hin, bind_ok, check_neg hout.not_ge, bind_error, bind_error]
  rw [← toReg_toNat .errInfo s.op2]
  exact raises_of_effectOf herr

theorem raises_overlap (hi : effectOf i s = s.checkRegions >>= body)
    (hin : s.op0.toNat + s.op1.toNat ≤ s.params.dmemSize) (hout : s.op2.toNat + s.op3.toNat ≤ s.params.dmemSize)
    (hshares : s.sharesByte) : Raises i s .overlap s.op2 := by
  have herr : effectOf i s = .error { kind := .overlap, info := s.op2.toNat } := by
    rw [hi, State.checkRegions, check_pos hin, bind_ok, check_pos hout, bind_ok,
      check_neg (not_not.mpr ((regionsOverlap_iff s).mpr hshares)), bind_error]
  rw [← toReg_toNat .errInfo s.op2]
  exact raises_of_effectOf herr

end Regions

/-! ### Codes one after the other -/

@[simp] theorem length_entry_bits (e : Entry) : e.bits.length = e.length := length_bitsOf _ _

@[simp] theorem codesOf_nil : codesOf [] = [] := rfl

@[simp] theorem codesOf_cons (e : Entry) (es : List Entry) : codesOf (e :: es) = e.bits ++ codesOf es := rfl

theorem codesOf_concat (es : List Entry) (e : Entry) : codesOf (es ++ [e]) = codesOf es ++ e.bits := by simp [codesOf]

theorem length_codesOf_concat (es : List Entry) (e : Entry) :
    (codesOf (es ++ [e])).length = (codesOf es).length + e.length := by
  rw [codesOf_concat, List.length_append, length_entry_bits]

theorem length_codesOf_le {es : List Entry} {n : Nat} (h : ∀ e ∈ es, e.length ≤ n) :
    (codesOf es).length ≤ es.length * n := by
  induction es with
  | nil => exact Nat.zero_le _
  | cons e es ih =>
    obtain ⟨he, hes⟩ := List.forall_mem_cons.mp h
    have hrest := ih hes
    rw [codesOf_cons, List.length_append, length_entry_bits, List.length_cons, Nat.succ_mul]
    omega

/-! ### Bytes and bits of a region (20_memory.md R74) -/

@[simp] theorem length_readBytes (s : State) (a n : Nat) : (s.readBytes a n).length = n := by simp [State.readBytes]

theorem readBytes_add (s : State) (a n k : Nat) :
    s.readBytes a (n + k) = s.readBytes a n ++ s.readBytes (a + n) k := by
  simp only [State.readBytes, List.range_add, List.map_append, List.map_map, Function.comp_def, Nat.add_assoc]

theorem readBytes_succ (s : State) (a n : Nat) : s.readBytes a (n + 1) = s.readByte a :: s.readBytes (a + 1) n := by
  rw [Nat.add_comm, readBytes_add]
  rfl

theorem readBytes_writeBytes (s : State) (a : Nat) (bs : List Byte) :
    (s.writeBytes a bs).readBytes a bs.length = bs := by
  refine List.ext_getElem (length_readBytes _ _ _) fun i hi hi' => ?_
  simp only [State.readBytes, List.getElem_map, List.getElem_range]
  rw [readByte_writeBytes, if_pos (by omega), Nat.add_sub_cancel_left, List.getD_eq_getElem _ _ hi']

theorem streamBits_add (s : State) (base len pos n k : Nat) :
    s.streamBits base len pos (n + k) = s.streamBits base len pos n ++ s.streamBits base len (pos + n) k := by
  simp only [State.streamBits, List.range_add, List.map_append, List.map_map, Function.comp_def, Nat.add_assoc]

/-- A bit of the number a bit string reads as. -/
theorem testBit_valOf {bs : List Bool} {i : Nat} (hi : i < bs.length) :
    (valOf bs).testBit (bs.length - 1 - i) = bs.getD i false := by
  have hbits := congrArg (fun l => l.getD i false) (bitsOf_valOf bs)
  simpa [bitsOf, hi] using hbits

/-- A bit of a packed byte is the string's, or a zero bit behind it. -/
theorem getLsbD_packBits {bs : List Bool} {i : Nat} (hi : i < 8 * ((bs.length + 7) / 8)) :
    ((packBits bs).getD (i / 8) 0).getLsbD (7 - i % 8) = bs.getD i false := by
  have hgroup := testBit_valOf (bs := (List.range 8).map fun t => bs.getD (8 * (i / 8) + t) false) (i := i % 8)
    (by simp; omega)
  rw [List.length_map, List.length_range] at hgroup
  rw [List.getD_eq_getElem _ _ (by rw [length_packBits]; omega)]
  simp only [packBits, List.getElem_map, List.getElem_range]
  rw [BitVec.getLsbD_ofNat, decide_eq_true (by omega), Bool.true_and, hgroup,
    List.getD_eq_getElem _ _ (by simp; omega), List.getElem_map, List.getElem_range, Nat.div_add_mod]

section Packed
variable (s : State) (a : Nat) (bs : List Bool)

/-- A region that holds a packed bit string reads as the string, then zero bits. -/
theorem streamBit_packBits (i : Nat) :
    (s.writeBytes a (packBits bs)).streamBit a ((bs.length + 7) / 8) i = bs.getD i false := by
  by_cases hi : i < 8 * ((bs.length + 7) / 8)
  · rw [State.streamBit, if_pos hi, readByte_writeBytes, length_packBits, if_pos (by omega), Nat.add_sub_cancel_left,
      getLsbD_packBits hi]
  · rw [streamBit_of_le _ (Nat.not_lt.mp hi), List.getD_eq_default _ _ (by omega)]

theorem streamBits_packBits :
    (s.writeBytes a (packBits bs)).streamBits a ((bs.length + 7) / 8) 0 bs.length = bs := by
  refine List.ext_getElem (length_streamBits _ _ _ _ _) fun i hi hi' => ?_
  simp only [State.streamBits, List.getElem_map, List.getElem_range]
  rw [streamBit_packBits, Nat.zero_add, List.getD_eq_getElem _ _ hi']

end Packed

end Sys2Proof.Machine

/-! PROOF. ENCODE (44_codec.md R250 to R255): the tokens the machine takes are the greedy tokens, what its loop gives,
and the errors: O53, O56. -/

namespace Sys2Proof.Machine

/-! ### Tokens (R250, R252) -/

section Tokens
variable {m : Model} {input : List Byte} {k : Nat} {e : Entry}

theorem token_bounds (h : m.Token input k e) : 1 ≤ k ∧ k ≤ 3 ∧ k ≤ input.length := by
  obtain ⟨hk1, hk3, hk, -⟩ := h
  exact ⟨hk1, hk3, hk⟩

theorem token_isSymSeq (h : m.Token input k e) : IsSymSeq (input.take k) := by
  obtain ⟨hk1, hk3, hk, hin, -⟩ := h
  have hlen : (input.take k).length = k := List.length_take_of_le hk
  exact ⟨List.ne_nil_of_length_pos (by omega), by omega, hin⟩

theorem token_sym (h : m.Token input k e) : e.sym = packSym (input.take k) := by
  have hvalue := packSym_toNat (token_isSymSeq h).2.1
  obtain ⟨-, -, -, -, -, hsym⟩ := h
  exact BitVec.eq_of_toNat_eq (hsym.trans hvalue.symm)

theorem token_symBytes (h : m.Token input k e) : symBytes e.sym = input.take k := by
  rw [token_sym h, symBytes_of_seq (token_isSymSeq h)]

theorem token_ne_eof (h : m.Token input k e) : e.sym ≠ 255 := by
  rw [token_sym h]
  exact packSym_ne_eof (token_isSymSeq h)

theorem not_token_of_head {b : Byte} {rest : List Byte} (hb : ¬alphabetic b.toNat) : ¬m.Token (b :: rest) k e := by
  rintro ⟨hk1, -, -, hin, -⟩
  obtain ⟨k, rfl⟩ := Nat.exists_eq_add_of_le' hk1
  exact hb (hin b (by simp))

/-- With distinct symbols, the machine's k-byte candidate is the k-byte token. -/
theorem candidate_eq_some_iff (hdistinct : (m.entries.map (·.sym)).Nodup) (hk1 : 1 ≤ k) (hk3 : k ≤ 3) :
    m.candidate input k = some e ↔ m.Token input k e := by
  have hvalue : (packSym (input.take k)).toNat = seqValue (input.take k) :=
    packSym_toNat ((List.length_take_le _ _).trans hk3)
  simp only [Model.candidate, hvalue, List.all_eq_true, inAlphabet_iff]
  constructor
  · intro h
    split at h
    · rename_i hcond
      exact ⟨hk1, hk3, hcond.1, hcond.2, List.mem_of_find?_eq_some h, by simpa using List.find?_some h⟩
    · exact nomatch h
  · rintro ⟨-, -, hk, hin, he, hsym⟩
    rw [if_pos ⟨hk, hin⟩, dict_of_mem hdistinct he hsym]

theorem candidate_eq_none (hdistinct : (m.entries.map (·.sym)).Nodup) (hk1 : 1 ≤ k) (hk3 : k ≤ 3)
    (h : ∀ e, ¬m.Token input k e) : m.candidate input k = none :=
  Option.eq_none_iff_forall_ne_some.mpr fun e he => h e ((candidate_eq_some_iff hdistinct hk1 hk3).mp he)

/-- Trying 3, 2 and 1 bytes finds the longest token. -/
theorem token_of_longest (hdistinct : (m.entries.map (·.sym)).Nodup) (h : m.Longest input k e) :
    m.token input = some (e, k) := by
  obtain ⟨htoken, hmax⟩ := h
  obtain ⟨hk1, hk3, -⟩ := token_bounds htoken
  have hfound := (candidate_eq_some_iff hdistinct hk1 hk3).mpr htoken
  have hlonger : ∀ k', k < k' → k' ≤ 3 → m.candidate input k' = none := fun k' hlt hk' =>
    candidate_eq_none hdistinct (by omega) hk' fun e' => hmax k' e' hlt
  rw [Model.token]
  obtain rfl | rfl | rfl : k = 3 ∨ k = 2 ∨ k = 1 := by omega
  · rw [hfound]
  · rw [hlonger 3 (by decide) le_rfl, hfound]
  · rw [hlonger 3 (by decide) le_rfl, hlonger 2 (by decide) (by decide), hfound]

theorem token_eq_none (hdistinct : (m.entries.map (·.sym)).Nodup) (h : ∀ k e, ¬m.Token input k e) :
    m.token input = none := by
  have hnone : ∀ k, 1 ≤ k → k ≤ 3 → m.candidate input k = none := fun k hk1 hk3 =>
    candidate_eq_none hdistinct hk1 hk3 (h k)
  rw [Model.token, hnone 3 (by decide) le_rfl, hnone 2 (by decide) (by decide), hnone 1 le_rfl (by decide)]

/-- Where there is a token there is a longest one. -/
theorem exists_longest {k : Nat} {e : Entry} (h : m.Token input k e) : ∃ k' e', m.Longest input k' e' := by
  by_cases hlonger : ∃ k' e', k < k' ∧ m.Token input k' e'
  · obtain ⟨k', e', hlt, h'⟩ := hlonger
    exact exists_longest h'
  · exact ⟨k, e, h, fun k' e' hlt h' => hlonger ⟨k', e', hlt, h'⟩⟩
termination_by 3 - k
decreasing_by
  obtain ⟨-, hk3, -⟩ := token_bounds h'
  exact Nat.sub_lt_sub_left (hlt.trans_le hk3) hlt

end Tokens

/-! ### Greedy tokens (R255) -/

section Greedy
variable {m : Model} {es : List Entry} {input rest : List Byte}

/-- The bytes of the tokens are the input up to the rest. -/
theorem greedyTokens_symBytes (h : m.GreedyTokens es input rest) :
    input = es.flatMap (fun e => symBytes e.sym) ++ rest := by
  induction es generalizing input with
  | nil => exact h
  | cons e es ih =>
    obtain ⟨k, hlongest, hes⟩ := h
    rw [List.flatMap_cons, token_symBytes hlongest.1, List.append_assoc, ← ih hes, List.take_append_drop]

theorem greedyTokens_mem (h : m.GreedyTokens es input rest) : ∀ e ∈ es, e ∈ m.entries ∧ e.sym ≠ 255 := by
  induction es generalizing input with
  | nil => exact List.forall_mem_nil _
  | cons e es ih =>
    obtain ⟨k, ⟨htoken, -⟩, hes⟩ := h
    have hne := token_ne_eof htoken
    obtain ⟨-, -, -, -, he, -⟩ := htoken
    exact List.forall_mem_cons.mpr ⟨⟨he, hne⟩, ih hes⟩

/-- Every token takes a byte at least. -/
theorem greedyTokens_length (h : m.GreedyTokens es input rest) : es.length + rest.length ≤ input.length := by
  induction es generalizing input with
  | nil =>
    obtain rfl : input = rest := h
    simp
  | cons e es ih =>
    obtain ⟨k, ⟨htoken, -⟩, hes⟩ := h
    obtain ⟨hk1, -, hk⟩ := token_bounds htoken
    have hrest := ih hes
    rw [List.length_drop] at hrest
    rw [List.length_cons]
    omega

/-- No token reaches over a byte outside the alphabet. -/
theorem token_le_of_head {good : List Byte} {k : Nat} {e : Entry} (hrest : ∀ b ∈ rest.head?, ¬alphabetic b.toNat)
    (h : m.Token (good ++ rest) k e) : k ≤ good.length := by
  obtain ⟨-, -, hk, hin, -⟩ := h
  by_contra hpast
  obtain ⟨d, rfl⟩ := Nat.exists_eq_add_of_lt (Nat.not_le.mp hpast)
  cases rest with
  | nil =>
    rw [List.append_nil] at hk
    exact hpast hk
  | cons b rest =>
    refine hrest b rfl (hin b ?_)
    rw [Nat.add_assoc, List.take_length_add_append]
    simp

/-- Bytes that all have a one-byte entry are tokenized up to the first byte outside the alphabet behind them. -/
theorem exists_greedyTokens {good : List Byte}
    (hgood : ∀ b ∈ good, alphabetic b.toNat ∧ ∃ e ∈ m.entries, e.sym.toNat = b.toNat)
    (hrest : ∀ b ∈ rest.head?, ¬alphabetic b.toNat) : ∃ es, m.GreedyTokens es (good ++ rest) rest := by
  match good with
  | [] => exact ⟨[], rfl⟩
  | b :: bs =>
    obtain ⟨hb, e, he, hsym⟩ := hgood b List.mem_cons_self
    have hone : m.Token (b :: bs ++ rest) 1 e :=
      ⟨le_rfl, by decide, by simp, by simpa using hb, he, by simpa [seqValue] using hsym⟩
    obtain ⟨k, e', hlongest⟩ := exists_longest hone
    have hwithin := token_le_of_head hrest hlongest.1
    obtain ⟨hk1, -⟩ := token_bounds hlongest.1
    obtain ⟨es, hes⟩ := exists_greedyTokens (good := (b :: bs).drop k)
      (fun c hc => hgood c (List.mem_of_mem_drop hc)) hrest
    refine ⟨e' :: es, k, hlongest, ?_⟩
    rwa [List.drop_append_of_le_length hwithin]
termination_by good.length
decreasing_by
  rw [List.length_drop, List.length_cons]
  omega

theorem length_codesOf_greedyTokens_le {n : Nat} (h : m.GreedyTokens es input rest)
    (hn : ∀ e ∈ m.entries, e.length ≤ n) : (codesOf es).length ≤ input.length * n := by
  have hlen := greedyTokens_length h
  exact (length_codesOf_le fun e he => hn e (greedyTokens_mem h e he).1).trans (Nat.mul_le_mul_right n (by omega))

end Greedy

/-! ### The loop (R250, R251) -/

section Loop
variable {m : Model} {cap : Nat} {bs : List Bool} {e : Entry}

theorem appendCode_of_le (h : (bs ++ e.bits).length ≤ 8 * cap) : appendCode cap bs e = .ok (bs ++ e.bits) := by
  rw [appendCode, check_pos h, bind_ok]

theorem appendCode_of_gt (h : 8 * cap < (bs ++ e.bits).length) :
    appendCode cap bs e = .error { kind := .capacity, info := (bs ++ e.bits).length } := by
  rw [appendCode, check_neg h.not_ge, bind_error]

theorem encodeLoop_nil (fuel i : Nat) : encodeLoop m cap fuel i [] bs = .ok bs := by cases fuel <;> rfl

variable (hdistinct : (m.entries.map (·.sym)).Nodup)
include hdistinct

theorem encodeLoop_of_longest {input : List Byte} {k : Nat} (h : m.Longest input k e) (fuel i : Nat) :
    encodeLoop m cap (fuel + 1) i input bs =
      appendCode cap bs e >>= fun bs' => encodeLoop m cap fuel (i + k) (input.drop k) bs' := by
  cases input with
  | nil =>
    obtain ⟨hk1, -, hk⟩ := token_bounds h.1
    exact absurd (hk1.trans hk) (Nat.not_succ_le_zero 0)
  | cons c input =>
    have hc : alphabetic c.toNat := by
      by_contra hc
      exact not_token_of_head hc h.1
    rw [encodeLoop, check_pos ((inAlphabet_iff _).mpr hc), bind_ok, token_of_longest hdistinct h]

theorem encodeLoop_of_no_token {rest : List Byte} (hne : rest ≠ []) (h : ∀ k e, ¬m.Token rest k e) (fuel i : Nat) :
    encodeLoop m cap (fuel + 1) i rest bs = .error (encodingError i) := by
  cases rest with
  | nil => exact absurd rfl hne
  | cons c rest =>
    rw [encodeLoop, token_eq_none hdistinct h]
    by_cases hc : inAlphabet c.toNat = true
    · rw [check_pos hc, bind_ok]
    · rw [check_neg hc, bind_error]

/-- Greedy tokens whose codes fit are taken one after the other, and rounds enough are left for the rest. -/
theorem encodeLoop_of_greedyTokens {es : List Entry} {input rest : List Byte} {fuel i : Nat}
    (h : m.GreedyTokens es input rest) (hfit : (bs ++ codesOf es).length ≤ 8 * cap) (hfuel : input.length ≤ fuel) :
    ∃ fuel', rest.length ≤ fuel' ∧ encodeLoop m cap fuel i input bs =
      encodeLoop m cap fuel' (i + (input.length - rest.length)) rest (bs ++ codesOf es) := by
  induction es generalizing input fuel i bs with
  | nil =>
    obtain rfl : input = rest := h
    exact ⟨fuel, hfuel, by simp⟩
  | cons e es ih =>
    obtain ⟨k, hlongest, hes⟩ := h
    obtain ⟨hk1, -, hk⟩ := token_bounds hlongest.1
    obtain ⟨fuel, rfl⟩ := Nat.exists_eq_add_of_le' (hk1.trans (hk.trans hfuel))
    rw [codesOf_cons, ← List.append_assoc] at hfit ⊢
    have hlen := greedyTokens_length hes
    rw [List.length_drop] at hlen
    obtain ⟨fuel', hfuel', hloop⟩ := ih (fuel := fuel) (i := i + k) hes hfit (by rw [List.length_drop]; omega)
    refine ⟨fuel', hfuel', ?_⟩
    rw [encodeLoop_of_longest hdistinct hlongest, appendCode_of_le (hfit.trans' (by simp)), bind_ok, hloop,
      List.length_drop]
    congr 1
    omega

end Loop

/-! ### The stream of an input (R250, R253, R254) -/

section Stream
variable {m : Model} {cap : Nat} {es : List Entry} {input rest : List Byte} {e : Entry}
variable (hdistinct : (m.entries.map (·.sym)).Nodup) (h : m.GreedyTokens es input rest)
variable (hfit : (codesOf es).length ≤ 8 * cap)
include hdistinct h hfit

theorem encodeStream_of_no_token (hne : rest ≠ []) (hnone : ∀ k e, ¬m.Token rest k e) :
    encodeStream m cap input = .error (encodingError (input.length - rest.length)) := by
  obtain ⟨fuel, hfuel, hloop⟩ := encodeLoop_of_greedyTokens (bs := []) (i := 0) hdistinct h hfit le_rfl
  obtain ⟨fuel, rfl⟩ := Nat.exists_eq_add_of_le' ((List.length_pos_iff.mpr hne).trans_le hfuel)
  rw [encodeStream, hloop, encodeLoop_of_no_token hdistinct hne hnone, bind_error, Nat.zero_add]

theorem encodeStream_of_longest_past_cap {k : Nat} (hlongest : m.Longest rest k e)
    (hover : 8 * cap < (codesOf (es ++ [e])).length) :
    encodeStream m cap input = .error { kind := .capacity, info := (codesOf (es ++ [e])).length } := by
  obtain ⟨fuel, hfuel, hloop⟩ := encodeLoop_of_greedyTokens (bs := []) (i := 0) hdistinct h hfit le_rfl
  obtain ⟨hk1, -, hk⟩ := token_bounds hlongest.1
  obtain ⟨fuel, rfl⟩ := Nat.exists_eq_add_of_le' (hk1.trans (hk.trans hfuel))
  rw [codesOf_concat] at hover ⊢
  rw [encodeStream, hloop, List.nil_append, encodeLoop_of_longest hdistinct hlongest, appendCode_of_gt hover,
    bind_error, bind_error]

/-- An input of tokens alone is left with its EOF code. -/
theorem encodeStream_of_eof (hend : rest = []) (he : e ∈ m.entries) (heof : e.sym = 255) :
    encodeStream m cap input = appendCode cap (codesOf es) e := by
  subst hend
  obtain ⟨fuel, -, hloop⟩ := encodeLoop_of_greedyTokens (bs := []) (i := 0) hdistinct h hfit le_rfl
  have hdict : m.dict eofSym.toNat = some e := dict_of_mem hdistinct he (congrArg BitVec.toNat heof)
  rw [encodeStream, hloop, encodeLoop_nil, bind_ok, hdict, List.nil_append]

theorem encodeStream_of_no_eof (hend : rest = []) (hnone : ∀ e ∈ m.entries, e.sym ≠ 255) :
    encodeStream m cap input = .error (encodingError input.length) := by
  subst hend
  obtain ⟨fuel, -, hloop⟩ := encodeLoop_of_greedyTokens (bs := []) (i := 0) hdistinct h hfit le_rfl
  have hdict : m.dict eofSym.toNat = none :=
    dict_of_notMem fun e he heof => hnone e he (BitVec.eq_of_toNat_eq heof)
  rw [encodeStream, hloop, encodeLoop_nil, bind_ok, hdict]

end Stream

/-! ### The command -/

section Encode
variable {s : State} {j : Nat} {m : Model}

/-- ENCODE with a valid model checks its regions, then forms the stream and stores it. -/
theorem effectOf_encode (hj : s.models[j]? = some (some m)) : effectOf (.encode j) s = s.checkRegions >>= fun _ =>
    encodeStream m s.op3.toNat (s.readBytes s.op0.toNat s.op1.toNat) >>= fun bs =>
      .ok (((s.writeBytes s.op2.toNat (packBits bs)).withRes0 (toReg .resultLen ((bs.length + 7) / 8))).withRes1
        (toReg .resultBits bs.length)) := by
  show encodeEffect j s = _
  rw [encodeEffect, validModel_eq_ok.mpr hj, bind_ok]

variable (hj : s.models[j]? = some (some m)) (hregions : s.checkRegions = .ok ())
include hj hregions

theorem raises_of_encodeStream {kind : ErrorKind} {info : Nat}
    (h : encodeStream m s.op3.toNat (s.readBytes s.op0.toNat s.op1.toNat) = .error { kind, info })
    (hinfo : info < 2 ^ 64) : Raises (.encode j) s kind (BitVec.ofNat 64 info) := by
  have herr : effectOf (.encode j) s = .error { kind, info } := by
    rw [effectOf_encode hj, hregions, bind_ok, h, bind_error]
  rw [← toReg_of_lt .errInfo hinfo]
  exact raises_of_effectOf herr

theorem raises_encoding_of_no_token {es : List Entry} {rest : List Byte} (hdistinct : (m.entries.map (·.sym)).Nodup)
    (htokens : m.GreedyTokens es (s.readBytes s.op0.toNat s.op1.toNat) rest)
    (hfit : (codesOf es).length ≤ 8 * s.op3.toNat) (hne : rest ≠ []) (hnone : ∀ k e, ¬m.Token rest k e) :
    Raises (.encode j) s .encoding (BitVec.ofNat 64 (s.op1.toNat - rest.length)) := by
  have herr := encodeStream_of_no_token hdistinct htokens hfit hne hnone
  have hlt := s.op1.isLt
  rw [length_readBytes] at herr
  exact raises_of_encodeStream hj hregions herr (by omega)

/-- A stream whose length a register shows is stored and reported. -/
theorem exec_of_encodeStream {bs : List Bool}
    (h : encodeStream m s.op3.toNat (s.readBytes s.op0.toNat s.op1.toNat) = .ok bs) (hlen : bs.length < 2 ^ 64) :
    exec (.encode j) s = .next { s.writeBytes s.op2.toNat (packBits bs) with
      res0 := BitVec.ofNat 64 ((bs.length + 7) / 8)
      res1 := BitVec.ofNat 64 bs.length
      status := { s.status with lastErr := none } } := by
  have hok := effectOf_encode hj
  rw [hregions, bind_ok, h, bind_ok, toReg_of_lt _ hlen, toReg_of_lt _ (by omega)] at hok
  exact exec_of_effectOf hok

end Encode

/-- Settles O53: the loop takes the greedy tokens (`encodeLoop_of_greedyTokens`), and a packed stream is read back bit
by bit. -/
theorem encodeWritesTheGreedyTokensAndEof : Obligations.EncodeWritesTheGreedyTokensAndEof := by
  rintro s j m hj ⟨-, -, hdistinct, -⟩ hin hout hapart hlt
  constructor
  · rintro es eof _ htokens heof hsym rfl hfit
    have hstream : encodeStream m s.op3.toNat (s.readBytes s.op0.toNat s.op1.toNat) = .ok (codesOf (es ++ [eof])) := by
      rw [codesOf_concat] at hfit ⊢
      rw [encodeStream_of_eof hdistinct htokens (hfit.trans' (by simp)) rfl heof hsym,
        appendCode_of_le hfit]
    refine ⟨_, exec_of_encodeStream hj (checkRegions_of_apart hin hout hapart) hstream (by omega), rfl,
      streamBits_packBits s _ _, fun b hb => ?_, fun a ha => ?_⟩
    · exact (streamBit_packBits s _ _ b).trans (List.getD_eq_default _ _ hb)
    · exact (readByte_writeBytes s _ a _).trans (if_neg (by rwa [length_packBits]))
  · intro eof n heof hsym hn hinput hcap
    obtain ⟨es, hes⟩ := exists_greedyTokens (rest := []) hinput (by simp)
    rw [List.append_nil] at hes
    have htokens := length_codesOf_greedyTokens_le hes hn
    have heofn := hn eof heof
    rw [length_readBytes] at htokens
    rw [Nat.succ_mul] at hcap
    refine ⟨es, hes, ?_⟩
    rw [length_codesOf_concat]
    omega

/-- Settles O56: the region checks come first; then the tokens that fit are taken, and what stands behind them
decides. -/
theorem byteOutsideTheAlphabetStopsEncode : Obligations.ByteOutsideTheAlphabetStopsEncode := by
  rintro s j m hj ⟨-, -, hdistinct, -⟩
  refine ⟨raises_address_of_input (effectOf_encode hj), fun hin =>
    ⟨raises_address_of_output (effectOf_encode hj) hin, fun hout =>
      ⟨raises_overlap (effectOf_encode hj) hin hout, fun hapart => ?_⟩⟩⟩
  have hregions := checkRegions_of_apart hin hout hapart
  refine ⟨fun es rest htokens hfit => ⟨raises_encoding_of_no_token hj hregions hdistinct htokens hfit,
    fun hend hnone => ?_, fun e he hover hshown => ?_⟩, fun n l hn hbad hgood hl hcap => ?_⟩
  · have herr := encodeStream_of_no_eof hdistinct htokens hfit hend hnone
    rw [length_readBytes] at herr
    simpa using raises_of_encodeStream hj hregions herr s.op1.isLt
  · refine raises_of_encodeStream hj hregions ?_ hshown
    obtain ⟨k, hlongest⟩ | ⟨hend, he, hsym⟩ := he
    · exact encodeStream_of_longest_past_cap hdistinct htokens hfit hlongest hover
    · rw [codesOf_concat] at hover ⊢
      rw [encodeStream_of_eof hdistinct htokens hfit hend he hsym, appendCode_of_gt hover]
  · obtain ⟨d, hd⟩ := Nat.exists_eq_add_of_lt hn
    have hsplit : s.readBytes s.op0.toNat s.op1.toNat = s.readBytes s.op0.toNat n ++
        (s.readByte (s.op0.toNat + n) :: s.readBytes (s.op0.toNat + n + 1) d) := by
      rw [hd, Nat.add_assoc, readBytes_add, readBytes_succ]
    obtain ⟨es, hes⟩ := exists_greedyTokens
      (rest := s.readByte (s.op0.toNat + n) :: s.readBytes (s.op0.toNat + n + 1) d) hgood (by simpa using hbad)
    rw [← hsplit] at hes
    have hcodes := length_codesOf_greedyTokens_le hes hl
    rw [length_readBytes] at hcodes
    rw [Nat.succ_mul] at hcap
    have hraises := raises_encoding_of_no_token hj hregions hdistinct hes (by omega) (List.cons_ne_nil _ _)
      fun k e => not_token_of_head hbad
    rwa [List.length_cons, length_readBytes, show s.op1.toNat - (d + 1) = n by omega] at hraises

end Sys2Proof.Machine

/-! PROOF. DECODE (44_codec.md R260 to R265): the code it finds at a position is the one entry whose code stands there,
what its loop gives, the errors, and that it undoes ENCODE: O54, O55. -/

namespace Sys2Proof.Machine

/-! ### The code at a position (R260) -/

section Entries
variable {m : Model} {cap : Nat} {e : Entry}

theorem entry_length_pos (hm : m.Ok cap) (he : e ∈ m.entries) : 1 ≤ e.length := by
  obtain ⟨-, -, -, hentries, -⟩ := hm
  obtain ⟨-, -, hpos, -⟩ := hentries e he
  exact hpos

theorem entry_value_lt (hm : m.Ok cap) (he : e ∈ m.entries) : e.value.toNat < 2 ^ e.length := by
  obtain ⟨-, -, -, hentries, -⟩ := hm
  obtain ⟨-, -, -, -, hvalue, -⟩ := hentries e he
  exact hvalue

theorem dtab_some {len val : Nat} (h : m.dtab len val = some e) :
    e ∈ m.entries ∧ e.length = len ∧ e.value.toNat = val :=
  ⟨List.mem_of_find?_eq_some h, by simpa using List.find?_some h⟩

theorem dtab_none {len val : Nat} (h : m.dtab len val = none) (he : e ∈ m.entries) (hlen : e.length = len) :
    e.value.toNat ≠ val := by
  have hnot := List.find?_eq_none.mp h e he
  simpa [hlen] using hnot

end Entries

/-- The code of `e` stands at bit position `pos` of the input region, where zero bits follow the data. -/
abbrev State.CodeAt (s : State) (pos : Nat) (e : Entry) : Prop :=
  s.streamBits s.op0.toNat s.op1.toNat pos e.length = e.bits

section CodeAt
variable {s : State} {m : Model} {pos : Nat} {e e' : Entry}

/-- A code that fits its length stands at a position exactly when the bits there read as its value. -/
theorem codeAt_iff (hvalue : e.value.toNat < 2 ^ e.length) : s.CodeAt pos e ↔
    e.value.toNat = valOf (s.streamBits s.op0.toNat s.op1.toNat pos e.length) := by
  have hbits := bitsOf_valOf (s.streamBits s.op0.toNat s.op1.toNat pos e.length)
  have hval := valOf_lt (s.streamBits s.op0.toNat s.op1.toNat pos e.length)
  rw [length_streamBits] at hbits hval
  rw [State.CodeAt, Entry.bits, ← hbits, bitsOf_eq_bitsOf_iff, hbits, lowBits, lowBits, Nat.mod_eq_of_lt hvalue,
    Nat.mod_eq_of_lt hval, eq_comm]

theorem matchCode_some {lens : List Nat} (hm : ∀ e ∈ m.entries, e.value.toNat < 2 ^ e.length)
    (h : s.matchCode m pos lens = some e) : e ∈ m.entries ∧ s.CodeAt pos e := by
  induction lens with
  | nil => exact nomatch h
  | cons len lens ih =>
    rw [State.matchCode] at h
    split at h
    · rename_i hfound
      obtain rfl := Option.some.inj h
      obtain ⟨he, rfl, hvalue⟩ := dtab_some hfound
      exact ⟨he, (codeAt_iff (hm _ he)).mpr hvalue⟩
    · exact ih h

theorem matchCode_none {lens : List Nat} (h : s.matchCode m pos lens = none) (he : e ∈ m.entries)
    (hlen : e.length ∈ lens) : e.value.toNat ≠ valOf (s.streamBits s.op0.toNat s.op1.toNat pos e.length) := by
  induction lens with
  | nil => exact nomatch hlen
  | cons len lens ih =>
    rw [State.matchCode] at h
    split at h
    · exact nomatch h
    · rename_i hfound
      obtain rfl | hlen := List.mem_cons.mp hlen
      · exact dtab_none hfound he rfl
      · exact ih h hlen

/-- Of two codes at one position the longer begins with the shorter. -/
theorem codeAt_prefix (h : s.CodeAt pos e) (h' : s.CodeAt pos e') (hle : e.length ≤ e'.length) :
    e.bits <+: e'.bits := by
  obtain ⟨k, hk⟩ := Nat.exists_eq_add_of_le hle
  rw [← h, ← h', hk, streamBits_add]
  exact List.prefix_append _ _

variable {cap : Nat} (hm : m.Ok cap)
include hm

theorem codeAt_unique (he : e ∈ m.entries) (he' : e' ∈ m.entries) (h : s.CodeAt pos e) (h' : s.CodeAt pos e') :
    e = e' := by
  obtain ⟨-, -, -, -, hapart, -⟩ := hm
  by_contra hne
  have hsymm : Std.Symm codesApart := ⟨fun _ _ => And.symm⟩
  have hpair := hapart.forall he he' hne
  simp only [codesApart, ← Bool.not_eq_true, List.isPrefixOf_iff_prefix] at hpair
  obtain hle | hle := Nat.le_total e.length e'.length
  · exact hpair.1 (codeAt_prefix h h' hle)
  · exact hpair.2 (codeAt_prefix h' h hle)

/-- DECODE finds the code that stands at a position, and nothing where none does. -/
theorem nextCode_eq_some_iff : s.nextCode m pos = some e ↔ e ∈ m.entries ∧ s.CodeAt pos e := by
  constructor
  · exact matchCode_some fun e => entry_value_lt hm
  · rintro ⟨he, hcode⟩
    cases hnext : s.nextCode m pos with
    | none =>
      have hmax := (maxBits_spec (List.ne_nil_of_mem he)).1 e he
      have hpos := entry_length_pos hm he
      refine absurd ((codeAt_iff (entry_value_lt hm he)).mp hcode) (matchCode_none hnext he ?_)
      exact List.mem_map.mpr ⟨e.length - 1, List.mem_range.mpr (by omega), by omega⟩
    | some e' =>
      obtain ⟨he', hcode'⟩ := matchCode_some (fun e => entry_value_lt hm) hnext
      rw [codeAt_unique hm he he' hcode hcode']

end CodeAt

/-! ### The bytes of a symbol (R262, R264) -/

section Emit
variable {cap : Nat} {bs out : List Byte}

theorem emitBytes_of_le (h : out.length + bs.length ≤ cap) : emitBytes cap bs out = .ok (out ++ bs) := by
  induction bs generalizing out with
  | nil => rw [List.append_nil, emitBytes]
  | cons b bs ih =>
    rw [List.length_cons] at h
    rw [emitBytes, check_pos (by omega), bind_ok, ih (by rw [List.length_append, List.length_singleton]; omega),
      List.append_assoc, List.singleton_append]

theorem emitBytes_of_gt (hout : out.length ≤ cap) (h : cap < out.length + bs.length) :
    emitBytes cap bs out = .error { kind := .capacity, info := cap + 1 } := by
  induction bs generalizing out with
  | nil => exact absurd hout h.not_ge
  | cons b bs ih =>
    rw [List.length_cons] at h
    rw [emitBytes]
    by_cases hfull : out.length = cap
    · rw [check_neg (not_not.mpr hfull), bind_error, hfull]
    · rw [check_pos hfull, bind_ok]
      exact ih (by rw [List.length_append, List.length_singleton]; omega)
        (by rw [List.length_append, List.length_singleton]; omega)

end Emit

/-! ### The loop (R260, R263) -/

section Loop
variable {s : State} {m : Model} {cap pos : Nat} {e : Entry} {out : List Byte} (hm : m.Ok cap)
include hm

theorem decodeLoop_of_eof (he : e ∈ m.entries) (hcode : s.CodeAt pos e) (hin : pos + e.length ≤ 8 * s.op1.toNat)
    (heof : e.sym = eofSym) (fuel : Nat) : s.decodeLoop m (fuel + 1) pos out = .ok (out, pos + e.length) := by
  rw [State.decodeLoop, (nextCode_eq_some_iff hm).mpr ⟨he, hcode⟩]
  dsimp only
  rw [check_pos hin, bind_ok, if_pos heof]

theorem decodeLoop_of_code (he : e ∈ m.entries) (hcode : s.CodeAt pos e) (hin : pos + e.length ≤ 8 * s.op1.toNat)
    (hne : e.sym ≠ eofSym) (fuel : Nat) : s.decodeLoop m (fuel + 1) pos out =
      emitBytes s.op3.toNat (symBytes e.sym) out >>= fun out' => s.decodeLoop m fuel (pos + e.length) out' := by
  rw [State.decodeLoop, (nextCode_eq_some_iff hm).mpr ⟨he, hcode⟩]
  dsimp only
  rw [check_pos hin, bind_ok, if_neg hne, unpackSym_eq]

theorem decodeLoop_of_no_code (h : ∀ e ∈ m.entries, 8 * s.op1.toNat < pos + e.length ∨ ¬s.CodeAt pos e) (fuel : Nat) :
    s.decodeLoop m fuel pos out = .error (decodingError pos) := by
  cases fuel with
  | zero => rfl
  | succ fuel =>
    rw [State.decodeLoop]
    cases hnext : s.nextCode m pos with
    | none => rfl
    | some e =>
      obtain ⟨he, hcode⟩ := (nextCode_eq_some_iff hm).mp hnext
      have hpast : 8 * s.op1.toNat < pos + e.length := (h e he).resolve_right (not_not.mpr hcode)
      dsimp only
      rw [check_neg hpast.not_ge, bind_error]

/-- Codes within the data whose bytes fit the output are taken one after the other, and rounds enough are left for what
follows. -/
theorem decodeLoop_of_codes {es : List Entry} {fuel : Nat} (hes : ∀ e ∈ es, e ∈ m.entries ∧ e.sym ≠ 255)
    (hcodes : s.streamBits s.op0.toNat s.op1.toNat pos (codesOf es).length = codesOf es)
    (hin : pos + (codesOf es).length ≤ 8 * s.op1.toNat)
    (hout : (out ++ es.flatMap fun e => symBytes e.sym).length ≤ s.op3.toNat) (hfuel : 8 * s.op1.toNat < fuel + pos) :
    ∃ fuel', s.decodeLoop m fuel pos out =
      s.decodeLoop m (fuel' + 1) (pos + (codesOf es).length) (out ++ es.flatMap fun e => symBytes e.sym) := by
  induction es generalizing fuel pos out with
  | nil =>
    rw [codesOf_nil, List.length_nil] at hin
    obtain ⟨fuel, rfl⟩ := Nat.exists_eq_add_of_lt (show 0 < fuel by omega)
    exact ⟨fuel, by simp⟩
  | cons e es ih =>
    obtain ⟨⟨he, hne⟩, hes⟩ := List.forall_mem_cons.mp hes
    have hpos := entry_length_pos hm he
    rw [codesOf_cons, List.length_append, length_entry_bits] at hcodes hin ⊢
    rw [streamBits_add] at hcodes
    obtain ⟨hcode, hcodes⟩ := List.append_inj hcodes (by simp)
    rw [List.flatMap_cons, ← List.append_assoc] at hout ⊢
    obtain ⟨fuel, rfl⟩ := Nat.exists_eq_add_of_lt (show 0 < fuel by omega)
    obtain ⟨fuel', hloop⟩ := ih (fuel := fuel) hes hcodes (by omega) hout (by omega)
    refine ⟨fuel', ?_⟩
    rw [Nat.zero_add, decodeLoop_of_code hm he hcode (by omega) hne,
      emitBytes_of_le (by rw [List.length_append, List.length_append] at hout; omega), bind_ok, hloop, Nat.add_assoc]

end Loop

/-! ### The command -/

section Decode
variable {s : State} {j : Nat} {m : Model} (hj : s.models[j]? = some (some m))
include hj

theorem raises_inputEmpty (hempty : s.op1 = 0) : Raises (.decode j) s .inputEmpty 0 := by
  have herr : effectOf (.decode j) s = .error { kind := .inputEmpty, info := 0 } := by
    show decodeEffect j s = _
    rw [decodeEffect, validModel_eq_ok.mpr hj, bind_ok, check_neg (not_not.mpr hempty), bind_error]
  exact raises_of_effectOf herr

/-- DECODE of a nonempty input with a valid model checks its regions, then runs its loop and stores the bytes. -/
theorem effectOf_decode (hne : s.op1 ≠ 0) : effectOf (.decode j) s = s.checkRegions >>= fun _ =>
    s.decodeLoop m (8 * s.op1.toNat + 1) 0 [] >>= fun r =>
      .ok (((s.writeBytes s.op2.toNat r.1).withRes0 (BitVec.ofNat 64 r.1.length)).withRes1
        (toReg .resultBits r.2)) := by
  show decodeEffect j s = _
  rw [decodeEffect, validModel_eq_ok.mpr hj, bind_ok, check_pos hne, bind_ok]

variable (hne : s.op1 ≠ 0) (hregions : s.checkRegions = .ok ())
include hne hregions

theorem raises_of_decodeLoop {kind : ErrorKind} {info : Nat}
    (h : s.decodeLoop m (8 * s.op1.toNat + 1) 0 [] = .error { kind, info }) (hinfo : info < 2 ^ 64) :
    Raises (.decode j) s kind (BitVec.ofNat 64 info) := by
  have herr : effectOf (.decode j) s = .error { kind, info } := by
    rw [effectOf_decode hj hne, hregions, bind_ok, h, bind_error]
  rw [← toReg_of_lt .errInfo hinfo]
  exact raises_of_effectOf herr

/-- An output whose bit position a register shows is stored and reported. -/
theorem exec_of_decodeLoop {out : List Byte} {pos : Nat}
    (h : s.decodeLoop m (8 * s.op1.toNat + 1) 0 [] = .ok (out, pos)) (hpos : pos < 2 ^ 64) :
    exec (.decode j) s = .next { s.writeBytes s.op2.toNat out with
      res0 := BitVec.ofNat 64 out.length
      res1 := BitVec.ofNat 64 pos
      status := { s.status with lastErr := none } } := by
  have hok := effectOf_decode hj hne
  rw [hregions, bind_ok, h, bind_ok, toReg_of_lt _ hpos] at hok
  exact exec_of_effectOf hok

end Decode

/-- Settles O54: the checks come first; then the codes that fit are taken (`decodeLoop_of_codes`), and the code behind
them, found by `nextCode_eq_some_iff`, decides. -/
theorem decodeWritesTheSymbolsBytes : Obligations.DecodeWritesTheSymbolsBytes := by
  intro s j m hj hm
  refine ⟨raises_inputEmpty hj, fun hne => raises_address_of_input (effectOf_decode hj hne), fun hne hin =>
    ⟨raises_address_of_output (effectOf_decode hj hne) hin, fun hout =>
      ⟨raises_overlap (effectOf_decode hj hne) hin hout, fun hapart hlt => ?_⟩⟩⟩
  have hregions := checkRegions_of_apart hin hout hapart
  rintro es _ _ hes rfl rfl hpos hcodes hfit
  obtain ⟨fuel, hloop⟩ := decodeLoop_of_codes (out := []) (pos := 0) (fuel := 8 * s.op1.toNat + 1) hm hes hcodes
    (by omega) hfit (by omega)
  rw [Nat.zero_add, List.nil_append] at hloop
  refine ⟨fun eof he heof hend hcode => ?_, fun hnone => ?_, fun e he hsym hend hcode hfull hshown => ?_⟩
  · rw [decodeLoop_of_eof hm he hcode hend heof] at hloop
    exact ⟨_, exec_of_decodeLoop hj hne hregions hloop (by omega), rfl, readBytes_writeBytes s _ _, fun a ha =>
      (readByte_writeBytes s _ a _).trans (if_neg ha)⟩
  · rw [decodeLoop_of_no_code hm hnone] at hloop
    exact raises_of_decodeLoop hj hne hregions hloop (by omega)
  · rw [decodeLoop_of_code hm he hcode hend hsym, emitBytes_of_gt hfit hfull, bind_error] at hloop
    exact raises_of_decodeLoop hj hne hregions hloop hshown

/-! ### The round trip (R265) -/

/-- DECODE of an input that begins with the codes of some symbols and EOF, when there is room for the symbols' bytes. -/
theorem exec_decode_of_codes {s : State} {j : Nat} {m : Model} {es : List Entry} {eof : Entry} {out : List Byte}
    (hj : s.models[j]? = some (some m)) (hm : m.Ok s.params.dictCap)
    (hin : s.op0.toNat + s.op1.toNat ≤ s.params.dmemSize) (hout : s.op2.toNat + s.op3.toNat ≤ s.params.dmemSize)
    (hapart : ¬s.sharesByte) (hlt : 8 * s.op1.toNat < 2 ^ 64) (hes : ∀ e ∈ es, e ∈ m.entries ∧ e.sym ≠ 255)
    (heof : eof ∈ m.entries) (hsym : eof.sym = 255) (hbits : (codesOf (es ++ [eof])).length ≤ 8 * s.op1.toNat)
    (hstream : s.streamBits s.op0.toNat s.op1.toNat 0 (codesOf (es ++ [eof])).length = codesOf (es ++ [eof]))
    (hbytes : out = es.flatMap fun e => symBytes e.sym) (hroom : out.length ≤ s.op3.toNat) :
    ∃ u, exec (.decode j) s = .next u ∧ u.status.lastErr = none ∧ u.readBytes s.op2.toNat out.length = out ∧
      u.res0 = BitVec.ofNat 64 out.length ∧ u.res1 = BitVec.ofNat 64 (codesOf (es ++ [eof])).length := by
  have hlen := length_codesOf_concat es eof
  have hpos := entry_length_pos hm heof
  have hne : s.op1 ≠ 0 := by
    intro hzero
    have hnat : s.op1.toNat = 0 := congrArg BitVec.toNat hzero
    omega
  rw [hlen, streamBits_add, codesOf_concat, Nat.zero_add] at hstream
  obtain ⟨hcodes, hcode⟩ := List.append_inj hstream (by simp)
  obtain ⟨-, -, hdecodes⟩ := decodeWritesTheSymbolsBytes s j m hj hm
  obtain ⟨-, hdecodes⟩ := hdecodes hne hin
  obtain ⟨-, hdecodes⟩ := hdecodes hout
  obtain ⟨hdecodes, -⟩ := hdecodes hapart hlt es out _ hes hbytes rfl (by omega) hcodes hroom
  obtain ⟨u, hexec, hu, hread, -⟩ := hdecodes eof heof hsym (by omega) hcode
  exact ⟨u, hexec, by rw [hu], hread, by rw [hu], by rw [hu, hlen]⟩

/-- Settles O55: ENCODE leaves the codes of the greedy tokens and EOF (O53), DECODE gives back the bytes of their
symbols (O54), and these are the input (`greedyTokens_symBytes`). -/
theorem decodeOfEncodeGivesTheInputBack : Obligations.DecodeOfEncodeGivesTheInputBack := by
  intro s j n m hj hm hin hout hapart hinput ⟨eof, heof, hsym⟩ hn hcap hlt
  obtain ⟨hencodes, htokenizes⟩ := encodeWritesTheGreedyTokensAndEof s j m hj hm hin hout hapart hlt
  obtain ⟨es, hes, hfit⟩ := htokenizes eof n heof hsym hn hinput hcap
  obtain ⟨t, hexec, ht, hstream, -⟩ := hencodes es eof _ hes heof hsym rfl hfit
  have hbytes := greedyTokens_symBytes hes
  rw [List.append_nil] at hbytes
  have hres0 : t.res0.toNat = ((codesOf (es ++ [eof])).length + 7) / 8 := by
    rw [ht]
    exact Nat.mod_eq_of_lt (by omega)
  have hres1 : t.res1 = BitVec.ofNat 64 (codesOf (es ++ [eof])).length := by rw [ht]
  have hmodels : t.models = s.models := by rw [ht]
  have hparams : t.params = s.params := by rw [ht]
  rw [← hres0] at hstream
  refine ⟨t, hexec, by rw [ht], fun outBase outCap houtBase houtCap hapart' => ?_⟩
  obtain ⟨u, hexec', hlast, hread, hlen, hbits⟩ :=
    exec_decode_of_codes (s := { t with op0 := s.op2, op1 := t.res0, op2 := outBase, op3 := outCap }) (hmodels ▸ hj)
      (hparams ▸ hm) (show s.op2.toNat + t.res0.toNat ≤ t.params.dmemSize by rw [hparams]; omega) (hparams ▸ houtBase)
      hapart' (show 8 * t.res0.toNat < 2 ^ 64 by omega) (greedyTokens_mem hes) heof hsym
      (show _ ≤ 8 * t.res0.toNat by omega) hstream hbytes ((length_readBytes _ _ _).trans_le houtCap)
  rw [length_readBytes] at hread hlen
  refine ⟨u, hexec', hlast, hread, ?_, hbits.trans hres1.symm⟩
  rw [hlen, BitVec.ofNat_toNat, BitVec.setWidth_eq]

end Sys2Proof.Machine

/-! PROOF. Host writes of CMD and the operand registers, host reads, and NOP (45_system.md R280 to R282): O6, O7,
O22. -/

namespace Sys2Proof.Machine

/-! ### CMD (R281) -/

/-- A word that decodes is executed as it is issued. -/
theorem issueCommand_of_ok {c : CmdWord} {i : Instr} (h : decode c = .ok i) (s : State) :
    issueCommand c s = exec i s := by
  rw [issueCommand, h]

/-- Settles O6: the write of CMD issues its low 32 bits in that step, and issuing goes by what they decode to. -/
theorem cmdWriteExecutesTheDecodedCommand : Obligations.CmdWriteExecutesTheDecodedCommand := by
  intro s v rest hhost hreset
  rw [step_of_cmdWrite hhost hreset]
  exact ⟨fun i hdec => issueCommand_of_ok hdec _, fun e hdec => issueCommand_of_error hdec _⟩

/-! ### Operand registers and reads (R282) -/

section
variable {s : State} {rest : List HostAction} {off : Nat}

/-- A host write the window has writes the register at its offset in that step. -/
theorem step_of_writeReg {v : Word} (hhost : s.host = .writeReg 8 off v :: rest) (hal : off % 8 = 0)
    (hlt : off < 256) : step s = writeReg off v { s with host := rest } :=
  (step_of_host hhost).trans (if_pos (regAccessOk_iff.mpr ⟨rfl, hal, hlt⟩))

/-- A host read the window has answers with the register at its offset and changes nothing else. -/
theorem step_of_readReg (hhost : s.host = .readReg 8 off :: rest) (hal : off % 8 = 0) (hlt : off < 256) :
    step s = .next { s with host := rest, saw := .word (s.readReg off) } :=
  (step_of_host hhost).trans (if_pos (regAccessOk_iff.mpr ⟨rfl, hal, hlt⟩))

end

/-- Settles O7: `step_of_writeReg` at the offset of each operand register, whose row of `writeReg` sets that register;
the read by `step_of_readReg`; CMD reads 0 by the map, the reserved offsets by `readReg_of_reserved`. -/
theorem operandWritesAndRegisterReads : Obligations.OperandWritesAndRegisterReads := by
  intro s v rest off
  refine ⟨fun hop0 => ?_, fun hop1 => ?_, fun hop2 => ?_, fun hop3 => ?_, step_of_readReg, rfl,
    fun hoff => readReg_of_reserved hoff s⟩
  · exact step_of_writeReg hop0 rfl (by decide)
  · exact step_of_writeReg hop1 rfl (by decide)
  · exact step_of_writeReg hop2 rfl (by decide)
  · exact step_of_writeReg hop3 rfl (by decide)

/-! ### NOP (R280) -/

/-- Settles O22: the word 0 decodes by computation, and NOP's effect is the state it was issued in, unchanged. -/
theorem nopOnlyClearsLastErr : Obligations.NopOnlyClearsLastErr :=
  ⟨rfl, fun s => exec_of_effectOf (i := .nop) (u := s) rfl⟩

end Sys2Proof.Machine

/-! PROOF. How a command ends and which slots it changes (60_exceptions.md R293, R294, R303; 20_memory.md R86), and units
and slots in the wrong state (60_exceptions.md R290 code 9, R291): O14, O19, O21. -/

namespace Sys2Proof.Machine

/-! ### The two ends of a command (R293, R294) -/

/-- A command that succeeds leaves FIRST_ERR, ERR_SEEN and ERR_INFO as they were. -/
theorem effectOf_keeps_errors {i : Instr} {s u : State} (h : effectOf i s = .ok u) :
    u.status.firstErr = s.status.firstErr ∧ u.status.errSeen = s.status.errSeen ∧ u.errInfo = s.errInfo := by
  have hframe := effectOf_frame h
  refine ⟨?_, ?_, ?_⟩
  · rw [hframe.status]
  · rw [hframe.status]
  · rw [hframe.fixed]

/-- Settles O14: a command's effect keeps the error fields (`effectOf_keeps_errors`), and an error is taken as
`State.afterError` says. -/
theorem everyCommandEndsWithItsEffectOrTheErrorAlone : Obligations.EveryCommandEndsWithItsEffectOrTheErrorAlone := by
  intro i s
  cases heffect : effectOf i s with
  | ok u =>
    have hkept := effectOf_keeps_errors heffect
    exact ⟨clearError u, exec_of_effectOf heffect, .inl ⟨rfl, hkept⟩⟩
  | error e => exact ⟨_, raises_of_effectOf heffect, .inr ⟨e.kind, toReg .errInfo e.info, rfl⟩⟩

/-! ### Slots (R303; 20_memory.md R86) -/

/-- Settles O19: a command that succeeds by its frame, one that fails because an error changes no slot. -/
theorem slotsChangeOnlyByCommandsThatNameThem : Obligations.SlotsChangeOnlyByCommandsThatNameThem := by
  intro i s t k h
  obtain ⟨u, hu, rfl⟩ | ⟨e, -, rfl⟩ := exec_eq_next h
  · exact ⟨(effectOf_frame hu).builder k, (effectOf_frame hu).model k⟩
  · exact ⟨fun _ => rfl, fun _ => rfl⟩

/-! ### The wrong state (R290 code 9, R291) -/

section WrongState
variable {s : State} {i : Instr} {opc : Nat}

/-- A command whose first check finds the wrong state raises StateError. -/
theorem raises_stateError_of_first {α : Type} {x : Except CmdError α} {body : α → Except CmdError State}
    (hi : effectOf i s = x >>= body) (hx : x = .error (wrongState opc)) (hopc : opc < 256) :
    Raises i s .stateError (BitVec.ofNat 64 opc) := by
  have herr : effectOf i s = .error (wrongState opc) := by rw [hi, hx, bind_error]
  rw [← toReg_of_lt .errInfo (hopc.trans (by decide))]
  exact raises_of_effectOf herr

theorem effectOf_wfinish_of_idle (hidle : s.writer.mode = .idle) : effectOf .wfinish s = .error (wrongState 0x03) := by
  show wfinishEffect s = _
  rw [wfinishEffect, hidle]

theorem freeModel_of_valid {j : Nat} {m : Model} (hj : s.models[j]? = some (some m)) (i : Instr) (opc : Nat) :
    s.freeModel i j opc = .error (wrongState opc) := by
  rw [State.freeModel, modelSlot_eq_ok.mpr hj]
  rfl

/-- BMERGE refuses two slots that are not both ACTIVE, and a slot merged into itself (42_context_builder.md R188). -/
theorem raises_bmerge_stateError {dst src : Nat} {d r : Builder} (hd : s.builders[dst]? = some d)
    (hr : s.builders[src]? = some r) (hwrong : ¬(d.mode = .active ∧ r.mode = .active ∧ dst ≠ src)) :
    Raises (.bmerge dst src) s .stateError 0x0D := by
  have herr : effectOf (.bmerge dst src) s = .error (wrongState 0x0D) := by
    show bmergeEffect dst src s = _
    rw [bmergeEffect, builderSlot_eq_ok.mpr hd, bind_ok, builderSlot_eq_ok.mpr hr, bind_ok, check_neg hwrong, bind_error]
  exact raises_of_effectOf herr

/-- BBUILD refuses a builder that is not ACTIVE, and an ACTIVE one for a model slot in use (43_huffman.md R220). -/
theorem raises_bbuild_stateError {k j : Nat} {bd : Builder} {old : Option Model} (hk : s.builders[k]? = some bd)
    (hj : s.models[j]? = some old) (hwrong : bd.mode = .active → old ≠ none) :
    Raises (.bbuild k j) s .stateError 0x0F := by
  have herr : effectOf (.bbuild k j) s = .error (wrongState 0x0F) := by
    show bbuildEffect k j s = _
    rw [bbuildEffect, builderSlot_eq_ok.mpr hk, bind_ok, modelSlot_eq_ok.mpr hj, bind_ok]
    by_cases hactive : bd.mode = .active
    · rw [check_pos hactive, bind_ok, check_neg (hwrong hactive), bind_error]
    · rw [check_neg hactive, bind_error]
  exact raises_of_effectOf herr

end WrongState

/-- Settles O21: the state is the first thing each command checks of an existing unit or slot. -/
theorem wrongStateRaisesStateError : Obligations.WrongStateRaisesStateError := by
  intro s
  have builderAt {x : Nat} (hx : x < 2) : s.builders[x]? = some s.builders[x] := Vector.getElem?_eq_getElem hx
  have modelAt {x : Nat} (hx : x < 2) : s.models[x]? = some s.models[x] := Vector.getElem?_eq_getElem hx
  refine ⟨fun hidle => ⟨raises_of_effectOf (effectOf_wfinish_of_idle hidle), fun w => ?_⟩, fun hclosed n => ?_,
    fun k bd hk hmode => ?_, fun k hk => ?_, fun j m hj => ?_, fun j hj => ?_⟩
  · have hwbits := check_neg (not_not.mpr hidle) (wrongState 0x02)
    exact raises_stateError_of_first rfl hwbits (by decide)
  · exact ⟨raises_stateError_of_closed (effectOf_rpeek s n) (by decide) hclosed,
      raises_stateError_of_closed (effectOf_rmatch s n) (by decide) hclosed,
      raises_stateError_of_closed (effectOf_radv s n) (by decide) hclosed⟩
  · have inactive := activeBuilder_of_inactive hk hmode
    exact ⟨raises_stateError_of_first rfl (inactive (.bscan k) 0x09) (by decide),
      raises_stateError_of_first rfl (inactive (.bline k) 0x0A) (by decide),
      raises_stateError_of_first rfl (inactive (.bscanln k) 0x0B) (by decide),
      raises_stateError_of_first rfl (inactive (.bscanbuf k) 0x0C) (by decide),
      fun x hx => ⟨raises_bmerge_stateError hk (builderAt hx) fun ⟨hdst, _⟩ => hmode hdst,
        raises_bmerge_stateError (builderAt hx) hk fun ⟨_, hsrc, _⟩ => hmode hsrc,
        raises_bbuild_stateError hk (modelAt hx) fun hactive => absurd hactive hmode⟩⟩
  · exact raises_bmerge_stateError (builderAt hk) (builderAt hk) fun ⟨_, _, hne⟩ => hne rfl
  · exact ⟨raises_stateError_of_first rfl (freeModel_of_valid hj (.hbuild j) 0x10) (by decide),
      fun k hk => raises_bbuild_stateError (builderAt hk) hj fun _ => Option.some_ne_none m⟩
  · have invalid := validModel_of_invalid hj
    exact ⟨raises_stateError_of_first rfl (invalid (.encode j) 0x11) (by decide),
      raises_stateError_of_first rfl (invalid (.decode j) 0x12) (by decide),
      raises_stateError_of_first rfl (invalid (.minfo j) 0x13) (by decide),
      raises_stateError_of_first rfl (invalid (.mentry j) 0x14) (by decide),
      raises_stateError_of_first rfl (invalid (.mlookup j) 0x15) (by decide)⟩

end Sys2Proof.Machine

/-! PROOF. Reset (70_reset_and_hazards.md R320 to R322): what the host's reset actions and waiting do, what release
leaves, and that it meets the invariant: O11 to O13. -/

namespace Sys2Proof.Machine

/-! ### Waiting and the host's reset actions (R320) -/

/-- With no host action left the machine waits. -/
theorem step_of_no_host {s : State} (hhost : s.host = []) : step s = .next s := by
  rw [step, hhost]

section
variable {s : State} {rest : List HostAction}

theorem step_of_assertReset (hhost : s.host = .assertReset :: rest) :
    step s = .next { s with host := rest, inReset := true } :=
  step_of_host hhost

/-- Releasing an asserted reset resets the machine, the host's later actions staying. -/
theorem step_of_releaseReset (hhost : s.host = .releaseReset :: rest) (hreset : s.inReset = true) :
    step s = .next (s.withHost rest).release :=
  (step_of_host hhost).trans (if_pos hreset)

/-- A write of CMD while reset is asserted is lost. -/
theorem step_of_cmdWrite_in_reset {v : Word} (hhost : s.host = .writeReg 8 0x00 v :: rest)
    (hreset : s.inReset = true) : step s = .next { s with host := rest } :=
  (step_of_writeReg hhost rfl (by decide)).trans (if_pos hreset)

end

/-- Settles O12, each clause by the lemma of that action or of waiting. -/
theorem nothingExecutesInResetOrWithoutTheHost : Obligations.NothingExecutesInResetOrWithoutTheHost :=
  fun _ _ _ => ⟨step_of_assertReset, fun hreset hhost => step_of_cmdWrite_in_reset hhost hreset, step_of_no_host⟩

/-! ### What release leaves (R321, R322) -/

theorem reset_status_word : Status.reset.word = 0 := rfl

/-- W_STATUS shows an IDLE writer with W_FREE = 64 (log 16). -/
theorem reset_writer_statusWord : Writer.reset.statusWord = 0x4000 := rfl

theorem toReg_reset_writer_total : toReg .writerTotal Writer.reset.total = 0 := rfl

section
variable (s : State)

theorem release_builders_getElem? {k : Nat} (hk : k < 2) : s.release.builders[k]? = some Builder.reset :=
  Vector.getElem?_replicate_of_lt hk

theorem release_models_getElem? {j : Nat} (hj : j < 2) : s.release.models[j]? = some none :=
  Vector.getElem?_replicate_of_lt hj

/-- No byte of DMEM is a written one after release: each is that of the next draw. -/
theorem release_readByte (a : Nat) : s.release.readByte a = Config.powerUpByte (s.draw + 1) a := rfl

end

/-- Settles O11: the step ends in `State.release`, whose fields are those of `State.resetWith`; the registers that show
several fields, the slots and DMEM by the lemmas above. -/
theorem releaseOfResetLeavesTheResetValues : Obligations.ReleaseOfResetLeavesTheResetValues := by
  intro s rest hreset hhost
  exact ⟨(s.withHost rest).release, step_of_releaseReset hhost hreset, rfl, rfl, rfl, rfl, rfl, rfl, rfl, rfl, rfl,
    reset_status_word, rfl, rfl, rfl, reset_writer_statusWord, toReg_reset_writer_total, rfl,
    fun _ => release_builders_getElem? _, fun _ => release_models_getElem? _, release_readByte _⟩

/-! ### The invariant after reset -/

/-- DMEM holds no written byte after reset. -/
theorem resetWith_dmemOk (p : Params) (draw : Nat) : (State.resetWith p draw).DmemOk :=
  ⟨rfl, List.forall_mem_nil _⟩

/-- Settles O13: each unit after reset meets its part of the invariant. -/
theorem resetStateMeetsTheInvariant : Obligations.ResetStateMeetsTheInvariant := fun p draw hlegal =>
  ⟨hlegal, reset_statusOk, resetWith_dmemOk p draw, reset_writerOk p.dmemSize, reset_readerOk p.dmemSize,
    resetWith_buildersOk p draw, resetWith_modelsOk p draw⟩

end Sys2Proof.Machine
